-- ==== Sys2Proof/Word.lean ====
section
/-! DEFINITION. The one word type of the part: the byte that a tenant port or the fixture link carries (R174, R175, R180). -/

namespace Sys2Proof

/-- A byte on a line (u8 of R174). -/
abbrev Byte := BitVec 8

/-- The 8-bit sum that both frame checks use (R175, R180). -/
def byteSum (bs : List Byte) : Byte := bs.foldl (· + ·) 0

end Sys2Proof
end

