-- ==== Sys2Proof/Syntax.lean ====
section
/-! DEFINITION. The commands of the part: one constructor of `Instr` for each row of spec/opcode_table.json.

A command is either an event that comes to the part from outside or from its clock (a conversion, a tick, a timer expiry,
an input change, bytes on a receive line), or the arrival of one whole request frame at a tenant port. A request carries
its port and its payload as the bytes of Table 11-3, because the length check of R162 and R176 is part of taking it. -/

namespace Sys2Proof

/-- The three tenant ports of Table 0-3. -/
inductive Port where
  | portP  -- P, the ice plant controller
  | portB  -- B, the building controller
  | portL  -- L, the event lighting console
deriving DecidableEq, Repr

/-- One character on a port's line (section 10.1): its eight data bits, of which bit 0 comes first, and its parity bit and stop
bit as they come; true is high. -/
structure RxByte where
  value  : Byte
  parity : Bool
  stop   : Bool
deriving DecidableEq, Repr

/-- The two rate straps of one port (Table 0-4). -/
structure Strap where
  rate1 : Bool
  rate0 : Bool
deriving DecidableEq, Repr

/-- The rate straps of the three ports, as they are at the release of RESET (R157). -/
structure Straps where
  p : Strap
  b : Strap
  l : Strap
deriving DecidableEq, Repr

/-- The commands. The comment of each names its row and the rule that the row names. -/
inductive Instr where
  /-- POWER_ON_RESET (R157): the straps and the levels of the digital inputs as they stand at the release; bit v of
  `drvfault` and of `endstop` is the input of positioner v, set when the input is active. -/
  | powerOnReset (straps : Straps) (drvfault endstop : BitVec 8) (boilerProven : Bool)
  /-- PROBE_CONVERSION (R1): the next channel in scan order is converted; `raw` is what its input presents, before the
  converter's limits. -/
  | probeConversion (raw : Int)
  /-- DEVICE_SECOND_TICK (R168). -/
  | deviceSecondTick
  /-- OVERRIDE_EXPIRY (R14) of one probe. -/
  | overrideExpiry (probe : Fin 32)
  /-- RESURFACE_TIMER_EXPIRY (R22). -/
  | resurfaceTimerExpiry
  /-- PLANT_STALE (R29). -/
  | plantStale
  /-- BLIND_HOLD_END (R49). -/
  | blindHoldEnd
  /-- LOOP_FAIL (R75). -/
  | loopFail
  /-- LOOP_RESTORED (R76). -/
  | loopRestored
  /-- LOOP_PROVED (R86) of one zone. -/
  | loopProved (zone : Fin 4)
  /-- SWITCH_TIMEOUT (R87) of one zone. -/
  | switchTimeout (zone : Fin 4)
  /-- BOILER_PROVEN_ACTIVE (R87): the input has changed to `level`; true is the row's event. -/
  | boilerProvenActive (level : Bool)
  /-- ALLOCATION_ROUND (R65). -/
  | allocationRound
  /-- POSITIONER_STEP (R99): the step timer of a travelling positioner expires. -/
  | positionerStep (v : Fin 8)
  /-- TRAVEL_END (R99). -/
  | travelEnd (v : Fin 8)
  /-- HOMING_STEP (R103): the step timer of a homing positioner expires. -/
  | homingStep (v : Fin 8)
  /-- HOME_FAIL (R103). -/
  | homeFail (v : Fin 8)
  /-- ENDSTOP_ACTIVE (R105): the ENDSTOP input of a positioner has changed to `level`; true is the row's event. -/
  | endstopActive (v : Fin 8) (level : Bool)
  /-- DRVFAULT_ACTIVE (R106): the DRVFAULT input of a positioner has changed to `level`; true is the row's event. -/
  | drvfaultActive (v : Fin 8) (level : Bool)
  /-- DELAY_END (R145) of one fade slot. -/
  | delayEnd (slot : Fin 8)
  /-- HOLD_EXPIRY (R124) of one fade slot. -/
  | holdExpiry (slot : Fin 8)
  /-- FADE_STEP (R148) of one fade slot. -/
  | fadeStep (slot : Fin 8)
  /-- CUE_DONE (R149) of one fade slot. -/
  | cueDone (slot : Fin 8)
  /-- FILL_TIMEOUT (R137) of one entry of the cue store. -/
  | fillTimeout (line : Fin 64) (way : Fin 2)
  /-- FRAME_START (R155) of the fixture link. -/
  | frameStart
  /-- INTER_BYTE_GAP (R159): these bytes, the beginning of a frame or none, come to the port, and then more than 5 ms pass. -/
  | interByteGap (port : Port) (bytes : List RxByte)
  /-- LINK_ERROR (R159): these bytes come to the port. -/
  | linkError (port : Port) (bytes : List RxByte)
  /-- OUT_OF_TURN_FRAME (R160): these bytes come to the port, an early frame or any part of it. -/
  | outOfTurnFrame (port : Port) (bytes : List RxByte)
  /-- BREAK (R161): the port's RX line has been low for two character times. -/
  | breakLine (port : Port)
  /-- RESULT_SENT (R163): the last byte of the result frame has left TX. -/
  | resultSent (port : Port)
  /-- UNKNOWN_REQUEST (R162): a whole sound frame comes to the port, with this request code and payload. -/
  | unknownRequest (port : Port) (code : Byte) (payload : List Byte)
  /-- STATUS, code 01h (R168); no payload. Every request below is a whole sound frame at its port. -/
  | status (port : Port) (payload : List Byte)
  /-- COLLECT, code 02h (R166); no payload. -/
  | collect (port : Port) (payload : List Byte)
  /-- READ, code 03h (R169): view, page. -/
  | read (port : Port) (payload : List Byte)
  /-- AUTH_SET, code 04h (R171): domain, port set. -/
  | authSet (port : Port) (payload : List Byte)
  /-- AUTH_LOCK, code 05h (R172): domain. -/
  | authLock (port : Port) (payload : List Byte)
  /-- CALIBRATE_SHORT, code 06h (R11); no payload. -/
  | calibrateShort (port : Port) (payload : List Byte)
  /-- PROBE_OVERRIDE, code 07h (R12): probe, value s16, duration u16. -/
  | probeOverride (port : Port) (payload : List Byte)
  /-- PROBE_RELEASE, code 08h (R15): probe. -/
  | probeRelease (port : Port) (payload : List Byte)
  /-- SURFACE_MODE, code 09h (R18): mode. -/
  | surfaceMode (port : Port) (payload : List Byte)
  /-- LOAD_PROFILE, code 0Ah (R25): kind, profile record of R178. -/
  | loadProfile (port : Port) (payload : List Byte)
  /-- PLANT_REPORT, code 0Bh (R28): Q_rec u16, H_ice u16. -/
  | plantReport (port : Port) (payload : List Byte)
  /-- SLAB_SCAN, code 0Ch (R35): start, end, step, condition, reference s16. -/
  | slabScan (port : Port) (payload : List Byte)
  /-- RESURF_PREHEAT, code 0Dh (R62): off or on. -/
  | resurfPreheat (port : Port) (payload : List Byte)
  /-- CLAIM_MANUAL, code 0Eh (R63): consumer, request u16, minimum u16. -/
  | claimManual (port : Port) (payload : List Byte)
  /-- CLAIM_AUTO, code 0Fh (R64): consumer. -/
  | claimAuto (port : Port) (payload : List Byte)
  /-- ZONE_SET, code 10h (R82): zone, occupied s16, setback s16, occupancy. -/
  | zoneSet (port : Port) (payload : List Byte)
  /-- ZONE_SOURCE, code 11h (R84): zone, source. -/
  | zoneSource (port : Port) (payload : List Byte)
  /-- ZONE_LOCK, code 12h (R83): zone, off or on. -/
  | zoneLock (port : Port) (payload : List Byte)
  /-- MOVE, code 13h (R100): positioner, target u16. -/
  | move (port : Port) (payload : List Byte)
  /-- HOME, code 14h (R102): positioner. -/
  | home (port : Port) (payload : List Byte)
  /-- POS_MODE, code 15h (R109): positioner, mode. -/
  | posMode (port : Port) (payload : List Byte)
  /-- GO, code 16h (R133): cue u16. -/
  | go (port : Port) (payload : List Byte)
  /-- CUE_WRITE, code 17h (R129): Table 11-6. -/
  | cueWrite (port : Port) (payload : List Byte)
  /-- CUE_INVALIDATE, code 18h (R139): scope, index u16. -/
  | cueInvalidate (port : Port) (payload : List Byte)
  /-- CUE_PROBE, code 19h (R140): cue u16. -/
  | cueProbe (port : Port) (payload : List Byte)
  /-- RELEASE, code 1Ah (R152): scope, index u16. -/
  | release (port : Port) (payload : List Byte)
  /-- DISCARD_GAP (R160): more than 5 ms pass while an out-of-turn frame is being dropped. -/
  | discardGap (port : Port)
  /-- RX_RETURNED_HIGH (R161): the port's RX line returns high after a break. -/
  | rxReturnedHigh (port : Port)
deriving DecidableEq, Repr

end Sys2Proof
end

