-- ==== Sys2Proof/Decode.lean ====
section
/-! DEFINITION. Bytes and frames: the field widths of R174, the frames of Table 11-2, and the payloads of Tables 11-3 and
11-6 written out byte by byte. No row of spec/opcode_table.json gives bits, so no word spells a command. -/

namespace Sys2Proof

/-- The command that a word spells by the table's bits: none, because no row of the table gives bits. -/
def decodeTableWord (_nbits _w : Nat) : Option Instr := none

/-! ### Field widths (R174): most significant byte first -/

/-- The one byte of a u8 field. -/
def encU8 (n : Nat) : List Byte := [BitVec.ofNat 8 n]

/-- The two bytes of a u16 field. -/
def encU16 (n : Nat) : List Byte := [BitVec.ofNat 8 (n / 256), BitVec.ofNat 8 n]

/-- The four bytes of a u32 field. -/
def encU32 (n : Nat) : List Byte :=
  [BitVec.ofNat 8 (n / 16777216), BitVec.ofNat 8 (n / 65536), BitVec.ofNat 8 (n / 256), BitVec.ofNat 8 n]

/-- The two bytes of an s16 field, two's complement. -/
def encS16 (i : Int) : List Byte := encU16 (BitVec.ofInt 16 i).toNat

/-- The four bytes of an s32 field, two's complement. -/
def encS32 (i : Int) : List Byte := encU32 (BitVec.ofInt 32 i).toNat

/-- The byte at index `k` of a payload, as a number; 0 past its end. -/
def readU8 (bs : List Byte) (k : Nat) : Nat := (bs.getD k 0).toNat

/-- The u16 field that begins at index `k`. -/
def readU16 (bs : List Byte) (k : Nat) : Nat := readU8 bs k * 256 + readU8 bs (k + 1)

/-- The s16 field that begins at index `k`. -/
def readS16 (bs : List Byte) (k : Nat) : Int :=
  if readU16 bs k < 32768 then (readU16 bs k : Int) else (readU16 bs k : Int) - 65536

/-! ### Frames (Table 11-2, R175) -/

/-- The start byte of a request and of a result frame. -/
def frameStartByte : Byte := 0xC3#8

/-- The check byte that makes the 8-bit sum of `body` and itself 0. -/
def checkByte (body : List Byte) : Byte := - byteSum body

/-- Start byte, length byte, `body` and check; the length byte counts itself, the body and the check. -/
def sealFrame (body : List Byte) : List Byte :=
  let counted := BitVec.ofNat 8 (body.length + 2) :: body
  frameStartByte :: (counted ++ [checkByte counted])

/-- A request frame: the length byte is the payload's bytes + 3. -/
def requestFrame (code : Byte) (payload : List Byte) : List Byte := sealFrame (code :: payload)

/-- A result frame: the length byte is the payload's bytes + 5. -/
def resultFrame (code result flags : Byte) (payload : List Byte) : List Byte :=
  sealFrame (code :: result :: flags :: payload)

/-! ### Characters on a line (section 10.1, R157, R180) -/

/-- The eight data bits of a byte in the order in which a line carries them, least significant first. -/
def dataBits (b : Byte) : List Bool := (List.range 8).map b.getLsbD

/-- The even parity bit of a byte: set when an odd number of its bits is set. -/
def evenParity (b : Byte) : Bool := (dataBits b).foldl Bool.xor false

/-- A character with a wrong parity bit is marked as a parity error (R157). -/
def RxByte.parityError (b : RxByte) : Bool := b.parity != evenParity b.value

/-- A character of which the stop bit is low is marked as a framing error (R157). -/
def RxByte.framingError (b : RxByte) : Bool := !b.stop

/-- The byte has a parity or a framing error. -/
def RxByte.bad (b : RxByte) : Bool := b.parityError || b.framingError

/-- The byte is a C3h received without error, which begins a frame (R158, R160). -/
def RxByte.startsFrame (b : RxByte) : Bool := b.value == frameStartByte && !b.bad

/-- The byte is a length byte received without error that lies in 3..250 (R158, R160). -/
def RxByte.goodLength (b : RxByte) : Bool := !b.bad && 3 ≤ b.value.toNat && b.value.toNat ≤ 250

/-- The eleven bit times of a character on a port's line: the start bit, which is low, the data bits, the parity bit and the stop
bit. -/
def RxByte.bits (b : RxByte) : List Bool := false :: (dataBits b.value ++ [b.parity, b.stop])

/-- A byte as a port transmits it in every case: with correct parity and a stop bit (R157). -/
def soundByte (b : Byte) : RxByte := ⟨b, evenParity b, true⟩

/-- Bytes that come over the line without error. -/
def soundBytes (bs : List Byte) : List RxByte := bs.map soundByte

/-- The ten bit times of a byte on the fixture link: start bit, data bits and one stop bit, with no parity (R180). -/
def fixtureBits (b : Byte) : List Bool := false :: (dataBits b ++ [true])

/-! ### Payloads of the requests (Table 11-3), for writing commands down -/

/-- READ. -/
def payloadRead (view page : Nat) : List Byte := encU8 view ++ encU8 page
/-- AUTH_SET; the port set is the mask of R174. -/
def payloadAuthSet (domain mask : Nat) : List Byte := encU8 domain ++ encU8 mask
/-- AUTH_LOCK. -/
def payloadAuthLock (domain : Nat) : List Byte := encU8 domain
/-- PROBE_OVERRIDE. -/
def payloadProbeOverride (probe : Nat) (value : Int) (duration : Nat) : List Byte :=
  encU8 probe ++ encS16 value ++ encU16 duration
/-- PROBE_RELEASE. -/
def payloadProbeRelease (probe : Nat) : List Byte := encU8 probe
/-- SURFACE_MODE. -/
def payloadSurfaceMode (mode : Nat) : List Byte := encU8 mode
/-- PLANT_REPORT. -/
def payloadPlantReport (qRec hIce : Nat) : List Byte := encU16 qRec ++ encU16 hIce
/-- SLAB_SCAN. -/
def payloadSlabScan (first last step condition : Nat) (reference : Int) : List Byte :=
  encU8 first ++ encU8 last ++ encU8 step ++ encU8 condition ++ encS16 reference
/-- RESURF_PREHEAT. -/
def payloadResurfPreheat (on : Nat) : List Byte := encU8 on
/-- CLAIM_MANUAL. -/
def payloadClaimManual (consumer request minimum : Nat) : List Byte :=
  encU8 consumer ++ encU16 request ++ encU16 minimum
/-- CLAIM_AUTO. -/
def payloadClaimAuto (consumer : Nat) : List Byte := encU8 consumer
/-- ZONE_SET. -/
def payloadZoneSet (zone : Nat) (occupied setback : Int) (occupancy : Nat) : List Byte :=
  encU8 zone ++ encS16 occupied ++ encS16 setback ++ encU8 occupancy
/-- ZONE_SOURCE. -/
def payloadZoneSource (zone source : Nat) : List Byte := encU8 zone ++ encU8 source
/-- ZONE_LOCK. -/
def payloadZoneLock (zone on : Nat) : List Byte := encU8 zone ++ encU8 on
/-- MOVE. -/
def payloadMove (v target : Nat) : List Byte := encU8 v ++ encU16 target
/-- HOME. -/
def payloadHome (v : Nat) : List Byte := encU8 v
/-- POS_MODE. -/
def payloadPosMode (v mode : Nat) : List Byte := encU8 v ++ encU8 mode
/-- GO, and CUE_PROBE. -/
def payloadCue (cue : Nat) : List Byte := encU16 cue
/-- CUE_INVALIDATE, and RELEASE. -/
def payloadScoped (scope index : Nat) : List Byte := encU8 scope ++ encU16 index

end Sys2Proof
end

