-- ==== Sys2Proof/Config.lean ====
section
/-! DEFINITION. What the manual leaves open as a value, and the constants that several blocks share. -/

namespace Sys2Proof.Config

/-- FREE VALUE (log entry 5). R98 says that a positioner takes a free travel slot when one is free, and not which: the slot
is this choice among the free ones, applied to the model's own counter of open choices. No body: nothing can be proved of it. -/
opaque travelSlotPick : Nat → Nat

/-- Records that a port's completion queue holds at most (R164). -/
def queueCapacity : Nat := 8

/-- The saturation pressure table E, in Pa, at -20 °C to +40 °C in steps of 5 °C (Table 3-3). -/
def saturationTable : List Nat := [126, 192, 287, 422, 611, 872, 1226, 1702, 2333, 3160, 4234, 5613, 7368]

end Sys2Proof.Config
end

