-- ==== Sys2Proof/Machine/State.lean ====
section
/-! DEFINITION. The state of the part as plain data: every item that the chapters' state tables name, block by block, with
its value after power-on reset. A comment names the table; INVENTORY.md lists each item with its rule and reset value. -/

namespace Sys2Proof.Machine

/-! ### Chapter 1: the probe scanner -/

/-- Quality of a probe record (Table 1-3). -/
inductive Quality where
  | noReading  -- NONE
  | good
  | spike
  | opened     -- OPEN
  | shorted    -- SHORT
  | override
deriving DecidableEq, Repr

/-- A value set by PROBE_OVERRIDE; 0 seconds remaining means no expiry (Table 1-2). -/
structure Override where
  value     : Int
  remaining : Nat
deriving DecidableEq, Repr

/-- One channel: its working record, and the published copy of value and quality (Table 1-2, R3). The spike run and the override
are held once (log entry 16). -/
structure Probe where
  value      : Int
  quality    : Quality
  spikeRun   : Nat
  override   : Option Override
  pubValue   : Int
  pubQuality : Quality
deriving DecidableEq, Repr

/-- The probe scanner (Table 1-9); `channel` is the one that the next conversion takes (R1). -/
structure Scanner where
  probes       : Vector Probe 32
  channel      : Fin 32
  passNumber   : BitVec 32
  offset       : Int
  longCal      : Bool
  calCount     : Nat
  calSum       : Int
  shortPending : Bool
deriving DecidableEq, Repr

/-- A probe record after power-on reset (Table 1-2). -/
def Probe.reset : Probe := ⟨0, .noReading, 0, none, 0, .noReading⟩

/-- The scanner after power-on reset (Table 1-9). -/
def Scanner.reset : Scanner :=
  { probes := Vector.replicate 32 Probe.reset, channel := 0, passNumber := 0, offset := 0, longCal := true,
    calCount := 0, calSum := 0, shortPending := false }

/-! ### Chapter 2: the surface controller and the profiles -/

/-- The surface modes. -/
inductive Mode where
  | start | hold | prep | play | resurface | covered
deriving DecidableEq, Repr

/-- The plant report as stored (Table 2-1). -/
structure PlantReport where
  qRec : Nat
  hIce : Nat
deriving DecidableEq, Repr

/-- The slab statistics (R31). -/
structure SlabStats where
  n       : Nat
  mean    : Int
  min     : Int
  max     : Int
  maxCell : Nat
deriving DecidableEq, Repr

/-- The surface controller (Table 2-1). -/
structure Surface where
  mode           : Mode
  dwell          : Nat
  resurfaceTimer : Option Nat
  plantValid     : Bool
  buildingValid  : Bool
  lightingValid  : Bool
  calComplete    : Bool
  report         : Option PlantReport
  reportAge      : Nat
  plantStale     : Bool
  stats          : Option SlabStats
  slabBlind      : Bool
  ready          : Bool
  inBand         : Nat
  softIce        : Bool
  aboveRun       : Nat
  belowRun       : Nat
deriving DecidableEq, Repr

/-- The surface controller after power-on reset (R17). -/
def Surface.reset : Surface :=
  { mode := .start, dwell := 65535, resurfaceTimer := none, plantValid := false, buildingValid := false,
    lightingValid := false, calComplete := false, report := none, reportAge := 0, plantStale := false, stats := none,
    slabBlind := true, ready := false, inBand := 0, softIce := false, aboveRun := 0, belowRun := 0 }

/-- The plant profile (R178; Tables 2-5, 4-4, 6-4, 7-2). The step intervals are in units of 5 ms. -/
structure PlantProfile where
  bandLow        : Int
  bandHigh       : Int
  softThreshold  : Int
  resurfaceMax   : Nat
  marginHold     : Nat
  marginPrep     : Nat
  marginPlay     : Nat
  marginResurf   : Nat
  marginCovered  : Nat
  softDerate     : Nat
  cover          : Nat
  spillShare     : Nat
  subsoilSet     : Int
  subsoilKW      : Nat
  resurfKW       : Nat
  dischargeLimit : Nat
  tankUsable     : Int
  tankKW         : Nat
  step0          : Nat
  step1          : Nat
  step3          : Nat
deriving DecidableEq, Repr

/-- The building profile's fields of one zone (Table 5-2). -/
structure ZoneProfile where
  gain      : Nat
  max       : Nat
  min       : Nat
  spill     : Nat
  minSupply : Int
deriving DecidableEq, Repr

/-- The building profile (R178; Tables 3-2, 4-4, 5-2, 6-4). -/
structure BuildingProfile where
  watchIn           : Nat
  actIn             : Nat
  severeIn          : Nat
  h                 : Nat
  resurfBias        : Nat
  regenMin          : Nat
  regenWatch        : Nat
  regenAct          : Nat
  regenMax          : Nat
  backupEnable      : Bool
  loopFailThreshold : Int
  step2             : Nat
  step4             : Nat
  step5             : Nat
  step6             : Nat
  step7             : Nat
  zones             : Vector ZoneProfile 4
deriving DecidableEq, Repr

/-- DESIGN CHOICE (log entry 3): the manual gives no value to a profile that has not been loaded; each field stands at the
value of its range nearest to 0, and no rule reads it before its kind is valid. -/
def PlantProfile.reset : PlantProfile :=
  { bandLow := 0, bandHigh := 0, softThreshold := 0, resurfaceMax := 5, marginHold := 0, marginPrep := 0, marginPlay := 0,
    marginResurf := 0, marginCovered := 0, softDerate := 0, cover := 0, spillShare := 0, subsoilSet := 0, subsoilKW := 0,
    resurfKW := 0, dischargeLimit := 0, tankUsable := 0, tankKW := 1, step0 := 1, step1 := 1, step3 := 1 }

/-- DESIGN CHOICE (log entry 3), as for the plant profile. -/
def BuildingProfile.reset : BuildingProfile :=
  { watchIn := 0, actIn := 0, severeIn := 0, h := 5, resurfBias := 0, regenMin := 0, regenWatch := 0, regenAct := 0,
    regenMax := 0, backupEnable := false, loopFailThreshold := 0, step2 := 1, step4 := 1, step5 := 1, step6 := 1,
    step7 := 1, zones := Vector.replicate 4 ⟨1, 0, 0, 0, 250⟩ }

/-! ### Chapter 3: the fog unit -/

/-- The fog states (Table 3-6). -/
inductive FogState where
  | blind | clear | watch | act | severe
deriving DecidableEq, Repr

/-- The dew point record (R39, R41). -/
structure DewRecord where
  t     : Int
  rh    : Int
  es    : Int
  e     : Int
  td    : Int
  fresh : Bool
deriving DecidableEq, Repr

/-- The fog unit (Table 3-1). -/
structure Fog where
  state       : FogState
  dwell       : Nat
  held        : Option FogState
  holdTimer   : Option Nat
  dew         : Option DewRecord
  layer       : Option Int
  roof        : Option Int
  margin      : Option Int
  watchEff    : Nat
  actEff      : Nat
  severeEff   : Nat
  request     : Nat
  fanStage    : Nat
  backup      : Bool
  zeroRun     : Nat
  adequateRun : Nat
  lastGrant   : Nat
  wheel       : Bool
deriving DecidableEq, Repr

/-- The fog unit after power-on reset (R37). -/
def Fog.reset : Fog :=
  { state := .blind, dwell := 0, held := none, holdTimer := none, dew := none, layer := none, roof := none, margin := none,
    watchEff := 0, actEff := 0, severeEff := 0, request := 0, fanStage := 0, backup := false, zeroRun := 0,
    adequateRun := 0, lastGrant := 0, wheel := false }

/-! ### Chapter 4: the heat pool -/

/-- Origin of a claim (Table 4-2). -/
inductive Origin where
  | auto
  | manual (port : Port)
deriving DecidableEq, Repr

/-- A claim record (Table 4-2). Its consumer is its index, its tier follows from the index. -/
structure Claim where
  request       : Nat
  minimum       : Nat
  grant         : Nat
  origin        : Origin
  manualRequest : Nat
  manualMinimum : Nat
  shortCount    : Nat
deriving DecidableEq, Repr

/-- The heat pool (Tables 4-2 and 4-3); the delivered heat of each zone stands in the zone's record. -/
structure Pool where
  claims        : Vector Claim 8
  roundTimer    : Option Nat
  roundCount    : BitVec 32
  subsoilDemand : Bool
  preheat       : Bool
  qAvail        : Nat
  allowance     : Nat
  rAll          : Nat
  drawn         : Nat
  charge        : Nat
  discharging   : Bool
  spillBudget   : Nat
  roundSpill    : Nat
  loopFail      : Bool
  unusableRun   : Nat
  lowRun        : Nat
  restoreRun    : Nat
deriving DecidableEq, Repr

/-- The heat pool after power-on reset (R58). -/
def Pool.reset : Pool :=
  { claims := Vector.replicate 8 ⟨0, 0, 0, .auto, 0, 0, 0⟩, roundTimer := none, roundCount := 0, subsoilDemand := false,
    preheat := false, qAvail := 0, allowance := 0, rAll := 0, drawn := 0, charge := 0, discharging := false,
    spillBudget := 0, roundSpill := 0, loopFail := false, unusableRun := 0, lowRun := 0, restoreRun := 0 }

/-! ### Chapter 5: the spectator heating zones -/

/-- A zone's source (Table 5-1). -/
inductive Source where
  | off | recovered | boiler
deriving DecidableEq, Repr

/-- The switch state with its proving timer: the loop run in PROVING_LOOP, the seconds left in PROVING_BOILER. The requested
source follows from it (Table 5-1). -/
inductive Switch where
  | steady
  | provingLoop (run : Nat)
  | provingBoiler (left : Nat)
deriving DecidableEq, Repr

/-- A zone record (Table 5-1). -/
structure Zone where
  occupiedSet   : Int
  setbackSet    : Int
  occupied      : Bool
  request       : Nat
  source        : Source
  switch        : Switch
  port          : Option Port
  locked        : Bool
  fallback      : Bool
  starved       : Nat
  surplus       : Nat
  delivered     : Nat
deriving DecidableEq, Repr

/-- A zone record after power-on reset (R79). -/
def Zone.reset : Zone :=
  { occupiedSet := 200, setbackSet := 150, occupied := false, request := 0, source := .off, switch := .steady, port := none,
    locked := false, fallback := false, starved := 0, surplus := 0, delivered := 0 }

/-! ### Chapter 6: the positioners -/

/-- Positioner states (Table 6-3). -/
inductive PosState where
  | unhomed | homing | idle | waiting | travel | fault
deriving DecidableEq, Repr

/-- What a positioner in the travel queue will do. -/
inductive Intent where
  | move | home
deriving DecidableEq, Repr

/-- Why a positioner is in FAULT. -/
inductive FaultCause where
  | homeFail | slip | driver
deriving DecidableEq, Repr

/-- A positioner record (Table 6-2), with its step timer in ms, the levels of its two inputs (true: active), its DIR output
(true: toward the open end), and the model's own count of STEP pulses issued since reset (log entry 7). -/
structure Positioner where
  state       : PosState
  position    : Option Nat
  target      : Nat
  manual      : Bool
  port        : Option Port
  intent      : Option Intent
  cause       : Option FaultCause
  homingCount : Nat
  retarget    : Bool
  stepTimer   : Option Nat
  dirOpen     : Bool
  pulses      : Nat
  endstop     : Bool
  drvfault    : Bool
deriving DecidableEq, Repr

/-- A positioner after power-on reset (R96), with its inputs inactive (log entry 4). -/
def Positioner.reset : Positioner :=
  { state := .unhomed, position := none, target := 0, manual := false, port := none, intent := none, cause := none,
    homingCount := 0, retarget := false, stepTimer := none, dirOpen := false, pulses := 0, endstop := false,
    drvfault := false }

/-- The positioner unit: the eight positioners V0..V7, the travel slots that are held, each with its holder, and the travel
queue, head first (section 6.3). -/
structure Positioners where
  records : Vector Positioner 8
  holders : List (Fin 4 × Fin 8)
  queue   : List (Fin 8)
deriving DecidableEq, Repr

/-! ### Chapter 7: the ice load governor -/

/-- Kind of an evaluation (R117). -/
inductive EvalKind where
  | roundEnd | ordinary
deriving DecidableEq, Repr

/-- The ice load governor (Table 7-1). -/
structure Governor where
  ceiling      : Nat
  hIceUsed     : Nat
  marginUsed   : Nat
  derateUsed   : Nat
  lSpill       : Nat
  lUntrim      : Nat
  lTrim        : Nat
  coverApplied : Bool
  avail        : Int
  fStar        : Nat
  f            : Nat
  iceOverload  : Bool
  queue        : List (Fin 8)
  evalCount    : BitVec 32
  lastEval     : Option EvalKind
deriving DecidableEq, Repr

/-- The governor after power-on reset (R113). -/
def Governor.reset : Governor :=
  { ceiling := 0, hIceUsed := 0, marginUsed := 0, derateUsed := 0, lSpill := 0, lUntrim := 0, lTrim := 0,
    coverApplied := false, avail := 0, fStar := 256, f := 256, iceOverload := false, queue := [], evalCount := 0,
    lastEval := none }

/-! ### Chapter 8: the cue store -/

/-- Cue classes. -/
inductive CueClass where
  | workCue | houseCue | showCue
deriving DecidableEq, Repr

/-- Trim policies (section 7.5). -/
inductive TrimPolicy where
  | hold | trim
deriving DecidableEq, Repr

/-- Sweep orders. -/
inductive SweepOrder where
  | rotate | mirror
deriving DecidableEq, Repr

/-- Sweep lengths. -/
inductive SweepLength where
  | full | half
deriving DecidableEq, Repr

/-- A sweep (Table 8-2); the member step is in tenths of a second. -/
structure Sweep where
  group      : Nat
  order      : SweepOrder
  length     : SweepLength
  startAt    : Nat
  memberStep : Nat
deriving DecidableEq, Repr

/-- A cue header (Table 8-2). -/
structure Header where
  cls      : CueClass
  fadeTime : Nat
  delay    : Nat
  holdTime : Nat
  policy   : TrimPolicy
  sweep    : Option Sweep
  segCount : Nat
deriving DecidableEq, Repr

/-- Entry states (Table 8-3). -/
inductive EntryState where
  | invalid | filling | present
deriving DecidableEq, Repr

/-- A pair of a segment: a channel and its level. -/
structure Pair where
  channel : Fin 96
  level   : Nat
deriving DecidableEq, Repr

/-- A cue entry (Table 8-1). A segment is in the valid set when it is held; the fill timer is in ms. -/
structure Entry where
  state     : EntryState
  tag       : Nat
  header    : Option Header
  segments  : Vector (Option (List Pair)) 8
  waiters   : List (Fin 8)
  fillTimer : Option Nat
deriving DecidableEq, Repr

/-- A line of the store: its two ways and the LRU mark, which names the way to be replaced next. -/
structure Line where
  ways : Vector Entry 2
  lru  : Fin 2
deriving DecidableEq, Repr

/-- An entry after power-on reset (R128); its meaningless tag stands at 0 (log entry 3). -/
def Entry.reset : Entry :=
  { state := .invalid, tag := 0, header := none, segments := Vector.replicate 8 none, waiters := [], fillTimer := none }

/-! ### Chapter 9: the fade engine and the fixture link -/

/-- A channel record (Table 9-1). -/
structure Channel where
  level       : Nat
  owner       : Option (Fin 8)
  coefficient : Nat
  trimmable   : Bool
  haze        : Bool
deriving DecidableEq, Repr

/-- Slot states (Table 9-3). -/
inductive SlotState where
  | free | waitingFill | delay | waitingHeadroom | fading
deriving DecidableEq, Repr

/-- An entry of a slot's channel list (Table 9-2); the member offset is in ms. -/
structure ListEntry where
  channel : Fin 96
  start   : Nat
  target  : Nat
  offset  : Nat
deriving DecidableEq, Repr

/-- A fade slot record (Table 9-2). `timer` is in ms: to the next 100 ms count in DELAY and WAITING_HEADROOM, the step timer
in FADING. -/
structure Slot where
  state    : SlotState
  cue      : Nat
  port     : Option Port
  cls      : Option CueClass
  policy   : Option TrimPolicy
  sweep    : Option Sweep
  delay    : Nat
  hold     : Nat
  duration : Nat
  elapsed  : Nat
  list     : List ListEntry
  timer    : Option Nat
deriving DecidableEq, Repr

/-- A fade slot after power-on reset, and after it is freed (R144). -/
def Slot.reset : Slot :=
  { state := .free, cue := 0, port := none, cls := none, policy := none, sweep := none, delay := 0, hold := 0, duration := 0,
    elapsed := 0, list := [], timer := none }

/-- A channel record after power-on reset (R143). -/
def Channel.reset : Channel := ⟨0, none, 0, false, false⟩

/-! ### Chapter 10: the tenant ports and the authority map -/

/-- Kinds of completion record (R177), in the order of their codes from 01h. -/
inductive RecordKind where
  | surfaceChanged | prepReady | softIce | plantStale | plantFresh | fogSevere | fogBlind | loopFail | loopRestored
  | sourceSwitched | switchTimeout | switchSuperseded | sourceFail | moveDone | homeDone | moveSuperseded | posFault
  | iceOverload | iceClear | noHeadroom | fillNeeded | fillTimeout | cueNoAuthority | cueMode | cueInvalidated | cueDone
  | cuePreempted | cueReleased
deriving DecidableEq, Repr

/-- A completion record (Table 11-5); whether it is must-collect follows from its kind. -/
structure Record where
  kind    : RecordKind
  object  : Nat
  value   : Int
  seconds : BitVec 32
deriving DecidableEq, Repr

/-- Baud rates (Table 0-4). -/
inductive Rate where
  | baud19200 | baud57600 | baud115200 | baud230400
deriving DecidableEq, Repr

/-- Where a port stands in its turn (Table 10-1). -/
inductive Phase where
  | idle | receiving | executing | answering
deriving DecidableEq, Repr

/-- The state of one tenant port (Table 10-1). Three items that the rules imply stand beside it: the length byte of an
out-of-turn frame is awaited (R160), the line is dropped after a break (R161), and the result frame being sent (R163). -/
structure PortState where
  rate        : Rate
  phase       : Phase
  buffer      : List Byte
  expected    : Nat
  errorMark   : Bool
  discard     : Nat
  awaitLength : Bool
  outOfTurn   : Bool
  queue       : List Record
  lost        : Bool
  lineDropped : Bool
  tx          : List Byte
deriving DecidableEq, Repr

/-- A port after power-on reset at a given rate (R157). -/
def PortState.reset (rate : Rate) : PortState :=
  { rate := rate, phase := .idle, buffer := [], expected := 0, errorMark := false, discard := 0, awaitLength := false,
    outOfTurn := false, queue := [], lost := false, lineDropped := false, tx := [] }

/-- The three ports. -/
structure Ports where
  p : PortState
  b : PortState
  l : PortState
deriving DecidableEq, Repr

/-- A set of ports. -/
structure PortSet where
  p : Bool
  b : Bool
  l : Bool
deriving DecidableEq, Repr

/-- A domain of the authority map: its port set and its lock flag (Table 10-5). -/
structure Domain where
  ports  : PortSet
  locked : Bool
deriving DecidableEq, Repr

/-- The authority map after power-on reset (R170, Table 10-5). -/
def authorityReset : Vector Domain 13 :=
  #v[⟨⟨true, true, false⟩, false⟩, ⟨⟨true, false, false⟩, false⟩, ⟨⟨false, true, false⟩, false⟩,
     ⟨⟨false, true, false⟩, false⟩, ⟨⟨true, false, false⟩, false⟩, ⟨⟨false, true, false⟩, false⟩,
     ⟨⟨true, true, true⟩, false⟩, ⟨⟨false, true, true⟩, false⟩, ⟨⟨false, false, true⟩, false⟩,
     ⟨⟨false, false, true⟩, false⟩, ⟨⟨true, true, false⟩, false⟩, ⟨⟨true, false, false⟩, false⟩,
     ⟨⟨false, true, false⟩, false⟩]

/-! ### The whole part -/

/-- The state of the part. `sent` is the snapshot of the latest fixture link frame, and `fxFrame` the bytes that FXOUT sends of it
(R155, R180); `openChoices` is the model's own
counter of choices that the manual leaves open (log entry 5); `pending` is the queue of commands that wait, oldest first. -/
structure State where
  scanner       : Scanner
  surface       : Surface
  plant         : PlantProfile
  building      : BuildingProfile
  fog           : Fog
  pool          : Pool
  zones         : Vector Zone 4
  boilerProven  : Bool
  positioners   : Positioners
  governor      : Governor
  store         : Vector Line 64
  channels      : Vector Channel 96
  slots         : Vector Slot 8
  sent          : Vector Nat 96
  fxFrame       : List Byte
  ports         : Ports
  authority     : Vector Domain 13
  deviceSeconds : BitVec 32
  openChoices   : Nat
  pending       : List Instr
deriving DecidableEq, Repr

/-- The part right after the release of RESET, with every strap at 0 and every digital input inactive (log entry 4). The
frame that starts at the release carries 0 for every channel: 5Ch, 96 zero bytes and 00h (R155, R180). -/
def State.reset : State :=
  { scanner := Scanner.reset, surface := Surface.reset, plant := PlantProfile.reset, building := BuildingProfile.reset,
    fog := Fog.reset, pool := Pool.reset, zones := Vector.replicate 4 Zone.reset, boilerProven := false,
    positioners := ⟨Vector.replicate 8 Positioner.reset, [], []⟩, governor := Governor.reset,
    store := Vector.replicate 64 ⟨Vector.replicate 2 Entry.reset, 0⟩, channels := Vector.replicate 96 Channel.reset,
    slots := Vector.replicate 8 Slot.reset, sent := Vector.replicate 96 0, fxFrame := 0x5C#8 :: List.replicate 97 0,
    ports := ⟨PortState.reset .baud19200, PortState.reset .baud19200, PortState.reset .baud19200⟩,
    authority := authorityReset, deviceSeconds := 0, openChoices := 0, pending := [] }

/-- Ways in which the part could stop. There is none: every command has an effect by the rules, and where a request cannot be
carried out the part answers with a result code and goes on. -/
inductive Fault where
deriving DecidableEq, Repr

/-- Commands that the model gives no meaning. -/
inductive Refusal where
  /-- Raised by `exec` for a row without a meaning; no row is left so. Safe: the model stops where the part goes on. -/
  | notModelled (mnemonic : String)
deriving DecidableEq, Repr

end Sys2Proof.Machine
end

