-- ==== Sys2Proof/Machine/Ops.lean ====
section
/-! DEFINITION. The operations that every block shares: tables, the arithmetic of section 0.4.2, the authority map's question,
posting a completion record (R164), and reading a published probe record (R2). -/

namespace Sys2Proof.Machine

/-! ### Tables -/

/-- The record at index `i`. -/
def pick {α : Type} {n : Nat} (v : Vector α n) (i : Fin n) : α := v[i.val]

/-- The table with the record at index `i` replaced. -/
def put {α : Type} {n : Nat} (v : Vector α n) (i : Fin n) (x : α) : Vector α n := v.set i.val x i.isLt

/-- The table with `f` applied to every record. -/
def mapAll {α β : Type} {n : Nat} (f : α → β) (v : Vector α n) : Vector β n :=
  ⟨⟨v.toArray.toList.map f⟩, by simp⟩

/-- The eight objects of a kind (positioners, fade slots), in ascending order. -/
def all8 : List (Fin 8) := [0, 1, 2, 3, 4, 5, 6, 7]

/-- The four zones, in ascending order. -/
def all4 : List (Fin 4) := [0, 1, 2, 3]

/-- The 96 lighting channels, in ascending order. -/
def all96 : List (Fin 96) := List.finRange 96

/-- The three ports in the order P, B, L. -/
def allPorts : List Port := [.portP, .portB, .portL]

/-! ### Arithmetic (section 0.4.2) -/

/-- clamp(x, lo, hi). -/
def clampInt (lo hi x : Int) : Int := min hi (max lo x)

/-- clamp(x, lo, hi) over the natural numbers. -/
def clampNat (lo hi x : Nat) : Nat := min hi (max lo x)

/-- One more, held at `limit`. -/
def countTo (limit n : Nat) : Nat := min limit (n + 1)

/-- The next value of a timer of which the expiry is an event of its own: one less, held at 1. -/
def timerDown (n : Nat) : Nat := max 1 (n - 1)

/-! ### Probes as other blocks see them (R2) -/

/-- GOOD, SPIKE and OVERRIDE are usable. -/
def Quality.usable : Quality → Bool
  | .good | .spike | .override => true
  | .noReading | .opened | .shorted => false

/-- The published value of a probe if it is usable. -/
def State.published (s : State) (i : Fin 32) : Option Int :=
  let r := pick s.scanner.probes i
  if r.pubQuality.usable then some r.pubValue else none

/-- Probe A0, the bowl air (Table 1-1). -/
def probeA0 : Fin 32 := 20
/-- Probe H0, the bowl air humidity. -/
def probeH0 : Fin 32 := 21
/-- Probe A1, the air layer above the ice. -/
def probeA1 : Fin 32 := 22
/-- Probe D0, the roof deck. -/
def probeD0 : Fin 32 := 23
/-- Probe W0, the recovery loop supply. -/
def probeW0 : Fin 32 := 24
/-- REF, the reference resistor. -/
def probeRef : Fin 32 := 25
/-- Probe W2, the storage tank. -/
def probeW2 : Fin 32 := 26
/-- Probe G0, the subsoil. -/
def probeG0 : Fin 32 := 27
/-- Probe Z_z, the air of zone z. -/
def probeZone (z : Fin 4) : Fin 32 := ⟨28 + z.val, by omega⟩

/-! ### Ports, records and the authority map -/

/-- The state of port `p`. -/
def State.port (s : State) : Port → PortState
  | .portP => s.ports.p
  | .portB => s.ports.b
  | .portL => s.ports.l

/-- The state with port `p` replaced. -/
def State.setPort (s : State) (p : Port) (q : PortState) : State :=
  match p with
  | .portP => { s with ports := { s.ports with p := q } }
  | .portB => { s with ports := { s.ports with b := q } }
  | .portL => { s with ports := { s.ports with l := q } }

/-- Whether the set contains the port. -/
def PortSet.has (d : PortSet) : Port → Bool
  | .portP => d.p
  | .portB => d.b
  | .portL => d.l

/-- The domains by their numbers in Table 10-5. -/
def domSurface : Fin 13 := 0
/-- RESURFACE. -/
def domResurface : Fin 13 := 1
/-- ZONES. -/
def domZones : Fin 13 := 2
/-- CLAIMS. -/
def domClaims : Fin 13 := 3
/-- VALVES_PLANT. -/
def domValvesPlant : Fin 13 := 4
/-- VALVES_BUILDING. -/
def domValvesBuilding : Fin 13 := 5
/-- CUE_STORE. -/
def domCueStore : Fin 13 := 9
/-- PROBES. -/
def domProbes : Fin 13 := 10
/-- PLANT_DATA. -/
def domPlantData : Fin 13 := 11
/-- AUTHORITY. -/
def domAuthority : Fin 13 := 12

/-- The domain of a cue class (Table 8-4). -/
def CueClass.domain : CueClass → Fin 13
  | .workCue => 6
  | .houseCue => 7
  | .showCue => 8

/-- A port is in a domain when the domain's set contains it, as the set stands (R170). -/
def State.inDomain (s : State) (d : Fin 13) (p : Port) : Bool := (pick s.authority d).ports.has p

/-- The must-collect kinds: LOOP_FAIL (R75), SOURCE_FAIL (R94) and POS_FAULT (R108). -/
def RecordKind.mustCollect : RecordKind → Bool
  | .loopFail | .sourceFail | .posFault => true
  | _ => false

/-- The record's must-collect mark (Table 11-5). -/
def Record.mustCollect (r : Record) : Bool := r.kind.mustCollect

/-- The queue without its newest ordinary record, the one nearest the tail (R164). -/
def withoutNewestOrdinary (q : List Record) : List Record := (q.reverse.eraseP (fun r => !r.mustCollect)).reverse

/-- How a record joins a port's queue (R164). -/
def PortState.enqueue (q : PortState) (r : Record) : PortState :=
  if q.queue.length < Config.queueCapacity then { q with queue := q.queue ++ [r] }
  else if r.mustCollect && q.queue.any (fun x => !x.mustCollect) then
    { q with queue := withoutNewestOrdinary q.queue ++ [r], lost := true }
  else { q with lost := true }

/-- A record is posted to a port, stamped with the device seconds as they stand (R164). -/
def State.post (s : State) (p : Port) (kind : RecordKind) (object : Nat) (value : Int) : State :=
  s.setPort p ((s.port p).enqueue ⟨kind, object, value, s.deviceSeconds⟩)

/-- A record is posted to a port if there is one. -/
def State.postTo (s : State) (p : Option Port) (kind : RecordKind) (object : Nat) (value : Int) : State :=
  match p with
  | none => s
  | some q => s.post q kind object value

/-- A record is posted to each port of a list, in the list's order. -/
def State.postAll (s : State) (ps : List Port) (kind : RecordKind) (object : Nat) (value : Int) : State :=
  ps.foldl (fun s p => s.post p kind object value) s

/-! ### Enumeration codes that records and views carry (Table 11-1) -/

/-- Surface mode. -/
def Mode.code : Mode → Nat
  | .start => 0 | .hold => 1 | .prep => 2 | .play => 3 | .resurface => 4 | .covered => 5

/-- Port. -/
def Port.code : Port → Nat
  | .portP => 0 | .portB => 1 | .portL => 2

/-- Fog state. -/
def FogState.code : FogState → Nat
  | .blind => 0 | .clear => 1 | .watch => 2 | .act => 3 | .severe => 4

/-- Zone source. -/
def Source.code : Source → Nat
  | .off => 0 | .recovered => 1 | .boiler => 2

/-- Fault cause. -/
def FaultCause.code : FaultCause → Nat
  | .homeFail => 0 | .slip => 1 | .driver => 2

/-! ### One record of a block replaced -/

/-- Zone `z` replaced. -/
def State.setZone (s : State) (z : Fin 4) (x : Zone) : State := { s with zones := put s.zones z x }

/-- Positioner `v` replaced. -/
def State.setPos (s : State) (v : Fin 8) (x : Positioner) : State :=
  { s with positioners := { s.positioners with records := put s.positioners.records v x } }

/-- Positioner `v`. -/
def State.pos (s : State) (v : Fin 8) : Positioner := pick s.positioners.records v

/-- Fade slot `n`. -/
def State.slot (s : State) (n : Fin 8) : Slot := pick s.slots n

/-- Fade slot `n` replaced. -/
def State.setSlot (s : State) (n : Fin 8) (x : Slot) : State := { s with slots := put s.slots n x }

/-- Lighting channel `c`. -/
def State.channel (s : State) (c : Fin 96) : Channel := pick s.channels c

/-- Lighting channel `c` replaced. -/
def State.setChannel (s : State) (c : Fin 96) (x : Channel) : State := { s with channels := put s.channels c x }

/-- The line of a cue number (section 8.1). -/
def cueLine (cue : Nat) : Fin 64 := ⟨cue % 64, Nat.mod_lt _ (by decide)⟩

/-- The tag of a cue number (section 8.1). -/
def cueTag (cue : Nat) : Nat := cue / 64

/-- The entry in a way of a line. -/
def State.entry (s : State) (line : Fin 64) (way : Fin 2) : Entry := pick (pick s.store line).ways way

/-- The entry in a way of a line replaced. -/
def State.setEntry (s : State) (line : Fin 64) (way : Fin 2) (e : Entry) : State :=
  let old := pick s.store line
  { s with store := put s.store line { old with ways := put old.ways way e } }

/-- The LRU mark of a line set to name a way. -/
def State.setLru (s : State) (line : Fin 64) (way : Fin 2) : State :=
  let old := pick s.store line
  { s with store := put s.store line { old with lru := way } }

/-- The other way of a line. -/
def otherWay (way : Fin 2) : Fin 2 := if way = 0 then 1 else 0

end Sys2Proof.Machine
end

