-- ==== Sys2Proof/Machine/Flags.lean ====
section
/-! DEFINITION. The conditions and outputs that follow from the state as it stands: haze forcing, the relay outputs, ATTN, the
status flags of a result, and what a mode allows. -/

namespace Sys2Proof.Machine

/-- The cue classes that a surface mode allows (Table 2-3). -/
def Mode.allows : Mode → CueClass → Bool
  | .start, _ => false
  | .play, _ | .covered, _ => true
  | .hold, c | .prep, c | .resurface, c => c != .showCue

/-- Haze forcing: the fog state is not CLEAR, or the mode is RESURFACE (R56). -/
def State.hazeForcing (s : State) : Bool := s.fog.state != .clear || s.surface.mode == .resurface

/-- The acting state (R49). -/
def Fog.acting (f : Fog) : FogState :=
  match f.state with
  | .blind => match f.holdTimer, f.held with
    | some _, some h => h
    | _, _ => .act
  | other => other

/-- The zone wants the boiler started: it proves toward it, or uses it with a request above 0 (R89). -/
def Zone.wantsBoiler (z : Zone) : Bool :=
  (match z.switch with | .provingBoiler _ => true | _ => false) || (z.source == .boiler && 0 < z.request)

/-- The BOILER_EN output (R89). -/
def State.boilerEn (s : State) : Bool := all4.any (fun z => (pick s.zones z).wantsBoiler)

/-- The ZSRC relay output of a zone: energized while its current source is BOILER (R89). -/
def State.zsrc (s : State) (z : Fin 4) : Bool := (pick s.zones z).source == .boiler

/-- The TANKDIR output: true is DISCHARGE (R70). -/
def State.tankDir (s : State) : Bool := s.pool.discharging

/-- The WHEEL output (R55). -/
def State.wheelOut (s : State) : Bool := s.fog.wheel

/-- The EREGEN output (R53). -/
def State.eregen (s : State) : Bool := s.fog.backup

/-- The FAN1 output (R51). -/
def State.fan1 (s : State) : Bool := 1 ≤ s.fog.fanStage

/-- The FAN2 output (R51). -/
def State.fan2 (s : State) : Bool := 2 ≤ s.fog.fanStage

/-- The effective setpoint of a zone: the setback setpoint when VACANT or in HOLD (section 5.1). -/
def State.effectiveSet (s : State) (z : Zone) : Int :=
  if !z.occupied || s.surface.mode == .hold then z.setbackSet else z.occupiedSet

/-- The source being proved (Table 5-1). -/
def Zone.requested (z : Zone) : Option Source :=
  match z.switch with
  | .steady => none
  | .provingLoop _ => some .recovered
  | .provingBoiler _ => some .boiler

/-- The ATTN output of a port (R165). -/
def PortState.attn (q : PortState) : Bool := !q.queue.isEmpty

/-- A must-collect record is in the port's queue (R167). -/
def PortState.mustCollectPending (q : PortState) : Bool := q.queue.any Record.mustCollect

/-- A flag byte from its bits, bit 0 first. -/
def flagByte (bits : List Bool) : Byte :=
  BitVec.ofNat 8 (bits.foldr (fun b n => 2 * n + (if b then 1 else 0)) 0)

/-- The status flags of a result (R163, R175), with LOST as it is to be reported. -/
def PortState.statusFlags (q : PortState) (lost : Bool) : Byte :=
  flagByte [q.attn, q.mustCollectPending, lost, q.outOfTurn]

/-- Q_rec and H_ice as the surface controller hands them over (R30). -/
def State.handedQRec (s : State) : Nat :=
  match s.surface.report with
  | some r => if s.surface.plantStale then 0 else r.qRec
  | none => 0

/-- H_ice as the surface controller hands it over (R30). -/
def State.handedHIce (s : State) : Nat :=
  match s.surface.report with
  | some r => if s.surface.plantStale then 0 else r.hIce
  | none => 0

/-- The level of a channel on the fixture link (R154). -/
def State.effectiveLevel (s : State) (c : Fin 96) : Nat :=
  let ch := s.channel c
  if ch.haze && s.hazeForcing then 0
  else if ch.trimmable then (ch.level * s.governor.f + 128) / 256
  else ch.level

/-- The fixture link frame that carries a snapshot of levels (R180). -/
def fixtureFrame (levels : List Nat) : List Byte :=
  let bytes := levels.map (BitVec.ofNat 8)
  (0x5C#8) :: (bytes ++ [checkByte bytes])

/-- The bits on FXOUT from the latest frame start, in order; the line idles high after them (R155, R180). -/
def State.fxout (s : State) : List Bool := s.fxFrame.flatMap fixtureBits

/-- The bits on a port's TX line from the moment the result is formed, in order; the line idles high after them, and with no
result to send (R157, R163). -/
def PortState.txLine (q : PortState) : List Bool := (soundBytes q.tx).flatMap RxByte.bits

end Sys2Proof.Machine
end

