-- ==== Sys2Proof/Machine/Fades.lean ====
section
/-! DEFINITION. The fade engine (Chapter 9): levels, entry into FADING, freeing a slot, sweeps and the copy of a cue. -/

namespace Sys2Proof.Machine

/-! ### Levels (R148) -/

/-- The level of an entry with start level `s`, target `t` and offset `o`, of a slot of duration `d`, at an elapsed time. -/
def fadeLevel (d s t o elapsed : Nat) : Nat :=
  if d = 0 then (if elapsed < o then s else t)
  else
    let e := min d (elapsed - o)
    if s ≤ t then s + ((t - s) * e + d / 2) / d else s - ((s - t) * e + d / 2) / d

/-- An entry is reached when elapsed less its offset is at or above the duration. -/
def ListEntry.reached (e : ListEntry) (d elapsed : Nat) : Bool := decide (e.offset + d ≤ elapsed)

/-- Every remaining entry of the slot is reached (R149). -/
def Slot.allReached (sl : Slot) : Bool := sl.list.all (fun e => e.reached sl.duration sl.elapsed)

/-- The slot writes the level of each of its entries into the channel table. -/
def State.writeLevels (s : State) (n : Fin 8) : State :=
  let sl := s.slot n
  sl.list.foldl
    (fun s e => s.setChannel e.channel
      { s.channel e.channel with level := fadeLevel sl.duration e.start e.target e.offset sl.elapsed }) s

/-! ### Freeing a slot (R144) -/

/-- A slot gives up its channels, which keep their levels. -/
def State.disown (s : State) (n : Fin 8) : State :=
  { s with channels := mapAll (fun ch => if ch.owner = some n then { ch with owner := none } else ch) s.channels }

/-- A slot leaves the waiter lists of the line of its cue (R138). -/
def State.leaveWaiters (s : State) (n : Fin 8) (cue : Nat) : State :=
  let line := pick s.store (cueLine cue)
  let left : Line := { line with ways := mapAll (fun e => { e with waiters := e.waiters.filter (· != n) }) line.ways }
  { s with store := put s.store (cueLine cue) left }

/-- A slot leaves the headroom queue. -/
def State.leaveHeadroom (s : State) (n : Fin 8) : State :=
  { s with governor := { s.governor with queue := s.governor.queue.filter (· != n) } }

/-- A slot is freed: it gives up its channels, leaves the list or queue it stands in, and returns to its reset value. -/
def State.freeSlot (s : State) (n : Fin 8) : State :=
  (((s.disown n).leaveWaiters n (s.slot n).cue).leaveHeadroom n).setSlot n Slot.reset

/-- A slot is freed, and a record about it goes to its GO port, with the slot as object and the cue number as value. -/
def State.endSlot (s : State) (n : Fin 8) (kind : RecordKind) : State :=
  (s.freeSlot n).postTo (s.slot n).port kind n.val (s.slot n).cue

/-! ### Entry into FADING (R146, R147) -/

/-- The entering slot `n` takes one channel; a former owner's channel list loses its entry. -/
def State.takeChannel (n : Fin 8) (s : State) (e : ListEntry) : State :=
  let ch := s.channel e.channel
  let robbed : State :=
    match ch.owner with
    | none => s
    | some m =>
      if m = n then s
      else s.setSlot m { s.slot m with list := (s.slot m).list.filter (fun x => x.channel != e.channel) }
  robbed.setChannel e.channel { ch with owner := some n }

/-- A slot that has lost entries is freed with CUE_PREEMPTED when its list is left empty (R147). -/
def State.judgePreempted (s : State) (m : Fin 8) : State :=
  if (s.slot m).list.isEmpty then s.endSlot m .cuePreempted else s

/-- The slots other than `n` that own a channel of `n`'s list, in ascending order. -/
def State.formerOwners (s : State) (n : Fin 8) : List (Fin 8) :=
  all8.filter (fun m => m != n && (s.slot n).list.any (fun e => (s.channel e.channel).owner == some m))

/-- The slot has entered FADING: it owns its channels, its start levels are taken and the levels for elapsed 0 are written. -/
def State.startFading (s : State) (n : Fin 8) : State :=
  let sl := s.slot n
  let started := sl.list.map (fun e => { e with start := (s.channel e.channel).level })
  let owned := sl.list.foldl (State.takeChannel n) s
  ((owned.setSlot n { sl with state := .fading, elapsed := 0, timer := some 20, list := started }).leaveHeadroom n).writeLevels n

/-- A slot enters FADING, completes at once if every entry is reached, and the slots it has robbed are judged, in this order (log
entry 17). Also whether it completed, for which R149 asks for an evaluation. -/
def State.enterFading (s : State) (n : Fin 8) : State × Bool :=
  let entered := s.startFading n
  let done := (entered.slot n).allReached
  let settled := if done then entered.endSlot n .cueDone else entered
  ((s.formerOwners n).foldl State.judgePreempted settled, done)

/-! ### Sweeps (R150, R151) -/

/-- The members of a group in the order of a sweep. -/
def Sweep.memberOrder (w : Sweep) : List Nat :=
  match w.order, w.length with
  | .rotate, .full => (List.range 8).map (fun k => (w.startAt + k) % 8)
  | .rotate, .half => (List.range 4).map (fun k => 4 * (w.startAt / 4) + (w.startAt + k) % 4)
  | .mirror, .full => (List.range 8).map (fun k => w.startAt ^^^ k)
  | .mirror, .half => (List.range 4).map (fun k => w.startAt ^^^ k)

/-- The member offset of a channel, in ms. -/
def Sweep.offset (w : Sweep) (channel : Nat) : Nat :=
  if channel / 8 = w.group then
    match w.memberOrder.findIdx? (· == channel % 8) with
    | some k => k * w.memberStep * 100
    | none => 0
  else 0

/-- The member offset of a channel under a sweep or none. -/
def memberOffset (sweep : Option Sweep) (channel : Nat) : Nat :=
  match sweep with
  | some w => w.offset channel
  | none => 0

/-! ### The copy (R142) -/

/-- A pair read into a channel list: a new channel is appended, a channel already there takes the new target in its place. -/
def addPair (list : List ListEntry) (q : Pair) : List ListEntry :=
  if list.any (fun e => e.channel == q.channel) then
    list.map (fun e => if e.channel = q.channel then { e with target := q.level } else e)
  else list ++ [⟨q.channel, 0, q.level, 0⟩]

/-- The pairs of an entry in ascending segment order, up to the segment count. -/
def Entry.pairs (e : Entry) (count : Nat) : List Pair :=
  ((e.segments.toList.take count).map (fun seg => seg.getD [])).flatten

/-- The channel list that a copy builds, with the member offsets of R151. -/
def channelList (e : Entry) (h : Header) : List ListEntry :=
  ((e.pairs h.segCount).foldl addPair []).map (fun x => { x with offset := memberOffset h.sweep x.channel.val })

/-- A slot that has copied a cue and enters DELAY (R142, R144, R145). -/
def copiedSlot (e : Entry) (h : Header) (cue : Nat) (port : Option Port) : Slot :=
  { state := .delay, cue := cue, port := port, cls := some h.cls, policy := some h.policy, sweep := h.sweep,
    delay := h.delay, hold := h.holdTime, duration := h.fadeTime * 100, elapsed := 0, list := channelList e h,
    timer := some 100 }

end Sys2Proof.Machine
end

