-- ==== Sys2Proof/Machine/Governor.lean ====
section
/-! DEFINITION. The ice load governor (Chapter 7): the ceiling, the loads, evaluations, and admission. -/

namespace Sys2Proof.Machine

/-! ### The ceiling (R114) -/

/-- The margin that a surface mode selects; in START none applies. -/
def PlantProfile.margin (q : PlantProfile) : Mode → Nat
  | .start => 0
  | .hold => q.marginHold
  | .prep => q.marginPrep
  | .play => q.marginPlay
  | .resurface => q.marginResurf
  | .covered => q.marginCovered

/-- The derate in force: soft_derate while SOFT_ICE is set. -/
def State.derate (s : State) : Nat := if s.surface.softIce then s.plant.softDerate else 0

/-- The ceiling as the governor forms it at this moment, in W. -/
def State.formedCeiling (s : State) : Nat :=
  (max 0 (1000 * ((s.handedHIce : Int) - s.plant.margin s.surface.mode - s.derate))).toNat

/-! ### Committed levels and loads (R115, R116) -/

/-- The target that a channel list gives a channel. -/
def targetIn (list : List ListEntry) (c : Fin 96) : Option Nat :=
  (list.find? (fun e => e.channel == c)).map ListEntry.target

/-- The committed level of a channel, with the entries of a candidate's list counted at their targets (R115, R122). -/
def State.committed (s : State) (candidate : List ListEntry) (c : Fin 96) : Nat :=
  let ch := s.channel c
  if ch.haze && s.hazeForcing then 0
  else
    match targetIn candidate c with
    | some t => t
    | none =>
      match ch.owner with
      | some n => (targetIn (s.slot n).list c).getD ch.level
      | none => ch.level

/-- The load of a channel, in W: floor(committed × 20 × coefficient / 255). -/
def State.load (s : State) (candidate : List ListEntry) (c : Fin 96) : Nat :=
  s.committed candidate c * (20 * (s.channel c).coefficient) / 255

/-- The sum of the loads of the channels whose trimmable flag is as given. -/
def State.loadSum (s : State) (candidate : List ListEntry) (trimmable : Bool) : Nat :=
  ((all96.filter (fun c => (s.channel c).trimmable == trimmable)).map (s.load candidate)).sum

/-- A sum of lighting loads after the cover factor of COVERED. -/
def State.covered (s : State) (sum : Nat) : Nat :=
  if s.surface.mode = .covered then sum * s.plant.cover / 1000 else sum

/-- L_untrim as an evaluation or a headroom test forms it. -/
def State.lUntrim (s : State) (candidate : List ListEntry) : Nat := s.covered (s.loadSum candidate false)

/-- L_trim as an evaluation or a headroom test forms it. -/
def State.lTrim (s : State) (candidate : List ListEntry) : Nat := s.covered (s.loadSum candidate true)

/-- The headroom test of a slot against a ceiling (R122): it fits when the loads with its targets are at or below it. -/
def State.fits (s : State) (ceiling : Nat) (n : Fin 8) : Bool :=
  let list := (s.slot n).list
  decide (s.governor.lSpill + s.lUntrim list + s.lTrim list ≤ ceiling)

/-! ### Evaluations (R117) -/

/-- Stages one and two: the ceiling formed and stored with its terms, and L_spill taken from a round. -/
def State.openEvaluation (s : State) (spill : Option Nat) : State :=
  { s with governor := { s.governor with
      ceiling := s.formedCeiling, hIceUsed := s.handedHIce, marginUsed := s.plant.margin s.surface.mode,
      derateUsed := s.derate, lSpill := spill.getD s.governor.lSpill } }

/-- One slot of the headroom queue is tried (R123). The number counts the slots that have completed at their entry. -/
def serveSlot (acc : State × Nat) (n : Fin 8) : State × Nat :=
  if acc.1.fits acc.1.governor.ceiling n then
    let r := acc.1.enterFading n
    (r.1, if r.2 then acc.2 + 1 else acc.2)
  else acc

/-- Stage four: every slot of the headroom queue is tried once, oldest first. -/
def State.serveQueue (s : State) : State × Nat := s.governor.queue.foldl serveSlot (s, 0)

/-- The trim factor that would just fit (R118). -/
def trimFit (avail : Int) (lTrim : Nat) : Nat :=
  if lTrim = 0 then 256 else if avail ≤ 0 then 0 else min 256 (256 * avail.toNat / lTrim)

/-- The trim factor in force after an evaluation of a kind (R118). -/
def nextF (kind : EvalKind) (f fStar : Nat) : Nat :=
  match kind with
  | .roundEnd => if fStar ≤ f then fStar else min fStar (f + 32)
  | .ordinary => min f fStar

/-- Stages three and five: the loads, avail, F* and F, formed from the state that stage four leaves. -/
def State.weigh (s : State) (kind : EvalKind) : State :=
  let untrim := s.lUntrim []
  let trim := s.lTrim []
  let avail : Int := (s.governor.ceiling : Int) - s.governor.lSpill - untrim
  let star := trimFit avail trim
  { s with governor := { s.governor with
      lUntrim := untrim, lTrim := trim, coverApplied := s.surface.mode == .covered, avail := avail, fStar := star,
      f := nextF kind s.governor.f star } }

/-- Stage six: ICE_OVERLOAD follows the sign of avail, and a change is posted to P and L (R119). -/
def State.judgeOverload (s : State) : State :=
  let overloaded := decide (s.governor.avail < 0)
  let judged := { s with governor := { s.governor with iceOverload := overloaded } }
  if overloaded = s.governor.iceOverload then judged
  else judged.postAll [.portP, .portL] (if overloaded then .iceOverload else .iceClear) 0 (s.governor.avail / 1000)

/-- The last stage: the evaluation is counted. -/
def State.closeEvaluation (s : State) (kind : EvalKind) : State :=
  { s with governor := { s.governor with evalCount := s.governor.evalCount + 1, lastEval := some kind } }

/-- One evaluation, and the number of slots that completed at their entry in it. -/
def State.evaluateOnce (s : State) (kind : EvalKind) (spill : Option Nat) : State × Nat :=
  let served := (s.openEvaluation spill).serveQueue
  (((served.1.weigh kind).judgeOverload).closeEvaluation kind, served.2)

/-- `asked` ORDINARY evaluations, one after the other, and one more for each slot that completes in one of them (R149). Each
of those has left the headroom queue, so `fuel` is enough when it is the number asked plus the queue's length. -/
def evaluations : Nat → Nat → State → State
  | 0, _, s => s
  | _ + 1, 0, s => s
  | fuel + 1, asked + 1, s =>
    let r := s.evaluateOnce .ordinary none
    evaluations fuel (asked + r.2) r.1

/-- The governor is asked for a number of ORDINARY evaluations. -/
def State.askOrdinary (s : State) (asked : Nat) : State := evaluations (asked + s.governor.queue.length) asked s

/-- The governor is asked for one ORDINARY evaluation. -/
def State.evaluate (s : State) : State := s.askOrdinary 1

/-- The governor is handed a round's spill and asked for one ROUND_END evaluation (R73). -/
def State.evaluateRound (s : State) (spill : Nat) : State :=
  let r := s.evaluateOnce .roundEnd (some spill)
  r.1.askOrdinary r.2

/-! ### Admission (R120 to R122) -/

/-- A slot is admitted at its delay end: it enters FADING, and the admission asks for one evaluation, and a completion at the
entry for another (R121, R149; log entry 12). -/
def State.admitSlot (s : State) (n : Fin 8) : State :=
  let r := s.enterFading n
  r.1.askOrdinary (if r.2 then 2 else 1)

/-- A slot enters WAITING_HEADROOM at the tail of the headroom queue (R122). -/
def State.waitHeadroom (s : State) (n : Fin 8) : State :=
  { s.setSlot n { s.slot n with state := .waitingHeadroom, delay := 0, timer := some 100 } with
    governor := { s.governor with queue := s.governor.queue ++ [n] } }

/-- A slot at the end of its delay is judged for admission by its trim policy. -/
def State.judgeAdmission (s : State) (n : Fin 8) : State :=
  let ended := s.setSlot n { s.slot n with delay := 0 }
  if (s.slot n).policy = some .hold && !ended.fits ended.formedCeiling n then
    if (s.slot n).hold = 0 then ended.endSlot n .noHeadroom else ended.waitHeadroom n
  else ended.admitSlot n

/-- A slot enters DELAY with its copy, and reaches its delay end at once when the delay is 0 (R145). -/
def State.enterDelay (s : State) (n : Fin 8) (sl : Slot) : State :=
  let entered := s.setSlot n sl
  if sl.delay = 0 then entered.judgeAdmission n else entered

end Sys2Proof.Machine
end

