-- ==== Sys2Proof/Machine/Operands.lean ====
section
/-! DEFINITION. Results, the requests of Table 11-3 with their lengths (R176), the enumerated operands of Table 11-1 (R174),
and the records that LOAD_PROFILE and CUE_WRITE carry (R178, Table 11-6). -/

namespace Sys2Proof.Machine

/-! ### Results (Table 10-2) -/

/-- Result codes. -/
inductive Result where
  | ok | accepted | empty | linkError | unknownRequest | badArg | noAuthority | lockedResult | wrongMode | tooSoon | notReady
  | busy | noSlot | storeBusy | uncollected | notHomed
deriving DecidableEq, Repr

/-- The code of a result (Table 11-1). -/
def Result.code : Result → Nat
  | .ok => 0 | .accepted => 1 | .empty => 2 | .linkError => 3 | .unknownRequest => 4 | .badArg => 5 | .noAuthority => 6
  | .lockedResult => 7 | .wrongMode => 8 | .tooSoon => 9 | .notReady => 10 | .busy => 11 | .noSlot => 12
  | .storeBusy => 13 | .uncollected => 14 | .notHomed => 15

/-- What a block answers to a request: the result, its payload (only with OK, R163), and LOST as it stood before a COLLECT
that removed the last record (R166). -/
structure Answer where
  result     : Result
  payload    : List Byte := []
  lostBefore : Option Bool := none
deriving DecidableEq, Repr

/-- The state after a request's effects, and the answer. -/
abbrev Handled := State × Answer

/-- A request refused: no effect on any block (R162). -/
def refuse (s : State) (r : Result) : Handled := (s, { result := r })

/-- A request carried out in full, with no payload. -/
def okay (s : State) : Handled := (s, { result := .ok })

/-- A request of which the end will be posted as a record. -/
def accepted (s : State) : Handled := (s, { result := .accepted })

/-! ### Requests and their lengths -/

/-- The requests of Table 11-3, in the order of their codes from 01h. -/
inductive RequestKind where
  | status | collect | read | authSet | authLock | calibrateShort | probeOverride | probeRelease | surfaceMode
  | loadProfile | plantReport | slabScan | resurfPreheat | claimManual | claimAuto | zoneSet | zoneSource | zoneLock
  | move | home | posMode | go | cueWrite | cueInvalidate | cueProbe | release
deriving DecidableEq, Repr

/-- All requests, in the order of their codes. -/
def requestKinds : List RequestKind :=
  [.status, .collect, .read, .authSet, .authLock, .calibrateShort, .probeOverride, .probeRelease, .surfaceMode,
   .loadProfile, .plantReport, .slabScan, .resurfPreheat, .claimManual, .claimAuto, .zoneSet, .zoneSource, .zoneLock,
   .move, .home, .posMode, .go, .cueWrite, .cueInvalidate, .cueProbe, .release]

/-- The request that a code names; code 0 names none (Table 11-3, R162). -/
def RequestKind.ofCode (code : Byte) : Option RequestKind :=
  if code = 0 then none else requestKinds[code.toNat - 1]?

/-- The code of a request (Table 11-3). -/
def RequestKind.code : RequestKind → Byte
  | .status => 0x01 | .collect => 0x02 | .read => 0x03 | .authSet => 0x04 | .authLock => 0x05 | .calibrateShort => 0x06
  | .probeOverride => 0x07 | .probeRelease => 0x08 | .surfaceMode => 0x09 | .loadProfile => 0x0A | .plantReport => 0x0B
  | .slabScan => 0x0C | .resurfPreheat => 0x0D | .claimManual => 0x0E | .claimAuto => 0x0F | .zoneSet => 0x10
  | .zoneSource => 0x11 | .zoneLock => 0x12 | .move => 0x13 | .home => 0x14 | .posMode => 0x15 | .go => 0x16
  | .cueWrite => 0x17 | .cueInvalidate => 0x18 | .cueProbe => 0x19 | .release => 0x1A

/-- The payload's length is one that the request allows (R176): the lengths of Table 11-3 less 3. LOAD_PROFILE is judged with
its kind byte, CUE_WRITE with its pair count byte. -/
def RequestKind.lengthAllowed (k : RequestKind) (payload : List Byte) : Bool :=
  let n := payload.length
  match k with
  | .status | .collect | .calibrateShort => n == 0
  | .authLock | .probeRelease | .surfaceMode | .resurfPreheat | .claimAuto | .home => n == 1
  | .read | .authSet | .zoneSource | .zoneLock | .posMode | .go | .cueProbe => n == 2
  | .move | .cueInvalidate | .release => n == 3
  | .plantReport => n == 4
  | .probeOverride | .claimManual => n == 5
  | .slabScan | .zoneSet => n == 6
  | .loadProfile =>
    match readU8 payload 0 with
    | 0 => n == 39
    | 1 => n == 58
    | 2 => n == 193
    | _ => false
  | .cueWrite => 18 ≤ n && n == 18 + 2 * readU8 payload 17

/-! ### Enumerated operands (Table 11-1) -/

/-- Surface mode. -/
def Mode.ofCode : Nat → Option Mode
  | 0 => some .start | 1 => some .hold | 2 => some .prep | 3 => some .play | 4 => some .resurface | 5 => some .covered
  | _ => none

/-- The part's two-valued fields: off or on, VACANT or OCCUPIED, AUTO or MANUAL. -/
def twoValued : Nat → Option Bool
  | 0 => some false
  | 1 => some true
  | _ => none

/-- A source that ZONE_SOURCE may name; OFF cannot be requested (R84). -/
def requestableSource : Nat → Option Source
  | 1 => some .recovered
  | 2 => some .boiler
  | _ => none

/-- Cue class. -/
def CueClass.ofCode : Nat → Option CueClass
  | 0 => some .workCue | 1 => some .houseCue | 2 => some .showCue
  | _ => none

/-- Trim policy. -/
def TrimPolicy.ofCode : Nat → Option TrimPolicy
  | 0 => some .hold | 1 => some .trim
  | _ => none

/-- Sweep order. -/
def SweepOrder.ofCode : Nat → Option SweepOrder
  | 0 => some .rotate | 1 => some .mirror
  | _ => none

/-- Sweep length. -/
def SweepLength.ofCode : Nat → Option SweepLength
  | 0 => some .full | 1 => some .half
  | _ => none

/-- Scan conditions of SLAB_SCAN (R34). -/
inductive ScanCondition where
  | equal | notAbove | notBelow
deriving DecidableEq, Repr

/-- Scan condition. -/
def ScanCondition.ofCode : Nat → Option ScanCondition
  | 0 => some .equal | 1 => some .notAbove | 2 => some .notBelow
  | _ => none

/-- A number as an object index below `n`, if it names one. -/
def indexBelow (n k : Nat) : Option (Fin n) := if h : k < n then some ⟨k, h⟩ else none

/-- A cue number in 1..4095 (R128). -/
def validCue (cue : Nat) : Bool := 1 ≤ cue && cue ≤ 4095

/-- A port set given as a mask: nothing besides P, B and L (R171, R174). -/
def PortSet.ofMask (mask : Nat) : Option PortSet :=
  if mask < 8 then some ⟨mask % 2 == 1, mask / 2 % 2 == 1, mask / 4 == 1⟩ else none

/-! ### The plant profile (R178) -/

/-- The plant record as received, before clamping. -/
def readPlant (bs : List Byte) : PlantProfile :=
  { bandLow := readS16 bs 1, bandHigh := readS16 bs 3, softThreshold := readS16 bs 5, resurfaceMax := readU8 bs 7,
    marginHold := readU16 bs 8, marginPrep := readU16 bs 10, marginPlay := readU16 bs 12, marginResurf := readU16 bs 14,
    marginCovered := readU16 bs 16, softDerate := readU16 bs 18, cover := readU16 bs 20, spillShare := readU16 bs 22,
    subsoilSet := readS16 bs 24, subsoilKW := readU16 bs 26, resurfKW := readU16 bs 28, dischargeLimit := readU16 bs 30,
    tankUsable := readS16 bs 32, tankKW := readU16 bs 34, step0 := readU8 bs 36, step1 := readU8 bs 37,
    step3 := readU8 bs 38 }

/-- The single ordering relation of the plant profile (R26). -/
def PlantProfile.ordered (q : PlantProfile) : Bool := decide (q.bandLow < q.bandHigh)

/-- Each field clamped to its range (Tables 2-5, 4-4, 6-4, 7-2). -/
def PlantProfile.clamped (q : PlantProfile) : PlantProfile :=
  { bandLow := clampInt (-200) 100 q.bandLow, bandHigh := clampInt (-200) 100 q.bandHigh,
    softThreshold := clampInt (-200) 100 q.softThreshold, resurfaceMax := clampNat 5 30 q.resurfaceMax,
    marginHold := clampNat 0 500 q.marginHold, marginPrep := clampNat 0 500 q.marginPrep,
    marginPlay := clampNat 0 500 q.marginPlay, marginResurf := clampNat 0 500 q.marginResurf,
    marginCovered := clampNat 0 500 q.marginCovered, softDerate := clampNat 0 500 q.softDerate,
    cover := clampNat 0 1000 q.cover, spillShare := clampNat 0 1000 q.spillShare,
    subsoilSet := clampInt (-100) 100 q.subsoilSet, subsoilKW := clampNat 0 500 q.subsoilKW,
    resurfKW := clampNat 0 500 q.resurfKW, dischargeLimit := clampNat 0 1000 q.dischargeLimit,
    tankUsable := clampInt 0 900 q.tankUsable, tankKW := clampNat 1 2000 q.tankKW, step0 := clampNat 1 16 q.step0,
    step1 := clampNat 1 16 q.step1, step3 := clampNat 1 16 q.step3 }

/-- The 39 payload bytes of a LOAD_PROFILE that carries a plant profile: the kind, then the record of R178. -/
def PlantProfile.payload (q : PlantProfile) : List Byte :=
  encU8 0 ++ (encS16 q.bandLow ++ (encS16 q.bandHigh ++ (encS16 q.softThreshold ++ (encU8 q.resurfaceMax ++
    (encU16 q.marginHold ++ (encU16 q.marginPrep ++ (encU16 q.marginPlay ++ (encU16 q.marginResurf ++
    (encU16 q.marginCovered ++ (encU16 q.softDerate ++ (encU16 q.cover ++ (encU16 q.spillShare ++
    (encS16 q.subsoilSet ++ (encU16 q.subsoilKW ++ (encU16 q.resurfKW ++ (encU16 q.dischargeLimit ++
    (encS16 q.tankUsable ++ (encU16 q.tankKW ++ (encU8 q.step0 ++ (encU8 q.step1 ++ encU8 q.step3))))))))))))))))))))

/-! ### The building profile (R178) -/

/-- The fields of one zone in a building record as received. -/
def readZoneProfile (bs : List Byte) (k : Nat) : ZoneProfile :=
  { gain := readU8 bs k, max := readU16 bs (k + 1), min := readU16 bs (k + 3), spill := readU16 bs (k + 5),
    minSupply := readS16 bs (k + 7) }

/-- The building record as received, before clamping. A backup enable above 1 clamps to 1 (log entry 9). -/
def readBuilding (bs : List Byte) : BuildingProfile :=
  { watchIn := readU8 bs 1, actIn := readU8 bs 2, severeIn := readU8 bs 3, h := readU8 bs 4, resurfBias := readU8 bs 5,
    regenMin := readU16 bs 6, regenWatch := readU16 bs 8, regenAct := readU16 bs 10, regenMax := readU16 bs 12,
    backupEnable := readU8 bs 14 != 0, loopFailThreshold := readS16 bs 15, step2 := readU8 bs 17, step4 := readU8 bs 18,
    step5 := readU8 bs 19, step6 := readU8 bs 20, step7 := readU8 bs 21,
    zones := #v[readZoneProfile bs 22, readZoneProfile bs 31, readZoneProfile bs 40, readZoneProfile bs 49] }

/-- The ordering relations of the building profile (R38, R80). -/
def BuildingProfile.ordered (q : BuildingProfile) : Bool :=
  decide (q.actIn < q.watchIn) && decide (q.severeIn < q.actIn) && decide (q.regenMin ≤ q.regenWatch) &&
    decide (q.regenWatch ≤ q.regenAct) && decide (q.regenAct ≤ q.regenMax) &&
    all4.all (fun z => decide ((pick q.zones z).min ≤ (pick q.zones z).max))

/-- Each field of a zone clamped to its range (Table 5-2). -/
def ZoneProfile.clamped (q : ZoneProfile) : ZoneProfile :=
  { gain := clampNat 1 100 q.gain, max := clampNat 0 500 q.max, min := clampNat 0 500 q.min, spill := clampNat 0 300 q.spill,
    minSupply := clampInt 250 800 q.minSupply }

/-- Each field clamped to its range (Tables 3-2, 4-4, 5-2, 6-4). -/
def BuildingProfile.clamped (q : BuildingProfile) : BuildingProfile :=
  { watchIn := clampNat 0 100 q.watchIn, actIn := clampNat 0 100 q.actIn, severeIn := clampNat 0 100 q.severeIn,
    h := clampNat 5 50 q.h, resurfBias := clampNat 0 50 q.resurfBias, regenMin := clampNat 0 500 q.regenMin,
    regenWatch := clampNat 0 500 q.regenWatch, regenAct := clampNat 0 500 q.regenAct, regenMax := clampNat 0 500 q.regenMax,
    backupEnable := q.backupEnable, loopFailThreshold := clampInt 0 800 q.loopFailThreshold, step2 := clampNat 1 16 q.step2,
    step4 := clampNat 1 16 q.step4, step5 := clampNat 1 16 q.step5, step6 := clampNat 1 16 q.step6,
    step7 := clampNat 1 16 q.step7, zones := mapAll ZoneProfile.clamped q.zones }

/-- The nine bytes of one zone in a building record. -/
def ZoneProfile.bytes (q : ZoneProfile) : List Byte :=
  encU8 q.gain ++ (encU16 q.max ++ (encU16 q.min ++ (encU16 q.spill ++ encS16 q.minSupply)))

/-- The 58 payload bytes of a LOAD_PROFILE that carries a building profile. -/
def BuildingProfile.payload (q : BuildingProfile) : List Byte :=
  encU8 1 ++ (encU8 q.watchIn ++ (encU8 q.actIn ++ (encU8 q.severeIn ++ (encU8 q.h ++ (encU8 q.resurfBias ++
    (encU16 q.regenMin ++ (encU16 q.regenWatch ++ (encU16 q.regenAct ++ (encU16 q.regenMax ++
    (encU8 (if q.backupEnable then 1 else 0) ++ (encS16 q.loopFailThreshold ++ (encU8 q.step2 ++ (encU8 q.step4 ++
    (encU8 q.step5 ++ (encU8 q.step6 ++ (encU8 q.step7 ++ ((pick q.zones 0).bytes ++ ((pick q.zones 1).bytes ++
    ((pick q.zones 2).bytes ++ (pick q.zones 3).bytes)))))))))))))))))))

/-! ### The lighting profile (R178) -/

/-- A channel with the coefficient and the flags that a lighting record gives it; its level and owner stay (R27, R143). -/
def Channel.withProfile (ch : Channel) (bs : List Byte) (c : Fin 96) : Channel :=
  { ch with
    coefficient := readU8 bs (1 + 2 * c.val)
    trimmable := (bs.getD (2 + 2 * c.val) 0).getLsbD 0
    haze := (bs.getD (2 + 2 * c.val) 0).getLsbD 1 }

/-! ### CUE_WRITE (Table 11-6) -/

/-- A CUE_WRITE that has passed the checks of R129. -/
structure CueWrite where
  cue     : Nat
  header  : Header
  segment : Fin 8
  pairs   : List Pair
deriving DecidableEq, Repr

/-- The pairs of the payload, if every channel is one of 0..95. -/
def readPairs (bs : List Byte) : Nat → Nat → Option (List Pair)
  | _, 0 => some []
  | k, n + 1 => do
    let c ← indexBelow 96 (readU8 bs k)
    let rest ← readPairs bs (k + 2) n
    return ⟨c, readU8 bs (k + 1)⟩ :: rest

/-- The sweep of the payload: absent for group FFh, and then its other bytes are not judged (R129, R176). -/
def readSweep (bs : List Byte) : Option (Option Sweep) :=
  let group := readU8 bs 10
  if group = 255 then some none
  else if 12 ≤ group then none
  else do
    let order ← SweepOrder.ofCode (readU8 bs 11)
    let length ← SweepLength.ofCode (readU8 bs 12)
    if 7 < readU8 bs 13 then none
    else return some ⟨group, order, length, readU8 bs 13, clampNat 0 100 (readU8 bs 14)⟩

/-- The CUE_WRITE that a payload carries, or none when a check of R129 refuses it with BAD_ARG. -/
def readCueWrite (bs : List Byte) : Option CueWrite :=
  if !validCue (readU16 bs 0) then none
  else do
    let cls ← CueClass.ofCode (readU8 bs 2)
    let policy ← TrimPolicy.ofCode (readU8 bs 9)
    let sweep ← readSweep bs
    let count := clampNat 1 8 (readU8 bs 15)
    let segment ← indexBelow 8 (readU8 bs 16)
    if count ≤ segment.val || readU8 bs 17 < 1 || 12 < readU8 bs 17 then none
    else do
      let pairs ← readPairs bs 18 (readU8 bs 17)
      return { cue := readU16 bs 0,
               header := { cls := cls, fadeTime := clampNat 0 6000 (readU16 bs 3), delay := clampNat 0 600 (readU16 bs 5),
                           holdTime := clampNat 0 600 (readU16 bs 7), policy := policy, sweep := sweep, segCount := count },
               segment := segment, pairs := pairs }

/-- The code of a class (Table 11-1). -/
def CueClass.code : CueClass → Nat
  | .workCue => 0 | .houseCue => 1 | .showCue => 2

/-- The code of a trim policy (Table 11-1). -/
def TrimPolicy.code : TrimPolicy → Nat
  | .hold => 0 | .trim => 1

/-- The code of a sweep order (Table 11-1). -/
def SweepOrder.code : SweepOrder → Nat
  | .rotate => 0 | .mirror => 1

/-- The code of a sweep length (Table 11-1). -/
def SweepLength.code : SweepLength → Nat
  | .full => 0 | .half => 1

/-- The five bytes of a sweep; FFh for each where there is none (R174; log entry 10). -/
def sweepBytes : Option Sweep → List Byte
  | none => [0xFF, 0xFF, 0xFF, 0xFF, 0xFF]
  | some w => encU8 w.group ++ (encU8 w.order.code ++ (encU8 w.length.code ++ (encU8 w.startAt ++ encU8 w.memberStep)))

/-- The bytes of a segment's pairs. -/
def pairBytes (pairs : List Pair) : List Byte := pairs.flatMap (fun x => encU8 x.channel.val ++ encU8 x.level)

/-- The payload bytes of a CUE_WRITE (Table 11-6). -/
def CueWrite.payload (w : CueWrite) : List Byte :=
  encU16 w.cue ++ (encU8 w.header.cls.code ++ (encU16 w.header.fadeTime ++ (encU16 w.header.delay ++
    (encU16 w.header.holdTime ++ (encU8 w.header.policy.code ++ (sweepBytes w.header.sweep ++ (encU8 w.header.segCount ++
    (encU8 w.segment.val ++ (encU8 w.pairs.length ++ pairBytes w.pairs)))))))))

end Sys2Proof.Machine
end

