-- ==== Sys2Proof/Machine/Cues.lean ====
section
/-! DEFINITION. The cue store (Chapter 8) and RELEASE (section 9.8): the requests CUE_WRITE, GO, CUE_INVALIDATE, CUE_PROBE and
RELEASE as their blocks judge them, and the expiry of a fill timer. -/

namespace Sys2Proof.Machine

/-! ### Looking up and allocating (R128, R131) -/

/-- The entry holds a cue of this tag: FILLING or PRESENT. -/
def Entry.matches (e : Entry) (tag : Nat) : Bool := e.state != .invalid && e.tag == tag

/-- The way that holds a cue, if it is held. -/
def State.wayOf (s : State) (cue : Nat) : Option (Fin 2) :=
  if (s.entry (cueLine cue) 0).matches (cueTag cue) then some 0
  else if (s.entry (cueLine cue) 1).matches (cueTag cue) then some 1
  else none

/-- The way of a line that is allocated for an absent cue; none when both are FILLING. -/
def State.allocatable (s : State) (line : Fin 64) : Option (Fin 2) :=
  let lru := (pick s.store line).lru
  if (s.entry line 0).state = .invalid then some 0
  else if (s.entry line 1).state = .invalid then some 1
  else if (s.entry line lru).state ≠ .filling then some lru
  else if (s.entry line (otherWay lru)).state ≠ .filling then some (otherWay lru)
  else none

/-- A newly allocated entry: FILLING, with its fill timer started (R131, R135). -/
def Entry.allocated (tag : Nat) : Entry := { Entry.reset with state := .filling, tag := tag, fillTimer := some 2000 }

/-- An entry made INVALID: header, valid set and segments are dropped, and the fill timer stops (R137, R139). -/
def Entry.invalidated (e : Entry) : Entry := { Entry.reset with tag := e.tag }

/-! ### Writing (R129 to R132) -/

/-- The header is present and every segment below the segment count has been written (section 8.1). -/
def Entry.complete (e : Entry) : Bool :=
  match e.header with
  | none => false
  | some h => (e.segments.toList.take h.segCount).all Option.isSome

/-- The entry with a written header and segment; segments at or above the new count are dropped (R130). -/
def Entry.written (e : Entry) (w : CueWrite) : Entry :=
  let kept : Vector (Option (List Pair)) 8 :=
    Vector.ofFn (fun i : Fin 8 =>
      if i = w.segment then some w.pairs else if i.val < w.header.segCount then pick e.segments i else none)
  { e with header := some w.header, segments := kept }

/-- A waiting slot is judged when its fill completes: authority, then mode; then it copies the cue and enters DELAY (R136). With a
delay of 0 its delay end, with the admission, its evaluation and its records, is taken here, before the next waiting slot is
judged: DESIGN CHOICE (log entry 21). -/
def State.judgeWaiter (e : Entry) (h : Header) (s : State) (n : Fin 8) : State :=
  let sl := s.slot n
  let authorised := match sl.port with
    | some p => s.inDomain h.cls.domain p
    | none => false
  if !authorised then s.endSlot n .cueNoAuthority
  else if !s.surface.mode.allows h.cls then s.endSlot n .cueMode
  else s.enterDelay n (copiedSlot e h sl.cue sl.port)

/-- An entry after a write, in the state that follows from its completeness (R130, R131). -/
def Entry.settled (e : Entry) : Entry :=
  if e.complete then { e with state := .present, fillTimer := none, waiters := [] }
  else if e.state = .present then { e with state := .filling, fillTimer := some 2000 }
  else e

/-- A CUE_WRITE is carried out on the entry `base` of a way: the LRU mark names the other way, and a fill that is now complete
hands the cue to the waiting slots, oldest first, each one's delay end before the next is judged (R136, R145; log entry 21). -/
def State.writeCue (s : State) (line : Fin 64) (way : Fin 2) (base : Entry) (w : CueWrite) : State :=
  let e := base.written w
  let stored := (s.setEntry line way e.settled).setLru line (otherWay way)
  if e.complete then e.waiters.foldl (State.judgeWaiter e.settled w.header) stored else stored

/-- CUE_WRITE as the cue store judges it. -/
def handleCueWrite (s : State) (payload : List Byte) : Handled :=
  match readCueWrite payload with
  | none => refuse s .badArg
  | some w =>
    let line := cueLine w.cue
    match s.wayOf w.cue with
    | some way => okay (s.writeCue line way (s.entry line way) w)
    | none =>
      match s.allocatable line with
      | some way => okay (s.writeCue line way (Entry.allocated (cueTag w.cue)) w)
      | none => refuse s .storeBusy

/-! ### Firing (R133 to R135) -/

/-- The lowest-numbered FREE slot. -/
def State.freeSlotIndex (s : State) : Option (Fin 8) := all8.find? (fun n => (s.slot n).state == .free)

/-- A slot in WAITING_FILL for a cue. -/
def waitingSlot (cue : Nat) (port : Port) : Slot := { Slot.reset with state := .waitingFill, cue := cue, port := some port }

/-- A GO that finds its cue PRESENT (R133). -/
def State.goHit (s : State) (port : Port) (cue : Nat) (n : Fin 8) (way : Fin 2) (h : Header) : Handled :=
  if !s.inDomain h.cls.domain port then refuse s .noAuthority
  else if !s.surface.mode.allows h.cls then refuse s .wrongMode
  else
    let marked := s.setLru (cueLine cue) (otherWay way)
    accepted (marked.enterDelay n (copiedSlot (s.entry (cueLine cue) way) h cue (some port)))

/-- A GO that joins a fill (R134). -/
def State.goJoin (s : State) (port : Port) (cue : Nat) (n : Fin 8) (way : Fin 2) : Handled :=
  let e := s.entry (cueLine cue) way
  accepted ((s.setSlot n (waitingSlot cue port)).setEntry (cueLine cue) way { e with waiters := e.waiters ++ [n] })

/-- A GO that misses (R135). -/
def State.goMiss (s : State) (port : Port) (cue : Nat) (n : Fin 8) : Handled :=
  match s.allocatable (cueLine cue) with
  | none => refuse s .storeBusy
  | some way =>
    let filling := { Entry.allocated (cueTag cue) with waiters := [n] }
    let taken := (s.setSlot n (waitingSlot cue port)).setEntry (cueLine cue) way filling
    accepted (taken.post .portL .fillNeeded cue way.val)

/-- GO as the cue store judges it. -/
def handleGo (s : State) (port : Port) (payload : List Byte) : Handled :=
  let cue := readU16 payload 0
  if !validCue cue then refuse s .badArg
  else if s.surface.mode = .start then refuse s .wrongMode
  else
    match s.freeSlotIndex with
    | none => refuse s .noSlot
    | some n =>
      match s.wayOf cue with
      | none => s.goMiss port cue n
      | some way =>
        let e := s.entry (cueLine cue) way
        match e.state, e.header with
        | .present, some h => s.goHit port cue n way h
        | _, _ => s.goJoin port cue n way

/-! ### Ends of fills (R137, R139) -/

/-- An entry becomes INVALID, and the slots of its waiter list, oldest first, are freed with a record. -/
def State.dropEntry (s : State) (line : Fin 64) (way : Fin 2) (kind : RecordKind) : State :=
  let e := s.entry line way
  e.waiters.foldl (fun s n => s.endSlot n kind) (s.setEntry line way e.invalidated)

/-- The expiry of the fill timer of a FILLING entry; at any other entry there is no such event. -/
def State.fillTimeout (s : State) (line : Fin 64) (way : Fin 2) : State :=
  if (s.entry line way).state = .filling then s.dropEntry line way .fillTimeout else s

/-- An entry within the scope of an invalidation, if it is FILLING or PRESENT. -/
def State.invalidateWay (s : State) (line : Fin 64) (way : Fin 2) : State :=
  if (s.entry line way).state = .invalid then s else s.dropEntry line way .cueInvalidated

/-- Both ways of a line, way 0 before way 1. -/
def State.invalidateLine (s : State) (line : Fin 64) : State := (s.invalidateWay line 0).invalidateWay line 1

/-- CUE_INVALIDATE as the cue store judges it. Under scope LINE the low byte of the index names the line (R176). -/
def handleCueInvalidate (s : State) (payload : List Byte) : Handled :=
  match readU8 payload 0 with
  | 0 =>
    let cue := readU16 payload 1
    if !validCue cue then refuse s .badArg
    else
      match s.wayOf cue with
      | some way => okay (s.invalidateWay (cueLine cue) way)
      | none => okay s
  | 1 =>
    match indexBelow 64 (readU8 payload 2) with
    | some line => okay (s.invalidateLine line)
    | none => refuse s .badArg
  | 2 => okay ((List.finRange 64).foldl State.invalidateLine s)
  | _ => refuse s .badArg

/-! ### RELEASE (R152, R153) -/

/-- The port may release the slot: it is the slot's GO port, or it is in the domain of the class that the slot holds. -/
def State.mayRelease (s : State) (port : Port) (n : Fin 8) : Bool :=
  (s.slot n).port == some port ||
    match (s.slot n).cls with
    | some c => s.inDomain c.domain port
    | none => false

/-- The slots are released, in order, and one evaluation follows. -/
def State.releaseSlots (s : State) (ns : List (Fin 8)) : State :=
  (ns.foldl (fun s n => s.endSlot n .cueReleased) s).evaluate

/-- RELEASE as the fade engine judges it. -/
def handleRelease (s : State) (port : Port) (payload : List Byte) : Handled :=
  match readU8 payload 0 with
  | 0 =>
    match indexBelow 8 (readU16 payload 1) with
    | none => refuse s .badArg
    | some n =>
      if (s.slot n).state = .free then okay s
      else if s.mayRelease port n then okay (s.releaseSlots [n])
      else refuse s .noAuthority
  | 1 =>
    let cue := readU16 payload 1
    if !validCue cue then refuse s .badArg
    else
      let candidates := all8.filter (fun n => (s.slot n).state != .free && (s.slot n).cue == cue)
      let mine := candidates.filter (s.mayRelease port)
      if candidates.isEmpty then okay s
      else if mine.isEmpty then refuse s .noAuthority
      else okay (s.releaseSlots mine)
  | _ => refuse s .badArg

/-! ### CUE_PROBE (R140, Table 11-4) -/

/-- The code of an entry state. -/
def EntryState.code : EntryState → Nat
  | .invalid => 0 | .filling => 1 | .present => 2

/-- The bytes of a header as CUE_PROBE reports it; zeros where there is none. -/
def headerBytes : Option Header → List Byte
  | none => List.replicate 15 0
  | some h =>
    encU8 1 ++ encU8 h.cls.code ++ encU16 h.fadeTime ++ encU16 h.delay ++ encU16 h.holdTime ++ encU8 h.policy.code ++
      sweepBytes h.sweep ++ encU8 h.segCount

/-- The mask of the valid set. Table 11-4 does not say which bit stands for which segment; bit k for segment k is a DESIGN CHOICE
(log entry 20). -/
def Entry.validMask (e : Entry) : Byte := flagByte (e.segments.toList.map Option.isSome)

/-- The part of a CUE_PROBE result that follows the LRU mark. -/
def matchBytes (s : State) (line : Fin 64) : Option (Fin 2) → List Byte
  | none => 0xFF :: List.replicate 20 0
  | some way =>
    let e := s.entry line way
    encU8 way.val ++ encU8 e.state.code ++ [e.validMask] ++ encU8 e.waiters.length ++ encU16 (e.fillTimer.getD 65535) ++
      headerBytes e.header

/-- CUE_PROBE as the cue store answers it. -/
def handleCueProbe (s : State) (payload : List Byte) : Handled :=
  let cue := readU16 payload 0
  if !validCue cue then refuse s .badArg
  else
    let line := cueLine cue
    let e0 := s.entry line 0
    let e1 := s.entry line 1
    (s, { result := .ok
          payload := encU8 line.val ++ encU8 (cueTag cue) ++ encU8 e0.state.code ++ encU8 e0.tag ++ encU8 e1.state.code ++
            encU8 e1.tag ++ encU8 (pick s.store line).lru.val ++ matchBytes s line (s.wayOf cue) })

end Sys2Proof.Machine
end

