-- ==== Sys2Proof/Machine/Fog.lean ====
section
/-! DEFINITION. The fog unit (Chapter 3): the dew point, the margins, the fog state, and what follows from the acting state. -/

namespace Sys2Proof.Machine

/-! ### The dew point (R40, R41) -/

/-- E[k] of Table 3-3. -/
def saturation (k : Nat) : Int := (Config.saturationTable.getD k 0 : Nat)

/-- The saturation pressure at a clamped air temperature: the table interpolated, rounded half up (R40). -/
def saturationAt (t : Int) : Int :=
  let x := (t + 200).toNat
  let i := min 11 (x / 50)
  let f : Int := (x : Int) - 50 * i
  saturation i + ((saturation (i + 1) - saturation i) * f + 25) / 50

/-- The largest index below 12 of which the table's pressure is at most `e`. -/
def saturationIndex (e : Int) : Nat := ((List.range 12).filter (fun j => decide (saturation j ≤ e))).getLast?.getD 0

/-- The temperature at which a pressure saturates: the table inverted, rounded half up (R41, fourth stage). -/
def saturationInverse (e : Int) : Int :=
  if e ≤ saturation 0 then -200
  else if saturation 12 ≤ e then 400
  else
    let j := saturationIndex e
    let d := saturation (j + 1) - saturation j
    50 * j - 200 + (100 * (e - saturation j) + d) / (2 * d)

/-- The dew point record of published values A0 and H0 (R40, R41). -/
def dewPoint (a0 h0 : Int) : DewRecord :=
  let t := clampInt (-200) 400 a0
  let rh := clampInt 0 1000 h0
  let es := saturationAt t
  let e := (es * rh + 500) / 1000
  { t := t, rh := rh, es := es, e := e, td := min (saturationInverse e) t, fresh := true }

/-! ### Desiccant request, fans, wheel and backup (R50 to R55) -/

/-- The desiccant request of an acting state (Table 3-8). -/
def BuildingProfile.regen (q : BuildingProfile) : FogState → Nat
  | .clear => 0
  | .watch => q.regenWatch
  | .act | .blind => q.regenAct
  | .severe => q.regenMax

/-- The fan stage of an acting state (Table 3-8). -/
def fanStageOf : FogState → Nat
  | .clear => 0
  | .watch => 1
  | .act | .blind | .severe => 2

/-- The acting state is ACT or SEVERE. -/
def Fog.acute (f : Fog) : Bool := f.acting == .act || f.acting == .severe

/-- The wheel runs while the last grant is above 0 or the backup is on (R55). -/
def Fog.setWheel (f : Fog) : Fog := { f with wheel := decide (0 < f.lastGrant) || f.backup }

/-- The backup is judged (R53); each turn sets the wheel. -/
def Fog.judgeBackup (f : Fog) (enable loopFail : Bool) : Fog :=
  if !f.backup then
    if enable && f.acute && (f.zeroRun == 3 || loopFail) then { f with backup := true, adequateRun := 0 }.setWheel else f
  else
    if !enable || !f.acute || f.adequateRun == 3 then { f with backup := false }.setWheel else f

/-- The request and the fan stage are set from the acting state, and the backup is judged (R50, R51, R54). -/
def State.actOnFog (s : State) : State :=
  let acting := s.fog.acting
  let set : Fog := { s.fog with request := s.building.regen acting, fanStage := fanStageOf acting }
  { s with fog := set.judgeBackup s.building.backupEnable s.pool.loopFail }

/-- The fog unit judges its backup alone, when told of LOOP_FAIL (R54). -/
def State.judgeFogBackup (s : State) : State :=
  { s with fog := s.fog.judgeBackup s.building.backupEnable s.pool.loopFail }

/-- What the fog unit learns from a round's DESICCANT grant (R52). -/
def State.fogRoundEnd (s : State) (grant : Nat) : State :=
  let f := s.fog
  let runs : Fog :=
    if grant = 0 then { f with lastGrant := grant, zeroRun := countTo 3 f.zeroRun, adequateRun := 0 }
    else if s.building.regenMin ≤ grant then
      { f with lastGrant := grant, zeroRun := 0, adequateRun := countTo 3 f.adequateRun }
    else { f with lastGrant := grant, zeroRun := 0, adequateRun := 0 }
  { s with fog := runs.setWheel.judgeBackup s.building.backupEnable s.pool.loopFail }

/-! ### The fog state (R43 to R48) -/

/-- A threshold as it is effective in a mode (R47). -/
def effectiveThreshold (mode : Mode) (threshold bias : Nat) : Nat :=
  if mode = .resurface then min 150 (threshold + bias) else threshold

/-- How severe an ordered state is. -/
def FogState.rank : FogState → Nat
  | .blind | .clear => 0
  | .watch => 1
  | .act => 2
  | .severe => 3

/-- The target of a margin under the effective thresholds (R44). -/
def Fog.target (f : Fog) (m : Int) : FogState :=
  if m < f.severeEff then .severe else if m < f.actEff then .act else if m < f.watchEff then .watch else .clear

/-- The effective entry threshold of a state. -/
def Fog.entry (f : Fog) : FogState → Nat
  | .severe => f.severeEff
  | .act => f.actEff
  | _ => f.watchEff

/-- The next less severe state. -/
def FogState.down : FogState → FogState
  | .severe => .act
  | .act => .watch
  | .watch => .clear
  | other => other

/-- A change of fog state (R48), and on entering SEVERE its record. -/
def State.changeFog (s : State) (next : FogState) (m : Int) : State :=
  let changed := { s with fog := { s.fog with state := next, dwell := 0 } }
  if next = .severe then changed.postAll [.portB, .portL] .fogSevere s.fog.state.code m else changed

/-- The state becomes BLIND from an ordered state (R43). -/
def State.goBlind (s : State) (cause : Int) : State :=
  let left := s.fog.state
  { s with fog := { s.fog with state := .blind, dwell := 0, held := some left, holdTimer := some 300 } }.post
    .portB .fogBlind left.code cause

/-- The third stage of a cycle: the fog state follows the margin. The flag says whether it changed. -/
def State.updateFog (s : State) : State × Bool :=
  match s.fog.margin with
  | none =>
    if s.fog.state = .blind then (s, false)
    else
      let airLost := (s.published probeA0).isNone || (s.published probeH0).isNone
      (s.goBlind (if airLost then 0 else 1), true)
  | some m =>
    let target := s.fog.target m
    if s.fog.state = .blind then
      ({ s with fog := { s.fog with held := none, holdTimer := none } }.changeFog target m, true)
    else if s.fog.state.rank < target.rank then (s.changeFog target m, true)
    else if s.fog.state ≠ .clear ∧ 60 ≤ s.fog.dwell ∧ (s.fog.entry s.fog.state : Int) + s.building.h ≤ m then
      (s.changeFog s.fog.state.down m, true)
    else (s, false)

/-! ### The fog cycle (R39) -/

/-- First stage: the dew point from A0 and H0, or the old record with its fresh flag cleared. -/
def State.dewStage (s : State) : Option DewRecord :=
  match s.published probeA0, s.published probeH0 with
  | some a0, some h0 => some (dewPoint a0 h0)
  | _, _ => s.fog.dew.map (fun d => { d with fresh := false })

/-- The margin of a surface over the dew point of a fresh record (R42). -/
def surfaceMargin (dew : Option DewRecord) (surface : Option Int) : Option Int :=
  match dew, surface with
  | some d, some x => if d.fresh then some (x - d.td) else none
  | _, _ => none

/-- The smaller of the margins that are present (R42). -/
def smallerMargin : Option Int → Option Int → Option Int
  | some a, some b => some (min a b)
  | some a, none => some a
  | none, b => b

/-- First and second stage, with the effective thresholds of the cycle. -/
def State.measureFog (s : State) : State :=
  let dew := s.dewStage
  let layer := surfaceMargin dew (s.published probeA1)
  let roof := surfaceMargin dew (s.published probeD0)
  let mode := s.surface.mode
  { s with fog := { s.fog with
      dew := dew, layer := layer, roof := roof, margin := smallerMargin layer roof
      watchEff := effectiveThreshold mode s.building.watchIn s.building.resurfBias
      actEff := effectiveThreshold mode s.building.actIn s.building.resurfBias
      severeEff := effectiveThreshold mode s.building.severeIn s.building.resurfBias } }

/-- One fog cycle, taken whole; a change of fog state asks for one evaluation after it (R48). -/
def State.fogCycle (s : State) : State :=
  if s.surface.mode = .start || !s.surface.buildingValid then
    { s with fog := { s.fog with request := 0, fanStage := 0 } }
  else
    let updated := s.measureFog.updateFog
    let acted := updated.1.actOnFog
    if updated.2 then acted.evaluate else acted

/-! ### The BLIND hold (R49) -/

/-- The BLIND hold ends: the held state and the timer become absent, and the acting state, now ACT, is acted on. -/
def State.endBlindHold (s : State) : State :=
  { s with fog := { s.fog with held := none, holdTimer := none } }.actOnFog

/-- The hold timer of the fog unit at a device second tick outside START. -/
def State.tickBlindHold (s : State) : State :=
  match s.fog.holdTimer with
  | none => s
  | some n =>
    if s.surface.mode = .start then s
    else if n ≤ 1 then s.endBlindHold
    else { s with fog := { s.fog with holdTimer := some (n - 1) } }

end Sys2Proof.Machine
end

