-- ==== Sys2Proof/Machine/Positioners.lean ====
section
/-! DEFINITION. The positioners (Chapter 6): travel slots and queue, travel, homing, faults, automatic targets, and the requests
MOVE, HOME and POS_MODE as the unit judges them. -/

namespace Sys2Proof.Machine

/-! ### Sides and intervals (Table 6-1, R97) -/

/-- The positioner is on the plant side: V0, V1 and V3. -/
def plantSide (v : Fin 8) : Bool := v == 0 || v == 1 || v == 3

/-- The domain of a positioner. -/
def posDomain (v : Fin 8) : Fin 13 := if plantSide v then domValvesPlant else domValvesBuilding

/-- The step interval in force, in ms: units of 5 ms from the profile of the positioner's side. -/
def State.stepInterval (s : State) (v : Fin 8) : Nat :=
  5 * (match v.val with
    | 0 => s.plant.step0
    | 1 => s.plant.step1
    | 2 => s.building.step2
    | 3 => s.plant.step3
    | 4 => s.building.step4
    | 5 => s.building.step5
    | 6 => s.building.step6
    | _ => s.building.step7)

/-- The positioner's owning profile is loaded (R97). -/
def State.ownerLoaded (s : State) (v : Fin 8) : Bool :=
  if plantSide v then s.surface.plantValid else s.surface.buildingValid

/-! ### Travel slots and the travel queue (R98) -/

/-- The travel slots that no positioner holds, in ascending order. -/
def State.freeTravelSlots (s : State) : List (Fin 4) :=
  all4.filter (fun k => !s.positioners.holders.any (fun h => h.1 == k))

/-- A travel slot is free: fewer than four are held. -/
def State.travelSlotFree (s : State) : Bool := s.positioners.holders.length < 4

/-- A positioner takes a free slot. R98 does not say which of several: the free value of log entry 5 picks it. -/
def State.takeTravelSlot (s : State) (v : Fin 8) : State :=
  let free := s.freeTravelSlots
  let k := free.getD (Config.travelSlotPick s.openChoices % free.length) 0
  { s with
    positioners := { s.positioners with holders := s.positioners.holders ++ [(k, v)] }
    openChoices := s.openChoices + 1 }

/-- A positioner enters TRAVEL and starts its step timer (R99). -/
def State.enterTravel (s : State) (v : Fin 8) : State :=
  s.setPos v { s.pos v with state := .travel, intent := none, stepTimer := some (s.stepInterval v) }

/-- A positioner that holds a slot begins homing (R103). -/
def State.beginHoming (s : State) (v : Fin 8) : State :=
  s.setPos v { s.pos v with
    state := .homing, position := none, intent := none, homingCount := 0, dirOpen := false,
    stepTimer := some (s.stepInterval v) }

/-- A positioner stands homed at the closed end: IDLE at position and target 0, with no fault (R103, R104). -/
def State.stopHomed (s : State) (v : Fin 8) : State :=
  s.setPos v { s.pos v with
    state := .idle, position := some 0, target := 0, cause := none, intent := none, stepTimer := none }

/-- The requesting port, if present, is told of the end of its work, and is then absent. -/
def State.tellRequester (s : State) (v : Fin 8) (kind : RecordKind) (value : Int) : State :=
  (s.postTo (s.pos v).port kind v.val value).setPos v { s.pos v with port := none }

/-- A freed slot passes to the head of the queue; a homing that finds its ENDSTOP active completes at once, and the slot passes
on (R98, R104). The list is the travel queue. -/
def State.passSlot (k : Fin 4) : List (Fin 8) → State → State
  | [], s => { s with positioners := { s.positioners with queue := [] } }
  | v :: rest, s =>
    let left := { s with positioners := { s.positioners with queue := rest } }
    if (s.pos v).intent = some .home && (s.pos v).endstop then
      State.passSlot k rest ((left.stopHomed v).tellRequester v .homeDone 0)
    else
      let granted := { left with positioners := { left.positioners with holders := left.positioners.holders ++ [(k, v)] } }
      if (s.pos v).intent = some .home then granted.beginHoming v else granted.enterTravel v

/-- A positioner gives up its slot, if it holds one (R98). -/
def State.freeTravelSlot (s : State) (v : Fin 8) : State :=
  match s.positioners.holders.find? (fun h => h.2 == v) with
  | none => s
  | some h =>
    let freed := { s with positioners := { s.positioners with holders := s.positioners.holders.filter (fun x => x.2 != v) } }
    State.passSlot h.1 freed.positioners.queue freed

/-- A positioner leaves the travel queue, and the queue closes up behind it. -/
def State.leaveTravelQueue (s : State) (v : Fin 8) : State :=
  { s with positioners := { s.positioners with queue := s.positioners.queue.filter (· != v) } }

/-- A positioner stands in the travel queue. -/
def State.queued (s : State) (v : Fin 8) : Bool := s.positioners.queue.contains v

/-- A positioner that needs a slot to travel takes one or waits with intent MOVE (R98). -/
def State.seekTravel (s : State) (v : Fin 8) : State :=
  if s.travelSlotFree then (s.takeTravelSlot v).enterTravel v
  else
    let waits := s.setPos v { s.pos v with state := .waiting, intent := some .move }
    { waits with positioners := { waits.positioners with queue := waits.positioners.queue ++ [v] } }

/-- A positioner that needs a slot to home takes one, or is queued with intent HOME: an IDLE one enters WAITING, one that is
UNHOMED or in FAULT keeps its state (R98). -/
def State.seekHoming (s : State) (v : Fin 8) : State :=
  if s.travelSlotFree then (s.takeTravelSlot v).beginHoming v
  else
    let r := s.pos v
    let waits := s.setPos v { r with state := (if r.state = .idle then .waiting else r.state), intent := some .home }
    { waits with positioners := { waits.positioners with queue := waits.positioners.queue ++ [v] } }

/-! ### Ends and faults (R99, R103, R106, R108) -/

/-- A travel that stands at its target ends: IDLE, the slot freed, MOVE_DONE to the requesting port (R99). -/
def State.endTravel (s : State) (v : Fin 8) : State :=
  let idle := s.setPos v { s.pos v with state := .idle, stepTimer := none }
  (idle.freeTravelSlot v).tellRequester v .moveDone ((s.pos v).position.getD 0)

/-- A homing succeeds at the ENDSTOP (R103). -/
def State.endHoming (s : State) (v : Fin 8) : State :=
  ((s.stopHomed v).freeTravelSlot v).tellRequester v .homeDone 0

/-- The ports that POS_FAULT goes to: the domain's set in the order P, B, L, then a requesting port not in it (R108). -/
def State.faultPorts (s : State) (v : Fin 8) : List Port :=
  let set := allPorts.filter (s.inDomain (posDomain v))
  match (s.pos v).port with
  | some p => if set.contains p then set else set ++ [p]
  | none => set

/-- A positioner enters FAULT: no position, its slot or queue place given up, POS_FAULT posted, no requesting port (R103, R105,
R106, R108). -/
def State.enterFault (s : State) (v : Fin 8) (cause : FaultCause) : State :=
  let stopped := s.setPos v { s.pos v with state := .fault, position := none, intent := none, cause := some cause, stepTimer := none }
  let freed := (stopped.leaveTravelQueue v).freeTravelSlot v
  let told := freed.postAll (freed.faultPorts v) .posFault v.val cause.code
  told.setPos v { told.pos v with port := none }

/-! ### Travel steps (R99, R105) -/

/-- One step of a position toward a target. -/
def stepToward (position target : Nat) : Nat :=
  if position < target then position + 1 else if target < position then position - 1 else position

/-- The ENDSTOP checks of a positioner in TRAVEL, and the end of a travel that stands at its target. `stepped` says that they
follow a step, after which the step timer restarts. -/
def State.checkEndstop (s : State) (v : Fin 8) (stepped : Bool) : State :=
  let r := s.pos v
  let position := r.position.getD 0
  if r.endstop && 20 < position then s.enterFault v .slip
  else
    let corrected := if r.endstop && r.target < position then 0 else position
    let placed := s.setPos v { r with
      position := some corrected
      stepTimer := if stepped then some (s.stepInterval v) else r.stepTimer }
    if corrected = r.target && (stepped || corrected != position) then placed.endTravel v else placed

/-- The expiry of the step timer of a positioner in TRAVEL: one step, and the checks. -/
def State.travelStep (s : State) (v : Fin 8) : State :=
  let r := s.pos v
  let position := r.position.getD 0
  let moved := s.setPos v { r with
    dirOpen := decide (position < r.target), pulses := r.pulses + 1, position := some (stepToward position r.target) }
  moved.checkEndstop v true

/-! ### Homing steps (R103) -/

/-- The expiry of the step timer of a positioner in HOMING: one step, counted, and the failure at 1100. -/
def State.homingStep (s : State) (v : Fin 8) : State :=
  let r := s.pos v
  let count := countTo 1100 r.homingCount
  let moved := s.setPos v { r with
    dirOpen := false, pulses := r.pulses + 1, homingCount := count, stepTimer := some (s.stepInterval v) }
  if count = 1100 && !r.endstop then moved.enterFault v .homeFail else moved

/-! ### Inputs (R103, R105, R106) -/

/-- ENDSTOP has become active: a homing succeeds, a travel is checked, in any other state only the input is seen. -/
def State.endstopRises (s : State) (v : Fin 8) : State :=
  let seen := s.setPos v { s.pos v with endstop := true }
  match (s.pos v).state with
  | .homing => seen.endHoming v
  | .travel => seen.checkEndstop v false
  | _ => seen

/-- DRVFAULT has become active: FAULT with cause DRIVER, in any state. -/
def State.drvfaultRises (s : State) (v : Fin 8) : State :=
  (s.setPos v { s.pos v with drvfault := true }).enterFault v .driver

/-! ### MOVE (R100, R101) -/

/-- A present requesting port is told MOVE_SUPERSEDED with a value. -/
def State.supersede (s : State) (v : Fin 8) (value : Int) : State := s.postTo (s.pos v).port .moveSuperseded v.val value

/-- The work of a positioner in TRAVEL or WAITING ends because its target is its position: it enters IDLE and gives up its slot
or its queue place (R101, R110). -/
def State.settleHere (s : State) (v : Fin 8) : State :=
  let idle := s.setPos v { s.pos v with state := .idle, intent := none, stepTimer := none }
  (idle.leaveTravelQueue v).freeTravelSlot v

/-- A MOVE of a positioner in TRAVEL, or in WAITING with intent MOVE (R101). -/
def State.retarget (s : State) (port : Port) (v : Fin 8) (target : Nat) : Handled :=
  let told := s.supersede v (s.pos v).target
  let aimed := told.setPos v { told.pos v with target := target, port := some port }
  if (s.pos v).position = some target then okay ((aimed.settleHere v).tellRequester v .moveDone target)
  else accepted aimed

/-- MOVE as the positioner unit judges it. -/
def handleMove (s : State) (port : Port) (payload : List Byte) : Handled :=
  match indexBelow 8 (readU8 payload 0) with
  | none => refuse s .badArg
  | some v =>
    let target := clampNat 0 1023 (readU16 payload 1)
    let r := s.pos v
    if !r.manual then refuse s .wrongMode
    else
      match r.state with
      | .unhomed | .homing | .fault => refuse s .notHomed
      | .waiting => if r.intent = some .home then refuse s .busy else s.retarget port v target
      | .travel => s.retarget port v target
      | .idle =>
        if r.position = some target then
          okay ((s.setPos v { r with target := target }).post port .moveDone v.val target)
        else accepted ((s.setPos v { r with target := target, port := some port }).seekTravel v)

/-! ### HOME (R102 to R104) -/

/-- The value of the MOVE_SUPERSEDED record when a HOME replaces the work in flight: the replaced target for a MOVE, -1 for a
HOME. -/
def Positioner.replacedValue (r : Positioner) : Int :=
  match r.state with
  | .travel => r.target
  | .waiting => if r.intent = some .home then -1 else r.target
  | _ => -1

/-- A HOME that finds ENDSTOP active completes at once, in any state (R104). -/
def State.homeAtEndstop (s : State) (port : Port) (v : Fin 8) : State :=
  let told := s.supersede v (s.pos v).replacedValue
  let homed := (told.setPos v { told.pos v with port := none }).stopHomed v
  ((homed.leaveTravelQueue v).freeTravelSlot v).post port .homeDone v.val 0

/-- A HOME acts by the positioner's state (R102). -/
def State.startHome (s : State) (port : Port) (v : Fin 8) : State :=
  let told := s.supersede v (s.pos v).replacedValue
  let asked := told.setPos v { told.pos v with port := some port }
  match (s.pos v).state with
  | .travel => asked.beginHoming v
  | .homing => asked
  | .idle => asked.seekHoming v
  | .waiting => asked.setPos v { asked.pos v with intent := some .home }
  | .unhomed | .fault => if s.queued v then asked else asked.seekHoming v

/-- HOME as the positioner unit judges it. -/
def handleHome (s : State) (port : Port) (payload : List Byte) : Handled :=
  match indexBelow 8 (readU8 payload 0) with
  | none => refuse s .badArg
  | some v =>
    if (s.pos v).drvfault || !s.ownerLoaded v then refuse s .notReady
    else if (s.pos v).endstop then okay (s.homeAtEndstop port v)
    else accepted (s.startHome port v)

/-! ### POS_MODE (R109) -/

/-- POS_MODE as the positioner unit judges it; a change to AUTO sets the retarget flag. -/
def handlePosMode (s : State) (payload : List Byte) : Handled :=
  match indexBelow 8 (readU8 payload 0), twoValued (readU8 payload 1) with
  | some v, some manual =>
    let r := s.pos v
    if r.manual = manual then okay s
    else okay (s.setPos v { r with manual := manual, retarget := r.retarget || !manual })
  | _, _ => refuse s .badArg

/-! ### Automatic targets and the exit from START (R110, R111) -/

/-- The positioner takes automatic targets now: AUTO, homed and not waiting to home. -/
def Positioner.followsPool (r : Positioner) : Bool :=
  !r.manual &&
    match r.state with
    | .idle | .travel => true
    | .waiting => r.intent != some .home
    | .unhomed | .homing | .fault => false

/-- Two targets differ by 8 or more. -/
def outsideDeadband (a b : Nat) : Bool := decide (a + 8 ≤ b) || decide (b + 8 ≤ a)

/-- An automatic target that differs from the target held is applied. -/
def State.applyTarget (s : State) (v : Fin 8) (target : Nat) : State :=
  let r := s.pos v
  match r.state with
  | .idle =>
    let aimed := s.setPos v { r with target := target, port := none }
    if r.position = some target then aimed else aimed.seekTravel v
  | _ =>
    let told := s.supersede v r.target
    let aimed := told.setPos v { told.pos v with target := target, port := none }
    if r.position = some target then aimed.settleHere v else aimed

/-- The heat pool's target for one positioner at a round end; the retarget flag becomes clear in every case. -/
def State.autoTarget (s : State) (v : Fin 8) (target : Nat) : State :=
  let r := s.pos v
  let applied :=
    if r.followsPool && (r.retarget || outsideDeadband target r.target) && target != r.target then s.applyTarget v target else s
  applied.setPos v { applied.pos v with retarget := false }

/-- The homing of one positioner on the exit from START: only one that is UNHOMED and not queued, with no requesting port. -/
def State.autoHome (s : State) (v : Fin 8) : State :=
  if (s.pos v).state = .unhomed && !s.queued v then
    if (s.pos v).endstop then s.stopHomed v else s.seekHoming v
  else s

/-- Automatic homing, in ascending order. -/
def State.autoHomeAll (s : State) : State := all8.foldl State.autoHome s

end Sys2Proof.Machine
end

