-- ==== Sys2Proof/Machine/Zones.lean ====
section
/-! DEFINITION. The zone controller (Chapter 5): demand, switching and proving, automatic switching, the fail-over, and the
requests ZONE_SET, ZONE_LOCK and ZONE_SOURCE as the controller judges them. -/

namespace Sys2Proof.Machine

/-- Zone `z`. -/
def State.zone (s : State) (z : Fin 4) : Zone := pick s.zones z

/-- The building profile's fields of zone `z`. -/
def State.zoneProfile (s : State) (z : Fin 4) : ZoneProfile := pick s.building.zones z

/-! ### Demand (R81) -/

/-- The request of a zone after one demand update. -/
def State.demand (s : State) (z : Fin 4) : Nat :=
  let zn := s.zone z
  let q := s.zoneProfile z
  match s.published (probeZone z) with
  | none => min q.max zn.request
  | some t =>
    let err := s.effectiveSet zn - t
    if err ≤ 0 then 0 else min q.max ((q.gain : Int) * err / 10).toNat

/-- One demand update for every zone. -/
def State.updateDemand (s : State) : State :=
  all4.foldl (fun s z => s.setZone z { s.zone z with request := s.demand z }) s

/-! ### Completing a switch (R88) -/

/-- A record of a zone to port B, and to a further port when it is present and is not B. -/
def State.postZone (s : State) (port : Option Port) (kind : RecordKind) (z : Fin 4) (value : Source) : State :=
  let toB := s.post .portB kind z.val value.code
  if port = some .portB then toB else toB.postTo port kind z.val value.code

/-- The zone with no switch pending. -/
def Zone.steadied (zn : Zone) : Zone := { zn with switch := .steady, port := none }

/-- The proving of a zone passes, and its current source becomes the source proved. -/
def State.completeSwitch (s : State) (z : Fin 4) : State :=
  let zn := s.zone z
  match zn.switch with
  | .steady => s
  | .provingLoop _ =>
    (s.setZone z { zn.steadied with source := .recovered, fallback := false, surplus := 0 }).postZone
      zn.port .sourceSwitched z .recovered
  | .provingBoiler _ =>
    (s.setZone z { zn.steadied with source := .boiler, starved := 0 }).postZone zn.port .sourceSwitched z .boiler

/-- A zone that proves the boiler completes at once when BOILER_PROVEN is active (R87). -/
def State.readProven (s : State) (z : Fin 4) : State :=
  match (s.zone z).switch with
  | .provingBoiler _ => if s.boilerProven then s.completeSwitch z else s
  | _ => s

/-! ### Starting a switch (R85) -/

/-- The earlier requester of a pending switch, if any, is told that it is superseded. -/
def State.supersedeSwitch (s : State) (z : Fin 4) : State :=
  let zn := s.zone z
  match zn.requested with
  | some source => s.postTo zn.port .switchSuperseded z.val source.code
  | none => s

/-- A switch of a zone to RECOVERED or BOILER is started for a port, or automatically. -/
def State.startSwitch (s : State) (z : Fin 4) (toBoiler : Bool) (port : Option Port) : State :=
  let told := s.supersedeSwitch z
  let proving : Switch := if toBoiler then .provingBoiler 120 else .provingLoop 0
  (told.setZone z { told.zone z with switch := proving, port := port }).readProven z

/-! ### Proving at a tick (R86, R87) -/

/-- At this moment the loop counts toward a zone's proving. -/
def State.loopCarries (s : State) (z : Fin 4) : Bool :=
  !s.pool.loopFail &&
    match s.published probeW0 with
    | some w => decide ((s.zoneProfile z).minSupply ≤ w)
    | none => false

/-- The loop run of a zone after one more tick. -/
def State.nextLoopRun (s : State) (z : Fin 4) (run : Nat) : Nat := if s.loopCarries z then countTo 30 run else 0

/-- The pending switch is a fallback: an automatic one from RECOVERED to BOILER. -/
def Zone.fallingBack (zn : Zone) : Bool := zn.source == .recovered && zn.port.isNone

/-- The boiler has not proved in time: SWITCH_TIMEOUT, and the zone stays on its current source (R87). A fallback that ends so
needs three more starved rounds before the next (R92), so the count begins again (log entry 18). -/
def State.switchTimeout (s : State) (z : Fin 4) : State :=
  let zn := s.zone z
  (s.postZone zn.port .switchTimeout z zn.source).setZone z
    { zn.steadied with starved := if zn.fallingBack then 0 else zn.starved }

/-- One zone at a device second tick. -/
def State.tickZone (s : State) (z : Fin 4) : State :=
  let zn := s.zone z
  match zn.switch with
  | .steady => s
  | .provingLoop run =>
    let next := s.nextLoopRun z run
    let counted := s.setZone z { zn with switch := .provingLoop next }
    if next = 30 then counted.completeSwitch z else counted
  | .provingBoiler left =>
    if left ≤ 1 then s.switchTimeout z else s.setZone z { zn with switch := .provingBoiler (left - 1) }

/-- The zones at a device second tick, in ascending order. -/
def State.tickZones (s : State) : State := all4.foldl State.tickZone s

/-! ### Automatic switching at a round end (R90 to R93) -/

/-- What a round hands over about one zone. -/
structure ZoneRound where
  delivered : Nat
  grant     : Nat
  short     : Bool
  charge    : Nat
deriving DecidableEq, Repr

/-- The delivered heat and the two counts of a zone at a round end. -/
def Zone.counted (zn : Zone) (r : ZoneRound) : Zone :=
  { zn with
    delivered := r.delivered
    starved := if zn.source = .recovered && r.short && r.grant == 0 then countTo 3 zn.starved else 0
    surplus := if zn.source = .boiler && zn.fallback && decide (zn.request ≤ r.charge) then countTo 10 zn.surplus else 0 }

/-- One zone at a round end: its counts, then the automatic start, the fallback or the return. -/
def State.zoneRoundEnd (s : State) (z : Fin 4) (r : ZoneRound) : State :=
  let counted := s.setZone z ((s.zone z).counted r)
  let zn := counted.zone z
  let free := zn.switch == .steady && !zn.locked
  match zn.source with
  | .off => if 0 < zn.request && free && !s.pool.loopFail then counted.startSwitch z false none else counted
  | .recovered =>
    if zn.starved == 3 && free then
      (counted.setZone z { zn with fallback := true, starved := 0 }).startSwitch z true none
    else counted
  | .boiler =>
    if zn.fallback && zn.surplus == 10 && free && !s.pool.loopFail then
      (counted.setZone z { zn with surplus := 0 }).startSwitch z false none
    else counted

/-! ### Fail-over (R94) -/

/-- The fail-over acts on the zone: it is on RECOVERED, or proves toward it. -/
def Zone.failsOver (zn : Zone) : Bool :=
  zn.source == .recovered || (match zn.switch with | .provingLoop _ => true | _ => false)

/-- The fail-over of one zone: OFF, proving to the boiler; a switch to the boiler that is already pending is kept with its time
and its port. SOURCE_FAIL goes to B and to the port of the pending switch. -/
def State.failOverZone (s : State) (z : Fin 4) : State :=
  let zn := s.zone z
  if zn.failsOver then
    let kept := match zn.switch with
      | .provingBoiler _ => true
      | _ => false
    let off := { zn with
      source := .off, fallback := true, starved := 0, surplus := 0
      switch := if kept then zn.switch else .provingBoiler 120
      port := if kept then zn.port else none }
    ((s.setZone z off).postZone zn.port .sourceFail z zn.source).readProven z
  else s

/-- The fail-over of the zones, in ascending order. -/
def State.failOver (s : State) : State := all4.foldl State.failOverZone s

/-- BOILER_PROVEN has become active: every zone in PROVING_BOILER completes, in ascending order (R87). -/
def State.provenRises (s : State) : State := all4.foldl State.readProven { s with boilerProven := true }

/-! ### Requests -/

/-- ZONE_SET (R82). -/
def handleZoneSet (s : State) (payload : List Byte) : Handled :=
  match indexBelow 4 (readU8 payload 0), twoValued (readU8 payload 5) with
  | some z, some occupied =>
    okay (s.setZone z { s.zone z with
      occupiedSet := clampInt 50 300 (readS16 payload 1), setbackSet := clampInt 50 300 (readS16 payload 3),
      occupied := occupied })
  | _, _ => refuse s .badArg

/-- ZONE_LOCK (R83). -/
def handleZoneLock (s : State) (payload : List Byte) : Handled :=
  match indexBelow 4 (readU8 payload 0), twoValued (readU8 payload 1) with
  | some z, some on => okay (s.setZone z { s.zone z with locked := on })
  | _, _ => refuse s .badArg

/-- ZONE_SOURCE (R84, R85). A zone that it starts toward BOILER has its fallback flag clear (R93); a cancelled switch, and one to
RECOVERED, leave the flag as it stands (log entry 19). -/
def handleZoneSource (s : State) (port : Port) (payload : List Byte) : Handled :=
  match indexBelow 4 (readU8 payload 0), requestableSource (readU8 payload 1) with
  | some z, some source =>
    let zn := s.zone z
    if s.surface.mode = .start then refuse s .wrongMode
    else if zn.locked then refuse s .lockedResult
    else if source = .recovered && s.pool.loopFail then refuse s .notReady
    else if zn.source = source then
      if zn.switch = .steady then okay s
      else okay ((s.supersedeSwitch z).setZone z zn.steadied)
    else
      let asked := s.setZone z { zn with fallback := zn.fallback && source != .boiler }
      accepted (asked.startSwitch z (source == .boiler) (some port))
  | _, _ => refuse s .badArg

end Sys2Proof.Machine
end

