-- ==== Sys2Proof/Machine/Pool.lean ====
section
/-! DEFINITION. The heat pool (Chapter 4): the allocation round stage by stage, the loop failure monitor, and the requests
RESURF_PREHEAT, CLAIM_MANUAL and CLAIM_AUTO as the pool judges them. -/

namespace Sys2Proof.Machine

/-! ### Claims (Table 4-1, R59 to R61) -/

/-- Claim record of a consumer. -/
def State.claim (s : State) (c : Fin 8) : Claim := pick s.pool.claims c

/-- Claim record of a consumer replaced. -/
def State.setClaim (s : State) (c : Fin 8) (x : Claim) : State :=
  { s with pool := { s.pool with claims := put s.pool.claims c x } }

/-- SUBSOIL. -/
def subsoil : Fin 8 := 0
/-- DESICCANT. -/
def desiccant : Fin 8 := 1
/-- The consumer of zone `z`. -/
def zoneConsumer (z : Fin 4) : Fin 8 := ⟨2 + z.val, by omega⟩
/-- RESURF_WATER. -/
def resurfWater : Fin 8 := 6
/-- STORAGE. -/
def storage : Fin 8 := 7

/-- The zone of a consumer, for the four that are zones. -/
def consumerZone (c : Fin 8) : Option (Fin 4) :=
  match c.val with
  | 2 => some 0
  | 3 => some 1
  | 4 => some 2
  | 5 => some 3
  | _ => none

/-- A consumer's maximum in the profile in force. -/
def State.consumerMax (s : State) (c : Fin 8) : Nat :=
  match consumerZone c with
  | some z => (s.zoneProfile z).max
  | none =>
    match c.val with
    | 0 => s.plant.subsoilKW
    | 1 => s.building.regenMax
    | 6 => s.plant.resurfKW
    | _ => s.plant.tankKW

/-- The subsoil demand from G0 (R60). -/
def State.nextSubsoilDemand (s : State) : Bool :=
  match s.published probeG0 with
  | none => true
  | some g =>
    if g < s.plant.subsoilSet then true
    else if s.plant.subsoilSet + 5 ≤ g then false
    else s.pool.subsoilDemand

/-- The automatic request of a consumer (R60 to R62). -/
def State.autoRequest (s : State) (c : Fin 8) : Nat :=
  match consumerZone c with
  | some z => (s.zone z).request
  | none =>
    match c.val with
    | 0 => if s.pool.subsoilDemand then s.plant.subsoilKW else 0
    | 1 => s.fog.request
    | 6 => if s.surface.mode = .resurface || s.pool.preheat then s.plant.resurfKW else 0
    | _ => 0

/-- A zone's claim, automatic or manual, is 0 unless its current source is RECOVERED (R61). -/
def State.claimOpen (s : State) (c : Fin 8) : Bool :=
  match consumerZone c with
  | some z => (s.zone z).source == .recovered
  | none => true

/-- The request of a claim as a round fixes it (R59). -/
def State.fixedRequest (s : State) (c : Fin 8) : Nat :=
  let wanted := match (s.claim c).origin with
    | .auto => s.autoRequest c
    | .manual _ => (s.claim c).manualRequest
  if s.claimOpen c then min wanted (s.consumerMax c) else 0

/-- The minimum of a claim as a round fixes it: the source minimum clamped to the fixed request (R59). -/
def State.fixedMinimum (s : State) (c : Fin 8) : Nat :=
  let source := match (s.claim c).origin with
    | .manual _ => (s.claim c).manualMinimum
    | .auto =>
      match consumerZone c with
      | some z => (s.zoneProfile z).min
      | none => if c = desiccant then s.building.regenMin else s.fixedRequest c
  min source (s.fixedRequest c)

/-- The consumers 0..6. -/
def claimants : List (Fin 8) := [0, 1, 2, 3, 4, 5, 6]

/-- Every claim's request and minimum fixed for the round. -/
def State.fixClaims (s : State) : State :=
  claimants.foldl
    (fun t c => t.setClaim c { t.claim c with request := s.fixedRequest c, minimum := s.fixedMinimum c }) s

/-! ### Tiers (R67, R68) -/

/-- One kW more to each claim with a nonzero request, in turn, until the remainder is used up. -/
def spread : Nat → List (Nat × Nat) → List Nat
  | _, [] => []
  | rest, (r, g) :: more =>
    if 0 < r && 0 < rest then (g + 1) :: spread (rest - 1) more else g :: spread rest more

/-- The proportional and remainder grants of a tier from a supply. -/
def tierShares (supply : Nat) (requests : List Nat) : List Nat :=
  let total := requests.sum
  if total ≤ supply then requests
  else
    let floors := requests.map (fun r => supply * r / total)
    spread (supply - floors.sum) (requests.zip floors)

/-- A grant below its minimum is 0 instead. -/
def atLeast (minimum grant : Nat) : Nat := if grant < minimum then 0 else grant

/-- The grants of a tier that stand, from its claims' requests and minimums. -/
def tierGrants (supply : Nat) (claims : List (Nat × Nat)) : List Nat :=
  ((claims.map Prod.snd).zip (tierShares supply (claims.map Prod.fst))).map (fun x => atLeast x.1 x.2)

/-- One tier is served from the supply: its claims take their grants, and what is left of the supply is handed on. -/
def State.serveTier (acc : State × Nat) (tier : List (Fin 8)) : State × Nat :=
  let grants := tierGrants acc.2 (tier.map (fun c => ((acc.1.claim c).request, (acc.1.claim c).minimum)))
  ((tier.zip grants).foldl (fun t x => t.setClaim x.1 { t.claim x.1 with grant := x.2 }) acc.1, acc.2 - grants.sum)

/-- The consumers of tier 2. -/
def tier2 : List (Fin 8) := [2, 3, 4, 5]

/-! ### The spill cap (R69) -/

/-- A zone's delivered heat before the cap. -/
def State.offered (s : State) (z : Fin 4) : Nat :=
  match (s.zone z).source with
  | .recovered => (s.claim (zoneConsumer z)).grant
  | .boiler => (s.zone z).request
  | .off => 0

/-- The zones' spill before the cap. -/
def State.zoneSpill (s : State) : Nat := (all4.map (fun z => s.offered z * (s.zoneProfile z).spill)).sum

/-- The minimum that a zone's delivered heat is held against after the cap. -/
def State.deliveredMinimum (s : State) (z : Fin 4) : Nat :=
  match (s.zone z).source with
  | .recovered => (s.claim (zoneConsumer z)).minimum
  | .boiler => min (s.zoneProfile z).min (s.zone z).request
  | .off => 0

/-- A zone's delivered heat under a spill budget. -/
def State.capped (s : State) (budget : Nat) (z : Fin 4) : Nat :=
  let offered := s.offered z
  let spill := s.zoneSpill
  let reduced := if budget = 0 then 0 else if budget < spill then offered * budget / spill else offered
  atLeast (s.deliveredMinimum z) reduced

/-- The spill budget of a round from the ceiling held by the governor. -/
def State.spillBudgetNow (s : State) : Nat := s.governor.ceiling * s.plant.spillShare / 1000

/-- The spill cap: delivered heat, the round spill, and the grants of the zones on RECOVERED, with what they free. -/
def State.applyCap (acc : State × Nat) : State × Nat :=
  let s := acc.1
  let budget := s.spillBudgetNow
  let freed := (all4.map (fun z =>
    if (s.zone z).source = .recovered then (s.claim (zoneConsumer z)).grant - s.capped budget z else 0)).sum
  let granted := all4.foldl
    (fun t z => if (s.zone z).source = .recovered then
        t.setClaim (zoneConsumer z) { t.claim (zoneConsumer z) with grant := s.capped budget z } else t) s
  let delivered := all4.foldl (fun t z => t.setZone z { t.zone z with delivered := s.capped budget z }) granted
  let spill := (all4.map (fun z => s.capped budget z * (s.zoneProfile z).spill)).sum
  ({ delivered with pool := { delivered.pool with spillBudget := budget, roundSpill := spill } }, acc.2 + freed)

/-! ### Supply, storage, short rounds and targets (R66, R70 to R72) -/

/-- The supply record of a round, and the supply S. -/
def State.formSupply (s : State) : State × Nat :=
  let qAvail := if s.pool.loopFail || s.surface.plantStale then 0 else s.handedQRec
  let allowance := match s.published probeW2 with
    | some w => if s.plant.tankUsable ≤ w && !s.pool.loopFail then s.plant.dischargeLimit else 0
    | none => 0
  let rAll := (claimants.map (fun c => (s.claim c).request)).sum
  let drawn := min allowance (rAll - qAvail)
  ({ s with pool := { s.pool with qAvail := qAvail, allowance := allowance, rAll := rAll, drawn := drawn } }, qAvail + drawn)

/-- What remains of the supply goes to storage when nothing was drawn. -/
def State.chargeStorage (acc : State × Nat) : State :=
  let s := acc.1
  let charge := if s.pool.drawn = 0 then acc.2 else 0
  let stored := { s with pool := { s.pool with charge := charge, discharging := decide (0 < s.pool.drawn) } }
  stored.setClaim storage { stored.claim storage with grant := charge }

/-- A claim's short-round count after a round. -/
def Claim.countShort (c : Claim) : Claim :=
  { c with shortCount := if c.grant < c.request then countTo 255 c.shortCount else 0 }

/-- The short-round counts of the claims 0..6. -/
def State.countShorts (s : State) : State :=
  claimants.foldl (fun t c => t.setClaim c (t.claim c).countShort) s

/-- A valve target: min(1023, floor(amount × 1023 / cmax)), and 0 when cmax is 0. -/
def valveTarget (amount cmax : Nat) : Nat := if cmax = 0 then 0 else min 1023 (amount * 1023 / cmax)

/-- The target of each positioner (Table 4-5). -/
def State.roundTarget (s : State) (v : Fin 8) : Nat :=
  match v.val with
  | 0 => valveTarget (if 0 < s.pool.drawn then s.pool.drawn else s.pool.charge) s.plant.tankKW
  | 1 => valveTarget (s.claim subsoil).grant s.plant.subsoilKW
  | 2 => valveTarget (s.claim desiccant).grant s.building.regenMax
  | 3 => valveTarget (s.claim resurfWater).grant s.plant.resurfKW
  | 4 => valveTarget (s.zone 0).delivered (s.zoneProfile 0).max
  | 5 => valveTarget (s.zone 1).delivered (s.zoneProfile 1).max
  | 6 => valveTarget (s.zone 2).delivered (s.zoneProfile 2).max
  | _ => valveTarget (s.zone 3).delivered (s.zoneProfile 3).max

/-! ### The round (R65, R73) -/

/-- The stages of a round up to its end: every grant, the charge, the direction and the counts. -/
def State.allocate (s : State) : State :=
  let asked := s.updateDemand
  let demanded := { asked with pool := { asked.pool with subsoilDemand := asked.nextSubsoilDemand } }
  let supplied := demanded.fixClaims.formSupply
  let tiered := State.serveTier (State.serveTier (State.serveTier supplied [subsoil]) [desiccant]) tier2
  let stored := State.chargeStorage (State.serveTier (State.applyCap tiered) [resurfWater])
  let counted := stored.countShorts
  { counted with pool := { counted.pool with roundTimer := some 5000, roundCount := counted.pool.roundCount + 1 } }

/-- What the round hands the zone controller about a zone. -/
def State.zoneResult (s : State) (z : Fin 4) : ZoneRound :=
  let c := s.claim (zoneConsumer z)
  { delivered := (s.zone z).delivered, grant := c.grant, short := decide (c.grant < c.request), charge := s.pool.charge }

/-- The round end: the fog unit, the zone controller, the positioner unit and the governor, in this order. -/
def State.handOn (s : State) : State :=
  let fogged := s.fogRoundEnd (s.claim desiccant).grant
  let zoned := all4.foldl (fun t z => t.zoneRoundEnd z (s.zoneResult z)) fogged
  let aimed := all8.foldl (fun t v => t.autoTarget v (s.roundTarget v)) zoned
  aimed.evaluateRound s.pool.roundSpill

/-- One allocation round. While the round timer is stopped, in START, there is none (R58). -/
def State.allocationRound (s : State) : State :=
  match s.pool.roundTimer with
  | none => s
  | some _ => s.allocate.handOn

/-! ### The loop failure monitor (R74 to R76) -/

/-- Why LOOP_FAIL sets. -/
inductive LoopCause where
  | unusable | low
deriving DecidableEq, Repr

/-- The published value of W0, usable or not, as the records report it. -/
def State.loopSupply (s : State) : Int := (pick s.scanner.probes probeW0).pubValue

/-- The runs of the monitor after one more tick with LOOP_FAIL clear. -/
def State.countLoopRuns (s : State) : State :=
  match s.published probeW0 with
  | none => { s with pool := { s.pool with unusableRun := countTo 10 s.pool.unusableRun, lowRun := 0 } }
  | some w =>
    { s with pool := { s.pool with
        unusableRun := 0
        lowRun := if w < s.building.loopFailThreshold then countTo 10 s.pool.lowRun else 0 } }

/-- The restore run after one more tick with LOOP_FAIL set. -/
def State.countRestoreRun (s : State) : State :=
  let next := match s.published probeW0 with
    | some w => if s.building.loopFailThreshold + 30 ≤ w then countTo 30 s.pool.restoreRun else 0
    | none => 0
  { s with pool := { s.pool with restoreRun := next } }

/-- The run that has reached 10, if one has. -/
def Pool.failureDue (q : Pool) : Option LoopCause :=
  if q.unusableRun = 10 then some .unusable else if q.lowRun = 10 then some .low else none

/-- LOOP_FAIL sets: the flag, the record, the zones' fail-over, and the fog unit's judgement, in this order (R75). The runs go to 0
(log entry 13). -/
def State.setLoopFail (s : State) (cause : LoopCause) : State :=
  let set := { s with pool := { s.pool with loopFail := true, restoreRun := 0, unusableRun := 0, lowRun := 0 } }
  let code := match cause with
    | .unusable => 0
    | .low => 1
  ((set.postAll [.portP, .portB] .loopFail code s.loopSupply).failOver).judgeFogBackup

/-- LOOP_FAIL clears (R76); the restore run goes to 0 (log entry 13). -/
def State.clearLoopFail (s : State) : State :=
  let cleared := { s with pool := { s.pool with loopFail := false, restoreRun := 0 } }
  (cleared.postAll [.portP, .portB] .loopRestored 0 s.loopSupply).judgeFogBackup

/-- The monitor when a run has reached its limit. -/
def State.settleMonitor (s : State) : State :=
  if s.pool.loopFail then (if s.pool.restoreRun = 30 then s.clearLoopFail else s)
  else
    match s.pool.failureDue with
    | some cause => s.setLoopFail cause
    | none => s

/-- The monitor's counts at one device second tick. -/
def State.countMonitor (s : State) : State := if s.pool.loopFail then s.countRestoreRun else s.countLoopRuns

/-- The monitor at a device second tick; it does not run in START. -/
def State.tickMonitor (s : State) : State :=
  if s.surface.mode = .start then s else s.countMonitor.settleMonitor

/-! ### Requests -/

/-- RESURF_PREHEAT (R62). -/
def handleResurfPreheat (s : State) (payload : List Byte) : Handled :=
  match twoValued (readU8 payload 0) with
  | some on => okay { s with pool := { s.pool with preheat := on } }
  | none => refuse s .badArg

/-- The profile that gives a consumer's maximum is valid (R63). -/
def State.maximumKnown (s : State) (c : Fin 8) : Bool :=
  if c = subsoil || c = resurfWater then s.surface.plantValid else s.surface.buildingValid

/-- CLAIM_MANUAL (R63). -/
def handleClaimManual (s : State) (port : Port) (payload : List Byte) : Handled :=
  match indexBelow 8 (readU8 payload 0) with
  | none => refuse s .badArg
  | some c =>
    if c = storage then refuse s .badArg
    else if !s.maximumKnown c then refuse s .notReady
    else
      let request := min (readU16 payload 1) (s.consumerMax c)
      okay (s.setClaim c { s.claim c with
        manualRequest := request, manualMinimum := min (readU16 payload 3) request, origin := .manual port })

/-- CLAIM_AUTO (R64). -/
def handleClaimAuto (s : State) (payload : List Byte) : Handled :=
  match indexBelow 8 (readU8 payload 0) with
  | none => refuse s .badArg
  | some c =>
    if c = storage then refuse s .badArg
    else okay (s.setClaim c { s.claim c with origin := .auto, manualRequest := 0, manualMinimum := 0 })

end Sys2Proof.Machine
end

