-- ==== Sys2Proof/Machine/Surface.lean ====
section
/-! DEFINITION. The surface controller (Chapter 2): transitions, the exit from START, the profiles, the plant report, the slab
survey, and the requests SURFACE_MODE, LOAD_PROFILE, PLANT_REPORT and SLAB_SCAN as the controller judges them. -/

namespace Sys2Proof.Machine

/-! ### Transitions (R19, R20) -/

/-- Whether a transition was asked for or made by the part itself. -/
inductive Cause where
  | request | auto
deriving DecidableEq, Repr

/-- The value of a SURFACE_CHANGED record: new mode + 256 × cause (R177). -/
def changeValue (mode : Mode) (cause : Cause) : Int :=
  mode.code + 256 * (match cause with | .request => 0 | .auto => 1)

/-- The slot's class is one that the mode does not allow, and it waits in DELAY or WAITING_HEADROOM. -/
def Slot.forbiddenBy (sl : Slot) (mode : Mode) : Bool :=
  (sl.state == .delay || sl.state == .waitingHeadroom) &&
    match sl.cls with
    | some c => !mode.allows c
    | none => false

/-- The slots that the new mode forbids are freed, in ascending order, with CUE_MODE. -/
def State.freeForbidden (s : State) : State :=
  all8.foldl (fun s n => if (s.slot n).forbiddenBy s.surface.mode then s.endSlot n .cueMode else s) s

/-- Leaving and entering PREP: READY and the in-band run. -/
def Surface.crossPrep (q : Surface) (old new : Mode) : Surface :=
  if old = .prep ∨ new = .prep then { q with ready := false, inBand := 0 } else q

/-- Leaving and entering PLAY: SOFT_ICE and its runs. -/
def Surface.crossPlay (q : Surface) (old new : Mode) : Surface :=
  if old = .play then { q with softIce := false, aboveRun := 0, belowRun := 0 }
  else if new = .play then { q with aboveRun := 0, belowRun := 0 }
  else q

/-- Entering and leaving RESURFACE: the resurface timer, in seconds from the profile's minutes. -/
def Surface.crossResurface (q : Surface) (old new : Mode) (maxMinutes : Nat) : Surface :=
  if new = .resurface then { q with resurfaceTimer := some (maxMinutes * 60) }
  else if old = .resurface then { q with resurfaceTimer := none }
  else q

/-- The mode-dependent flags after a transition; a SOFT_ICE that was set is posted as cleared to port P. -/
def State.crossFlags (s : State) (old new : Mode) : State :=
  let hadSoft := old = .play && s.surface.softIce
  let crossed := { s with surface :=
    ((s.surface.crossPrep old new).crossPlay old new).crossResurface old new s.plant.resurfaceMax }
  if hadSoft then crossed.post .portP .softIce 0 0 else crossed

/-- What the other blocks do when RESURFACE or START is left (R62, R58, R111). -/
def State.announceLeaving (s : State) (old : Mode) : State :=
  match old with
  | .resurface => { s with pool := { s.pool with preheat := false } }
  | .start => { s with pool := { s.pool with roundTimer := some 5000 } }.autoHomeAll
  | _ => s

/-- A transition of the surface mode, with all its effects. -/
def State.transition (s : State) (new : Mode) (cause : Cause) : State :=
  let old := s.surface.mode
  let moved := { s with surface := { s.surface with mode := new, dwell := 0 } }
  let told := moved.postAll allPorts .surfaceChanged old.code (changeValue new cause)
  (((told.freeForbidden).crossFlags old new).announceLeaving old).evaluate

/-- The exit from START, at the event that first finds calibration complete and all three profiles valid (R24). -/
def State.tryExitStart (s : State) : State :=
  let q := s.surface
  if q.mode = .start && q.calComplete && q.plantValid && q.buildingValid && q.lightingValid then s.transition .hold .auto
  else s

/-! ### SURFACE_MODE (R18) -/

/-- The requested transitions of Table 2-2. -/
def Mode.mayGo : Mode → Mode → Bool
  | .hold, .prep | .hold, .covered | .prep, .play | .prep, .hold | .play, .resurface | .play, .covered | .play, .hold
  | .resurface, .play | .covered, .prep | .covered, .hold => true
  | _, _ => false

/-- SURFACE_MODE as the surface controller judges it. -/
def handleSurfaceMode (s : State) (payload : List Byte) : Handled :=
  match Mode.ofCode (readU8 payload 0) with
  | none => refuse s .badArg
  | some new =>
    let q := s.surface
    if new = q.mode then okay s
    else if !q.mode.mayGo new then refuse s .wrongMode
    else if q.dwell < 60 then refuse s .tooSoon
    else if q.mode = .resurface ∧ q.dwell < 180 then refuse s .tooSoon
    else if q.mode = .prep ∧ new = .play ∧ q.ready = false then refuse s .notReady
    else okay (s.transition new .request)

/-! ### LOAD_PROFILE (R25 to R27) -/

/-- The plant profile, once kind and length are judged. -/
def loadPlant (s : State) (payload : List Byte) : Handled :=
  let record := readPlant payload
  if s.surface.mode ≠ .start ∧ s.surface.mode ≠ .hold then refuse s .wrongMode
  else if !record.ordered then refuse s .badArg
  else okay { s with plant := record.clamped, surface := { s.surface with plantValid := true } }.tryExitStart

/-- The building profile, once kind and length are judged. -/
def loadBuilding (s : State) (payload : List Byte) : Handled :=
  let record := readBuilding payload
  if !record.ordered then refuse s .badArg
  else okay { s with building := record.clamped, surface := { s.surface with buildingValid := true } }.tryExitStart

/-- Every channel with the coefficient and the flags of a lighting record. -/
def State.withLighting (s : State) (payload : List Byte) : State :=
  all96.foldl (fun s c => s.setChannel c ((s.channel c).withProfile payload c)) s

/-- The lighting profile, once kind and length are judged: accepted only with every fade slot FREE; one evaluation (R27). -/
def loadLighting (s : State) (payload : List Byte) : Handled :=
  if all8.any (fun n => (s.slot n).state != .free) then refuse s .busy
  else
    let loaded := { s with surface := { s.surface with lightingValid := true } }.withLighting payload
    okay loaded.evaluate.tryExitStart

/-- LOAD_PROFILE as the surface controller judges it; the kind is tied to the port (Table 2-4). -/
def handleLoadProfile (s : State) (port : Port) (payload : List Byte) : Handled :=
  match readU8 payload 0, port with
  | 0, .portP => loadPlant s payload
  | 1, .portB => loadBuilding s payload
  | 2, .portL => loadLighting s payload
  | 0, _ => refuse s .noAuthority
  | 1, _ => refuse s .noAuthority
  | 2, _ => refuse s .noAuthority
  | _, _ => refuse s .badArg

/-! ### The plant report (R28, R29) -/

/-- PLANT_REPORT as the surface controller judges it. -/
def handlePlantReport (s : State) (payload : List Byte) : Handled :=
  let report : PlantReport := ⟨clampNat 0 2000 (readU16 payload 0), clampNat 0 1500 (readU16 payload 2)⟩
  let stored := { s with surface := { s.surface with report := some report, reportAge := 0, plantStale := false } }
  let told := if s.surface.plantStale then stored.postAll [.portP, .portB] .plantFresh 0 0 else stored
  okay told.evaluate

/-- PLANT_STALE sets when it is clear, the mode is not START and the report age is above 30; the record's value is the age,
clamped to 32767 (R29, R177). -/
def State.judgeStale (s : State) : State :=
  if s.surface.mode ≠ .start ∧ 30 < s.surface.reportAge ∧ s.surface.plantStale = false then
    { s with surface := { s.surface with plantStale := true } }.postAll [.portP, .portB] .plantStale 0
      (min 32767 s.surface.reportAge : Nat)
  else s

/-! ### The slab survey (R31 to R33) -/

/-- The published values of the usable slab probes, each with its cell, in ascending order. -/
def State.slabCells (s : State) : List (Nat × Int) :=
  (List.finRange 20).filterMap (fun c =>
    (s.published ⟨c.val, by omega⟩).map (fun v => (c.val, v)))

/-- The statistics of a survey of at least one usable cell. -/
def slabStats (cells : List (Nat × Int)) : SlabStats :=
  let values := cells.map Prod.snd
  let n := values.length
  let hi := values.foldl max (values.headD 0)
  { n := n, mean := (2 * values.sum + n) / (2 * n), min := values.foldl min (values.headD 0), max := hi,
    maxCell := ((cells.find? (fun x => x.2 == hi)).map Prod.fst).getD 0 }

/-- READY and the in-band run at a pass end in PREP (R32). -/
def State.judgeReady (s : State) (mean : Int) : State :=
  let q := s.surface
  if s.plant.bandLow ≤ mean ∧ mean ≤ s.plant.bandHigh then
    let run := countTo 75 q.inBand
    if run = 75 ∧ q.ready = false then
      { s with surface := { q with inBand := run, ready := true } }.postAll [.portP, .portB] .prepReady 0 mean
    else { s with surface := { q with inBand := run } }
  else { s with surface := { q with inBand := 0, ready := false } }

/-- SOFT_ICE changes: both runs become 0, a record goes to P, and the governor is asked for one evaluation (R33). -/
def State.changeSoftIce (s : State) (on : Bool) : State :=
  ({ s with surface := { s.surface with softIce := on, aboveRun := 0, belowRun := 0 } }.post
    .portP .softIce 0 (if on then 1 else 0)).evaluate

/-- SOFT_ICE and its runs at a pass end in PLAY (R33). -/
def State.judgeSoftIce (s : State) (hottest : Int) : State :=
  let q := s.surface
  let above := if s.plant.softThreshold < hottest then countTo 3 q.aboveRun else 0
  let below := if hottest ≤ s.plant.softThreshold - 5 then countTo 3 q.belowRun else 0
  let counted := { s with surface := { q with aboveRun := above, belowRun := below } }
  if q.softIce = false ∧ above = 3 then counted.changeSoftIce true
  else if q.softIce = true ∧ below = 3 then counted.changeSoftIce false
  else counted

/-- The survey of one pass end, and the judgement of the mode. -/
def State.surveySlab (s : State) : State :=
  let cells := s.slabCells
  if cells.length < 12 then { s with surface := { s.surface with slabBlind := true } }
  else
    let stats := slabStats cells
    let surveyed := { s with surface := { s.surface with slabBlind := false, stats := some stats } }
    match s.surface.mode with
    | .prep => surveyed.judgeReady stats.mean
    | .play => surveyed.judgeSoftIce stats.max
    | _ => surveyed

/-! ### SLAB_SCAN (R34, R35) -/

/-- A usable value meets the condition. -/
def ScanCondition.met : ScanCondition → Int → Int → Bool
  | .equal, v, r => v == r
  | .notAbove, v, r => decide (v ≤ r)
  | .notBelow, v, r => decide (r ≤ v)

/-- The result of a scan: the hit cell or none, the last cell examined, how many were examined and how many skipped. -/
structure ScanResult where
  hit      : Option Nat
  last     : Nat
  examined : Nat
  skipped  : Nat
deriving DecidableEq, Repr

/-- The cells of a list are examined in order until one meets the condition. -/
def State.scanCells (s : State) (cond : ScanCondition) (reference : Int) : List (Fin 20) → ScanResult → ScanResult
  | [], r => r
  | c :: rest, r =>
    let seen := { r with last := c.val, examined := r.examined + 1 }
    match s.published ⟨c.val, by omega⟩ with
    | none => s.scanCells cond reference rest { seen with skipped := r.skipped + 1 }
    | some v => if cond.met v reference then { seen with hit := some c.val } else s.scanCells cond reference rest seen

/-- The cells from `first` by `step`, each not above `last`. -/
def scanOrder (first last step : Nat) : List (Fin 20) :=
  (List.finRange 20).filter (fun c => decide (first ≤ c.val) && decide (c.val ≤ last) && (c.val - first) % step == 0)

/-- SLAB_SCAN as the surface controller answers it. -/
def handleSlabScan (s : State) (payload : List Byte) : Handled :=
  let first := readU8 payload 0
  let last := readU8 payload 1
  let step := clampNat 1 2 (readU8 payload 2)
  let reference := clampInt (-500) 1000 (readS16 payload 4)
  if 19 < first || 19 < last || last < first then refuse s .badArg
  else
    match ScanCondition.ofCode (readU8 payload 3) with
    | none => refuse s .badArg
    | some cond =>
      let r := s.scanCells cond reference (scanOrder first last step) ⟨none, 0, 0, 0⟩
      (s, { result := .ok
            payload := encU8 (r.hit.getD 255) ++ encU8 r.last ++ encU8 r.examined ++ encU8 r.skipped })

/-! ### Device second tick (R17, R22, R29) -/

/-- The dwell count and the report age at a tick, each held at 65535. -/
def State.countSurface (s : State) : State :=
  { s with surface := { s.surface with
      dwell := countTo 65535 s.surface.dwell, reportAge := countTo 65535 s.surface.reportAge } }

/-- The resurface timer at a tick; at its end the mode returns to PLAY with cause AUTO. -/
def State.tickResurface (s : State) : State :=
  match s.surface.resurfaceTimer with
  | none => s
  | some n =>
    if s.surface.mode ≠ .resurface then s
    else if n ≤ 1 then s.transition .play .auto
    else { s with surface := { s.surface with resurfaceTimer := some (n - 1) } }

end Sys2Proof.Machine
end

