-- ==== Sys2Proof/Machine/Probes.lean ====
section
/-! DEFINITION. The probe scanner (Chapter 1): conversions, calibration, the pass end, overrides, and the requests
CALIBRATE_SHORT, PROBE_OVERRIDE and PROBE_RELEASE as the scanner judges them. -/

namespace Sys2Proof.Machine

/-- The record of channel `i`. -/
def State.probe (s : State) (i : Fin 32) : Probe := pick s.scanner.probes i

/-- The record of channel `i` replaced. -/
def State.setProbe (s : State) (i : Fin 32) (r : Probe) : State :=
  { s with scanner := { s.scanner with probes := put s.scanner.probes i r } }

/-! ### One record (R4 to R7) -/

/-- The quality is GOOD or SPIKE, so that a corrected reading goes through the spike filter (R4). -/
def Quality.filtered : Quality → Bool
  | .good | .spike => true
  | .noReading | .opened | .shorted | .override => false

/-- A corrected reading is accepted. -/
def Probe.accept (r : Probe) (reading : Int) : Probe := { r with value := reading, quality := .good, spikeRun := 0 }

/-- The spike filter (R5): a jump of more than 5.0 °C is held back twice and accepted the third time. -/
def Probe.filter (r : Probe) (reading : Int) : Probe :=
  if (reading - r.value).natAbs ≤ 50 then r.accept reading
  else if r.spikeRun < 2 then { r with quality := .spike, spikeRun := r.spikeRun + 1 }
  else r.accept reading

/-- A conversion of a temperature probe with a raw reading within the converter's limits (R4, R13). -/
def Probe.temperature (r : Probe) (offset raw : Int) : Probe :=
  if r.override.isSome then r
  else if 1100 ≤ raw then { r with quality := .opened, spikeRun := 0 }
  else if raw ≤ -600 then { r with quality := .shorted, spikeRun := 0 }
  else
    let reading := clampInt (-500) 1000 (raw - offset)
    if r.quality.filtered then r.filter reading else r.accept reading

/-- A conversion of the humidity probe (R6, R13). -/
def Probe.humidity (r : Probe) (raw : Int) : Probe :=
  if r.override.isSome then r
  else if 1050 ≤ raw then { r with quality := .opened }
  else { r with value := min 1000 raw, quality := .good }

/-- A raw reading of the reference lies in range (R7). -/
def refInRange (raw : Int) : Bool := decide (-600 < raw) && decide (raw < 1100)

/-- A conversion of the reference (R7). -/
def Probe.reference (r : Probe) (raw : Int) : Probe :=
  if 1100 ≤ raw then { r with quality := .opened }
  else if raw ≤ -600 then { r with quality := .shorted }
  else { r with value := raw, quality := .good }

/-! ### Calibration (R8, R10) -/

/-- Long calibration takes one reading of the reference in range, and forms the offset from the 32nd. -/
def Scanner.longReading (q : Scanner) (raw : Int) : Scanner :=
  let counted := { q with calSum := q.calSum + raw, calCount := q.calCount + 1 }
  if counted.calCount = 32 then { counted with offset := (counted.calSum + 16) / 32 } else counted

/-- A short calibration is due at this conversion of the reference. -/
def Scanner.shortDue (q : Scanner) : Bool := q.shortPending || (q.passNumber + 1).toNat % 64 == 0

/-- The offset moved one tenth toward a reading. -/
def offsetToward (offset raw : Int) : Int := if offset < raw then offset + 1 else if raw < offset then offset - 1 else offset

/-- What a conversion of the reference does to calibration. -/
def Scanner.calibrate (q : Scanner) (raw : Int) : Scanner :=
  if q.longCal then (if refInRange raw then q.longReading raw else q)
  else
    let moved := if q.shortDue && refInRange raw then offsetToward q.offset raw else q.offset
    { q with offset := moved, shortPending := false }

/-! ### Conversions and the pass end (R1, R3, R9) -/

/-- The raw reading of a channel as the converter limits it. -/
def limitedRaw (c : Fin 32) (raw : Int) : Int := if c = probeH0 then clampInt 0 1100 raw else clampInt (-600) 1100 raw

/-- The working record of a channel, and calibration, after a conversion of the channel. -/
def State.convertChannel (s : State) (c : Fin 32) (raw : Int) : State :=
  let r := s.probe c
  if c = probeRef then
    let seen := s.setProbe c (r.reference raw)
    { seen with scanner := seen.scanner.calibrate raw }
  else if s.scanner.longCal then s
  else if c = probeH0 then s.setProbe c (r.humidity raw)
  else s.setProbe c (r.temperature s.scanner.offset raw)

/-- The published copy taken from the working record. -/
def Probe.published (r : Probe) : Probe := { r with pubValue := r.value, pubQuality := r.quality }

/-- The pass end: it is counted; in long calibration nothing is published, and with 32 readings long calibration ends; after it
the records are published, then the fog unit and the surface controller take the pass end event. -/
def State.passEnd (s : State) : State :=
  let counted := { s with scanner := { s.scanner with passNumber := s.scanner.passNumber + 1 } }
  if s.scanner.longCal then
    if s.scanner.calCount = 32 then
      { counted with
        scanner := { counted.scanner with longCal := false }
        surface := { counted.surface with calComplete := true } }.tryExitStart
    else counted
  else
    { counted with scanner := { counted.scanner with probes := mapAll Probe.published counted.scanner.probes } }.fogCycle.surveySlab

/-- One conversion, of the channel that is next in scan order; that of channel 31 completes the pass. -/
def State.convert (s : State) (raw : Int) : State :=
  let c := s.scanner.channel
  let converted := s.convertChannel c (limitedRaw c raw)
  let moved := { converted with scanner := { converted.scanner with channel := c + 1 } }
  if c = 31 then moved.passEnd else moved

/-! ### Overrides (R12 to R15) -/

/-- The override of a record one second later: at 0 it becomes absent, and one without expiry stays. -/
def Probe.tickOverride (r : Probe) : Probe :=
  match r.override with
  | none => r
  | some o =>
    if o.remaining = 0 then r
    else if o.remaining = 1 then { r with override := none }
    else { r with override := some { o with remaining := o.remaining - 1 } }

/-- Every override at a device second tick. -/
def State.tickOverrides (s : State) : State :=
  { s with scanner := { s.scanner with probes := mapAll Probe.tickOverride s.scanner.probes } }

/-- The expiry of one override: it is in its last second. -/
def State.overrideExpiry (s : State) (i : Fin 32) : State :=
  match (s.probe i).override with
  | some o => if o.remaining = 1 then s.setProbe i { s.probe i with override := none } else s
  | none => s

/-- CALIBRATE_SHORT as the scanner judges it. -/
def handleCalibrateShort (s : State) : Handled :=
  if s.scanner.longCal then refuse s .notReady
  else okay { s with scanner := { s.scanner with shortPending := true } }

/-- The probe that an override or a release names; the reference cannot be overridden. -/
def overridable (index : Nat) : Option (Fin 32) :=
  match indexBelow 32 index with
  | some i => if i = probeRef then none else some i
  | none => none

/-- An override value within the probe's range. -/
def overrideValue (i : Fin 32) (value : Int) : Int := if i = probeH0 then clampInt 0 1000 value else clampInt (-500) 1000 value

/-- A record with an override, working and published copy alike. -/
def Probe.overridden (r : Probe) (value : Int) (seconds : Nat) : Probe :=
  { r with
    value := value, quality := .override, spikeRun := 0, override := some ⟨value, seconds⟩, pubValue := value
    pubQuality := .override }

/-- PROBE_OVERRIDE as the scanner judges it. -/
def handleProbeOverride (s : State) (payload : List Byte) : Handled :=
  match overridable (readU8 payload 0) with
  | none => refuse s .badArg
  | some i =>
    if s.scanner.longCal then refuse s .notReady
    else
      okay (s.setProbe i
        ((s.probe i).overridden (overrideValue i (readS16 payload 1)) (clampNat 0 3600 (readU16 payload 3))))

/-- PROBE_RELEASE as the scanner judges it. -/
def handleProbeRelease (s : State) (payload : List Byte) : Handled :=
  match overridable (readU8 payload 0) with
  | none => refuse s .badArg
  | some i =>
    if s.scanner.longCal then refuse s .notReady
    else okay (s.setProbe i { s.probe i with override := none })

end Sys2Proof.Machine
end

