-- ==== Sys2Proof/Machine/Time.lean ====
section
/-! DEFINITION. What time brings: the device second tick, the steps and ends of positioners and fade slots, the start of a
fixture link frame, power-on reset, and the passing of a millisecond while no command waits. -/

namespace Sys2Proof.Machine

/-! ### The device second tick (R168; the order is that of log entry 11) -/

/-- The dwell of the fog state at a tick (R37). -/
def State.countFogDwell (s : State) : State := { s with fog := { s.fog with dwell := countTo 65535 s.fog.dwell } }

/-- One device second tick, with every consequence that its counts bring about. -/
def State.deviceTick (s : State) : State :=
  let counted := ({ s with deviceSeconds := s.deviceSeconds + 1 }.tickOverrides).countSurface
  ((((counted.judgeStale).tickResurface).countFogDwell.tickBlindHold).tickZones).tickMonitor

/-! ### Consequences of a tick as commands of their own (log entry 6): taken when they are due now -/

/-- The resurface timer is in its last second, in RESURFACE. -/
def Surface.resurfaceDue (q : Surface) : Bool :=
  q.mode == .resurface &&
    match q.resurfaceTimer with
    | some n => decide (n ≤ 1)
    | none => false

/-- The end of the resurface timer (R22). -/
def State.resurfaceExpiry (s : State) : State := if s.surface.resurfaceDue then s.transition .play .auto else s

/-- The end of the BLIND hold (R49). -/
def State.holdEnd (s : State) : State :=
  match s.fog.holdTimer with
  | some n => if n ≤ 1 ∧ s.surface.mode ≠ .start then s.endBlindHold else s
  | none => s

/-- A run of the loop monitor has reached its limit, with the flag as the run requires. -/
def State.monitorDue (s : State) (failing : Bool) : Bool :=
  s.surface.mode != .start && s.pool.loopFail == !failing &&
    (if failing then s.pool.failureDue.isSome else s.pool.restoreRun == 30)

/-- LOOP_FAIL setting (`failing`) or clearing: due now, or brought about by the monitor's next count (R74 to R76). -/
def State.monitorEvent (s : State) (failing : Bool) : State :=
  if s.monitorDue failing then s.settleMonitor
  else if s.countMonitor.monitorDue failing then s.countMonitor.settleMonitor
  else s

/-- The loop proves for a zone: its run is 30, or reaches it with its next count (R86). -/
def State.loopProved (s : State) (z : Fin 4) : State :=
  match (s.zone z).switch with
  | .provingLoop run => if run = 30 || s.nextLoopRun z run == 30 then s.completeSwitch z else s
  | _ => s

/-- The last second of a zone's boiler proving (R87). -/
def State.provingTimeout (s : State) (z : Fin 4) : State :=
  match (s.zone z).switch with
  | .provingBoiler left => if left ≤ 1 then s.switchTimeout z else s
  | _ => s

/-! ### Positioners (R99, R103) -/

/-- The step timer of a positioner expires in TRAVEL. -/
def State.travelTimer (s : State) (v : Fin 8) : State := if (s.pos v).state = .travel then s.travelStep v else s

/-- The step timer of a positioner expires in HOMING. -/
def State.homingTimer (s : State) (v : Fin 8) : State := if (s.pos v).state = .homing then s.homingStep v else s

/-- A travel ends: it stands at its target, or its next step reaches it. -/
def State.travelEnd (s : State) (v : Fin 8) : State :=
  let r := s.pos v
  let position := r.position.getD 0
  if r.state ≠ .travel then s
  else if position = r.target then s.endTravel v
  else if stepToward position r.target = r.target then s.travelStep v
  else s

/-- A homing fails: it has issued 1100 steps without ENDSTOP, or its next step is the 1100th. -/
def State.homingFailure (s : State) (v : Fin 8) : State :=
  let r := s.pos v
  if r.state ≠ .homing ∨ r.endstop = true then s
  else if 1100 ≤ r.homingCount then s.enterFault v .homeFail
  else if r.homingCount = 1099 then s.homingStep v
  else s

/-! ### Fade slots (R124, R145, R148, R149) -/

/-- A slot completes: it is freed with CUE_DONE, and one evaluation follows. -/
def State.completeSlot (s : State) (n : Fin 8) : State := (s.endSlot n .cueDone).evaluate

/-- The slot with its elapsed time one step further and its step timer restarted. -/
def Slot.advanced (sl : Slot) : Slot := { sl with elapsed := sl.elapsed + 20, timer := some 20 }

/-- One fade step: the levels are written, and a slot of which every entry is reached completes. -/
def State.fadeStep (s : State) (n : Fin 8) : State :=
  if (s.slot n).state = .fading then
    let written := (s.setSlot n (s.slot n).advanced).writeLevels n
    if (s.slot n).advanced.allReached then written.completeSlot n else written
  else s

/-- A fade is done: every entry is reached, or is with the next step. -/
def State.fadeDone (s : State) (n : Fin 8) : State :=
  let sl := s.slot n
  if sl.state ≠ .fading then s
  else if sl.allReached then s.completeSlot n
  else if sl.advanced.allReached then s.fadeStep n
  else s

/-- The delay of a slot in DELAY ends. -/
def State.delayEnd (s : State) (n : Fin 8) : State := if (s.slot n).state = .delay then s.judgeAdmission n else s

/-- The hold of a slot in WAITING_HEADROOM expires. -/
def State.holdExpiry (s : State) (n : Fin 8) : State :=
  if (s.slot n).state = .waitingHeadroom then s.endSlot n .noHeadroom else s

/-! ### The fixture link (R155) -/

/-- A frame starts: its snapshot is taken, and FXOUT sends the frame that carries it. -/
def State.startFrame (s : State) : State :=
  let levels : Vector Nat 96 := Vector.ofFn (fun c => s.effectiveLevel c)
  { s with sent := levels, fxFrame := fixtureFrame levels.toList }

/-! ### Power-on reset (R157) -/

/-- The rate that two straps select (Table 0-4). -/
def strapRate (x : Strap) : Rate :=
  match x.rate1, x.rate0 with
  | false, false => .baud19200
  | false, true => .baud57600
  | true, false => .baud115200
  | true, true => .baud230400

/-- A positioner after reset, with its inputs as they stand. -/
def resetPositioner (drvfault endstop : BitVec 8) (v : Fin 8) : Positioner :=
  { Positioner.reset with endstop := endstop.getLsbD v.val, drvfault := drvfault.getLsbD v.val }

/-- Every block in its reset state, with the straps read and the inputs as they stand. The commands that wait are outside the
part, and the model's counter of open choices goes on. -/
def State.released (s : State) (straps : Straps) (drvfault endstop : BitVec 8) (proven : Bool) : State :=
  { State.reset with
    boilerProven := proven
    positioners := ⟨#v[resetPositioner drvfault endstop 0, resetPositioner drvfault endstop 1,
      resetPositioner drvfault endstop 2, resetPositioner drvfault endstop 3, resetPositioner drvfault endstop 4,
      resetPositioner drvfault endstop 5, resetPositioner drvfault endstop 6, resetPositioner drvfault endstop 7], [], []⟩
    ports := ⟨PortState.reset (strapRate straps.p), PortState.reset (strapRate straps.b), PortState.reset (strapRate straps.l)⟩
    openChoices := s.openChoices, pending := s.pending }

/-- The positioners of which DRVFAULT is active at the release enter FAULT, in ascending order (R96). -/
def State.faultAtReset (s : State) : State :=
  all8.foldl (fun t v => if (t.pos v).drvfault then t.enterFault v .driver else t) s

/-! ### A millisecond without a command (log entry 2) -/

/-- A ms timer one ms further; its expiry is a command of its own. -/
def timerIdle (t : Option Nat) : Option Nat := t.map timerDown

/-- A slot one ms further: its timer, and at each 100 ms the tenths that remain in DELAY and WAITING_HEADROOM. -/
def Slot.idle (sl : Slot) : Slot :=
  match sl.timer with
  | none => sl
  | some t =>
    if 1 < t then { sl with timer := some (t - 1) }
    else
      match sl.state with
      | .delay => if 1 < sl.delay then { sl with delay := sl.delay - 1, timer := some 100 } else sl
      | .waitingHeadroom => if 1 < sl.hold then { sl with hold := sl.hold - 1, timer := some 100 } else sl
      | _ => sl

/-- A line of the cue store one ms further. -/
def Line.idle (x : Line) : Line := { x with ways := mapAll (fun e => { e with fillTimer := timerIdle e.fillTimer }) x.ways }

/-- One ms passes, and no event is taken in it. -/
def State.idle (s : State) : State :=
  { s with
    pool := { s.pool with roundTimer := timerIdle s.pool.roundTimer }
    positioners := { s.positioners with
      records := mapAll (fun r => { r with stepTimer := timerIdle r.stepTimer }) s.positioners.records }
    store := mapAll Line.idle s.store
    slots := mapAll Slot.idle s.slots }

end Sys2Proof.Machine
end

