-- ==== Sys2Proof/Machine/Views.lean ====
section
/-! DEFINITION. What the part reports: the STATUS payload and the pages of the ten views (Table 11-7, R179), each of the state as
it stands. Where a value is absent the encodings of R174 and R179 stand, as log entry 10 sets out. -/

namespace Sys2Proof.Machine

/-! ### Fields -/

/-- A flag or a two-valued field as u8. -/
def encBit (b : Bool) : List Byte := encU8 (if b then 1 else 0)

/-- A u8 that may be absent: FFh (R174). -/
def optU8 (o : Option Nat) : List Byte := encU8 (o.getD 255)

/-- A u16 that may be absent: FFFFh (R174). -/
def optU16 (o : Option Nat) : List Byte := encU16 (o.getD 65535)

/-- An s16 that may be absent: 8000h (R174). -/
def optS16 (o : Option Int) : List Byte := encS16 (o.getD (-32768))

/-- A time that may have no value in its state: 0 (R179). -/
def optTime (o : Option Nat) : List Byte := encU16 (o.getD 0)

/-- The codes of Table 11-1 for a probe quality. -/
def Quality.code : Quality → Nat
  | .noReading => 0 | .good => 1 | .spike => 2 | .opened => 3 | .shorted => 4 | .override => 5

/-- A switch state. -/
def Switch.code : Switch → Nat
  | .steady => 0 | .provingLoop _ => 1 | .provingBoiler _ => 2

/-- The proving timer of a switch: the loop run, or the seconds left. -/
def Switch.timer : Switch → Option Nat
  | .steady => none
  | .provingLoop run => some run
  | .provingBoiler left => some left

/-- A positioner state. -/
def PosState.code : PosState → Nat
  | .unhomed => 0 | .homing => 1 | .idle => 2 | .waiting => 3 | .travel => 4 | .fault => 5

/-- A queue intent. -/
def Intent.code : Intent → Nat
  | .move => 0 | .home => 1

/-- A slot state. -/
def SlotState.code : SlotState → Nat
  | .free => 0 | .waitingFill => 1 | .delay => 2 | .waitingHeadroom => 3 | .fading => 4

/-- A claim origin. -/
def Origin.code : Origin → Nat
  | .auto => 0
  | .manual p => Port.code p + 1

/-- A kind of evaluation, or none. -/
def evalKindCode : Option EvalKind → Nat
  | none => 0 | some .roundEnd => 1 | some .ordinary => 2

/-- A port set as a mask. -/
def PortSet.mask (d : PortSet) : Byte := flagByte [d.p, d.b, d.l]

/-! ### STATUS (R168, Table 11-4) -/

/-- The STATUS payload at a port. -/
def State.statusPayload (s : State) (p : Port) : List Byte :=
  let q := s.port p
  encU8 (Port.code p) ++ encU8 q.queue.length ++ encU8 (q.queue.countP Record.mustCollect) ++ encU32 s.deviceSeconds.toNat ++
    encU8 s.surface.mode.code ++
    [flagByte [s.surface.plantStale, s.pool.loopFail, s.governor.iceOverload, s.surface.ready, s.surface.softIce,
      s.surface.plantValid, s.surface.buildingValid, s.surface.lightingValid]] ++
    encU8 s.fog.state.code

/-! ### One-page views -/

/-- PROBES (R16): the published records, and for REF in long calibration the working record. -/
def State.probeBytes (s : State) (i : Fin 32) : List Byte :=
  let r := s.probe i
  let working := i == probeRef && s.scanner.longCal
  encS16 (if working then r.value else r.pubValue) ++ encU8 (if working then r.quality else r.pubQuality).code ++
    encU8 r.spikeRun ++ optU16 (r.override.map Override.remaining)

/-- PROBES. -/
def State.viewProbes (s : State) : List Byte :=
  (List.finRange 32).flatMap s.probeBytes ++ encS16 s.scanner.offset ++ encBit (!s.scanner.longCal) ++
    encU8 s.scanner.calCount ++ encBit s.scanner.shortPending ++ encU32 s.scanner.passNumber.toNat

/-- SLAB (R36). -/
def State.viewSlab (s : State) : List Byte :=
  let x := s.surface.stats
  encBit s.surface.slabBlind ++ encBit x.isSome ++ optU8 (x.map SlabStats.n) ++ optS16 (x.map SlabStats.mean) ++
    optS16 (x.map SlabStats.min) ++ optS16 (x.map SlabStats.max) ++ optU8 (x.map SlabStats.maxCell)

/-- FOG (R57). -/
def State.viewFog (s : State) : List Byte :=
  let f := s.fog
  encU8 f.state.code ++ optU8 (f.held.map FogState.code) ++ encU8 f.acting.code ++ encU16 f.dwell ++ optTime f.holdTimer ++
    encBit f.dew.isSome ++ optS16 (f.dew.map DewRecord.t) ++ optU16 (f.dew.map (fun d => d.rh.toNat)) ++
    optU16 (f.dew.map (fun d => d.es.toNat)) ++ optU16 (f.dew.map (fun d => d.e.toNat)) ++ optS16 (f.dew.map DewRecord.td) ++
    optU8 (f.dew.map (fun d => if d.fresh then 1 else 0)) ++ optS16 f.layer ++ optS16 f.roof ++ optS16 f.margin ++
    encU8 f.watchEff ++ encU8 f.actEff ++ encU8 f.severeEff ++ encU16 f.request ++ encU8 f.fanStage ++ encBit f.backup ++
    encU8 f.zeroRun ++ encU8 f.adequateRun ++ encU16 f.lastGrant ++ encBit f.wheel ++ encBit s.hazeForcing

/-- One claim of POOL (R77). -/
def Claim.bytes (c : Claim) : List Byte :=
  encU16 c.request ++ encU16 c.minimum ++ encU16 c.grant ++ encU8 c.origin.code ++ encU16 c.manualRequest ++
    encU16 c.manualMinimum ++ encU8 c.shortCount

/-- POOL (R77). -/
def State.viewPool (s : State) : List Byte :=
  let q := s.pool
  all8.flatMap (fun c => (s.claim c).bytes) ++ encU16 q.qAvail ++ encU16 q.allowance ++ encU16 q.rAll ++ encU16 q.drawn ++
    encU16 q.charge ++ encBit q.discharging ++ encU32 q.spillBudget ++ encU32 q.roundSpill ++
    all4.flatMap (fun z => encU16 (s.zone z).delivered) ++ encBit q.subsoilDemand ++ encBit q.preheat ++
    encBit q.loopFail ++ encU8 q.unusableRun ++ encU8 q.lowRun ++ encU8 q.restoreRun ++ optU16 q.roundTimer ++
    encU32 q.roundCount.toNat

/-- One zone of ZONES (R95). -/
def State.zoneBytes (s : State) (z : Fin 4) : List Byte :=
  let x := s.zone z
  encS16 x.occupiedSet ++ encS16 x.setbackSet ++ encBit x.occupied ++ encS16 (s.effectiveSet x) ++ encU16 x.request ++
    encU8 x.source.code ++ encU8 x.switch.code ++ optU8 (x.requested.map Source.code) ++ optTime x.switch.timer ++
    optU8 (x.port.map Port.code) ++ encBit x.locked ++ encBit x.fallback ++ encU8 x.starved ++ encU8 x.surplus ++
    encU16 x.delivered

/-- ZONES (R95). -/
def State.viewZones (s : State) : List Byte :=
  all4.flatMap s.zoneBytes ++ encBit s.boilerEn ++ encBit s.boilerProven ++ [flagByte (all4.map s.zsrc)]

/-- One positioner of POSITIONERS (R112). -/
def Positioner.bytes (r : Positioner) : List Byte :=
  encU8 r.state.code ++ optU16 r.position ++ encU16 r.target ++ encBit r.manual ++ optU8 (r.port.map Port.code) ++
    optU8 (r.intent.map Intent.code) ++ optU8 (r.cause.map FaultCause.code) ++ encU16 r.homingCount ++ encBit r.retarget ++
    [flagByte [r.endstop, r.drvfault]]

/-- The positioner that holds a travel slot. -/
def State.holderOf (s : State) (k : Fin 4) : Option (Fin 8) := (s.positioners.holders.find? (fun h => h.1 == k)).map Prod.snd

/-- POSITIONERS (R112). -/
def State.viewPositioners (s : State) : List Byte :=
  let q := s.positioners.queue
  all8.flatMap (fun v => (s.pos v).bytes) ++ all4.flatMap (fun k => optU8 ((s.holderOf k).map Fin.val)) ++
    encU8 q.length ++ (List.range 8).flatMap (fun k => optU8 (q[k]?.map Fin.val))

/-- One place of the headroom queue in GOVERNOR (R127). -/
def State.headroomBytes (s : State) : Option (Fin 8) → List Byte
  | none => [0xFF, 0xFF, 0xFF, 0, 0]
  | some n => encU8 n.val ++ encU16 (s.slot n).cue ++ encU16 (s.slot n).hold

/-- GOVERNOR (R127). -/
def State.viewGovernor (s : State) : List Byte :=
  let g := s.governor
  encU32 g.ceiling ++ encU16 g.hIceUsed ++ encU16 g.marginUsed ++ encU16 g.derateUsed ++ encBit g.coverApplied ++
    encU32 g.lSpill ++ encU32 g.lUntrim ++ encU32 g.lTrim ++ encS32 g.avail ++ encU16 g.fStar ++ encU16 g.f ++
    encBit g.iceOverload ++ encU32 g.evalCount.toNat ++ encU8 (evalKindCode g.lastEval) ++ encU8 g.queue.length ++
    (List.range 8).flatMap (fun k => s.headroomBytes g.queue[k]?)

/-- SURFACE (R36). Table 11-7 does not say which bit of the valid flags stands for which profile; bits 0, 1 and 2 for plant, building
and lighting, in the order of its words, are a DESIGN CHOICE (log entry 20). -/
def State.viewSurface (s : State) : List Byte :=
  let q := s.surface
  encU8 q.mode.code ++ encU16 q.dwell ++ optTime q.resurfaceTimer ++
    [flagByte [q.plantValid, q.buildingValid, q.lightingValid]] ++ encBit q.calComplete ++ encBit q.report.isSome ++
    optU16 (q.report.map PlantReport.qRec) ++ optU16 (q.report.map PlantReport.hIce) ++ encU16 q.reportAge ++
    encBit q.plantStale ++ encBit q.ready ++ encU8 q.inBand ++ encBit q.softIce ++ encU8 q.aboveRun ++ encU8 q.belowRun

/-- AUTHORITY (R173). -/
def State.viewAuthority (s : State) : List Byte := s.authority.toList.flatMap (fun d => d.ports.mask :: encBit d.locked)

/-! ### SLOTS (R156, R179) -/

/-- One channel of a SLOTS channel page. Its flags are read as those of the lighting profile (R178; log entry 20). -/
def State.channelBytes (s : State) (c : Fin 96) : List Byte :=
  let ch := s.channel c
  encU8 ch.level ++ optU8 (ch.owner.map Fin.val) ++ encU8 ch.coefficient ++ [flagByte [ch.trimmable, ch.haze]] ++
    encU8 (pick s.sent c)

/-- A SLOTS channel page: 48 channels. -/
def State.channelPage (s : State) (page : Nat) : List Byte :=
  (all96.filter (fun c => c.val / 48 == page)).flatMap s.channelBytes

/-- One entry position of a SLOTS slot page; five zero bytes beyond the list. -/
def entryBytes : Option ListEntry → List Byte
  | none => [0, 0, 0, 0, 0]
  | some e => encU8 e.channel.val ++ encU8 e.start ++ encU8 e.target ++ encU16 (e.offset / 100)

/-- A SLOTS slot page: the slot's header and 40 entry positions from `first`. -/
def State.slotPage (s : State) (n : Fin 8) (first : Nat) : List Byte :=
  let sl := s.slot n
  encU8 n.val ++ encU8 sl.state.code ++ encU16 sl.cue ++ optU8 (sl.port.map Port.code) ++
    optU8 (sl.cls.map CueClass.code) ++ optU8 (sl.policy.map TrimPolicy.code) ++ sweepBytes sl.sweep ++ encU16 sl.delay ++
    encU16 sl.hold ++ encU32 sl.duration ++ encU32 sl.elapsed ++ encU8 sl.list.length ++ encU8 first ++
    (List.range 40).flatMap (fun k => entryBytes sl.list[first + k]?)

/-- A page of SLOTS. -/
def State.slotsPage (s : State) (page : Nat) : List Byte :=
  if page < 2 then s.channelPage page
  else
    match indexBelow 8 ((page - 2) / 3) with
    | some n => s.slotPage n (40 * ((page - 2) % 3))
    | none => []

/-! ### READ (R169) -/

/-- The number of pages of a view, if the code names one. -/
def pageCount (view : Nat) : Option Nat := if view ≤ 8 then some 1 else if view = 9 then some 26 else none

/-- The contents of a page after its head. -/
def State.viewBody (s : State) (view page : Nat) : List Byte :=
  match view with
  | 0 => s.viewProbes
  | 1 => s.viewSlab
  | 2 => s.viewFog
  | 3 => s.viewPool
  | 4 => s.viewZones
  | 5 => s.viewPositioners
  | 6 => s.viewGovernor
  | 7 => s.viewSurface
  | 8 => s.viewAuthority
  | _ => s.slotsPage page

/-- READ: one page with its head, or BAD_ARG for a view or a page that does not exist. -/
def handleRead (s : State) (payload : List Byte) : Handled :=
  let view := readU8 payload 0
  let page := readU8 payload 1
  match pageCount view with
  | none => refuse s .badArg
  | some count =>
    if count ≤ page then refuse s .badArg
    else (s, { result := .ok, payload := encU8 view ++ encU8 page ++ encU8 count ++ s.viewBody view page })

end Sys2Proof.Machine
end

