-- ==== Sys2Proof/WellFormed.lean ====
section
/-! DEFINITION. Which commands the outside world can send: the operand ranges of R1 and R158 to R160. An object index needs no
check, its type bounds it; an index, value or length INSIDE a request's payload is judged by the request itself, which
refuses it by a result code. -/

namespace Sys2Proof

/-- A payload fits one frame: the length byte, payload bytes + 3, is at most 250 (section 10.2). -/
def payloadFits (payload : List Byte) : Bool := payload.length ≤ 247

/-- The bytes are one frame that R159 ends in a link error at its last byte: at a bad length byte, or whole with an error
on a byte or a sum that is not 0. -/
def endsInLinkError : List RxByte → Bool
  | start :: len :: rest =>
    start.startsFrame &&
      (if len.goodLength then
        rest.length + 1 == len.value.toNat && (rest.any RxByte.bad || byteSum ((len :: rest).map RxByte.value) != 0)
      else rest.isEmpty)
  | _ => false

/-- The bytes are the beginning of a frame, not all of it, with no error that ends it before its last byte. -/
def beginsFrame : List RxByte → Bool
  | [start] => start.startsFrame
  | start :: len :: rest => start.startsFrame && len.goodLength && decide (rest.length + 1 < len.value.toNat)
  | [] => false

/-- The request codes of Table 11-3 are 01h to 1Ah; a frame of UNKNOWN_REQUEST carries another (R162). -/
def unknownCode (code : Byte) : Bool := code.toNat == 0 || 26 < code.toNat

/-- The commands that the outside world can send. The gap of INTER_BYTE_GAP may follow bytes that came by commands before it, and
the bytes of OUT_OF_TURN_FRAME may be the rest of an early frame, which the port drops whatever they hold (R160, Table 10-3). -/
def Instr.wellFormed : Instr → Bool
  | .interByteGap _ bytes => bytes.isEmpty || beginsFrame bytes
  | .linkError _ bytes => endsInLinkError bytes
  | .outOfTurnFrame _ bytes => !bytes.isEmpty
  | .unknownRequest _ code payload => unknownCode code && payloadFits payload
  | .status _ payload | .collect _ payload | .read _ payload | .authSet _ payload | .authLock _ payload
  | .calibrateShort _ payload | .probeOverride _ payload | .probeRelease _ payload | .surfaceMode _ payload
  | .loadProfile _ payload | .plantReport _ payload | .slabScan _ payload | .resurfPreheat _ payload
  | .claimManual _ payload | .claimAuto _ payload | .zoneSet _ payload | .zoneSource _ payload
  | .zoneLock _ payload | .move _ payload | .home _ payload | .posMode _ payload | .go _ payload
  | .cueWrite _ payload | .cueInvalidate _ payload | .cueProbe _ payload | .release _ payload => payloadFits payload
  | .powerOnReset _ _ _ _ | .probeConversion _ | .deviceSecondTick | .overrideExpiry _ | .resurfaceTimerExpiry
  | .plantStale | .blindHoldEnd | .loopFail | .loopRestored | .loopProved _ | .switchTimeout _
  | .boilerProvenActive _ | .allocationRound | .positionerStep _ | .travelEnd _ | .homingStep _ | .homeFail _
  | .endstopActive _ _ | .drvfaultActive _ _ | .delayEnd _ | .holdExpiry _ | .fadeStep _ | .cueDone _
  | .fillTimeout _ _ | .frameStart | .breakLine _ | .resultSent _ | .discardGap _ | .rxReturnedHigh _ => true

end Sys2Proof
end

