-- ==== Sys2Proof/Machine/Ports.lean ====
section
/-! DEFINITION. The tenant ports (Chapter 10): the receiver, taking a request and forming its result, the completion queues, and
the authority map. -/

namespace Sys2Proof.Machine

/-! ### The completion queue and the authority map as requests (R166, R168, R171, R172) -/

/-- Kind code of a record (R177). -/
def RecordKind.code : RecordKind → Nat
  | .surfaceChanged => 0x01 | .prepReady => 0x02 | .softIce => 0x03 | .plantStale => 0x04 | .plantFresh => 0x05
  | .fogSevere => 0x06 | .fogBlind => 0x07 | .loopFail => 0x08 | .loopRestored => 0x09 | .sourceSwitched => 0x0A
  | .switchTimeout => 0x0B | .switchSuperseded => 0x0C | .sourceFail => 0x0D | .moveDone => 0x0E | .homeDone => 0x0F
  | .moveSuperseded => 0x10 | .posFault => 0x11 | .iceOverload => 0x12 | .iceClear => 0x13 | .noHeadroom => 0x14
  | .fillNeeded => 0x15 | .fillTimeout => 0x16 | .cueNoAuthority => 0x17 | .cueMode => 0x18 | .cueInvalidated => 0x19
  | .cueDone => 0x1A | .cuePreempted => 0x1B | .cueReleased => 0x1C

/-- The 10 bytes of a record (Table 11-5). -/
def Record.bytes (r : Record) : List Byte :=
  encU8 r.kind.code ++ encBit r.mustCollect ++ encU16 r.object ++ encS16 r.value ++ encU32 r.seconds.toNat

/-- STATUS (R168). -/
def handleStatus (s : State) (port : Port) : Handled := (s, { result := .ok, payload := s.statusPayload port })

/-- COLLECT (R166): the oldest record, or EMPTY; the removal of the last record clears LOST. -/
def handleCollect (s : State) (port : Port) : Handled :=
  let q := s.port port
  match q.queue with
  | [] => refuse s .empty
  | r :: rest =>
    (s.setPort port { q with queue := rest, lost := q.lost && !rest.isEmpty },
      { result := .ok, payload := r.bytes, lostBefore := some q.lost })

/-- A domain of the map replaced. -/
def State.setDomain (s : State) (d : Fin 13) (x : Domain) : State := { s with authority := put s.authority d x }

/-- AUTH_SET (R171). -/
def handleAuthSet (s : State) (payload : List Byte) : Handled :=
  match indexBelow 13 (readU8 payload 0), PortSet.ofMask (readU8 payload 1) with
  | some d, some ports =>
    if (pick s.authority d).locked then refuse s .lockedResult
    else okay (s.setDomain d { pick s.authority d with ports := ports })
  | _, _ => refuse s .badArg

/-- AUTH_LOCK (R172). -/
def handleAuthLock (s : State) (payload : List Byte) : Handled :=
  match indexBelow 13 (readU8 payload 0) with
  | some d => okay (s.setDomain d { pick s.authority d with locked := true })
  | none => refuse s .badArg

/-! ### Taking a request (R162) -/

/-- The domain of SURFACE_MODE (R18): RESURFACE when the transition would be into or out of it. -/
def State.surfaceModeDomain (s : State) (payload : List Byte) : Fin 13 :=
  if Mode.ofCode (readU8 payload 0) = some .resurface ∨ s.surface.mode = .resurface then domResurface else domSurface

/-- What the port checks before it hands a request on: `none` refuses it with BAD_ARG, `some none` checks no domain. -/
def State.requestDomain (s : State) (k : RequestKind) (payload : List Byte) : Option (Option (Fin 13)) :=
  match k with
  | .status | .collect | .read | .loadProfile | .slabScan | .go | .release => some none
  | .authSet | .authLock => some (some domAuthority)
  | .calibrateShort | .probeOverride | .probeRelease => some (some domProbes)
  | .surfaceMode => some (some (s.surfaceModeDomain payload))
  | .plantReport | .resurfPreheat => some (some domPlantData)
  | .claimManual | .claimAuto => some (some domClaims)
  | .zoneSet | .zoneSource | .zoneLock => some (some domZones)
  | .move | .home | .posMode => (indexBelow 8 (readU8 payload 0)).map (fun v => some (posDomain v))
  | .cueWrite | .cueInvalidate | .cueProbe => some (some domCueStore)

/-- The requests that a must-collect record does not block (R167). -/
def RequestKind.unblocked : RequestKind → Bool
  | .status | .collect | .read => true
  | _ => false

/-- The request as its owning block takes it. -/
def State.handOver (s : State) (port : Port) (k : RequestKind) (payload : List Byte) : Handled :=
  match k with
  | .status => handleStatus s port
  | .collect => handleCollect s port
  | .read => handleRead s payload
  | .authSet => handleAuthSet s payload
  | .authLock => handleAuthLock s payload
  | .calibrateShort => handleCalibrateShort s
  | .probeOverride => handleProbeOverride s payload
  | .probeRelease => handleProbeRelease s payload
  | .surfaceMode => handleSurfaceMode s payload
  | .loadProfile => handleLoadProfile s port payload
  | .plantReport => handlePlantReport s payload
  | .slabScan => handleSlabScan s payload
  | .resurfPreheat => handleResurfPreheat s payload
  | .claimManual => handleClaimManual s port payload
  | .claimAuto => handleClaimAuto s payload
  | .zoneSet => handleZoneSet s payload
  | .zoneSource => handleZoneSource s port payload
  | .zoneLock => handleZoneLock s payload
  | .move => handleMove s port payload
  | .home => handleHome s port payload
  | .posMode => handlePosMode s payload
  | .go => handleGo s port payload
  | .cueWrite => handleCueWrite s payload
  | .cueInvalidate => handleCueInvalidate s payload
  | .cueProbe => handleCueProbe s payload
  | .release => handleRelease s port payload

/-- A request is judged in the order of R162. -/
def State.judgeRequest (s : State) (port : Port) (code : Byte) (payload : List Byte) : Handled :=
  match RequestKind.ofCode code with
  | none => refuse s .unknownRequest
  | some k =>
    if !k.lengthAllowed payload then refuse s .badArg
    else if (s.port port).mustCollectPending && !k.unblocked then refuse s .uncollected
    else
      match s.requestDomain k payload with
      | none => refuse s .badArg
      | some none => s.handOver port k payload
      | some (some d) => if s.inDomain d port then s.handOver port k payload else refuse s .noAuthority

/-! ### The result (R163) -/

/-- The result frame of a turn is formed and begins to leave TX. -/
def PortState.answer (q : PortState) (code : Byte) (a : Answer) : PortState :=
  { q with
    phase := .answering, outOfTurn := false
    tx := resultFrame code (BitVec.ofNat 8 a.result.code) (q.statusFlags (a.lostBefore.getD q.lost)) a.payload }

/-- The result of a turn at a port. -/
def State.answer (s : State) (port : Port) (code : Byte) (a : Answer) : State :=
  s.setPort port ((s.port port).answer code a)

/-- The port in EXECUTING, with the frame it has received dropped (log entry 14). -/
def PortState.executing (q : PortState) : PortState :=
  { q with phase := .executing, buffer := [], expected := 0, errorMark := false }

/-- The port enters EXECUTING. -/
def State.enterExecuting (s : State) (port : Port) : State := s.setPort port (s.port port).executing

/-- A frame ends in a link error: nothing outside the port changes (R159). -/
def State.failLink (s : State) (port : Port) : State := (s.enterExecuting port).answer port 0 { result := .linkError }

/-- A sound frame with a code and a payload is taken, carried out or refused, and answered. -/
def State.takeRequest (s : State) (port : Port) (code : Byte) (payload : List Byte) : State :=
  let h := (s.enterExecuting port).judgeRequest port code payload
  h.1.answer port code h.2

/-! ### The receiver (R158 to R161) -/

/-- A frame received whole is judged: a link error, or a request taken. -/
def State.judgeFrame (s : State) (port : Port) : State :=
  let q := s.port port
  if q.errorMark || byteSum (q.buffer.drop 1) != 0 then s.failLink port
  else s.takeRequest port (q.buffer.getD 2 0) (q.buffer.drop 3).dropLast

/-- A byte in IDLE: a sound C3h begins a frame, and any other byte is dropped. -/
def PortState.idleByte (q : PortState) (b : RxByte) : PortState :=
  if b.startsFrame then { q with phase := .receiving, buffer := [b.value], errorMark := false } else q

/-- A byte in EXECUTING or ANSWERING: a sound C3h begins an out-of-turn frame, and any other byte is dropped. -/
def PortState.busyByte (q : PortState) (b : RxByte) : PortState :=
  if b.startsFrame then { q with outOfTurn := true, awaitLength := true } else q

/-- A byte of the frame being received, after the start byte. -/
def State.frameByte (s : State) (port : Port) (b : RxByte) : State :=
  let q := s.port port
  if q.buffer.length < 2 then
    if b.goodLength then
      s.setPort port { q with buffer := q.buffer ++ [b.value], expected := b.value.toNat - 1 }
    else s.failLink port
  else
    let grown := s.setPort port { q with
      buffer := q.buffer ++ [b.value], expected := q.expected - 1, errorMark := q.errorMark || b.bad }
    if q.expected ≤ 1 then grown.judgeFrame port else grown

/-- One byte comes to a port. -/
def State.receiveByte (port : Port) (s : State) (b : RxByte) : State :=
  let q := s.port port
  if q.lineDropped then s
  else if q.awaitLength then
    s.setPort port { q with awaitLength := false, discard := if b.goodLength then b.value.toNat - 1 else 0 }
  else if 0 < q.discard then s.setPort port { q with discard := q.discard - 1 }
  else
    match q.phase with
    | .idle => s.setPort port (q.idleByte b)
    | .receiving => s.frameByte port b
    | .executing | .answering => s.setPort port (q.busyByte b)

/-- Bytes come to a port, one after the other, with no gap of more than 5 ms between them. -/
def State.receive (s : State) (port : Port) (bytes : List RxByte) : State := bytes.foldl (State.receiveByte port) s

/-- A whole sound request frame comes to a port. -/
def State.request (s : State) (port : Port) (code : Byte) (payload : List Byte) : State :=
  s.receive port (soundBytes (requestFrame code payload))

/-- The out-of-turn frame being dropped ends (R160). -/
def PortState.endDiscard (q : PortState) : PortState := { q with discard := 0, awaitLength := false }

/-- More than 5 ms pass without a byte (R159, R160). -/
def State.gap (s : State) (port : Port) : State :=
  match (s.port port).phase with
  | .receiving => s.failLink port
  | _ => s.setPort port (s.port port).endDiscard

/-- A break (R161). The completion queue, LOST and the rate stay. -/
def PortState.broken (q : PortState) : PortState :=
  { q with
    phase := .idle, buffer := [], expected := 0, errorMark := false, discard := 0, awaitLength := false, outOfTurn := false
    lineDropped := true, tx := [] }

/-- The last byte of the result has left TX (R163). -/
def PortState.resultSent (q : PortState) : PortState :=
  match q.phase with
  | .answering => { q with phase := .idle, tx := [] }
  | _ => q

end Sys2Proof.Machine
end

