-- ==== Sys2Proof/Machine/ClockCommands.lean ====
section
/-! DEFINITION. The meanings of the commands that the part's clock and its digital inputs bring: one definition for each. Every
one goes on to a next state; an event of which the condition does not hold leaves the state as it is (log entry 1). -/

namespace Sys2Proof.Machine

/-- The outcome of every command: the machine goes on. -/
abbrev Outcome := Host.Outcome State Fault Refusal

/-- POWER_ON_RESET (R157, R96): the reset state, then the positioners of which DRVFAULT is active enter FAULT. The first frame
carries 0 for every channel (R155), as the reset state holds it. -/
def execPowerOnReset (straps : Straps) (drvfault endstop : BitVec 8) (proven : Bool) (s : State) : Outcome :=
  .next (s.released straps drvfault endstop proven).faultAtReset

/-- PROBE_CONVERSION (R1 to R10, R13). -/
def execProbeConversion (raw : Int) (s : State) : Outcome := .next (s.convert raw)

/-- DEVICE_SECOND_TICK (R168, R14, R17, R22, R29, R37, R49, R74, R86, R87). -/
def execDeviceSecondTick (s : State) : Outcome := .next s.deviceTick

/-- OVERRIDE_EXPIRY (R14). -/
def execOverrideExpiry (probe : Fin 32) (s : State) : Outcome := .next (s.overrideExpiry probe)

/-- RESURFACE_TIMER_EXPIRY (R22). -/
def execResurfaceTimerExpiry (s : State) : Outcome := .next s.resurfaceExpiry

/-- PLANT_STALE (R29). -/
def execPlantStale (s : State) : Outcome := .next s.judgeStale

/-- BLIND_HOLD_END (R49). -/
def execBlindHoldEnd (s : State) : Outcome := .next s.holdEnd

/-- LOOP_FAIL (R75). -/
def execLoopFail (s : State) : Outcome := .next (s.monitorEvent true)

/-- LOOP_RESTORED (R76). -/
def execLoopRestored (s : State) : Outcome := .next (s.monitorEvent false)

/-- LOOP_PROVED (R86). -/
def execLoopProved (zone : Fin 4) (s : State) : Outcome := .next (s.loopProved zone)

/-- SWITCH_TIMEOUT (R87). -/
def execSwitchTimeout (zone : Fin 4) (s : State) : Outcome := .next (s.provingTimeout zone)

/-- BOILER_PROVEN_ACTIVE (R87); a return to inactive changes only the input. -/
def execBoilerProvenActive (level : Bool) (s : State) : Outcome :=
  .next (if level then s.provenRises else { s with boilerProven := false })

/-- ALLOCATION_ROUND (R65 to R73). -/
def execAllocationRound (s : State) : Outcome := .next s.allocationRound

/-- POSITIONER_STEP (R99, R105). -/
def execPositionerStep (v : Fin 8) (s : State) : Outcome := .next (s.travelTimer v)

/-- TRAVEL_END (R99). -/
def execTravelEnd (v : Fin 8) (s : State) : Outcome := .next (s.travelEnd v)

/-- HOMING_STEP (R103). -/
def execHomingStep (v : Fin 8) (s : State) : Outcome := .next (s.homingTimer v)

/-- HOME_FAIL (R103). -/
def execHomeFail (v : Fin 8) (s : State) : Outcome := .next (s.homingFailure v)

/-- ENDSTOP_ACTIVE (R103, R105); a return to inactive changes only the input. -/
def execEndstopActive (v : Fin 8) (level : Bool) (s : State) : Outcome :=
  .next (if level then s.endstopRises v else s.setPos v { s.pos v with endstop := false })

/-- DRVFAULT_ACTIVE (R106); a return to inactive changes only the input. -/
def execDrvfaultActive (v : Fin 8) (level : Bool) (s : State) : Outcome :=
  .next (if level then s.drvfaultRises v else s.setPos v { s.pos v with drvfault := false })

/-- DELAY_END (R145, R120 to R122). -/
def execDelayEnd (slot : Fin 8) (s : State) : Outcome := .next (s.delayEnd slot)

/-- HOLD_EXPIRY (R124). -/
def execHoldExpiry (slot : Fin 8) (s : State) : Outcome := .next (s.holdExpiry slot)

/-- FADE_STEP (R148, R149). -/
def execFadeStep (slot : Fin 8) (s : State) : Outcome := .next (s.fadeStep slot)

/-- CUE_DONE (R149). -/
def execCueDone (slot : Fin 8) (s : State) : Outcome := .next (s.fadeDone slot)

/-- FILL_TIMEOUT (R137). -/
def execFillTimeout (line : Fin 64) (way : Fin 2) (s : State) : Outcome := .next (s.fillTimeout line way)

/-- FRAME_START (R155). -/
def execFrameStart (s : State) : Outcome := .next s.startFrame

end Sys2Proof.Machine
end

