-- ==== Sys2Proof/Machine/PortCommands.lean ====
section
/-! DEFINITION. The meanings of the commands that come over a tenant port: the events of its line, and the 26 requests with the
frame of an unknown one. A request comes as the bytes of one whole sound frame, so that R158 to R161 decide what becomes of it
in whatever phase it finds the port (log entry 15). -/

namespace Sys2Proof.Machine

/-- INTER_BYTE_GAP (R159, R160): the bytes come, and then more than 5 ms pass. -/
def execInterByteGap (port : Port) (bytes : List RxByte) (s : State) : Outcome := .next ((s.receive port bytes).gap port)

/-- LINK_ERROR (R159). -/
def execLinkError (port : Port) (bytes : List RxByte) (s : State) : Outcome := .next (s.receive port bytes)

/-- OUT_OF_TURN_FRAME (R160). -/
def execOutOfTurnFrame (port : Port) (bytes : List RxByte) (s : State) : Outcome := .next (s.receive port bytes)

/-- BREAK (R161). -/
def execBreak (port : Port) (s : State) : Outcome := .next (s.setPort port (s.port port).broken)

/-- RESULT_SENT (R163). -/
def execResultSent (port : Port) (s : State) : Outcome := .next (s.setPort port (s.port port).resultSent)

/-- DISCARD_GAP (R160). -/
def execDiscardGap (port : Port) (s : State) : Outcome := .next (s.setPort port (s.port port).endDiscard)

/-- RX_RETURNED_HIGH (R161). -/
def execRxReturnedHigh (port : Port) (s : State) : Outcome :=
  .next (s.setPort port { s.port port with lineDropped := false })

/-- UNKNOWN_REQUEST (R162). -/
def execUnknownRequest (port : Port) (code : Byte) (payload : List Byte) (s : State) : Outcome :=
  .next (s.request port code payload)

/-- STATUS (R168). -/
def execStatus (port : Port) (payload : List Byte) (s : State) : Outcome :=
  .next (s.request port RequestKind.status.code payload)

/-- COLLECT (R166). -/
def execCollect (port : Port) (payload : List Byte) (s : State) : Outcome :=
  .next (s.request port RequestKind.collect.code payload)

/-- READ (R169). -/
def execRead (port : Port) (payload : List Byte) (s : State) : Outcome :=
  .next (s.request port RequestKind.read.code payload)

/-- AUTH_SET (R171). -/
def execAuthSet (port : Port) (payload : List Byte) (s : State) : Outcome :=
  .next (s.request port RequestKind.authSet.code payload)

/-- AUTH_LOCK (R172). -/
def execAuthLock (port : Port) (payload : List Byte) (s : State) : Outcome :=
  .next (s.request port RequestKind.authLock.code payload)

/-- CALIBRATE_SHORT (R11). -/
def execCalibrateShort (port : Port) (payload : List Byte) (s : State) : Outcome :=
  .next (s.request port RequestKind.calibrateShort.code payload)

/-- PROBE_OVERRIDE (R12). -/
def execProbeOverride (port : Port) (payload : List Byte) (s : State) : Outcome :=
  .next (s.request port RequestKind.probeOverride.code payload)

/-- PROBE_RELEASE (R15). -/
def execProbeRelease (port : Port) (payload : List Byte) (s : State) : Outcome :=
  .next (s.request port RequestKind.probeRelease.code payload)

/-- SURFACE_MODE (R18). -/
def execSurfaceMode (port : Port) (payload : List Byte) (s : State) : Outcome :=
  .next (s.request port RequestKind.surfaceMode.code payload)

/-- LOAD_PROFILE (R25). -/
def execLoadProfile (port : Port) (payload : List Byte) (s : State) : Outcome :=
  .next (s.request port RequestKind.loadProfile.code payload)

/-- PLANT_REPORT (R28). -/
def execPlantReport (port : Port) (payload : List Byte) (s : State) : Outcome :=
  .next (s.request port RequestKind.plantReport.code payload)

/-- SLAB_SCAN (R35). -/
def execSlabScan (port : Port) (payload : List Byte) (s : State) : Outcome :=
  .next (s.request port RequestKind.slabScan.code payload)

/-- RESURF_PREHEAT (R62). -/
def execResurfPreheat (port : Port) (payload : List Byte) (s : State) : Outcome :=
  .next (s.request port RequestKind.resurfPreheat.code payload)

/-- CLAIM_MANUAL (R63). -/
def execClaimManual (port : Port) (payload : List Byte) (s : State) : Outcome :=
  .next (s.request port RequestKind.claimManual.code payload)

/-- CLAIM_AUTO (R64). -/
def execClaimAuto (port : Port) (payload : List Byte) (s : State) : Outcome :=
  .next (s.request port RequestKind.claimAuto.code payload)

/-- ZONE_SET (R82). -/
def execZoneSet (port : Port) (payload : List Byte) (s : State) : Outcome :=
  .next (s.request port RequestKind.zoneSet.code payload)

/-- ZONE_SOURCE (R84). -/
def execZoneSource (port : Port) (payload : List Byte) (s : State) : Outcome :=
  .next (s.request port RequestKind.zoneSource.code payload)

/-- ZONE_LOCK (R83). -/
def execZoneLock (port : Port) (payload : List Byte) (s : State) : Outcome :=
  .next (s.request port RequestKind.zoneLock.code payload)

/-- MOVE (R100). -/
def execMove (port : Port) (payload : List Byte) (s : State) : Outcome :=
  .next (s.request port RequestKind.move.code payload)

/-- HOME (R102). -/
def execHome (port : Port) (payload : List Byte) (s : State) : Outcome :=
  .next (s.request port RequestKind.home.code payload)

/-- POS_MODE (R109). -/
def execPosMode (port : Port) (payload : List Byte) (s : State) : Outcome :=
  .next (s.request port RequestKind.posMode.code payload)

/-- GO (R133). -/
def execGo (port : Port) (payload : List Byte) (s : State) : Outcome :=
  .next (s.request port RequestKind.go.code payload)

/-- CUE_WRITE (R129). -/
def execCueWrite (port : Port) (payload : List Byte) (s : State) : Outcome :=
  .next (s.request port RequestKind.cueWrite.code payload)

/-- CUE_INVALIDATE (R139). -/
def execCueInvalidate (port : Port) (payload : List Byte) (s : State) : Outcome :=
  .next (s.request port RequestKind.cueInvalidate.code payload)

/-- CUE_PROBE (R140). -/
def execCueProbe (port : Port) (payload : List Byte) (s : State) : Outcome :=
  .next (s.request port RequestKind.cueProbe.code payload)

/-- RELEASE (R152). -/
def execRelease (port : Port) (payload : List Byte) (s : State) : Outcome :=
  .next (s.request port RequestKind.release.code payload)

end Sys2Proof.Machine
end

