-- ==== Sys2Proof/Machine/Dispatch.lean ====
section
/-! DEFINITION. One arm for each command, in the order of spec/opcode_table.json. -/

namespace Sys2Proof.Machine

def exec (i : Instr) (s : State) : Host.Outcome State Fault Refusal :=
  match i with
  | .powerOnReset straps drvfault endstop proven => Sys2Proof.Machine.execPowerOnReset straps drvfault endstop proven s
  | .probeConversion raw => Sys2Proof.Machine.execProbeConversion raw s
  | .deviceSecondTick => Sys2Proof.Machine.execDeviceSecondTick s
  | .overrideExpiry probe => Sys2Proof.Machine.execOverrideExpiry probe s
  | .resurfaceTimerExpiry => Sys2Proof.Machine.execResurfaceTimerExpiry s
  | .plantStale => Sys2Proof.Machine.execPlantStale s
  | .blindHoldEnd => Sys2Proof.Machine.execBlindHoldEnd s
  | .loopFail => Sys2Proof.Machine.execLoopFail s
  | .loopRestored => Sys2Proof.Machine.execLoopRestored s
  | .loopProved zone => Sys2Proof.Machine.execLoopProved zone s
  | .switchTimeout zone => Sys2Proof.Machine.execSwitchTimeout zone s
  | .boilerProvenActive level => Sys2Proof.Machine.execBoilerProvenActive level s
  | .allocationRound => Sys2Proof.Machine.execAllocationRound s
  | .positionerStep v => Sys2Proof.Machine.execPositionerStep v s
  | .travelEnd v => Sys2Proof.Machine.execTravelEnd v s
  | .homingStep v => Sys2Proof.Machine.execHomingStep v s
  | .homeFail v => Sys2Proof.Machine.execHomeFail v s
  | .endstopActive v level => Sys2Proof.Machine.execEndstopActive v level s
  | .drvfaultActive v level => Sys2Proof.Machine.execDrvfaultActive v level s
  | .delayEnd slot => Sys2Proof.Machine.execDelayEnd slot s
  | .holdExpiry slot => Sys2Proof.Machine.execHoldExpiry slot s
  | .fadeStep slot => Sys2Proof.Machine.execFadeStep slot s
  | .cueDone slot => Sys2Proof.Machine.execCueDone slot s
  | .fillTimeout line way => Sys2Proof.Machine.execFillTimeout line way s
  | .frameStart => Sys2Proof.Machine.execFrameStart s
  | .interByteGap port bytes => Sys2Proof.Machine.execInterByteGap port bytes s
  | .linkError port bytes => Sys2Proof.Machine.execLinkError port bytes s
  | .outOfTurnFrame port bytes => Sys2Proof.Machine.execOutOfTurnFrame port bytes s
  | .breakLine port => Sys2Proof.Machine.execBreak port s
  | .resultSent port => Sys2Proof.Machine.execResultSent port s
  | .unknownRequest port code payload => Sys2Proof.Machine.execUnknownRequest port code payload s
  | .status port payload => Sys2Proof.Machine.execStatus port payload s
  | .collect port payload => Sys2Proof.Machine.execCollect port payload s
  | .read port payload => Sys2Proof.Machine.execRead port payload s
  | .authSet port payload => Sys2Proof.Machine.execAuthSet port payload s
  | .authLock port payload => Sys2Proof.Machine.execAuthLock port payload s
  | .calibrateShort port payload => Sys2Proof.Machine.execCalibrateShort port payload s
  | .probeOverride port payload => Sys2Proof.Machine.execProbeOverride port payload s
  | .probeRelease port payload => Sys2Proof.Machine.execProbeRelease port payload s
  | .surfaceMode port payload => Sys2Proof.Machine.execSurfaceMode port payload s
  | .loadProfile port payload => Sys2Proof.Machine.execLoadProfile port payload s
  | .plantReport port payload => Sys2Proof.Machine.execPlantReport port payload s
  | .slabScan port payload => Sys2Proof.Machine.execSlabScan port payload s
  | .resurfPreheat port payload => Sys2Proof.Machine.execResurfPreheat port payload s
  | .claimManual port payload => Sys2Proof.Machine.execClaimManual port payload s
  | .claimAuto port payload => Sys2Proof.Machine.execClaimAuto port payload s
  | .zoneSet port payload => Sys2Proof.Machine.execZoneSet port payload s
  | .zoneSource port payload => Sys2Proof.Machine.execZoneSource port payload s
  | .zoneLock port payload => Sys2Proof.Machine.execZoneLock port payload s
  | .move port payload => Sys2Proof.Machine.execMove port payload s
  | .home port payload => Sys2Proof.Machine.execHome port payload s
  | .posMode port payload => Sys2Proof.Machine.execPosMode port payload s
  | .go port payload => Sys2Proof.Machine.execGo port payload s
  | .cueWrite port payload => Sys2Proof.Machine.execCueWrite port payload s
  | .cueInvalidate port payload => Sys2Proof.Machine.execCueInvalidate port payload s
  | .cueProbe port payload => Sys2Proof.Machine.execCueProbe port payload s
  | .release port payload => Sys2Proof.Machine.execRelease port payload s
  | .discardGap port => Sys2Proof.Machine.execDiscardGap port s
  | .rxReturnedHigh port => Sys2Proof.Machine.execRxReturnedHigh port s

end Sys2Proof.Machine
end

