-- ==== Sys2Proof/Safety.lean ====
section
/-! DEFINITION. What counts as a safe state, and when a tenant port takes a request, in the terms that statements use. -/

namespace Sys2Proof.Machine

/-! ### When a port takes a request -/

/-- The port is ready for a frame: IDLE, with no out-of-turn frame being dropped and no break standing (R158, R160, R161). -/
def PortState.ready (q : PortState) : Bool := q.phase == .idle && q.discard == 0 && !q.awaitLength && !q.lineDropped

/-- The port is ready for a frame, and no must-collect record waits in its queue (R167). -/
def PortState.clearToSend (q : PortState) : Bool := q.ready && !q.mustCollectPending

/-- A port may command in a domain now: it is clear to send, and the domain's set contains it (R162, R170). -/
def State.mayCommand (s : State) (p : Port) (d : Fin 13) : Bool := (s.port p).clearToSend && s.inDomain d p

/-- What a request leaves that is refused: the port's turn goes on, and nothing else changes (R162, R163). -/
def State.refused (s : State) (p : Port) (code : Byte) (r : Result) : State :=
  (s.enterExecuting p).answer p code { result := r }

/-- What a request leaves that is carried out: its effect is made while the port executes, and a result without a payload is
formed after it (R162, R163). -/
def State.served (s : State) (p : Port) (k : RequestKind) (r : Result) (effect : State → State) : State :=
  (effect (s.enterExecuting p)).answer p k.code { result := r }

/-- The result frame on its way at a port is that of a request, with this result and no payload. -/
def PortState.answers (q : PortState) (k : RequestKind) (r : Result) : Prop :=
  q.phase = .answering ∧ ∃ flags, q.tx = resultFrame k.code (BitVec.ofNat 8 r.code) flags []

/-- The command by which a request with a payload comes to a port. -/
def RequestKind.command : RequestKind → Port → List Byte → Instr
  | .status => .status | .collect => .collect | .read => .read | .authSet => .authSet | .authLock => .authLock
  | .calibrateShort => .calibrateShort | .probeOverride => .probeOverride | .probeRelease => .probeRelease
  | .surfaceMode => .surfaceMode | .loadProfile => .loadProfile | .plantReport => .plantReport | .slabScan => .slabScan
  | .resurfPreheat => .resurfPreheat | .claimManual => .claimManual | .claimAuto => .claimAuto | .zoneSet => .zoneSet
  | .zoneSource => .zoneSource | .zoneLock => .zoneLock | .move => .move | .home => .home | .posMode => .posMode | .go => .go
  | .cueWrite => .cueWrite | .cueInvalidate => .cueInvalidate | .cueProbe => .cueProbe | .release => .release

/-- What a command leaves in a port's completion queue: where there is room for all of these records, they stand there next,
in this order. -/
def State.tells (s t : State) (p : Port) (records : List Record) : Prop :=
  (s.port p).queue.length + records.length ≤ 8 → (s.port p).queue ++ records <+: (t.port p).queue

/-- What a command does at a port is to post these records to it, in this order (R164). -/
def State.posts (s t : State) (p : Port) (records : List Record) : Prop :=
  t.port p = records.foldl PortState.enqueue (s.port p)

/-- The records of one kind that a command leaves in a port's completion queue: where none is lost there, they stand after those of
before, in this order. -/
def State.adds (s t : State) (p : Port) (kind : RecordKind) (records : List Record) : Prop :=
  (t.port p).lost = false → (t.port p).queue.filter (fun x => x.kind == kind) =
    (s.port p).queue.filter (fun x => x.kind == kind) ++ records

/-! ### Evaluations of the governor -/

/-- H_ice as the surface controller hands it over now (R30, R114). -/
def State.hIceNow (s : State) : Nat :=
  match s.surface.report with
  | some r => if s.surface.plantStale = true then 0 else r.hIce
  | none => 0

/-- The margin that the surface mode selects now (R114). -/
def State.marginNow (s : State) : Nat :=
  match s.surface.mode with
  | .start => 0
  | .hold => s.plant.marginHold
  | .prep => s.plant.marginPrep
  | .play => s.plant.marginPlay
  | .resurface => s.plant.marginResurf
  | .covered => s.plant.marginCovered

/-- The derate in force now (R114). -/
def State.derateNow (s : State) : Nat := if s.surface.softIce = true then s.plant.softDerate else 0

/-- The ceiling as the governor would form it now, in W (R114). -/
def State.ceilingNow (s : State) : Int := max 0 (1000 * ((s.hIceNow : Int) - s.marginNow - s.derateNow))

/-- The committed level of a channel (R115): 0 for a haze channel while haze forcing holds, the target that a candidate's list has for
it (R122), the target that the slot fading it has for it, and otherwise its level. -/
def State.committedLevel (s : State) (candidate : List ListEntry) (c : Fin 96) : Nat :=
  let ch := s.channel c
  let listed := fun list : List ListEntry => list.find? (fun e => e.channel == c)
  if ch.haze = true ∧ (s.fog.state ≠ .clear ∨ s.surface.mode = .resurface) then 0
  else match (listed candidate).or (ch.owner.bind (fun n => listed (s.slot n).list)) with
    | some e => e.target
    | none => ch.level

/-- L_trim or L_untrim (R116), with a candidate's list counted (R122) or none: the loads of the channels of which the trimmable flag is
so, with the cover factor in COVERED. -/
def State.lightingLoad (s : State) (candidate : List ListEntry) (trimmable : Bool) : Nat :=
  let lit := all96.filter (fun c => (s.channel c).trimmable == trimmable)
  let sum := (lit.map (fun c => s.committedLevel candidate c * (20 * (s.channel c).coefficient) / 255)).sum
  if s.surface.mode = .covered then sum * s.plant.cover / 1000 else sum

/-- What an evaluation makes of the governor, by the state that it leaves (R114 to R119): the ceiling with its terms, the loads of
the committed levels, avail, F*, which F does not exceed, and ICE_OVERLOAD. -/
def State.evaluated (t : State) : Prop :=
  let g := t.governor
  g.hIceUsed = t.hIceNow ∧ g.marginUsed = t.marginNow ∧ g.derateUsed = t.derateNow ∧ (g.ceiling : Int) = t.ceilingNow ∧
  g.lUntrim = t.lightingLoad [] false ∧ g.lTrim = t.lightingLoad [] true ∧
  g.coverApplied = decide (t.surface.mode = .covered) ∧ g.avail = (g.ceiling : Int) - g.lSpill - g.lUntrim ∧
  g.fStar = (if g.lTrim = 0 then 256 else if g.avail ≤ 0 then 0 else min 256 (256 * g.avail.toNat / g.lTrim)) ∧
  g.f ≤ g.fStar ∧ g.iceOverload = decide (g.avail < 0)

/-- The records of one evaluation (R119): a change of ICE_OVERLOAD is told to P and L, with avail in kW rounded down. -/
def State.tellsOverload (s t : State) : Prop :=
  let told := fun kind : RecordKind => [(⟨kind, 0, t.governor.avail / 1000, s.deviceSeconds⟩ : Record)]
  ∀ p,
    s.adds t p .iceOverload (if p ≠ .portB ∧ s.governor.iceOverload = false ∧ t.governor.iceOverload = true then told .iceOverload
      else []) ∧
    s.adds t p .iceClear (if p ≠ .portB ∧ s.governor.iceOverload = true ∧ t.governor.iceOverload = false then told .iceClear else [])

/-- One ORDINARY evaluation with no slot in the headroom queue, and nothing else (R117 to R119): the governor's figures, F not above
what it was, the count, and a change of ICE_OVERLOAD told to P and L. -/
def State.evaluatedOnce (s t : State) : Prop :=
  let g := t.governor
  t.evaluated ∧ g.f = min s.governor.f g.fStar ∧ g.lSpill = s.governor.lSpill ∧ g.queue = [] ∧
  g.evalCount = s.governor.evalCount + 1 ∧ g.lastEval = some .ordinary ∧
  (∀ p, t.port p = if p = .portB ∨ g.iceOverload = s.governor.iceOverload then s.port p
    else (s.port p).enqueue ⟨if g.iceOverload = true then .iceOverload else .iceClear, 0, g.avail / 1000, s.deviceSeconds⟩) ∧
  t = { s with governor := t.governor, ports := t.ports }

/-! ### Transitions of the surface mode -/

/-- The slots that a new mode forbids: in DELAY or WAITING_HEADROOM, of a class that Table 2-3 does not allow (R19). -/
def State.forbidden (s : State) (new : Mode) : List (Fin 8) :=
  all8.filter (fun n => ((s.slot n).state == .delay || (s.slot n).state == .waitingHeadroom) &&
    (s.slot n).cls.any (fun c => !new.allows c))

/-- The records of a transition at a port (R19, R20, R177), with cause 0 for REQUEST and 1 for AUTO: SURFACE_CHANGED, CUE_MODE for
each forbidden slot that the port has fired, and at port P SOFT_ICE as cleared when PLAY is left with it set. -/
def State.transitionRecords (s : State) (new : Mode) (cause : Nat) (p : Port) : List Record :=
  ⟨.surfaceChanged, s.surface.mode.code, (new.code + 256 * cause : Nat), s.deviceSeconds⟩ ::
    (((s.forbidden new).filter (fun n => (s.slot n).port == some p)).map
      (fun n => ⟨.cueMode, n.val, (s.slot n).cue, s.deviceSeconds⟩) ++
    if p = .portP ∧ s.surface.mode = .play ∧ s.surface.softIce = true then [⟨.softIce, 0, 0, s.deviceSeconds⟩] else [])

/-- What the automatic homing on the exit from START leaves of the positioners (R111): of those that are UNHOMED and not queued, in
ascending order, one with ENDSTOP active stands homed at once, the next ones home while a travel slot is free, and the rest wait in
the queue with intent HOME. -/
def State.homedAtExit (s t : State) : Prop :=
  let due := all8.filter (fun v => (s.pos v).state == .unhomed && !s.positioners.queue.contains v)
  let homes := due.filter (fun v => !(s.pos v).endstop)
  let free := 4 - s.positioners.holders.length
  (∀ v, t.pos v =
    if v ∈ homes.take free then { s.pos v with
      state := .homing, position := none, intent := none, homingCount := 0, dirOpen := false
      stepTimer := some (s.stepInterval v) }
    else if v ∈ homes then { s.pos v with intent := some .home }
    else if v ∈ due then { s.pos v with
      state := .idle, position := some 0, target := 0, cause := none, intent := none, stepTimer := none }
    else s.pos v) ∧
  t.positioners.queue = s.positioners.queue ++ homes.drop free ∧
  t.positioners.holders.map Prod.snd = s.positioners.holders.map Prod.snd ++ homes.take free ∧
  ((s.positioners.holders.map Prod.fst).Nodup → (t.positioners.holders.map Prod.fst).Nodup)

/-- What the exit from START makes of a state in which its four conditions hold (R19, R24, R58, R111), with the evaluation that a
transition asks for (R117). While no slot waits for headroom, no slot but the forbidden ones changes, the channels stay, less the
owners among those, and that evaluation is the only one. -/
def State.leavesStart (s t : State) : Prop :=
  t.surface = { s.surface with mode := .hold, dwell := 0 } ∧ t.pool = { s.pool with roundTimer := some 5000 } ∧
  s.homedAtExit t ∧ (∀ n ∈ s.forbidden .hold, t.slot n = Slot.reset) ∧
  (∀ p, s.tells t p (s.transitionRecords .hold 1 p)) ∧ t.evaluated ∧
  (s.governor.queue = [] →
    (∀ n, n ∉ s.forbidden .hold → t.slot n = s.slot n) ∧
    (∀ c, t.channel c = { s.channel c with owner := (s.channel c).owner.filter (fun n => decide (n ∉ s.forbidden .hold)) }) ∧
    (s.forbidden .hold = [] → t.store = s.store) ∧ s.tellsOverload t ∧
    t.governor.f = min s.governor.f t.governor.fStar ∧ t.governor.lSpill = s.governor.lSpill ∧ t.governor.queue = [] ∧
    t.governor.evalCount = s.governor.evalCount + 1 ∧ t.governor.lastEval = some .ordinary) ∧
  t = { s with surface := t.surface, pool := t.pool, positioners := t.positioners, governor := t.governor, channels := t.channels
               slots := t.slots, store := t.store, ports := t.ports, openChoices := t.openChoices }

/-! ### The fog unit's backup -/

/-- The backup judged, with the wheel (R53, R55): it turns on when it is enabled, the acting state is ACT or SEVERE, and three rounds
gave nothing or the loop has failed; it turns off when one of its conditions fails, or three rounds gave enough. -/
def Fog.judged (f : Fog) (acting : FogState) (enable loopFail : Bool) : Fog :=
  let acute := acting = .act ∨ acting = .severe
  if f.backup = false ∧ enable = true ∧ acute ∧ (f.zeroRun = 3 ∨ loopFail = true) then
    { f with backup := true, adequateRun := 0, wheel := true }
  else if f.backup = true ∧ (enable = false ∨ ¬acute ∨ f.adequateRun = 3) then
    { f with backup := false, wheel := decide (0 < f.lastGrant) }
  else f

/-! ### Travel slots that change hands -/

/-- The positioners that a freed slot passes on its way along the travel queue: from the head on, those that are to home and find
ENDSTOP active, which complete at the grant (R98, R104). -/
def State.homedAtGrant (s : State) : List (Fin 8) :=
  s.positioners.queue.takeWhile (fun w => (s.pos w).intent == some .home && (s.pos w).endstop)

/-- What becomes of the other positioners, the travel slots and the queue when a positioner gives up its slot or its place in the
queue (R98, R103, R104). A slot that it held goes at once to the first queued positioner that does not complete at the grant, which
leaves the queue and travels or begins homing by its intent; with none, it stays free. A place in the queue closes up. -/
def State.handsOn (s t : State) (v : Fin 8) : Prop :=
  match s.positioners.holders.find? (fun h => h.2 == v) with
  | none => t.positioners.holders = s.positioners.holders ∧ t.positioners.queue = s.positioners.queue.filter (fun w => w != v) ∧
    ∀ w, w ≠ v → t.pos w = s.pos w
  | some held =>
    let homed := s.homedAtGrant
    let rest := s.positioners.queue.drop homed.length
    t.positioners.queue = rest.drop 1 ∧
    t.positioners.holders = s.positioners.holders.filter (fun h => h.2 != v) ++ (rest.take 1).map (fun w => (held.1, w)) ∧
    ∀ w, w ≠ v →
      let r := s.pos w
      t.pos w =
        if w ∈ homed then { r with
          state := .idle, position := some 0, target := 0, cause := none, intent := none, stepTimer := none, port := none }
        else if w ∉ rest.take 1 then r
        else if r.intent = some .home then { r with
          state := .homing, position := none, intent := none, homingCount := 0, dirOpen := false
          stepTimer := some (s.stepInterval w) }
        else { r with state := .travel, intent := none, stepTimer := some (s.stepInterval w) }

/-- The records at a port of a slot that a positioner gives up: HOME_DONE for each of the port's homings that completes at the grant
(R104). -/
def State.grantRecords (s : State) (v : Fin 8) (p : Port) : List Record :=
  if v ∈ s.positioners.holders.map Prod.snd then
    (s.homedAtGrant.filter (fun w => (s.pos w).port == some p)).map (fun w => ⟨.homeDone, w.val, 0, s.deviceSeconds⟩)
  else []

/-! ### Zones -/

/-- A zone after a fail-over (R94): one that is on RECOVERED, or proves toward it, is OFF and proves toward the boiler, with a pending
switch to the boiler kept, or is on the boiler at once when the boiler is proven. -/
def Zone.failedOver (zn : Zone) (proven : Bool) : Zone :=
  if zn.failsOver = false then zn
  else if proven then { zn with source := .boiler, switch := .steady, port := none, fallback := true, starved := 0, surplus := 0 }
  else { zn with
    source := .off, fallback := true, starved := 0, surplus := 0
    switch := match zn.switch with | .provingBoiler left => .provingBoiler left | _ => .provingBoiler 120
    port := match zn.switch with | .provingBoiler _ => zn.port | _ => none }

/-- The request of a zone after a round's demand update (R81): min(max, floor(gain err / 10)), and 0 for no error; while the air
probe is unusable the request that it had, up to max. -/
def State.demandAt (s : State) (z : Fin 4) : Nat :=
  let zn := s.zone z
  let q := pick s.building.zones z
  let set := if zn.occupied = true ∧ s.surface.mode ≠ .hold then zn.occupiedSet else zn.setbackSet
  match s.published (probeZone z) with
  | none => min q.max zn.request
  | some air => if set ≤ air then 0 else min q.max (((q.gain : Int) * (set - air) / 10).toNat)

/-! ### The zones' tier of a round -/

/-- What a round's supply leaves for tier 2, by the figures that the round keeps: the heat available and drawn, less the grants of the
tiers before it (R66 to R68). -/
def State.zoneSupply (t : State) : Nat :=
  t.pool.qAvail + t.pool.drawn - (t.claim subsoil).grant - (t.claim desiccant).grant

/-- A zone's grant before the spill cap (R67, R68): its request where the supply covers the tier; otherwise its proportional share
rounded down, with one kW of the remainder for the first zones that ask for heat; and nothing below its minimum. -/
def State.zoneShare (t : State) (z : Fin 4) : Nat :=
  let request := fun y : Fin 4 => (t.claim (zoneConsumer y)).request
  let total := (all4.map request).sum
  let remainder := t.zoneSupply - (all4.map (fun y => t.zoneSupply * request y / total)).sum
  let before := (all4.filter (fun y => decide (y < z) && decide (0 < request y))).length
  let share :=
    if total ≤ t.zoneSupply then request z
    else t.zoneSupply * request z / total + if 0 < request z ∧ before < remainder then 1 else 0
  if share < (t.claim (zoneConsumer z)).minimum then 0 else share

/-! ### The scan -/

/-- The scan goes on to the next channel; the conversion of channel 31 completes the pass (R1). -/
def State.scanOn (s : State) : State :=
  let moved := { s with scanner := { s.scanner with channel := s.scanner.channel + 1 } }
  if s.scanner.channel = 31 then moved.passEnd else moved

/-! ### The pages of the views (Table 11-7, R179) -/

/-- The bytes of a page after its head: how many they are. -/
def pageLength (view page : Nat) : Nat :=
  match view with
  | 0 => 201 | 1 => 10 | 2 => 38 | 3 => 135 | 4 => 87 | 5 => 117 | 6 => 78 | 7 => 20 | 8 => 26
  | _ => if page < 2 then 240 else 226

/-- A flag as a number. -/
def bitOf (b : Bool) : Nat := if b then 1 else 0

/-- The fields of SLOTS on a channel page, each with the place of its first byte: five bytes for each of 48 channels. -/
def State.channelFields (s : State) (page : Nat) : List (Nat × List Byte) :=
  (all96.filter (fun c => c.val / 48 == page)).flatMap (fun c =>
    let k := 5 * (c.val % 48)
    let ch := s.channel c
    [(k, encU8 ch.level), (k + 1, encU8 ((ch.owner.map Fin.val).getD 255)), (k + 2, encU8 ch.coefficient),
     (k + 3, encU8 (bitOf ch.trimmable + 2 * bitOf ch.haze)), (k + 4, encU8 (pick s.sent c))])

/-- The fields of SLOTS on a slot page: the slot's header, and 40 entries of its channel list from `first`, with five zero bytes for
each beyond it. The bytes of an absent sweep are those of log entry 10. -/
def State.slotFields (s : State) (n : Fin 8) (first : Nat) : List (Nat × List Byte) :=
  let sl := s.slot n
  [(0, encU8 n.val), (1, encU8 sl.state.code), (2, encU16 sl.cue), (4, encU8 ((sl.port.map Port.code).getD 255)),
   (5, encU8 ((sl.cls.map CueClass.code).getD 255)), (6, encU8 ((sl.policy.map TrimPolicy.code).getD 255)),
   (7, encU8 ((sl.sweep.map Sweep.group).getD 255)), (8, encU8 ((sl.sweep.map (fun w => w.order.code)).getD 255)),
   (9, encU8 ((sl.sweep.map (fun w => w.length.code)).getD 255)), (10, encU8 ((sl.sweep.map Sweep.startAt).getD 255)),
   (11, encU8 ((sl.sweep.map Sweep.memberStep).getD 255)), (12, encU16 sl.delay), (14, encU16 sl.hold), (16, encU32 sl.duration),
   (20, encU32 sl.elapsed), (24, encU8 sl.list.length), (25, encU8 first)] ++
  (List.range 40).flatMap (fun k => match sl.list[first + k]? with
    | none => [(26 + 5 * k, [0, 0, 0, 0, 0])]
    | some e => [(26 + 5 * k, encU8 e.channel.val), (27 + 5 * k, encU8 e.start), (28 + 5 * k, encU8 e.target),
        (29 + 5 * k, encU16 (e.offset / 100))])

/-- The fields of a page after its head, each with the place of its first byte. What an absent value shows where R174 and R179 do not
say it is the model's choice (log entry 10), and so are the bits of the valid flags of SURFACE (log entry 20). -/
def State.pageFields (s : State) (view page : Nat) : List (Nat × List Byte) :=
  match view with
  | 0 =>
    (List.finRange 32).flatMap (fun i =>
      let r := s.probe i
      let working := i = probeRef ∧ s.scanner.longCal = true
      [(6 * i.val, encS16 (if working then r.value else r.pubValue)),
       (6 * i.val + 2, encU8 (if working then r.quality else r.pubQuality).code), (6 * i.val + 3, encU8 r.spikeRun),
       (6 * i.val + 4, encU16 ((r.override.map Override.remaining).getD 65535))]) ++
    [(192, encS16 s.scanner.offset), (194, encU8 (1 - bitOf s.scanner.longCal)), (195, encU8 s.scanner.calCount),
     (196, encU8 (bitOf s.scanner.shortPending)), (197, encU32 s.scanner.passNumber.toNat)]
  | 1 =>
    let x := s.surface.stats
    let absent : Int := -32768
    [(0, encU8 (bitOf s.surface.slabBlind)), (1, encU8 (bitOf x.isSome)), (2, encU8 ((x.map SlabStats.n).getD 255)),
     (3, encS16 ((x.map SlabStats.mean).getD absent)), (5, encS16 ((x.map SlabStats.min).getD absent)),
     (7, encS16 ((x.map SlabStats.max).getD absent)), (9, encU8 ((x.map SlabStats.maxCell).getD 255))]
  | 2 =>
    let f := s.fog
    let absent : Int := -32768
    [(0, encU8 f.state.code), (1, encU8 ((f.held.map FogState.code).getD 255)), (2, encU8 f.acting.code), (3, encU16 f.dwell),
     (5, encU16 (f.holdTimer.getD 0)), (7, encU8 (bitOf f.dew.isSome)), (8, encS16 ((f.dew.map DewRecord.t).getD absent)),
     (10, encU16 ((f.dew.map (fun d => d.rh.toNat)).getD 65535)), (12, encU16 ((f.dew.map (fun d => d.es.toNat)).getD 65535)),
     (14, encU16 ((f.dew.map (fun d => d.e.toNat)).getD 65535)), (16, encS16 ((f.dew.map DewRecord.td).getD absent)),
     (18, encU8 ((f.dew.map (fun d => bitOf d.fresh)).getD 255)), (19, encS16 (f.layer.getD absent)),
     (21, encS16 (f.roof.getD absent)), (23, encS16 (f.margin.getD absent)), (25, encU8 f.watchEff), (26, encU8 f.actEff),
     (27, encU8 f.severeEff), (28, encU16 f.request), (30, encU8 f.fanStage), (31, encU8 (bitOf f.backup)), (32, encU8 f.zeroRun),
     (33, encU8 f.adequateRun), (34, encU16 f.lastGrant), (36, encU8 (bitOf f.wheel)), (37, encU8 (bitOf s.hazeForcing))]
  | 3 =>
    let q := s.pool
    all8.flatMap (fun c =>
      let x := s.claim c
      let k := 12 * c.val
      [(k, encU16 x.request), (k + 2, encU16 x.minimum), (k + 4, encU16 x.grant), (k + 6, encU8 x.origin.code),
       (k + 7, encU16 x.manualRequest), (k + 9, encU16 x.manualMinimum), (k + 11, encU8 x.shortCount)]) ++
    [(96, encU16 q.qAvail), (98, encU16 q.allowance), (100, encU16 q.rAll), (102, encU16 q.drawn), (104, encU16 q.charge),
     (106, encU8 (bitOf q.discharging)), (107, encU32 q.spillBudget), (111, encU32 q.roundSpill),
     (115, encU16 (s.zone 0).delivered), (117, encU16 (s.zone 1).delivered), (119, encU16 (s.zone 2).delivered),
     (121, encU16 (s.zone 3).delivered), (123, encU8 (bitOf q.subsoilDemand)), (124, encU8 (bitOf q.preheat)),
     (125, encU8 (bitOf q.loopFail)), (126, encU8 q.unusableRun), (127, encU8 q.lowRun), (128, encU8 q.restoreRun),
     (129, encU16 (q.roundTimer.getD 65535)), (131, encU32 q.roundCount.toNat)]
  | 4 =>
    all4.flatMap (fun z =>
      let x := s.zone z
      let k := 21 * z.val
      [(k, encS16 x.occupiedSet), (k + 2, encS16 x.setbackSet), (k + 4, encU8 (bitOf x.occupied)),
       (k + 5, encS16 (if x.occupied = true ∧ s.surface.mode ≠ .hold then x.occupiedSet else x.setbackSet)),
       (k + 7, encU16 x.request), (k + 9, encU8 x.source.code), (k + 10, encU8 x.switch.code),
       (k + 11, encU8 (match x.switch with | .steady => 255 | .provingLoop _ => 1 | .provingBoiler _ => 2)),
       (k + 12, encU16 (match x.switch with | .steady => 0 | .provingLoop run => run | .provingBoiler left => left)),
       (k + 14, encU8 ((x.port.map Port.code).getD 255)), (k + 15, encU8 (bitOf x.locked)), (k + 16, encU8 (bitOf x.fallback)),
       (k + 17, encU8 x.starved), (k + 18, encU8 x.surplus), (k + 19, encU16 x.delivered)]) ++
    let wants := fun z : Fin 4 => match (s.zone z).switch with
      | .provingBoiler _ => true
      | _ => (s.zone z).source == .boiler && decide (0 < (s.zone z).request)
    let onBoiler := fun z : Fin 4 => bitOf ((s.zone z).source == .boiler)
    [(84, encU8 (bitOf (all4.any wants))), (85, encU8 (bitOf s.boilerProven)),
     (86, encU8 (onBoiler 0 + 2 * onBoiler 1 + 4 * onBoiler 2 + 8 * onBoiler 3))]
  | 5 =>
    all8.flatMap (fun v =>
      let r := s.pos v
      let k := 13 * v.val
      [(k, encU8 r.state.code), (k + 1, encU16 (r.position.getD 65535)), (k + 3, encU16 r.target), (k + 5, encU8 (bitOf r.manual)),
       (k + 6, encU8 ((r.port.map Port.code).getD 255)), (k + 7, encU8 ((r.intent.map Intent.code).getD 255)),
       (k + 8, encU8 ((r.cause.map FaultCause.code).getD 255)), (k + 9, encU16 r.homingCount), (k + 11, encU8 (bitOf r.retarget)),
       (k + 12, encU8 (bitOf r.endstop + 2 * bitOf r.drvfault))]) ++
    all4.map (fun k => (104 + k.val,
      encU8 (((s.positioners.holders.find? (fun h => h.1 == k)).map (fun h => h.2.val)).getD 255))) ++
    (108, encU8 s.positioners.queue.length) ::
      all8.map (fun k => (109 + k.val, encU8 ((s.positioners.queue[k.val]?.map Fin.val).getD 255)))
  | 6 =>
    let g := s.governor
    [(0, encU32 g.ceiling), (4, encU16 g.hIceUsed), (6, encU16 g.marginUsed), (8, encU16 g.derateUsed),
     (10, encU8 (bitOf g.coverApplied)), (11, encU32 g.lSpill), (15, encU32 g.lUntrim), (19, encU32 g.lTrim), (23, encS32 g.avail),
     (27, encU16 g.fStar), (29, encU16 g.f), (31, encU8 (bitOf g.iceOverload)), (32, encU32 g.evalCount.toNat),
     (36, encU8 (match g.lastEval with | none => 0 | some .roundEnd => 1 | some .ordinary => 2)), (37, encU8 g.queue.length)] ++
    all8.flatMap (fun k => match g.queue[k.val]? with
      | none => [(38 + 5 * k.val, [0xFF, 0xFF, 0xFF, 0, 0])]
      | some n => [(38 + 5 * k.val, encU8 n.val), (39 + 5 * k.val, encU16 (s.slot n).cue), (41 + 5 * k.val, encU16 (s.slot n).hold)])
  | 7 =>
    let q := s.surface
    [(0, encU8 q.mode.code), (1, encU16 q.dwell), (3, encU16 (q.resurfaceTimer.getD 0)),
     (5, encU8 (bitOf q.plantValid + 2 * bitOf q.buildingValid + 4 * bitOf q.lightingValid)), (6, encU8 (bitOf q.calComplete)),
     (7, encU8 (bitOf q.report.isSome)), (8, encU16 ((q.report.map PlantReport.qRec).getD 65535)),
     (10, encU16 ((q.report.map PlantReport.hIce).getD 65535)), (12, encU16 q.reportAge), (14, encU8 (bitOf q.plantStale)),
     (15, encU8 (bitOf q.ready)), (16, encU8 q.inBand), (17, encU8 (bitOf q.softIce)), (18, encU8 q.aboveRun), (19, encU8 q.belowRun)]
  | 8 =>
    (List.finRange 13).flatMap (fun d =>
      let x := pick s.authority d
      [(2 * d.val, encU8 (bitOf x.ports.p + 2 * bitOf x.ports.b + 4 * bitOf x.ports.l)), (2 * d.val + 1, encU8 (bitOf x.locked))])
  | _ => if page < 2 then s.channelFields page else s.slotFields (Fin.ofNat 8 ((page - 2) / 3)) (40 * ((page - 2) % 3))

/-! ### Invariants -/

/-- No completion queue holds more than 8 records (R164). -/
def State.queuesBounded (s : State) : Prop := ∀ p : Port, (s.port p).queue.length ≤ 8

/-- While ICE_OVERLOAD is clear, the spill, the untrimmable load and the trimmed load do not exceed the ceiling (R119). -/
def Governor.withinCeiling (g : Governor) : Prop :=
  g.iceOverload = false → g.lSpill + g.lUntrim + g.lTrim * g.f / 256 ≤ g.ceiling

/-- The positioner travels or homes. -/
def Positioner.moving (r : Positioner) : Bool := r.state == .travel || r.state == .homing

/-- The positioner is in a state that has a position (R96). -/
def Positioner.placed (r : Positioner) : Bool := r.state == .idle || r.state == .waiting || r.state == .travel

/-- The travel slots and the travel queue agree with the records (R96, R98): a slot has one holder and a positioner at most one
slot; exactly the moving positioners hold slots; exactly the placed ones have a position, in 0..1023; a queued positioner stands
in the queue once, in WAITING, or in UNHOMED or FAULT with intent HOME. -/
structure State.travelSound (s : State) : Prop where
  slotsOnce   : (s.positioners.holders.map Prod.fst).Nodup
  holdersOnce : (s.positioners.holders.map Prod.snd).Nodup
  queuedOnce  : s.positioners.queue.Nodup
  holding     : ∀ v, v ∈ s.positioners.holders.map Prod.snd ↔ (s.pos v).moving = true
  placing     : ∀ v, (s.pos v).position.isSome = (s.pos v).placed
  range       : ∀ v x, (s.pos v).position = some x → x ≤ 1023
  targets     : ∀ v, (s.pos v).target ≤ 1023
  queued      : ∀ v, v ∈ s.positioners.queue →
    (s.pos v).state = .waiting ∨ (((s.pos v).state = .unhomed ∨ (s.pos v).state = .fault) ∧ (s.pos v).intent = some .home)

/-- While LOOP_FAIL is set no zone is on RECOVERED or proves toward it (R94). -/
def State.loopSound (s : State) : Prop := s.pool.loopFail = true → ∀ z, (s.zone z).failsOver = false

/-- The fade slots, the channels, the headroom queue and the cue store agree: a FREE slot stands at its reset value (R144); a
channel is owned by a slot exactly when the slot fades it, once (R142, R146); the headroom queue holds each slot in
WAITING_HEADROOM once, and no other (R120, R124); the two ways of a line never hold one tag (R128); a PRESENT entry is complete
(R130); and a slot is in WAITING_FILL exactly while it stands, once, in the waiter list of the FILLING entry of its cue (R138). -/
structure State.lightingSound (s : State) : Prop where
  freeReset    : ∀ n, (s.slot n).state = .free → s.slot n = Slot.reset
  owners       : ∀ c n, (s.channel c).owner = some n ↔
    (s.slot n).state = .fading ∧ c ∈ (s.slot n).list.map ListEntry.channel
  lists        : ∀ n, ((s.slot n).list.map ListEntry.channel).Nodup
  headroom     : ∀ n, n ∈ s.governor.queue ↔ (s.slot n).state = .waitingHeadroom
  headroomOnce : s.governor.queue.Nodup
  tags         : ∀ l, (s.entry l 0).state ≠ .invalid → (s.entry l 1).state ≠ .invalid → (s.entry l 0).tag ≠ (s.entry l 1).tag
  present      : ∀ l w, (s.entry l w).state = .present → (s.entry l w).complete = true
  waitersOnce  : ∀ l w, (s.entry l w).waiters.Nodup
  waiters      : ∀ l w n, n ∈ (s.entry l w).waiters →
    (s.entry l w).state = .filling ∧ (s.slot n).state = .waitingFill ∧ cueLine (s.slot n).cue = l ∧
      cueTag (s.slot n).cue = (s.entry l w).tag
  waiting      : ∀ n, (s.slot n).state = .waitingFill → ∃ w, n ∈ (s.entry (cueLine (s.slot n).cue) w).waiters

end Sys2Proof.Machine
end

