-- ==== Sys2Proof/Certificates/Slice0/Obligations.lean ====
section
/-! DEFINITION. The statements for the provers, chapter by chapter. The next state of a request is written on the state in which
its port executes, and ends in the result that the port forms. -/

open Sys2Proof Sys2Proof.Machine

/-! ### The machine: steps, an idle millisecond, power-on reset -/

/-- The queue of waiting commands is first in, first out: a step is the oldest command's effect, with the rest still waiting. -/
def Obligations.StepTakesTheOldestCommand : Prop :=
  ∀ (c : Instr) (rest : List Instr) (s : State), s.pending = c :: rest → step s = exec c { s with pending := rest }

/-- THE MODEL'S CHOICE (log entry 2): with no command waiting a step is one millisecond, in which only the ms timers count, each
held at 1, and the tenths of a delay and of a hold once in 100 ms, held at 1. -/
def Obligations.IdleMillisecondMovesOnlyTimers : Prop :=
  ∀ s : State, s.pending = [] → ∃ t, step s = .next t ∧
    t = { s with
      pool := { s.pool with roundTimer := s.pool.roundTimer.map (fun n => max 1 (n - 1)) }
      positioners := { s.positioners with records := t.positioners.records }
      store := t.store, slots := t.slots } ∧
    (∀ v, t.pos v = { s.pos v with stepTimer := (s.pos v).stepTimer.map (fun n => max 1 (n - 1)) }) ∧
    (∀ l w, t.entry l w = { s.entry l w with fillTimer := (s.entry l w).fillTimer.map (fun n => max 1 (n - 1)) }) ∧
    (∀ l, (pick t.store l).lru = (pick s.store l).lru) ∧
    ∀ n, t.slot n = { s.slot n with timer := (t.slot n).timer, delay := (t.slot n).delay, hold := (t.slot n).hold } ∧
      ((t.slot n).delay = (s.slot n).delay ∨
        ((s.slot n).state = .delay ∧ 1 < (s.slot n).delay ∧ (t.slot n).delay = (s.slot n).delay - 1)) ∧
      ((t.slot n).hold = (s.slot n).hold ∨
        ((s.slot n).state = .waitingHeadroom ∧ 1 < (s.slot n).hold ∧ (t.slot n).hold = (s.slot n).hold - 1))

/-- Power-on reset puts every block at its reset value, the ports at their strapped rates and the inputs at their levels; the
positioners of which DRVFAULT is active stand in FAULT, and POS_FAULT is posted for them, in ascending order, to the port that
the reset map gives their side (R96, R157). The waiting commands and the model's own counter are outside the part. The
reset values that the manual leaves open are the model's (log entries 3 and 4). -/
def Obligations.PowerOnResetRestoresEveryBlock : Prop :=
  ∀ (straps : Straps) (drvfault endstop : BitVec 8) (proven : Bool) (s : State),
    ∃ t, exec (.powerOnReset straps drvfault endstop proven) s = .next t ∧
      t = { State.reset with
        boilerProven := proven, positioners := { t.positioners with holders := [], queue := [] }, ports := t.ports
        openChoices := s.openChoices, pending := s.pending } ∧
      (∀ v : Fin 8, t.pos v = { Positioner.reset with
        endstop := endstop.getLsbD v.val, drvfault := drvfault.getLsbD v.val
        state := if drvfault.getLsbD v.val then .fault else .unhomed
        cause := if drvfault.getLsbD v.val then some .driver else none }) ∧
      ∀ p, t.port p = { PortState.reset (strapRate (match p with
          | .portP => straps.p
          | .portB => straps.b
          | .portL => straps.l)) with
        queue := (all8.filter (fun v => drvfault.getLsbD v.val && State.reset.inDomain (posDomain v) p)).map
          (fun v => ⟨.posFault, v.val, 2, 0⟩) }

/-! ### The probe scanner -/

/-- A conversion of a temperature probe (R4, R5) or of H0 (R6) after long calibration: an override discards it (R13); OPEN, SHORT,
the corrected reading, and the spike filter; neither offset nor filter for H0. No other record changes, and the scan goes on. -/
def Obligations.ProbeConversionUpdatesItsRecord : Prop :=
  ∀ (raw : Int) (s : State), s.scanner.longCal = false → s.scanner.channel ≠ probeRef →
    exec (.probeConversion raw) s = .next
      (let r := s.probe s.scanner.channel
       let reading := clampInt (-600) 1100 raw
       let corrected := clampInt (-500) 1000 (reading - s.scanner.offset)
       s.setProbe s.scanner.channel
        (if r.override ≠ none then r
         else if s.scanner.channel = probeH0 then
          if 1050 ≤ raw then { r with quality := .opened } else { r with value := clampInt 0 1000 raw, quality := .good }
         else if reading = 1100 then { r with quality := .opened, spikeRun := 0 }
         else if reading = -600 then { r with quality := .shorted, spikeRun := 0 }
         else if (r.quality = .good ∨ r.quality = .spike) ∧ 50 < (corrected - r.value).natAbs ∧ r.spikeRun < 2 then
           { r with quality := .spike, spikeRun := r.spikeRun + 1 }
         else { r with value := corrected, quality := .good, spikeRun := 0 })).scanOn

/-- A conversion of REF (R7, R8, R10): its own record, and the offset. In long calibration a reading in range is counted and the
32nd forms the offset; after it a short calibration that is due moves the offset by one tenth and the pending flag clears. -/
def Obligations.ReferenceConversionCalibrates : Prop :=
  ∀ (raw : Int) (s : State), s.scanner.channel = probeRef →
    let q := s.scanner
    let x := clampInt (-600) 1100 raw
    let seen := s.setProbe probeRef
      (if x = 1100 then { s.probe probeRef with quality := .opened }
       else if x = -600 then { s.probe probeRef with quality := .shorted }
       else { s.probe probeRef with value := x, quality := .good })
    let good := -600 < x ∧ x < 1100
    (q.longCal = true → exec (.probeConversion raw) s = .next { seen with scanner := { seen.scanner with
        channel := 26
        calSum := if good then q.calSum + x else q.calSum
        calCount := if good then q.calCount + 1 else q.calCount
        offset := if good ∧ q.calCount = 31 then (q.calSum + x + 16) / 32 else q.offset } }) ∧
    (q.longCal = false → exec (.probeConversion raw) s = .next { seen with scanner := { seen.scanner with
        channel := 26
        shortPending := false
        offset := if good ∧ (q.shortPending = true ∨ (q.passNumber.toNat + 1) % 64 = 0) then
            (if q.offset < x then q.offset + 1 else if x < q.offset then q.offset - 1 else q.offset)
          else q.offset } })

/-- Long calibration (R8, R9): every conversion of another channel is discarded, a pass end only counts the pass, and the pass end
that finds 32 readings ends it; with all profiles valid in START that is the exit to HOLD (R24), with the records of the transition
(R19), the round timer started (R58) and the positioners homed (R111). -/
def Obligations.LongCalibrationEndsAfterThirtyTwoReadings : Prop :=
  ∀ (raw : Int) (s : State), s.scanner.longCal = true → s.scanner.channel ≠ probeRef →
    let next := { s.scanner with channel := s.scanner.channel + 1 }
    let ended := { s.scanner with channel := 0, passNumber := s.scanner.passNumber + 1, longCal := false }
    (s.scanner.channel ≠ 31 → exec (.probeConversion raw) s = .next { s with scanner := next }) ∧
    (s.scanner.channel = 31 → s.scanner.calCount ≠ 32 → exec (.probeConversion raw) s = .next
      { s with scanner := { s.scanner with channel := 0, passNumber := s.scanner.passNumber + 1 } }) ∧
    (s.scanner.channel = 31 → s.scanner.calCount = 32 →
      if s.surface.mode = .start ∧ s.surface.plantValid = true ∧ s.surface.buildingValid = true ∧ s.surface.lightingValid = true
      then ∃ t, exec (.probeConversion raw) s = .next t ∧
        ({ s with scanner := ended, surface := { s.surface with calComplete := true } } : State).leavesStart t
      else exec (.probeConversion raw) s = .next
        { s with scanner := ended, surface := { s.surface with calComplete := true } })

/-- A pass end outside long calibration (R3, R31 to R33): every record is published; of 12 or more usable slab values the statistics
are formed, READY follows in PREP and SOFT_ICE in PLAY, each with its run and its record; with fewer the slab is blind and the rest
of the surface controller stays. The blocks that take no pass end stay as they are. -/
def Obligations.PassEndPublishesEveryRecord : Prop :=
  ∀ (raw : Int) (s : State), s.scanner.longCal = false → s.scanner.channel = 31 →
    ∃ t, exec (.probeConversion raw) s = .next t ∧
      (∀ i, (t.probe i).pubValue = (t.probe i).value ∧ (t.probe i).pubQuality = (t.probe i).quality) ∧
      (∀ i, i ≠ 31 → t.probe i = { s.probe i with pubValue := (s.probe i).value, pubQuality := (s.probe i).quality }) ∧
      t.scanner = { s.scanner with channel := 0, passNumber := s.scanner.passNumber + 1, probes := t.scanner.probes } ∧
      (let cell := fun c : Fin 20 => t.published ⟨c.val, by omega⟩
       let values := (List.finRange 20).filterMap cell
       let q := s.surface
       let added := fun (k : RecordKind) (p : Port) (r : List Record) => s.governor.queue = [] →
        (s.port p).queue.length ≤ 6 → (t.port p).queue.filter (fun x => x.kind == k) =
          (s.port p).queue.filter (fun x => x.kind == k) ++ r
       if values.length < 12 then t.surface = { q with slabBlind := true }
       else ∃ x : SlabStats, x.n = values.length ∧
        2 * x.n * x.mean ≤ 2 * values.sum + x.n ∧ 2 * values.sum + x.n < 2 * x.n * (x.mean + 1) ∧
        x.min ∈ values ∧ x.max ∈ values ∧ (∀ v ∈ values, x.min ≤ v ∧ v ≤ x.max) ∧
        (∃ c : Fin 20, x.maxCell = c.val ∧ cell c = some x.max ∧ ∀ d, d < c → cell d ≠ some x.max) ∧
        (let inBand := s.plant.bandLow ≤ x.mean ∧ x.mean ≤ s.plant.bandHigh
         let run := if inBand then min 75 (q.inBand + 1) else 0
         let becomesReady := inBand ∧ run = 75 ∧ q.ready = false
         let above := if s.plant.softThreshold < x.max then min 3 (q.aboveRun + 1) else 0
         let below := if x.max ≤ s.plant.softThreshold - 5 then min 3 (q.belowRun + 1) else 0
         let changes := (q.softIce = false ∧ above = 3) ∨ (q.softIce = true ∧ below = 3)
         let surveyed := { q with slabBlind := false, stats := some x }
         t.surface =
          (if q.mode = .prep then
            { surveyed with inBand := run, ready := if becomesReady then true else if inBand then q.ready else false }
           else if q.mode = .play then
            (if changes then { surveyed with softIce := !q.softIce, aboveRun := 0, belowRun := 0 }
             else { surveyed with aboveRun := above, belowRun := below })
           else surveyed) ∧
         (∀ p, added .prepReady p
          (if q.mode = .prep ∧ becomesReady ∧ p ≠ .portL then [⟨.prepReady, 0, x.mean, s.deviceSeconds⟩] else [])) ∧
         (∀ p, added .softIce p (if q.mode = .play ∧ changes ∧ p = .portP then
          [⟨.softIce, 0, if q.softIce then 0 else 1, s.deviceSeconds⟩] else [])) ∧
         (q.mode = .play → changes → t.governor.lastEval = some .ordinary ∧ t.evaluated))) ∧
      t = { s with scanner := t.scanner, surface := t.surface, fog := t.fog, governor := t.governor, channels := t.channels
                   slots := t.slots, store := t.store, ports := t.ports }

/-- CALIBRATE_SHORT, PROBE_OVERRIDE and PROBE_RELEASE (R11, R12, R15). -/
def Obligations.ProbeRequestsAreCarriedOut : Prop :=
  ∀ (p : Port) (s : State), s.mayCommand p domProbes = true →
    exec (.calibrateShort p []) s = .next
      (if s.scanner.longCal then s.refused p 0x06 .notReady
       else s.served p .calibrateShort .ok (fun u => { u with scanner := { u.scanner with shortPending := true } })) ∧
    (∀ (i : Fin 32) (value : Int) (duration : Nat), i ≠ probeRef → -32768 ≤ value → value < 32768 → duration < 65536 →
      exec (.probeOverride p (payloadProbeOverride i.val value duration)) s = .next
        (if s.scanner.longCal then s.refused p 0x07 .notReady
         else s.served p .probeOverride .ok (fun u =>
          let x := if i = probeH0 then clampInt 0 1000 value else clampInt (-500) 1000 value
          u.setProbe i { value := x, quality := .override, spikeRun := 0, override := some ⟨x, min 3600 duration⟩
                         pubValue := x, pubQuality := .override }))) ∧
    (∀ (i : Fin 32), i ≠ probeRef →
      exec (.probeRelease p (payloadProbeRelease i.val)) s = .next
        (if s.scanner.longCal then s.refused p 0x08 .notReady
         else s.served p .probeRelease .ok (fun u => u.setProbe i { u.probe i with override := none }))) ∧
    (∀ (i : Nat) (value : Int) (duration : Nat), i < 256 → 31 < i ∨ i = 25 →
      exec (.probeOverride p (payloadProbeOverride i value duration)) s = .next (s.refused p 0x07 .badArg) ∧
      exec (.probeRelease p (payloadProbeRelease i)) s = .next (s.refused p 0x08 .badArg))

/-- OVERRIDE_EXPIRY takes an override in its last second away (R14), and PLANT_STALE sets when a report is older than 30 s outside
START (R29); neither event leaves a trace where its condition does not hold (log entries 1 and 6). -/
def Obligations.OverridesExpireAndReportsGrowStale : Prop :=
  (∀ (i : Fin 32) (s : State), exec (.overrideExpiry i) s = .next
    (if (s.probe i).override.map Override.remaining = some 1 then s.setProbe i { s.probe i with override := none } else s)) ∧
  ∀ s : State, exec .plantStale s = .next
    (if s.surface.mode ≠ .start ∧ 30 < s.surface.reportAge ∧ s.surface.plantStale = false then
      (({ s with surface := { s.surface with plantStale := true } } : State).post .portP .plantStale 0
        ((min 32767 s.surface.reportAge : Nat) : Int)).post .portB .plantStale 0 ((min 32767 s.surface.reportAge : Nat) : Int)
     else s)

/-! ### The surface controller -/

/-- SURFACE_MODE (R18 to R20): the checks in their order; a transition that is made sets the mode and clears the dwell count and the
flags of the modes that it leaves and enters, frees every waiting slot of a class that the new mode forbids, posts its records to
P, B and L, ends in an evaluation (R117), and leaves the other blocks as they are. -/
def Obligations.SurfaceModeRequestMakesATransition : Prop :=
  ∀ (p : Port) (m : Nat) (s : State), m < 256 →
    s.mayCommand p (if m = 4 ∨ s.surface.mode = .resurface then domResurface else domSurface) = true →
    (6 ≤ m → exec (.surfaceMode p (payloadSurfaceMode m)) s = .next (s.refused p 0x09 .badArg)) ∧
    ∀ new : Mode, new.code = m →
      if new = s.surface.mode then exec (.surfaceMode p (payloadSurfaceMode m)) s = .next (s.refused p 0x09 .ok)
      else if (s.surface.mode, new) ∉ [(Mode.hold, Mode.prep), (.hold, .covered), (.prep, .play), (.prep, .hold), (.play, .resurface),
          (.play, .covered), (.play, .hold), (.resurface, .play), (.covered, .prep), (.covered, .hold)] then
        exec (.surfaceMode p (payloadSurfaceMode m)) s = .next (s.refused p 0x09 .wrongMode)
      else if s.surface.dwell < 60 ∨ (s.surface.mode = .resurface ∧ s.surface.dwell < 180) then
        exec (.surfaceMode p (payloadSurfaceMode m)) s = .next (s.refused p 0x09 .tooSoon)
      else if s.surface.mode = .prep ∧ new = .play ∧ s.surface.ready = false then
        exec (.surfaceMode p (payloadSurfaceMode m)) s = .next (s.refused p 0x09 .notReady)
      else ∃ t, exec (.surfaceMode p (payloadSurfaceMode m)) s = .next t ∧ (t.port p).answers .surfaceMode .ok ∧
        t.surface = { s.surface with
          mode := new, dwell := 0
          ready := if s.surface.mode = .prep ∨ new = .prep then false else s.surface.ready
          inBand := if s.surface.mode = .prep ∨ new = .prep then 0 else s.surface.inBand
          softIce := if s.surface.mode = .play then false else s.surface.softIce
          aboveRun := if s.surface.mode = .play ∨ new = .play then 0 else s.surface.aboveRun
          belowRun := if s.surface.mode = .play ∨ new = .play then 0 else s.surface.belowRun
          resurfaceTimer := if new = .resurface then some (s.plant.resurfaceMax * 60)
            else if s.surface.mode = .resurface then none else s.surface.resurfaceTimer } ∧
        t.pool = { s.pool with preheat := s.surface.mode != .resurface && s.pool.preheat } ∧
        (∀ n c, ((t.slot n).state = .delay ∨ (t.slot n).state = .waitingHeadroom) → (t.slot n).cls = some c →
          new.allows c = true) ∧
        (∀ n ∈ s.forbidden new, t.slot n = Slot.reset) ∧ (∀ q, s.tells t q (s.transitionRecords new 0 q)) ∧
        t.evaluated ∧
        t = { s with surface := t.surface, pool := t.pool, governor := t.governor, channels := t.channels, slots := t.slots
                     store := t.store, ports := t.ports }

/-- RESURFACE_TIMER_EXPIRY (R22): in the timer's last second the mode returns to PLAY whatever the dwell, with cause AUTO in its
records to P, B and L (R19), and the preheat flag is cleared; at any other time there is no such event (log entry 6). -/
def Obligations.ResurfaceTimerReturnsToPlay : Prop :=
  ∀ s : State,
    if s.surface.mode = .resurface ∧ (s.surface.resurfaceTimer = some 0 ∨ s.surface.resurfaceTimer = some 1) then
      ∃ t, exec .resurfaceTimerExpiry s = .next t ∧
        t.surface = { s.surface with mode := .play, dwell := 0, resurfaceTimer := none, aboveRun := 0, belowRun := 0 } ∧
        t.pool = { s.pool with preheat := false } ∧ (∀ q, s.tells t q (s.transitionRecords .play 1 q)) ∧ t.evaluated ∧
        t = { s with surface := t.surface, pool := t.pool, governor := t.governor, channels := t.channels, slots := t.slots
                     store := t.store, ports := t.ports }
    else exec .resurfaceTimerExpiry s = .next s

/-- LOAD_PROFILE (R25 to R27, R24, R143): each kind from its own port, with the checks in their order; the clamped record replaces the
profile whole, and the last of the four conditions makes the exit from START, with its records, the round timer and the homing of
the positioners (R19, R58, R111). A lighting profile, taken while every slot is FREE, gives every channel its coefficient and flags,
with its level and owner as they were, and asks for one evaluation, before that of an exit; every slot being FREE, none waits for
headroom (LightingStaysSound). THE MODEL'S DEDUCTION (log entry 9): the ordering relations are judged on the fields as received,
before they are clamped, and a backup enable above 1 clamps to 1. -/
def Obligations.LoadProfileReplacesAProfileWhole : Prop :=
  ∀ (p : Port) (body : List Byte) (s : State), (s.port p).clearToSend = true →
    (body.length = 38 →
      if p ≠ .portP then exec (.loadProfile p (0 :: body)) s = .next (s.refused p 0x0A .noAuthority)
      else if s.surface.mode ≠ .start ∧ s.surface.mode ≠ .hold then
        exec (.loadProfile p (0 :: body)) s = .next (s.refused p 0x0A .wrongMode)
      else if (readPlant (0 :: body)).bandHigh ≤ (readPlant (0 :: body)).bandLow then
        exec (.loadProfile p (0 :: body)) s = .next (s.refused p 0x0A .badArg)
      else if s.surface.mode = .start ∧ s.surface.calComplete = true ∧ s.surface.buildingValid = true ∧
          s.surface.lightingValid = true then
        ∃ t : State, exec (.loadProfile p (0 :: body)) s = .next (t.answer p 0x0A { result := .ok }) ∧
          ({ s.enterExecuting p with plant := (readPlant (0 :: body)).clamped, surface := { s.surface with plantValid := true } } :
            State).leavesStart t
      else exec (.loadProfile p (0 :: body)) s = .next (s.served p .loadProfile .ok (fun u =>
        { u with plant := (readPlant (0 :: body)).clamped, surface := { u.surface with plantValid := true } }))) ∧
    (body.length = 57 →
      if p ≠ .portB then exec (.loadProfile p (1 :: body)) s = .next (s.refused p 0x0A .noAuthority)
      else if (readBuilding (1 :: body)).ordered = false then
        exec (.loadProfile p (1 :: body)) s = .next (s.refused p 0x0A .badArg)
      else if s.surface.mode = .start ∧ s.surface.calComplete = true ∧ s.surface.plantValid = true ∧
          s.surface.lightingValid = true then
        ∃ t : State, exec (.loadProfile p (1 :: body)) s = .next (t.answer p 0x0A { result := .ok }) ∧
          ({ s.enterExecuting p with
            building := (readBuilding (1 :: body)).clamped, surface := { s.surface with buildingValid := true } } :
            State).leavesStart t
      else exec (.loadProfile p (1 :: body)) s = .next (s.served p .loadProfile .ok (fun u =>
        { u with building := (readBuilding (1 :: body)).clamped, surface := { u.surface with buildingValid := true } }))) ∧
    (body.length = 192 →
      if p ≠ .portL then exec (.loadProfile p (2 :: body)) s = .next (s.refused p 0x0A .noAuthority)
      else if ∃ n, (s.slot n).state ≠ .free then exec (.loadProfile p (2 :: body)) s = .next (s.refused p 0x0A .busy)
      else
        let loaded := { s.enterExecuting p with
          surface := { s.surface with lightingValid := true }
          channels := Vector.ofFn (fun c : Fin 96 => { s.channel c with
            coefficient := readU8 body (2 * c.val), trimmable := decide (readU8 body (2 * c.val + 1) % 2 = 1)
            haze := decide (readU8 body (2 * c.val + 1) / 2 % 2 = 1) }) }
        let leaves := s.surface.mode = .start ∧ s.surface.calComplete = true ∧ s.surface.plantValid = true ∧
          s.surface.buildingValid = true
        ∃ u t : State, exec (.loadProfile p (2 :: body)) s = .next (t.answer p 0x0A { result := .ok }) ∧ u.evaluated ∧
          (if leaves then u.leavesStart t else t = u) ∧
          (∀ c, t.channel c = { loaded.channel c with level := (t.channel c).level, owner := (t.channel c).owner }) ∧
          u = { loaded with
            governor := u.governor, channels := u.channels, slots := u.slots, store := u.store, ports := u.ports } ∧
          (s.governor.queue = [] → loaded.evaluatedOnce u ∧ t.channels = loaded.channels ∧ t.slots = s.slots ∧
            t.store = s.store ∧ t.governor.evalCount = s.governor.evalCount + (if leaves then 2 else 1) ∧
            ∀ q, s.adds t q .surfaceChanged (if leaves then [⟨.surfaceChanged, 0, 1 + 256, s.deviceSeconds⟩] else []))) ∧
    (∀ kind : Byte, 3 ≤ kind.toNat → body.length < 247 →
      exec (.loadProfile p (kind :: body)) s = .next (s.refused p 0x0A .badArg))

/-- DECODE AND ENCODE AGREE on the two profile records of R178: the payload written for a record within its ranges has the length
of its kind and reads back as the record, every field of it. -/
def Obligations.ProfileRecordsReadBack : Prop :=
  (∀ q : PlantProfile, q.clamped = q →
    q.payload.length + 3 = 42 ∧ readU8 q.payload 0 = 0 ∧ readPlant q.payload = q) ∧
  ∀ q : BuildingProfile, q.clamped = q →
    q.payload.length + 3 = 61 ∧ readU8 q.payload 0 = 1 ∧ readBuilding q.payload = q

/-- PLANT_REPORT (R28, R30, R114 to R119): the clamped report is stored with age 0, PLANT_STALE clears with PLANT_FRESH to P and B, and
the evaluation that follows forms the ceiling from the new report, the loads from the committed levels, avail, F* and F, and
ICE_OVERLOAD with its record to P and L. -/
def Obligations.PlantReportReachesTheCeiling : Prop :=
  ∀ (p : Port) (q h : Nat) (s : State), s.mayCommand p domPlantData = true → q < 65536 → h < 65536 →
    ∃ t, exec (.plantReport p (payloadPlantReport q h)) s = .next t ∧ (t.port p).answers .plantReport .ok ∧
      t.surface = { s.surface with report := some ⟨min 2000 q, min 1500 h⟩, reportAge := 0, plantStale := false } ∧
      t.governor.hIceUsed = min 1500 h ∧ t.evaluated ∧ t.governor.lSpill = s.governor.lSpill ∧
      t.governor.lastEval = some .ordinary ∧
      (∀ q, s.adds t q .plantFresh
        (if s.surface.plantStale = true ∧ q ≠ .portL then [⟨.plantFresh, 0, 0, s.deviceSeconds⟩] else [])) ∧
      (s.governor.queue = [] → t.governor.f = min s.governor.f t.governor.fStar ∧
        t.governor.evalCount = s.governor.evalCount + 1 ∧ s.tellsOverload t) ∧
      t = { s with surface := t.surface, governor := t.governor, channels := t.channels, slots := t.slots, store := t.store
                   ports := t.ports }

/-- SLAB_SCAN (R34, R35): the checks, then the hit cell or FFh, the last cell examined, and the numbers examined and skipped, of
the cells from the start by the step up to the first that meets the condition. Nothing but the port changes. -/
def Obligations.SlabScanReportsTheFirstHit : Prop :=
  ∀ (p : Port) (first last step condition : Nat) (reference : Int) (s : State), (s.port p).clearToSend = true →
    first < 256 → last < 256 → step < 256 → condition < 256 → -32768 ≤ reference → reference < 32768 →
    let cells := (List.finRange 20).filter (fun c =>
      decide (first ≤ c.val) && decide (c.val ≤ last) && decide ((c.val - first) % (if step < 2 then 1 else 2) = 0))
    let value := fun c : Fin 20 => s.published ⟨c.val, by omega⟩
    let x := clampInt (-500) 1000 reference
    let met := fun c : Fin 20 => match value c with
      | none => false
      | some v => if condition = 0 then v == x else if condition = 1 then decide (v ≤ x) else decide (x ≤ v)
    let examined := match cells.findIdx? met with
      | some k => cells.take (k + 1)
      | none => cells
    exec (.slabScan p (payloadSlabScan first last step condition reference)) s = .next
      (if 19 < first ∨ 19 < last ∨ last < first ∨ 2 < condition then s.refused p 0x0C .badArg
       else
        let hit := encU8 (((cells.find? met).map Fin.val).getD 255)
        let final := encU8 ((examined.getLast?.map Fin.val).getD 0)
        let counts := encU8 examined.length ++ encU8 (examined.countP (fun c => (value c).isNone))
        (s.enterExecuting p).answer p 0x0C { result := .ok, payload := hit ++ final ++ counts })

/-! ### The device second tick -/

/-- What one device second tick counts and brings about (R14, R17, R22, R29, R37, R49, R74 to R76, R86 to R88, R94, R168): the device
seconds, the overrides, the dwell counts, the report age, the resurface and hold timers, PLANT_STALE, each zone's loop run or time
left with its completion, its timeout (log entry 18) and its fail-over, and the runs of the loop monitor with LOOP_FAIL; the preheat
flag clears only where the resurface timer ends (R62), with the transition's evaluation. The records of each kind at each
port, stamped with the new device seconds, are those of what is due; where nothing is due at a port it stays as it is, and where
the resurface timer does not end so do the governor, the channels, the slots and the cue store. THE MODEL'S CHOICES: the order of the
blocks in the tick, so that the dwell stands at 0 after a tick in which the resurface timer ends, and the zones are taken, and their
records posted, before LOOP_FAIL sets (log entry 11); and the monitor's runs after the flag changes (log entry 13). -/
def Obligations.DeviceSecondTickCounts : Prop :=
  ∀ s : State, ∃ t, exec .deviceSecondTick s = .next t ∧
    let stale := s.surface.plantStale = false ∧ s.surface.mode ≠ .start ∧ 29 < s.surface.reportAge
    let plays := s.surface.mode = .resurface ∧ (s.surface.resurfaceTimer = some 0 ∨ s.surface.resurfaceTimer = some 1)
    t.deviceSeconds = s.deviceSeconds + 1 ∧
    (∀ i, t.probe i = { s.probe i with override := match (s.probe i).override with
      | none => none
      | some o => if o.remaining = 0 then some o else if o.remaining = 1 then none
                  else some { o with remaining := o.remaining - 1 } }) ∧
    (let aged := { s.surface with
      reportAge := min 65535 (s.surface.reportAge + 1), plantStale := s.surface.plantStale || stale }
     t.surface =
      if plays then { aged with mode := .play, dwell := 0, resurfaceTimer := none, aboveRun := 0, belowRun := 0 }
      else { aged with
        dwell := min 65535 (s.surface.dwell + 1)
        resurfaceTimer := if s.surface.mode = .resurface then s.surface.resurfaceTimer.map (fun n => n - 1)
          else s.surface.resurfaceTimer }) ∧
    (if plays then t.evaluated ∧ t.governor.lastEval = some .ordinary
     else t.governor = s.governor ∧ t.channels = s.channels ∧ t.slots = s.slots ∧ t.store = s.store) ∧
    (let q := s.pool
     let supply := s.published probeW0
     let atLeast := fun limit : Int => supply.any (fun w => decide (limit ≤ w))
     let unusable := if supply = none then min 10 (q.unusableRun + 1) else 0
     let low := if supply ≠ none ∧ atLeast s.building.loopFailThreshold = false then min 10 (q.lowRun + 1) else 0
     let restore := if atLeast (s.building.loopFailThreshold + 30) = true then min 30 (q.restoreRun + 1) else 0
     let sets := s.surface.mode ≠ .start ∧ q.loopFail = false ∧ (unusable = 10 ∨ low = 10)
     let restores := s.surface.mode ≠ .start ∧ q.loopFail = true ∧ restore = 30
     let carried := fun z : Fin 4 => q.loopFail = false ∧ atLeast (pick s.building.zones z).minSupply = true
     let ticked := fun z : Fin 4 =>
      let zn := s.zone z
      match zn.switch with
      | .steady => zn
      | .provingLoop run =>
        if ¬carried z then { zn with switch := .provingLoop 0 }
        else if run < 29 then { zn with switch := .provingLoop (run + 1) }
        else { zn with source := .recovered, switch := .steady, port := none, fallback := false, surplus := 0 }
      | .provingBoiler left =>
        if 1 < left then { zn with switch := .provingBoiler (left - 1) }
        else { zn with switch := .steady, port := none
                       starved := if zn.source = .recovered ∧ zn.port = none then 0 else zn.starved }
     (∀ z, t.zone z = if sets then (ticked z).failedOver s.boilerProven else ticked z) ∧
     t.pool =
      (let p := { q with preheat := q.preheat && (t.surface.mode == s.surface.mode) }
       if s.surface.mode = .start then p
       else if restores then { p with loopFail := false, restoreRun := 0 }
       else if q.loopFail = true then { p with restoreRun := restore }
       else if sets then { p with loopFail := true, unusableRun := 0, lowRun := 0, restoreRun := 0 }
       else { p with unusableRun := unusable, lowRun := low }) ∧
     (let counted := { s.fog with dwell := min 65535 (s.fog.dwell + 1) }
      let enable := s.building.backupEnable
      let acting := if s.fog.state = .blind then FogState.act else s.fog.state
      let held :=
        if s.surface.mode = .start then counted
        else if s.fog.holdTimer = some 0 ∨ s.fog.holdTimer = some 1 then
          ({ counted with
            held := none, holdTimer := none
            request := match acting with
              | .clear => 0
              | .watch => s.building.regenWatch
              | .severe => s.building.regenMax
              | _ => s.building.regenAct
            fanStage := match acting with
              | .clear => 0
              | .watch => 1
              | _ => 2 } : Fog).judged acting enable q.loopFail
        else { counted with holdTimer := s.fog.holdTimer.map (fun n => n - 1) }
      t.fog = if sets then held.judged held.acting enable true else if restores then held.judged held.acting enable false
        else held) ∧
     let told := fun (kind : RecordKind) (object : Nat) (value : Int) => (⟨kind, object, value, s.deviceSeconds + 1⟩ : Record)
     let shown := (s.probe probeW0).pubValue
     let proves := fun z : Fin 4 => match (s.zone z).switch with
      | .provingLoop run => decide (carried z ∧ 29 ≤ run)
      | _ => false
     let fails := fun z : Fin 4 => match (s.zone z).switch with
      | .provingBoiler left => decide (left ≤ 1)
      | _ => false
     let keeps := fun z : Fin 4 => match (ticked z).switch with
      | .provingBoiler _ => true
      | _ => false
     let records := fun (p : Port) (kind : RecordKind) =>
      let hears := fun asked : Option Port => p == .portB || asked == some p
      let falls := all4.filter (fun z => decide (sets ∧ (ticked z).failsOver = true))
      match kind with
      | .plantStale => if stale ∧ p ≠ .portL then [told kind 0 (min 32767 (s.surface.reportAge + 1) : Nat)] else []
      | .surfaceChanged => if plays then [told kind 4 (3 + 256)] else []
      | .switchTimeout => (all4.filter (fun z => fails z && hears (s.zone z).port)).map
          (fun z => told kind z.val (s.zone z).source.code)
      | .sourceSwitched => (all4.filter (fun z => proves z && hears (s.zone z).port)).map (fun z => told kind z.val 1) ++
          (falls.filter (fun z => s.boilerProven && hears (if keeps z then (ticked z).port else none))).map
            (fun z => told kind z.val 2)
      | .sourceFail => (falls.filter (fun z => hears (ticked z).port)).map (fun z => told kind z.val (ticked z).source.code)
      | .loopFail => if sets ∧ p ≠ .portL then [told kind (if unusable = 10 then 0 else 1) shown] else []
      | .loopRestored => if restores ∧ p ≠ .portL then [told kind 0 shown] else []
      | _ => []
     (∀ p kind, ¬plays ∨ kind ∉ [RecordKind.iceOverload, .iceClear, .cueDone, .cuePreempted] →
       s.adds t p kind (records p kind)) ∧
     ∀ p, ¬plays → (∀ kind, records p kind = []) → t.port p = s.port p) ∧
    t.scanner = { s.scanner with probes := t.scanner.probes } ∧
    t = { s with scanner := t.scanner, surface := t.surface, fog := t.fog, pool := t.pool, zones := t.zones
                 governor := t.governor, channels := t.channels, slots := t.slots, store := t.store, ports := t.ports
                 deviceSeconds := t.deviceSeconds }

/-! ### The fog unit -/

/-- A fog cycle (R39 to R51, R53, R55): nothing but a request and a fan stage of 0 in START or without a building profile. Otherwise the
dew point record, with es interpolated in the table, e its share by RH and Td the table inverted (R40, R41), the margins, the
effective thresholds, the state by the margin (BLIND with its hold and FOG_BLIND, escalation, one step of de-escalation, leaving
BLIND), FOG_SEVERE, the dwell, and the request, the fans, the backup and the wheel by the acting state, with the outputs FAN1, FAN2,
EREGEN and WHEEL. A change of state brings an evaluation. THE MODEL'S DEDUCTION (log entry 11): at a pass end the fog unit is told
before the surface controller, so that FOG_BLIND and FOG_SEVERE stand next in the queue, before a PREP_READY of the same pass end. -/
def Obligations.FogCycleFollowsTheMargin : Prop :=
  (∀ a0 h0 : Int,
    let d := dewPoint a0 h0
    let table : List Int := [126, 192, 287, 422, 611, 872, 1226, 1702, 2333, 3160, 4234, 5613, 7368]
    d.t = clampInt (-200) 400 a0 ∧ d.rh = clampInt 0 1000 h0 ∧ 126 ≤ d.es ∧ d.es ≤ 7368 ∧ 0 ≤ d.e ∧ d.e ≤ d.es ∧
      -200 ≤ d.td ∧ d.td ≤ 400 ∧ d.td ≤ d.t ∧ d.fresh = true ∧ d.e = (d.es * d.rh + 500) / 1000 ∧
      (d.e ≤ 126 → d.td = -200) ∧ (7368 ≤ d.e → d.td = d.t) ∧
      ∀ (k : Nat) (low high : Int), table[k]? = some low → table[k + 1]? = some high →
        (50 * k ≤ d.t + 200 → d.t + 200 ≤ 50 * k + 50 → d.es = low + ((high - low) * (d.t + 200 - 50 * k) + 25) / 50) ∧
        (low ≤ d.e → d.e < high →
          d.td = min d.t (50 * k - 200 + (100 * (d.e - low) + (high - low)) / (2 * (high - low))))) ∧
  ∀ (raw : Int) (s : State), s.scanner.longCal = false → s.scanner.channel = 31 →
    ∃ t, exec (.probeConversion raw) s = .next t ∧
    if s.surface.mode = .start ∨ s.surface.buildingValid = false then
      t.fog = { s.fog with request := 0, fanStage := 0 } ∧ t.fan1 = false ∧ t.fan2 = false
    else
      let f := s.fog
      let b := s.building
      let fresh : Option DewRecord := match t.published probeA0, t.published probeH0 with
        | some a0, some h0 => some (dewPoint a0 h0)
        | _, _ => none
      let gap := fun i : Fin 32 => match fresh, t.published i with
        | some d, some x => some (x - d.td)
        | _, _ => none
      let margin : Option Int := match gap probeA1, gap probeD0 with
        | some layer, some roof => some (min layer roof)
        | some layer, none => some layer
        | none, roof => roof
      let effective := fun x : Nat => if s.surface.mode = .resurface then min 150 (x + b.resurfBias) else x
      let target := fun m : Int =>
        if m < effective b.severeIn then FogState.severe else if m < effective b.actIn then .act
        else if m < effective b.watchIn then .watch else .clear
      let worse := fun x y : FogState => x.code < y.code
      let steps := fun (m : Int) (entry : Nat) => 60 ≤ f.dwell ∧ (effective entry : Int) + b.h ≤ m
      let next : FogState := match margin with
        | none => FogState.blind
        | some m =>
          if f.state = .blind ∨ worse f.state (target m) then target m
          else match f.state with
            | .severe => if steps m b.severeIn then .act else .severe
            | .act => if steps m b.actIn then .watch else .act
            | .watch => if steps m b.watchIn then .clear else .watch
            | other => other
      let held : Option FogState := if next ≠ .blind ∧ f.state = .blind then none
        else if next = .blind ∧ f.state ≠ .blind then some f.state else f.held
      let hold : Option Nat := if next ≠ .blind ∧ f.state = .blind then none else if next = .blind ∧ f.state ≠ .blind then some 300
        else f.holdTimer
      let acting : FogState := if next ≠ .blind then next else if hold = none then .act else held.getD .act
      let acute := acting = .act ∨ acting = .severe
      let turnsOn := f.backup = false ∧ b.backupEnable = true ∧ acute ∧ (f.zeroRun = 3 ∨ s.pool.loopFail = true)
      let turnsOff := f.backup = true ∧ (b.backupEnable = false ∨ ¬acute ∨ f.adequateRun = 3)
      t.fog = { f with
        dew := if fresh = none then f.dew.map (fun d => { d with fresh := false }) else fresh
        layer := gap probeA1, roof := gap probeD0, margin := margin
        watchEff := effective b.watchIn, actEff := effective b.actIn, severeEff := effective b.severeIn
        state := next, dwell := if next = f.state then f.dwell else 0, held := held, holdTimer := hold
        request := match acting with
          | .clear => 0
          | .watch => b.regenWatch
          | .severe => b.regenMax
          | _ => b.regenAct
        fanStage := match acting with
          | .clear => 0
          | .watch => 1
          | _ => 2
        backup := (if turnsOn then true else if turnsOff then false else f.backup)
        adequateRun := (if turnsOn then 0 else f.adequateRun)
        wheel := if turnsOn then true else if turnsOff then decide (0 < f.lastGrant) else f.wheel } ∧
      (t.fan1 = true ↔ acting ≠ .clear) ∧ (t.fan2 = true ↔ acting ≠ .clear ∧ acting ≠ .watch) ∧
      (t.eregen = true ↔ turnsOn ∨ (f.backup = true ∧ ¬turnsOff)) ∧ t.wheelOut = t.fog.wheel ∧
      (next ≠ f.state → t.governor.lastEval = some .ordinary ∧ t.evaluated) ∧
      (next = .blind → f.state ≠ .blind → s.tells t .portB [⟨.fogBlind, f.state.code,
        if t.published probeA0 = none ∨ t.published probeH0 = none then 0 else 1, s.deviceSeconds⟩]) ∧
      ∀ m, margin = some m → next = .severe → f.state ≠ .severe → ∀ p, p ≠ .portP →
        s.tells t p [⟨.fogSevere, f.state.code, m, s.deviceSeconds⟩]

/-- BLIND_HOLD_END (R49 to R55): in the hold timer's last second outside START the held state and the timer become absent, the
acting state is ACT, and the request, the fans and the backup follow it; at any other time there is no such event (log entry
6). And at a round end the fog unit takes the DESICCANT grant into its runs and judges the backup and the wheel (R52 to R55),
which EREGEN and WHEEL follow. -/
def Obligations.BlindHoldEndActsAsAct : Prop :=
  (∀ s : State, s.fog.state = .blind →
    exec .blindHoldEnd s = .next
      (if s.surface.mode ≠ .start ∧ (s.fog.holdTimer = some 0 ∨ s.fog.holdTimer = some 1) then
        let turnsOn := s.fog.backup = false ∧ s.building.backupEnable = true ∧ (s.fog.zeroRun = 3 ∨ s.pool.loopFail = true)
        let turnsOff := s.fog.backup = true ∧ (s.building.backupEnable = false ∨ s.fog.adequateRun = 3)
        { s with fog := { s.fog with
            held := none, holdTimer := none, request := s.building.regenAct, fanStage := 2
            backup := (if turnsOn then true else if turnsOff then false else s.fog.backup)
            adequateRun := (if turnsOn then 0 else s.fog.adequateRun)
            wheel := if turnsOn then true else if turnsOff then decide (0 < s.fog.lastGrant) else s.fog.wheel } }
       else s)) ∧
  ∀ s : State, s.pool.roundTimer ≠ none → ∃ t, exec .allocationRound s = .next t ∧
    let grant := (t.claim desiccant).grant
    let zeros := if grant = 0 then min 3 (s.fog.zeroRun + 1) else 0
    let adequate := if grant ≠ 0 ∧ s.building.regenMin ≤ grant then min 3 (s.fog.adequateRun + 1) else 0
    let acute := s.fog.acting = .act ∨ s.fog.acting = .severe
    let turnsOn := s.fog.backup = false ∧ s.building.backupEnable = true ∧ acute ∧ (zeros = 3 ∨ s.pool.loopFail = true)
    let turnsOff := s.fog.backup = true ∧ (s.building.backupEnable = false ∨ ¬acute ∨ adequate = 3)
    let backup := if turnsOn then true else if turnsOff then false else s.fog.backup
    t.fog = { s.fog with
      lastGrant := grant, zeroRun := zeros, adequateRun := if turnsOn then 0 else adequate, backup := backup
      wheel := decide (0 < grant) || backup } ∧
    t.eregen = backup ∧ t.wheelOut = (decide (0 < grant) || backup)

/-! ### The loop failure monitor and the zones -/

/-- LOOP_FAIL and LOOP_RESTORED (R74 to R76, R94, R87, R53): the tick that brings the run to its limit sets or clears the flag, with its
records, the fail-over of the zones with SOURCE_FAIL for each, and the judgement of the backup. THE MODEL'S CHOICES: the runs' values
after the event (log entry 13), and that a tick that does not bring it about leaves no such event (log entry 6). -/
def Obligations.LoopMonitorSetsAndClearsLoopFail : Prop :=
  ∀ s : State, s.surface.mode ≠ .start → s.pool.unusableRun < 10 → s.pool.lowRun < 10 → s.pool.restoreRun < 30 →
    let supply := s.published probeW0
    let shown := (s.probe probeW0).pubValue
    let failing := !s.pool.loopFail && (match supply with
      | none => decide (s.pool.unusableRun = 9)
      | some w => decide (w < s.building.loopFailThreshold) && decide (s.pool.lowRun = 9))
    let restoring := s.pool.loopFail && (match supply with
      | none => false
      | some w => decide (s.building.loopFailThreshold + 30 ≤ w) && decide (s.pool.restoreRun = 29))
    (if failing = true then ∃ t, exec .loopFail s = .next t ∧
        t.pool = { s.pool with loopFail := true, restoreRun := 0, unusableRun := 0, lowRun := 0 } ∧
        (∀ z, t.zone z = (s.zone z).failedOver s.boilerProven) ∧
        t.fog = s.fog.judged s.fog.acting s.building.backupEnable true ∧
        (∀ p, p ≠ .portL → (s.port p).queue = [] → (t.port p).queue.head? =
          some ⟨.loopFail, if supply = none then 0 else 1, shown, s.deviceSeconds⟩) ∧
        (∀ p, s.tells t p
          ((if p ≠ .portL then [⟨.loopFail, if supply = none then 0 else 1, shown, s.deviceSeconds⟩] else []) ++
          all4.flatMap (fun z =>
            let zn := s.zone z
            let kept := match zn.switch with
              | .provingBoiler _ => true
              | _ => false
            (if zn.failsOver = true ∧ (p = .portB ∨ zn.port = some p) then
              [⟨.sourceFail, z.val, zn.source.code, s.deviceSeconds⟩] else []) ++
            (if zn.failsOver = true ∧ s.boilerProven = true ∧ (p = .portB ∨ (kept = true ∧ zn.port = some p)) then
              [⟨.sourceSwitched, z.val, 2, s.deviceSeconds⟩] else [])))) ∧
        t = { s with pool := t.pool, zones := t.zones, fog := t.fog, ports := t.ports }
     else exec .loopFail s = .next s) ∧
    (if restoring = true then ∃ t, exec .loopRestored s = .next t ∧
        t.pool = { s.pool with loopFail := false, restoreRun := 0 } ∧
        (∀ p, t.port p = if p = .portL then s.port p else (s.port p).enqueue ⟨.loopRestored, 0, shown, s.deviceSeconds⟩) ∧
        t = { s with pool := t.pool, fog := s.fog.judged s.fog.acting s.building.backupEnable false, ports := t.ports }
     else exec .loopRestored s = .next s)

/-- Every step keeps R94's rule: no zone is on RECOVERED, or proves toward it, while LOOP_FAIL is set. -/
def Obligations.NoZoneStandsOnAFailedLoop : Prop :=
  ∀ s t : State, s.loopSound → step s = .next t → t.loopSound

/-- LOOP_PROVED and SWITCH_TIMEOUT of one zone (R86 to R88), and what a zone that is not proving so makes of them (log entries 1
and 6). A fallback that times out starts its starved-round count again (R92; that the count becomes 0 at the timeout is the model's
deduction, log entry 18). -/
def Obligations.ProvingEndsInASwitchOrATimeout : Prop :=
  ∀ (z : Fin 4) (s : State),
    let zn := s.zone z
    match zn.switch with
    | .steady => exec (.loopProved z) s = .next s ∧ exec (.switchTimeout z) s = .next s
    | .provingLoop run =>
      exec (.switchTimeout z) s = .next s ∧
      (run < 30 →
        if run = 29 ∧ s.pool.loopFail = false ∧
            (s.published probeW0).any (fun w => decide ((pick s.building.zones z).minSupply ≤ w)) = true then
          ∃ t, exec (.loopProved z) s = .next t ∧
            t.zones = put s.zones z { zn with
              source := .recovered, switch := .steady, port := none, fallback := false, surplus := 0 } ∧
            (∀ p, t.port p = if p = .portB ∨ zn.port = some p then
              (s.port p).enqueue ⟨.sourceSwitched, z.val, 1, s.deviceSeconds⟩ else s.port p) ∧
            t = { s with zones := t.zones, ports := t.ports }
        else exec (.loopProved z) s = .next s)
    | .provingBoiler left =>
      exec (.loopProved z) s = .next s ∧
      if left ≤ 1 then
        ∃ t, exec (.switchTimeout z) s = .next t ∧ t.zones = put s.zones z { zn with
            switch := .steady, port := none, starved := if zn.source = .recovered ∧ zn.port = none then 0 else zn.starved } ∧
          (∀ p, t.port p = if p = .portB ∨ zn.port = some p then
            (s.port p).enqueue ⟨.switchTimeout, z.val, zn.source.code, s.deviceSeconds⟩ else s.port p) ∧
          t = { s with zones := t.zones, ports := t.ports }
      else exec (.switchTimeout z) s = .next s

/-- BOILER_PROVEN_ACTIVE (R87, R88): every zone that proves toward the boiler completes, in ascending order, with SOURCE_SWITCHED to
port B and to a requesting port other than B; a return to inactive changes only the input (log entry 8). BOILER_EN is asserted while a
zone proves toward the boiler or uses it with a request above 0, and a zone's source relay is energized while its source is the
boiler, before the event and after it (R89). -/
def Obligations.BoilerProvenCompletesEverySwitchToIt : Prop :=
  ∀ s : State,
    let proves := fun z : Fin 4 => match (s.zone z).switch with | .provingBoiler _ => true | _ => false
    exec (.boilerProvenActive false) s = .next { s with boilerProven := false } ∧
    (s.boilerEn = true ↔ ∃ z, proves z = true ∨ ((s.zone z).source = .boiler ∧ 0 < (s.zone z).request)) ∧
    (∀ z, s.zsrc z = true ↔ (s.zone z).source = .boiler) ∧
    ∃ t, exec (.boilerProvenActive true) s = .next t ∧
      (∀ z, t.zone z = if proves z then { s.zone z with source := .boiler, switch := .steady, port := none, starved := 0 }
        else s.zone z) ∧
      (∀ p, s.posts t p ((all4.filter (fun z => proves z && (p == .portB || (s.zone z).port == some p))).map
        (fun z => ⟨.sourceSwitched, z.val, 2, s.deviceSeconds⟩))) ∧
      (∀ z, t.zsrc z = true ↔ proves z = true ∨ (s.zone z).source = .boiler) ∧
      (t.boilerEn = true ↔ ∃ z, (proves z = true ∨ (s.zone z).source = .boiler) ∧ 0 < (s.zone z).request) ∧
      t = { s with zones := t.zones, ports := t.ports, boilerProven := true }

/-- ZONE_SET and ZONE_LOCK (R82, R83), in every mode. -/
def Obligations.ZoneSetAndZoneLockStoreTheirValues : Prop :=
  ∀ (p : Port) (s : State), s.mayCommand p domZones = true →
    (∀ (z : Fin 4) (occupied setback : Int) (present : Bool), -32768 ≤ occupied → occupied < 32768 → -32768 ≤ setback →
      setback < 32768 →
      exec (.zoneSet p (payloadZoneSet z.val occupied setback (if present then 1 else 0))) s = .next
        (s.served p .zoneSet .ok (fun u => u.setZone z { u.zone z with
          occupiedSet := clampInt 50 300 occupied, setbackSet := clampInt 50 300 setback, occupied := present }))) ∧
    (∀ (z : Fin 4) (on : Bool), exec (.zoneLock p (payloadZoneLock z.val (if on then 1 else 0))) s = .next
      (s.served p .zoneLock .ok (fun u => u.setZone z { u.zone z with locked := on }))) ∧
    (∀ (z k : Nat) (occupied setback : Int), z < 256 → k < 256 → 3 < z ∨ 1 < k →
      exec (.zoneSet p (payloadZoneSet z occupied setback k)) s = .next (s.refused p 0x10 .badArg) ∧
      exec (.zoneLock p (payloadZoneLock z k)) s = .next (s.refused p 0x12 .badArg))

/-- ZONE_SOURCE (R84, R85, R87, R88): the checks in their order, the cancelling of a pending switch, and the start of a switch. That a
switch to BOILER clears the fallback flag is the model's deduction from R93, and that the flag stands otherwise is its choice (log
entry 19). -/
def Obligations.ZoneSourceStartsASwitch : Prop :=
  (∀ (p : Port) (z source : Nat) (s : State), s.mayCommand p domZones = true → z < 256 → source < 256 →
    3 < z ∨ source = 0 ∨ 2 < source → exec (.zoneSource p (payloadZoneSource z source)) s = .next (s.refused p 0x11 .badArg)) ∧
  ∀ (p : Port) (z : Fin 4) (toBoiler : Bool) (s : State), s.mayCommand p domZones = true →
    let c := Instr.zoneSource p (payloadZoneSource z.val (if toBoiler then 2 else 1))
    let zn := s.zone z
    if s.surface.mode = .start then exec c s = .next (s.refused p 0x11 .wrongMode)
    else if zn.locked = true then exec c s = .next (s.refused p 0x11 .lockedResult)
    else if toBoiler = false ∧ s.pool.loopFail = true then exec c s = .next (s.refused p 0x11 .notReady)
    else if zn.source = (if toBoiler then .boiler else .recovered) ∧ zn.switch = .steady then
      exec c s = .next (s.refused p 0x11 .ok)
    else ∃ t, exec c s = .next t ∧
      (if zn.source = (if toBoiler then .boiler else .recovered) then
        (t.port p).answers .zoneSource .ok ∧ t.zones = put s.zones z { zn with switch := .steady, port := none }
       else (t.port p).answers .zoneSource .accepted ∧ t.zones = put s.zones z
        (if toBoiler = true ∧ s.boilerProven = true then
          { zn with source := .boiler, switch := .steady, port := none, fallback := false, starved := 0 }
         else if toBoiler = true then { zn with switch := .provingBoiler 120, port := some p, fallback := false }
         else { zn with switch := .provingLoop 0, port := some p })) ∧
      (∀ q, q ≠ p → q ≠ .portB → zn.port = some q → zn.switch ≠ .steady → t.port q = (s.port q).enqueue
        ⟨.switchSuperseded, z.val, match zn.switch with | .provingBoiler _ => 2 | _ => 1, s.deviceSeconds⟩) ∧
      t = { s with zones := t.zones, ports := t.ports }

/-! ### The heat pool -/

/-- ALLOCATION_ROUND (R59 to R62, R65 to R68, R70, R71, R81): the zones' demand and the subsoil demand are updated, every claim's
request and minimum is fixed, and the heat drawn is what the requests ask beyond the recovered heat, up to the discharge allowance.
The grants never exceed the recovered heat and the heat drawn, charge and discharge are never both nonzero, and every grant is 0 or
lies between its claim's minimum and request. The tiers of one claim take what is left of the supply up to their request, or
nothing below their minimum; storage takes the rest, with TANKDIR as heat is drawn or not; and each claim's short rounds are
counted. With the round timer stopped, in START, there is no round (R58; that the command then changes nothing is the model's
choice, log entry 1). -/
def Obligations.AllocationRoundNeverOverspends : Prop :=
  ∀ s : State,
    (s.pool.roundTimer = none → exec .allocationRound s = .next s) ∧
    (s.pool.roundTimer ≠ none → ∃ t, exec .allocationRound s = .next t ∧
      t.pool.roundTimer = some 5000 ∧ t.pool.roundCount = s.pool.roundCount + 1 ∧
      t.pool.qAvail = (if s.pool.loopFail = true then 0 else s.handedQRec) ∧
      t.pool.rAll = (claimants.map (fun c => (t.claim c).request)).sum ∧
      (claimants.map (fun c => (t.claim c).grant)).sum + t.pool.charge ≤ t.pool.qAvail + t.pool.drawn ∧
      t.pool.allowance = (if s.pool.loopFail = false ∧ (s.published probeW2).any (fun w => decide (s.plant.tankUsable ≤ w)) = true
        then s.plant.dischargeLimit else 0) ∧
      t.pool.drawn = min t.pool.allowance (t.pool.rAll - t.pool.qAvail) ∧
      t.pool.subsoilDemand = (match s.published probeG0 with
        | none => true
        | some g => decide (g < s.plant.subsoilSet) || (decide (g < s.plant.subsoilSet + 5) && s.pool.subsoilDemand)) ∧
      (∀ z, (t.zone z).request = s.demandAt z) ∧
      (∀ c ∈ claimants,
        let x := s.claim c
        let zone := all4.find? (fun z => zoneConsumer z == c)
        let auto := match zone with
          | some z => s.demandAt z
          | none =>
            if c = subsoil then (if t.pool.subsoilDemand = true then s.plant.subsoilKW else 0)
            else if c = desiccant then s.fog.request
            else if s.surface.mode = .resurface ∨ s.pool.preheat = true then s.plant.resurfKW else 0
        let most := match zone with
          | some z => (pick s.building.zones z).max
          | none => if c = subsoil then s.plant.subsoilKW else if c = desiccant then s.building.regenMax else s.plant.resurfKW
        let gated := zone.any (fun z => decide ((s.zone z).source ≠ .recovered))
        let request := if gated = true then 0 else min (if x.origin = .auto then auto else x.manualRequest) most
        let least := if x.origin ≠ .auto then x.manualMinimum else match zone with
          | some z => (pick s.building.zones z).min
          | none => if c = desiccant then s.building.regenMin else request
        t.claim c = { x with
          request := request, minimum := min least request, grant := (t.claim c).grant, shortCount := (t.claim c).shortCount }) ∧
      (t.pool.drawn = 0 ∨ t.pool.charge = 0) ∧ t.pool.discharging = decide (0 < t.pool.drawn) ∧
      t.tankDir = t.pool.discharging ∧
      (t.claim storage).grant = t.pool.charge ∧
      (∀ c ∈ claimants, (t.claim c).request ≤ s.consumerMax c ∧ (t.claim c).minimum ≤ (t.claim c).request ∧
        ((t.claim c).grant = 0 ∨ ((t.claim c).minimum ≤ (t.claim c).grant ∧ (t.claim c).grant ≤ (t.claim c).request))) ∧
      (let served := fun (c : Fin 8) (supply : Nat) => (t.claim c).grant =
        if min supply (t.claim c).request < (t.claim c).minimum then 0 else min supply (t.claim c).request
       let supply := t.pool.qAvail + t.pool.drawn
       let left := t.zoneSupply - (all4.map (fun z => (t.claim (zoneConsumer z)).grant)).sum
       served subsoil supply ∧ served desiccant (supply - (t.claim subsoil).grant) ∧ served resurfWater left ∧
       t.pool.charge = if t.pool.drawn = 0 then left - (t.claim resurfWater).grant else 0) ∧
      (∀ c ∈ claimants, (t.claim c).shortCount =
        if (t.claim c).grant < (t.claim c).request then min 255 ((s.claim c).shortCount + 1) else 0) ∧
      t = { s with pool := t.pool, zones := t.zones, fog := t.fog, positioners := t.positioners, governor := t.governor
                   channels := t.channels, slots := t.slots, store := t.store, ports := t.ports, openChoices := t.openChoices })

/-- The zones in a round: their shares of tier 2 (R67, R68), the spill cap (R69), by which at the end of every round the zones' delivered
heat times their spill does not exceed the spill budget of the ceiling held at the round's start, the spill that the governor receives
(R73) with its ROUND_END evaluation, at which F rises by at most 32 (R117 to R119), and at the round end the zones' counts (R90) with
the automatic start (R91), the fallback (R92) and the return (R93). -/
def Obligations.RoundEndCapsAndSwitchesTheZones : Prop :=
  ∀ s : State, s.pool.roundTimer ≠ none → ∃ t, exec .allocationRound s = .next t ∧
    t.pool.spillBudget = s.governor.ceiling * s.plant.spillShare / 1000 ∧
    t.pool.roundSpill = (all4.map (fun z => (t.zone z).delivered * (pick s.building.zones z).spill)).sum ∧
    t.pool.roundSpill ≤ t.pool.spillBudget ∧ t.governor.lSpill = t.pool.roundSpill ∧ t.evaluated ∧
    (s.governor.queue = [] → t.governor.lastEval = some .roundEnd ∧ t.governor.evalCount = s.governor.evalCount + 1 ∧
      t.governor.f = (if t.governor.fStar ≤ s.governor.f then t.governor.fStar else min t.governor.fStar (s.governor.f + 32)) ∧
      s.tellsOverload t) ∧
    (let budget := t.pool.spillBudget
     let offered := fun z : Fin 4 => match (s.zone z).source with
      | .off => 0
      | .recovered => t.zoneShare z
      | .boiler => (t.zone z).request
     let least := fun z : Fin 4 => match (s.zone z).source with
      | .off => 0
      | .recovered => (t.claim (zoneConsumer z)).minimum
      | .boiler => min (pick s.building.zones z).min (t.zone z).request
     let spill := (all4.map (fun z => offered z * (pick s.building.zones z).spill)).sum
     let reduced := fun z : Fin 4 =>
      if budget = 0 then 0 else if budget < spill then offered z * budget / spill else offered z
     ∀ z, (t.zone z).delivered = (if reduced z < least z then 0 else reduced z) ∧
      (t.claim (zoneConsumer z)).grant = if (s.zone z).source = .recovered then (t.zone z).delivered else 0) ∧
    ∀ z,
      let zn := s.zone z
      let claim := t.claim (zoneConsumer z)
      let request := (t.zone z).request
      let starved := if zn.source = .recovered ∧ claim.grant < claim.request ∧ claim.grant = 0 then min 3 (zn.starved + 1) else 0
      let surplus := if zn.source = .boiler ∧ zn.fallback = true ∧ request ≤ t.pool.charge then min 10 (zn.surplus + 1) else 0
      let counted := { zn with request := request, delivered := (t.zone z).delivered, starved := starved, surplus := surplus }
      let may := zn.switch = .steady ∧ zn.locked = false
      t.zone z = match zn.source with
        | .off =>
          if 0 < request ∧ may ∧ s.pool.loopFail = false then { counted with switch := .provingLoop 0, port := none } else counted
        | .recovered =>
          if starved = 3 ∧ may then
            (if s.boilerProven = true then { counted with source := .boiler, port := none, fallback := true, starved := 0 }
             else { counted with switch := .provingBoiler 120, port := none, fallback := true, starved := 0 })
          else counted
        | .boiler =>
          if zn.fallback = true ∧ surplus = 10 ∧ may ∧ s.pool.loopFail = false then
            { counted with switch := .provingLoop 0, port := none, surplus := 0 }
          else counted

/-- CLAIM_MANUAL, CLAIM_AUTO and RESURF_PREHEAT (R62 to R64). -/
def Obligations.ClaimRequestsSetTheOrigin : Prop :=
  (∀ (p : Port) (s : State), s.mayCommand p domClaims = true →
    (∀ (c : Fin 8) (request minimum : Nat), c ≠ storage → request < 65536 → minimum < 65536 →
      exec (.claimManual p (payloadClaimManual c.val request minimum)) s = .next
        (if (if c = subsoil ∨ c = resurfWater then s.surface.plantValid else s.surface.buildingValid) = false then
          s.refused p 0x0E .notReady
         else s.served p .claimManual .ok (fun u => u.setClaim c { u.claim c with
          manualRequest := min request (s.consumerMax c), manualMinimum := min minimum (min request (s.consumerMax c))
          origin := .manual p }))) ∧
    (∀ c : Fin 8, c ≠ storage → exec (.claimAuto p (payloadClaimAuto c.val)) s = .next
      (s.served p .claimAuto .ok (fun u => u.setClaim c { u.claim c with
        origin := .auto, manualRequest := 0, manualMinimum := 0 }))) ∧
    ∀ c request minimum : Nat, 7 ≤ c → c < 256 →
      exec (.claimManual p (payloadClaimManual c request minimum)) s = .next (s.refused p 0x0E .badArg) ∧
      exec (.claimAuto p (payloadClaimAuto c)) s = .next (s.refused p 0x0F .badArg)) ∧
  ∀ (p : Port) (s : State), s.mayCommand p domPlantData = true →
    (∀ on : Bool, exec (.resurfPreheat p (payloadResurfPreheat (if on then 1 else 0))) s = .next
      (s.served p .resurfPreheat .ok (fun u => { u with pool := { u.pool with preheat := on } }))) ∧
    ∀ k : Nat, 2 ≤ k → k < 256 → exec (.resurfPreheat p (payloadResurfPreheat k)) s = .next (s.refused p 0x0D .badArg)

/-! ### The positioners -/

/-- POSITIONER_STEP and TRAVEL_END (R99, R105, R108): one step toward the target, the ENDSTOP checks, with POS_FAULT to the side's ports
and the requesting port on a slip, and the end of the travel, at which the requesting port is told. The slot given up passes to the
travel queue, which travels, homes, or completes at the grant (R98, R103, R104). TRAVEL_END is the step that reaches the target; an
event that is not due leaves no trace (log entries 1 and 6). That the positioner's own record follows those of the queue is the
model's choice (log entry 17). -/
def Obligations.TravelStepsMoveOneStepAndEnd : Prop :=
  ∀ (v : Fin 8) (s : State), s.travelSound →
    let r := s.pos v
    let x := r.position.getD 0
    let y := if x < r.target then x + 1 else if r.target < x then x - 1 else x
    let c := if r.endstop = true ∧ r.target < y then 0 else y
    let stepped := { r with
      dirOpen := decide (x < r.target), pulses := r.pulses + 1, position := some c, stepTimer := some (s.stepInterval v) }
    let givesUp := fun t : State => s.handsOn t v ∧ t = { s with positioners := t.positioners, ports := t.ports }
    let told := fun (t : State) (at' : Nat) => ∀ q, s.posts t q (s.grantRecords v q ++
      if r.port = some q then [⟨.moveDone, v.val, at', s.deviceSeconds⟩] else [])
    let alarmed := fun t : State => ∀ q, s.posts t q (s.grantRecords v q ++
      if s.inDomain (posDomain v) q = true ∨ r.port = some q then [⟨.posFault, v.val, 1, s.deviceSeconds⟩] else [])
    (r.state ≠ .travel → exec (.positionerStep v) s = .next s ∧ exec (.travelEnd v) s = .next s) ∧
    (r.state = .travel →
      (if r.endstop = true ∧ 20 < y then ∃ t, exec (.positionerStep v) s = .next t ∧ givesUp t ∧ alarmed t ∧
          t.pos v = { stepped with state := .fault, position := none, intent := none, cause := some .slip, stepTimer := none
                                   port := none }
       else if c ≠ r.target then exec (.positionerStep v) s = .next (s.setPos v stepped)
       else ∃ t, exec (.positionerStep v) s = .next t ∧ givesUp t ∧ told t c ∧
          t.pos v = { stepped with state := .idle, stepTimer := none, port := none }) ∧
      (if x = r.target then ∃ t, exec (.travelEnd v) s = .next t ∧ givesUp t ∧ told t x ∧
          t.pos v = { r with state := .idle, stepTimer := none, port := none }
       else if y = r.target then exec (.travelEnd v) s = exec (.positionerStep v) s
       else exec (.travelEnd v) s = .next s))

/-- HOMING_STEP and HOME_FAIL (R103, R108): a step is issued and counted toward the closed end, and the 1100th without ENDSTOP is the
failure, with the slot passed to the travel queue, which travels, homes, or completes at the grant (R98, R104), and POS_FAULT to the
side's ports and the requesting port. HOME_FAIL is the 1100th step; an event that is not due leaves no trace (log entries 1 and 6).
That POS_FAULT follows the records of the queue is the model's choice (log entry 17). -/
def Obligations.HomingStepsCountToTheFailure : Prop :=
  ∀ (v : Fin 8) (s : State), s.travelSound →
    let r := s.pos v
    let stepped := { r with
      dirOpen := false, pulses := r.pulses + 1, homingCount := min 1100 (r.homingCount + 1)
      stepTimer := some (s.stepInterval v) }
    let failed := fun (t : State) (q : Positioner) =>
      t.pos v = { q with state := .fault, position := none, intent := none, cause := some .homeFail, stepTimer := none
                         port := none } ∧
      s.handsOn t v ∧ (∀ q, s.posts t q (s.grantRecords v q ++
        if s.inDomain (posDomain v) q = true ∨ r.port = some q then [⟨.posFault, v.val, 0, s.deviceSeconds⟩] else [])) ∧
      t = { s with positioners := t.positioners, ports := t.ports }
    (r.state ≠ .homing → exec (.homingStep v) s = .next s ∧ exec (.homeFail v) s = .next s) ∧
    (r.state = .homing →
      (if 1099 ≤ r.homingCount ∧ r.endstop = false then ∃ t, exec (.homingStep v) s = .next t ∧ failed t stepped
       else exec (.homingStep v) s = .next (s.setPos v stepped)) ∧
      (if r.endstop = true ∨ r.homingCount < 1099 then exec (.homeFail v) s = .next s
       else if r.homingCount = 1099 then exec (.homeFail v) s = exec (.homingStep v) s
       else ∃ t, exec (.homeFail v) s = .next t ∧ failed t r))

/-- ENDSTOP_ACTIVE (R99, R103, R105, R108): a homing succeeds at 0 with HOME_DONE, a travel is checked, with POS_FAULT on a slip and
MOVE_DONE at a reached target, the slot given up passing to the travel queue, which travels, homes, or completes at the grant (R98,
R104); and in any other state, or when the input returns to inactive, only the input is seen (log entry 8). That the positioner's own
record follows those of the queue is the model's choice (log entry 17). -/
def Obligations.EndstopActsByTheState : Prop :=
  ∀ (v : Fin 8) (s : State), s.travelSound →
    let r := s.pos v
    let x := r.position.getD 0
    let seen := { r with endstop := true }
    let ends := fun (q : Positioner) (told : Port → Bool) (kind : RecordKind) (value : Int) =>
      ∃ t, exec (.endstopActive v true) s = .next t ∧ t.pos v = q ∧ s.handsOn t v ∧
      (∀ p, s.posts t p (s.grantRecords v p ++ if told p = true then [⟨kind, v.val, value, s.deviceSeconds⟩] else [])) ∧
      t = { s with positioners := t.positioners, ports := t.ports }
    let asked := fun p : Port => r.port == some p
    exec (.endstopActive v false) s = .next (s.setPos v { r with endstop := false }) ∧
    (if r.state = .homing then ends { seen with
        state := .idle, position := some 0, target := 0, cause := none, intent := none, stepTimer := none, port := none }
        asked .homeDone 0
     else if r.state = .travel ∧ 20 < x then ends { seen with
        state := .fault, position := none, intent := none, cause := some .slip, stepTimer := none, port := none }
        (fun p => s.inDomain (posDomain v) p || asked p) .posFault 1
     else if r.state = .travel ∧ r.target < x ∧ r.target = 0 then ends { seen with
        state := .idle, position := some 0, stepTimer := none, port := none } asked .moveDone 0
     else if r.state = .travel ∧ r.target < x then
        exec (.endstopActive v true) s = .next (s.setPos v { seen with position := some 0 })
     else exec (.endstopActive v true) s = .next (s.setPos v seen))

/-- DRVFAULT_ACTIVE (R106, R108): FAULT with cause DRIVER in any state, the slot passed to the travel queue, which travels, homes, or
completes at the grant (R98, R103, R104), or the place in the queue given up, and POS_FAULT to every port of the side's domain and to a
requesting port; a return to inactive changes only the input (log entry 8). That POS_FAULT is the last record, after those of
positioners that home at once in the freed slot, is the model's choice (log entry 17). -/
def Obligations.DriverFaultStopsAPositioner : Prop :=
  ∀ (v : Fin 8) (s : State), s.travelSound →
    let r := s.pos v
    exec (.drvfaultActive v false) s = .next (s.setPos v { r with drvfault := false }) ∧
    ∃ t, exec (.drvfaultActive v true) s = .next t ∧
      t.pos v = { r with
        drvfault := true, state := .fault, position := none, intent := none, cause := some .driver, stepTimer := none
        port := none } ∧
      s.handsOn t v ∧ (∀ p, s.posts t p (s.grantRecords v p ++
        if s.inDomain (posDomain v) p = true ∨ r.port = some p then [⟨.posFault, v.val, 2, s.deviceSeconds⟩] else [])) ∧
      t = { s with positioners := t.positioners, ports := t.ports }

/-- MOVE (R100, R101, R98): the checks in their order; an IDLE positioner completes at once, travels or waits, and one that travels or
waits to move takes the new target, its earlier requester superseded, or ends at once at its position with MOVE_DONE, its slot passing
to the travel queue, which travels, homes, or completes at the grant (R103, R104). Which free travel slot it takes is left open (log
entry 5). That MOVE_DONE follows the records of the queue is the model's choice (log entry 17). -/
def Obligations.MoveDirectsAPositioner : Prop :=
  ∀ (p : Port) (v : Fin 8) (asked : Nat) (s : State), s.mayCommand p (posDomain v) = true → s.travelSound → asked < 65536 →
    let r := s.pos v
    let target := min 1023 asked
    let c := Instr.move p (payloadMove v.val asked)
    let mover := { r with target := target, port := some p }
    if r.manual = false then exec c s = .next (s.refused p 0x13 .wrongMode)
    else if r.state = .unhomed ∨ r.state = .homing ∨ r.state = .fault then exec c s = .next (s.refused p 0x13 .notHomed)
    else if r.state = .waiting ∧ r.intent = some .home then exec c s = .next (s.refused p 0x13 .busy)
    else if r.state = .idle then
      if r.position = some target then exec c s = .next (s.served p .move .ok (fun u =>
        (u.setPos v { r with target := target }).post p .moveDone v.val target))
      else if s.positioners.holders.length < 4 then
        ∃ k, k ∉ s.positioners.holders.map Prod.fst ∧ exec c s = .next (s.served p .move .accepted (fun u =>
          { u with
            positioners := { s.positioners with
              records := put s.positioners.records v { mover with
                state := .travel, intent := none, stepTimer := some (s.stepInterval v) }
              holders := s.positioners.holders ++ [(k, v)] }
            openChoices := s.openChoices + 1 }))
      else exec c s = .next (s.served p .move .accepted (fun u =>
        { u with positioners := { s.positioners with
            records := put s.positioners.records v { mover with state := .waiting, intent := some .move }
            queue := s.positioners.queue ++ [v] } }))
    else if r.position = some target then
      ∃ t, exec c s = .next t ∧ (t.port p).answers .move .ok ∧
        t.pos v = { r with target := target, state := .idle, intent := none, stepTimer := none, port := none } ∧ s.handsOn t v ∧
        (∀ q, s.tells t q
          ((if r.port = some q then [⟨.moveSuperseded, v.val, r.target, s.deviceSeconds⟩] else []) ++ s.grantRecords v q ++
            if q = p then [⟨.moveDone, v.val, target, s.deviceSeconds⟩] else [])) ∧
        (∀ q, q ≠ p → r.port ≠ some q → s.posts t q (s.grantRecords v q)) ∧
        t = { s with positioners := t.positioners, ports := t.ports }
    else exec c s = .next (s.served p .move .accepted (fun u =>
      (u.postTo r.port .moveSuperseded v.val r.target).setPos v mover))

/-- HOME (R102 to R104, R98): the checks, the homing that completes at once with ENDSTOP active, with HOME_DONE, its slot passing to the
travel queue, which travels, homes, or completes at the grant; and otherwise by the state; a replaced requester is superseded. Which
free travel slot it takes is left open (log entry 5). That HOME_DONE follows the records of the queue is the model's choice (log
entry 17). -/
def Obligations.HomeStartsAHoming : Prop :=
  ∀ (p : Port) (v : Fin 8) (s : State), s.mayCommand p (posDomain v) = true → s.travelSound →
    let r := s.pos v
    let c := Instr.home p (payloadHome v.val)
    let replaced : Int := if r.state = .travel ∨ (r.state = .waiting ∧ r.intent ≠ some .home) then r.target else -1
    let homer := { r with port := some p }
    let homes := { homer with
      state := .homing, position := none, intent := none, homingCount := 0, dirOpen := false
      stepTimer := some (s.stepInterval v) }
    let told := fun u : State => u.postTo r.port .moveSuperseded v.val replaced
    let waits := { homer with state := if r.state = .idle then .waiting else r.state, intent := some .home }
    if r.drvfault = true ∨ (if v = 0 ∨ v = 1 ∨ v = 3 then s.surface.plantValid else s.surface.buildingValid) = false then
      exec c s = .next (s.refused p 0x14 .notReady)
    else if r.endstop = true then
      ∃ t, exec c s = .next t ∧ (t.port p).answers .home .ok ∧
        t.pos v = { r with
          state := .idle, position := some 0, target := 0, cause := none, intent := none, stepTimer := none, port := none } ∧
        s.handsOn t v ∧
        (∀ q, s.tells t q
          ((if r.port = some q then [⟨.moveSuperseded, v.val, replaced, s.deviceSeconds⟩] else []) ++ s.grantRecords v q ++
            if q = p then [⟨.homeDone, v.val, 0, s.deviceSeconds⟩] else [])) ∧
        (∀ q, q ≠ p → r.port ≠ some q → s.posts t q (s.grantRecords v q)) ∧
        t = { s with positioners := t.positioners, ports := t.ports }
    else if r.state = .travel then exec c s = .next (s.served p .home .accepted (fun u => (told u).setPos v homes))
    else if r.state = .waiting then
      exec c s = .next (s.served p .home .accepted (fun u => (told u).setPos v { homer with intent := some .home }))
    else if r.state = .homing ∨ v ∈ s.positioners.queue then
      exec c s = .next (s.served p .home .accepted (fun u => (told u).setPos v homer))
    else if s.positioners.holders.length < 4 then
      ∃ k, k ∉ s.positioners.holders.map Prod.fst ∧ exec c s = .next (s.served p .home .accepted (fun u =>
        { told u with
          positioners := { s.positioners with
            records := put s.positioners.records v homes, holders := s.positioners.holders ++ [(k, v)] }
          openChoices := s.openChoices + 1 }))
    else exec c s = .next (s.served p .home .accepted (fun u =>
      { told u with positioners := { s.positioners with
          records := put s.positioners.records v waits, queue := s.positioners.queue ++ [v] } }))

/-- POS_MODE (R109), the refusal of a positioner above 7 by all three positioner requests (R162), and the automatic targets of a round
end (R72, R110): which positioners take theirs, what becomes of them, MOVE_SUPERSEDED to a requesting port that loses its work, and
that every retarget flag is clear after it. -/
def Obligations.PosModeSetsTheRetargetFlag : Prop :=
  (∀ (p : Port) (v : Fin 8) (s : State), s.mayCommand p (posDomain v) = true →
    (∀ manual : Bool, exec (.posMode p (payloadPosMode v.val (if manual then 1 else 0))) s = .next
      (if (s.pos v).manual = manual then s.refused p 0x15 .ok
       else s.served p .posMode .ok (fun u => u.setPos v { s.pos v with
        manual := manual, retarget := if manual then (s.pos v).retarget else true }))) ∧
    ∀ k : Nat, 2 ≤ k → k < 256 → exec (.posMode p (payloadPosMode v.val k)) s = .next (s.refused p 0x15 .badArg)) ∧
  (∀ (p : Port) (v k : Nat) (s : State), (s.port p).clearToSend = true → 8 ≤ v → v < 256 →
    exec (.posMode p (payloadPosMode v k)) s = .next (s.refused p 0x15 .badArg) ∧
    exec (.move p (payloadMove v k)) s = .next (s.refused p 0x13 .badArg) ∧
    exec (.home p (payloadHome v)) s = .next (s.refused p 0x14 .badArg)) ∧
  ∀ s : State, s.pool.roundTimer ≠ none → s.travelSound →
    (∀ v ∈ s.positioners.queue, (s.pos v).intent = some .home → (s.pos v).endstop = false) →
    ∃ t, exec .allocationRound s = .next t ∧
      (∀ q, s.adds t q .moveSuperseded ((all8.filter (fun v =>
        let r := s.pos v
        decide (r.port = some q ∧ (t.pos v).port = none ∧ (r.state = .travel ∨ r.state = .waiting)))).map
          (fun v => ⟨.moveSuperseded, v.val, (s.pos v).target, s.deviceSeconds⟩))) ∧ ∀ v,
      let valve := fun amount full : Nat => if full = 0 then 0 else min 1023 (amount * 1023 / full)
      let aim := match v.val with
        | 0 => valve (if 0 < t.pool.drawn then t.pool.drawn else t.pool.charge) s.plant.tankKW
        | 1 => valve (t.claim subsoil).grant s.plant.subsoilKW
        | 2 => valve (t.claim desiccant).grant s.building.regenMax
        | 3 => valve (t.claim resurfWater).grant s.plant.resurfKW
        | 4 => valve (t.zone 0).delivered (pick s.building.zones 0).max
        | 5 => valve (t.zone 1).delivered (pick s.building.zones 1).max
        | 6 => valve (t.zone 2).delivered (pick s.building.zones 2).max
        | _ => valve (t.zone 3).delivered (pick s.building.zones 3).max
      let r := s.pos v
      let follows := r.manual = false ∧ (r.state = .idle ∨ r.state = .travel ∨ (r.state = .waiting ∧ r.intent ≠ some .home))
      let applied := follows ∧ aim ≠ r.target ∧ (r.retarget = true ∨ r.target + 8 ≤ aim ∨ aim + 8 ≤ r.target)
      (t.pos v).retarget = false ∧ (t.pos v).target = (if applied then aim else r.target) ∧ (t.pos v).manual = r.manual ∧
      (if applied then
        (t.pos v).port = none ∧ (t.pos v).position = r.position ∧
        (r.position = some aim → (t.pos v).state = .idle) ∧
        (r.position ≠ some aim → (t.pos v).state = .travel ∨ (t.pos v).state = .waiting)
       else v ∉ s.positioners.queue → t.pos v = { r with retarget := false })

/-! ### The cue store -/

/-- GO (R128, R131, R133 to R135, R142): the checks in their order, then a hit that copies the cue, a join of a fill, or a miss that
allocates a way and asks for the cue. A hit with delay 0 takes the slot's delay end at once, as DelayEndAdmitsOrHolds says what that
is (R145). -/
def Obligations.GoHitsJoinsOrMisses : Prop :=
  ∀ (p : Port) (cue : Nat) (s : State), (s.port p).clearToSend = true → cue < 65536 →
    let c := Instr.go p (payloadCue cue)
    let line := cueLine cue
    let holds := fun w : Fin 2 => (s.entry line w).state ≠ .invalid ∧ (s.entry line w).tag = cue / 64
    let mark := (pick s.store line).lru
    let allocated : Option (Fin 2) :=
      if (s.entry line 0).state = .invalid then some 0
      else if (s.entry line 1).state = .invalid then some 1
      else if (s.entry line mark).state ≠ .filling then some mark
      else if (s.entry line (1 - mark)).state ≠ .filling then some (1 - mark)
      else none
    let waiting : Slot := { Slot.reset with state := .waitingFill, cue := cue, port := some p }
    if cue = 0 ∨ 4095 < cue then exec c s = .next (s.refused p 0x16 .badArg)
    else if s.surface.mode = .start then exec c s = .next (s.refused p 0x16 .wrongMode)
    else if ∀ n, (s.slot n).state ≠ .free then exec c s = .next (s.refused p 0x16 .noSlot)
    else ∀ n : Fin 8, (s.slot n).state = .free → (∀ m, m < n → (s.slot m).state ≠ .free) →
      (∀ (w : Fin 2) (h : Header), holds w → (∀ v, v < w → ¬holds v) → (s.entry line w).state = .present →
        (s.entry line w).header = some h →
        let copy : Slot := {
          state := .delay, cue := cue, port := some p, cls := some h.cls, policy := some h.policy, sweep := h.sweep
          delay := h.delay, hold := h.holdTime, duration := h.fadeTime * 100, elapsed := 0
          list := channelList (s.entry line w) h, timer := some 100 }
        if s.inDomain h.cls.domain p = false then exec c s = .next (s.refused p 0x16 .noAuthority)
        else if s.surface.mode.allows h.cls = false then exec c s = .next (s.refused p 0x16 .wrongMode)
        else if 0 < h.delay then
          exec c s = .next (s.served p .go .accepted (fun u => (u.setLru line (1 - w)).setSlot n copy))
        else ∃ t : State, exec c s = .next (t.answer p 0x16 { result := .accepted }) ∧
          exec (.delayEnd n) (((s.enterExecuting p).setLru line (1 - w)).setSlot n copy) = .next t ∧
          (t.slot n).state ≠ .delay ∧ (t.slot n).state ≠ .waitingFill ∧
          t = { s with governor := t.governor, channels := t.channels, slots := t.slots, store := t.store, ports := t.ports }) ∧
      (∀ w : Fin 2, holds w → (∀ v, v < w → ¬holds v) → (s.entry line w).state = .filling →
        exec c s = .next (s.served p .go .accepted (fun u => (u.setSlot n waiting).setEntry line w
          { s.entry line w with waiters := (s.entry line w).waiters ++ [n] }))) ∧
      ((∀ w, ¬holds w) → match allocated with
        | none => exec c s = .next (s.refused p 0x16 .storeBusy)
        | some w => exec c s = .next (s.served p .go .accepted (fun u => ((u.setSlot n waiting).setEntry line w
            { Entry.reset with state := .filling, tag := cue / 64, waiters := [n], fillTimer := some 2000 }).post
            .portL .fillNeeded cue w.val)))

/-- The copy of a cue (R142, R151): the channel list names each channel of the segments below the segment count once, with the last
level written for it. Its member offset is k member steps of 100 ms when the channel is the k-th member of the sweep's order (R150),
and 0 outside the group, outside the swept half, and with no sweep. -/
def Obligations.CopyListsEachChannelOnce : Prop :=
  ∀ (e : Entry) (h : Header), (∀ w, h.sweep = some w → w.startAt < 8) →
    let pairs := ((e.segments.toList.take h.segCount).filterMap id).flatten
    let list := channelList e h
    let place := fun (w : Sweep) (m : Nat) => match w.order, w.length with
      | .rotate, .full => (m + 8 - w.startAt) % 8
      | .rotate, .half => if m / 4 = w.startAt / 4 then (m + 8 - w.startAt) % 4 else 0
      | .mirror, .full => m ^^^ w.startAt
      | .mirror, .half => if m / 4 = w.startAt / 4 then m ^^^ w.startAt else 0
    (list.map ListEntry.channel).Nodup ∧
    (∀ c, c ∈ list.map ListEntry.channel ↔ c ∈ pairs.map Pair.channel) ∧
    ∀ x ∈ list, x.start = 0 ∧
      x.offset = (match h.sweep with
        | none => 0
        | some w => if x.channel.val / 8 = w.group then place w (x.channel.val % 8) * w.memberStep * 100 else 0) ∧
      (pairs.reverse.find? (fun q => q.channel == x.channel)).map Pair.level = some x.target

/-- DECODE AND ENCODE AGREE on CUE_WRITE (Table 11-6): the payload written for a cue within its ranges has an allowed length and
reads back as the cue, every field of it. -/
def Obligations.CueWriteReadsBack : Prop :=
  ∀ w : CueWrite, validCue w.cue = true → w.header.fadeTime ≤ 6000 → w.header.delay ≤ 600 → w.header.holdTime ≤ 600 →
    (∀ x, w.header.sweep = some x → x.group < 12 ∧ x.startAt < 8 ∧ x.memberStep ≤ 100) →
    w.segment.val < w.header.segCount → w.header.segCount ≤ 8 → 1 ≤ w.pairs.length → w.pairs.length ≤ 12 →
    (∀ q ∈ w.pairs, q.level < 256) →
    w.payload.length + 3 = 21 + 2 * w.pairs.length ∧ readCueWrite w.payload = some w

/-- CUE_WRITE (R129 to R132, R136, R142): BAD_ARG, STORE_BUSY, or the written entry in the state that follows from its completeness, with
the LRU mark on the other way; a fill that it completes leaves no slot waiting: it frees a slot of an unauthorised port with
CUE_NO_AUTHORITY and one of a class that the mode forbids with CUE_MODE, and every other slot holds the copy in DELAY, or with a delay
of 0 takes its delay end (R145), as DelayEndAdmitsOrHolds says what that is. -/
def Obligations.CueWriteFillsAnEntry : Prop :=
  ∀ (p : Port) (payload : List Byte) (s : State), s.mayCommand p domCueStore = true → payload.length ≤ 247 →
    payload.length + 3 = 21 + 2 * readU8 payload 17 →
    match readCueWrite payload with
    | none => exec (.cueWrite p payload) s = .next (s.refused p 0x17 .badArg)
    | some w =>
      let line := cueLine w.cue
      match (s.wayOf w.cue).or (s.allocatable line) with
      | none => exec (.cueWrite p payload) s = .next (s.refused p 0x17 .storeBusy)
      | some way =>
        let base := if s.wayOf w.cue = none then
            { Entry.reset with state := .filling, tag := w.cue / 64, fillTimer := some 2000 }
          else s.entry line way
        let segment := fun i : Fin 8 =>
          if i = w.segment then some w.pairs else if i.val < w.header.segCount then pick base.segments i else none
        let complete := (List.finRange 8).all (fun i => decide (w.header.segCount ≤ i.val) || (segment i).isSome)
        let after : Entry := {
          state := if complete then .present else .filling
          tag := base.tag, header := some w.header, segments := Vector.ofFn segment
          waiters := if complete then [] else base.waiters
          fillTimer := if complete then none else if base.state = .present then some 2000 else base.fillTimer }
        if complete = true ∧ base.waiters ≠ [] then
          ∃ t, exec (.cueWrite p payload) s = .next t ∧ (t.port p).answers .cueWrite .ok ∧ t.entry line way = after ∧
            (pick t.store line).lru = 1 - way ∧
            (∀ n ∈ base.waiters, (t.slot n).state ≠ .waitingFill ∧
              ((∀ q, (s.slot n).port = some q → s.inDomain w.header.cls.domain q = false) → t.slot n = Slot.reset) ∧
              (s.surface.mode.allows w.header.cls = false → t.slot n = Slot.reset)) ∧
            (s.lightingSound →
              let barred := fun n : Fin 8 => !(s.slot n).port.any (fun q => s.inDomain w.header.cls.domain q)
              let copy := fun n : Fin 8 => ({
                state := .delay, cue := w.cue, port := (s.slot n).port, cls := some w.header.cls, policy := some w.header.policy
                sweep := w.header.sweep, delay := w.header.delay, hold := w.header.holdTime
                duration := w.header.fadeTime * 100, elapsed := 0, list := channelList after w.header, timer := some 100 } : Slot)
              (0 < w.header.delay →
                (∀ n, t.slot n = if n ∉ base.waiters then s.slot n
                  else if barred n = true ∨ s.surface.mode.allows w.header.cls = false then Slot.reset else copy n) ∧
                (∀ q, s.tells t q ((base.waiters.filter (fun n => (s.slot n).port == some q &&
                    (barred n || !s.surface.mode.allows w.header.cls))).map
                  (fun n => ⟨if barred n then .cueNoAuthority else .cueMode, n.val, w.cue, s.deviceSeconds⟩))) ∧
                t.channels = s.channels ∧ t.governor = s.governor) ∧
              (w.header.delay = 0 → ∀ n, base.waiters = [n] → barred n = false → s.surface.mode.allows w.header.cls = true →
                let filled := ((s.enterExecuting p).setEntry line way after).setLru line (1 - way)
                ∃ u : State, exec (.delayEnd n) (filled.setSlot n (copy n)) = .next u ∧
                  t = u.answer p 0x17 { result := .ok })) ∧
            t = { s with governor := t.governor, channels := t.channels, slots := t.slots, store := t.store, ports := t.ports }
        else exec (.cueWrite p payload) s = .next
          (s.served p .cueWrite .ok (fun u => (u.setEntry line way after).setLru line (1 - way)))

/-- CUE_INVALIDATE (R139): every entry in the scope that is FILLING or PRESENT becomes INVALID, and its waiting slots are freed with
CUE_INVALIDATED, in the order of lines, ways and waiters; no other entry, mark or slot changes. An INVALID entry's tag is the model's
(log entry 3). -/
def Obligations.CueInvalidateDropsItsScope : Prop :=
  ∀ (p : Port) (scope index : Nat) (s : State), s.mayCommand p domCueStore = true → s.lightingSound → scope < 256 →
    index < 65536 →
    let c := Instr.cueInvalidate p (payloadScoped scope index)
    let drops := fun (l : Fin 64) (w : Fin 2) => (s.entry l w).state ≠ .invalid ∧
      (scope = 0 → l = cueLine index ∧ (s.entry l w).tag = index / 64) ∧ (scope = 1 → l.val = index % 256)
    if 2 < scope ∨ (scope = 0 ∧ (index = 0 ∨ 4095 < index)) ∨ (scope = 1 ∧ 63 < index % 256) then
      exec c s = .next (s.refused p 0x18 .badArg)
    else ∃ t, exec c s = .next t ∧ (t.port p).answers .cueInvalidate .ok ∧
      (∀ l w, (drops l w → t.entry l w = { Entry.reset with tag := (s.entry l w).tag }) ∧
        (¬drops l w → t.entry l w = s.entry l w)) ∧
      (∀ l, (pick t.store l).lru = (pick s.store l).lru) ∧
      (∀ n, ((∃ l w, drops l w ∧ n ∈ (s.entry l w).waiters) → t.slot n = Slot.reset) ∧
        ((∀ l w, drops l w → n ∉ (s.entry l w).waiters) → t.slot n = s.slot n)) ∧
      (∀ q, s.tells t q ((List.finRange 64).flatMap (fun l => (List.finRange 2).flatMap (fun w =>
        if drops l w then ((s.entry l w).waiters.filter (fun n => (s.slot n).port == some q)).map
          (fun n => ⟨.cueInvalidated, n.val, (s.slot n).cue, s.deviceSeconds⟩) else [])))) ∧
      t = { s with slots := t.slots, store := t.store, ports := t.ports }

/-- FILL_TIMEOUT (R137): the FILLING entry becomes INVALID, and its waiting slots are freed, oldest first, with a record each; at any
other entry there is no such event (log entry 1). An INVALID entry's tag is the model's (log entry 3). -/
def Obligations.FillTimeoutFreesTheWaiters : Prop :=
  ∀ (l : Fin 64) (w : Fin 2) (s : State), s.lightingSound →
    let e := s.entry l w
    if e.state = .filling then ∃ t, exec (.fillTimeout l w) s = .next t ∧
      (∀ k v, t.entry k v = if k = l ∧ v = w then { Entry.reset with tag := e.tag } else s.entry k v) ∧
      (∀ k, (pick t.store k).lru = (pick s.store k).lru) ∧
      (∀ n, t.slot n = if n ∈ e.waiters then Slot.reset else s.slot n) ∧
      (∀ p, (s.port p).queue = [] → t.port p = { s.port p with
        queue := (e.waiters.filter (fun n => (s.slot n).port == some p)).map
          (fun n => ⟨.fillTimeout, n.val, (s.slot n).cue, s.deviceSeconds⟩) }) ∧
      t = { s with slots := t.slots, store := t.store, ports := t.ports }
    else exec (.fillTimeout l w) s = .next s

/-- RELEASE (R152, R153): authority slot by slot, by GO port or class domain; a released slot is freed, with CUE_RELEASED to its GO port,
its channels unowned at their levels, and one evaluation follows; where no slot is left waiting for headroom, which that evaluation
may admit, the others are left as they are. -/
def Obligations.ReleaseFreesWhatThePortMay : Prop :=
  ∀ (p : Port) (s : State), (s.port p).clearToSend = true →
    let may := fun n : Fin 8 => (s.slot n).port = some p ∨ (s.slot n).cls.any (fun c => s.inDomain c.domain p) = true
    let releases := fun (t : State) (ns : List (Fin 8)) =>
      (t.port p).answers .release .ok ∧ (∀ n ∈ ns, t.slot n = Slot.reset) ∧
      (∀ q, s.tells t q ((ns.filter (fun n => (s.slot n).port == some q)).map
        (fun n => ⟨.cueReleased, n.val, (s.slot n).cue, s.deviceSeconds⟩))) ∧
      ((∀ m ∈ s.governor.queue, m ∈ ns) →
        (∀ m, m ∉ ns → t.slot m = s.slot m) ∧
        (∀ c, t.channel c = { s.channel c with owner := (s.channel c).owner.filter (fun m => decide (m ∉ ns)) }) ∧
        t.governor.queue = [] ∧ t.governor.evalCount = s.governor.evalCount + 1 ∧ s.tellsOverload t) ∧
      (∀ l w, t.entry l w = { s.entry l w with waiters := (t.entry l w).waiters }) ∧ t.governor.lastEval = some .ordinary ∧
      t.evaluated ∧
      t = { s with governor := t.governor, channels := t.channels, slots := t.slots, store := t.store, ports := t.ports }
    (∀ scope index : Nat, scope < 256 → index < 65536 →
      1 < scope ∨ (scope = 0 ∧ 7 < index) ∨ (scope = 1 ∧ (index = 0 ∨ 4095 < index)) →
      exec (.release p (payloadScoped scope index)) s = .next (s.refused p 0x1A .badArg)) ∧
    (∀ n : Fin 8,
      let c := Instr.release p (payloadScoped 0 n.val)
      if (s.slot n).state = .free then exec c s = .next (s.refused p 0x1A .ok)
      else if ¬may n then exec c s = .next (s.refused p 0x1A .noAuthority)
      else ∃ t, exec c s = .next t ∧ releases t [n]) ∧
    (∀ cue : Nat, 1 ≤ cue → cue ≤ 4095 →
      let c := Instr.release p (payloadScoped 1 cue)
      let candidate := fun n : Fin 8 => (s.slot n).state ≠ .free ∧ (s.slot n).cue = cue
      if ∀ n, ¬candidate n then exec c s = .next (s.refused p 0x1A .ok)
      else if ∀ n, candidate n → ¬may n then exec c s = .next (s.refused p 0x1A .noAuthority)
      else ∃ t, exec c s = .next t ∧ releases t (all8.filter (fun n => decide (candidate n ∧ may n))))

/-! ### Fades and the fixture link -/

/-- DELAY_END and HOLD_EXPIRY (R120 to R124): a HOLD slot fits when the held spill and the loads, with its own targets counted as the
committed levels of its channels, are at or below the ceiling formed now (R114 to R116, R122); one that does not fit waits, or is freed
with NO_HEADROOM when its hold time is 0; every other slot is admitted; a hold that expires frees the slot. A slot in another state
takes no such event (log entry 1). A slot that is admitted enters FADING (R146, R147): it takes its channels from their owners and its
start levels from the channels, it completes at once when every entry is reached, and a slot that has lost its last entry is freed
with CUE_PREEMPTED. THE MODEL'S CHOICES (log entry 17): an admitted slot keeps its hold remaining, and its own CUE_DONE stands before
the CUE_PREEMPTED records. -/
def Obligations.DelayEndAdmitsOrHolds : Prop :=
  ∀ (n : Fin 8) (s : State),
    let sl := s.slot n
    let freed := fun t : State => t.slot n = Slot.reset ∧ (∀ m, m ≠ n → t.slot m = s.slot m) ∧ n ∉ t.governor.queue ∧
      (∀ c, t.channel c = { s.channel c with owner := if (s.channel c).owner = some n then none else (s.channel c).owner }) ∧
      (∀ p, t.port p = if sl.port = some p then (s.port p).enqueue ⟨.noHeadroom, n.val, sl.cue, s.deviceSeconds⟩ else s.port p) ∧
      t = { s with governor := { s.governor with queue := t.governor.queue }, channels := t.channels, slots := t.slots
                   store := t.store, ports := t.ports }
    (if sl.state ≠ .delay then exec (.delayEnd n) s = .next s
     else if sl.policy = some .hold ∧
        s.ceilingNow < (s.governor.lSpill + s.lightingLoad sl.list false + s.lightingLoad sl.list true : Nat) then
      if sl.hold = 0 then ∃ t, exec (.delayEnd n) s = .next t ∧ freed t
      else exec (.delayEnd n) s = .next { s.setSlot n { sl with state := .waitingHeadroom, delay := 0, timer := some 100 } with
        governor := { s.governor with queue := s.governor.queue ++ [n] } }
     else ∃ t, exec (.delayEnd n) s = .next t ∧ ((t.slot n).state = .fading ∨ (t.slot n).state = .free) ∧
      n ∉ t.governor.queue ∧ t.governor.lastEval = some .ordinary ∧ t.evaluated ∧
      (s.lightingSound → s.governor.queue = [] →
        let mine := sl.list.map ListEntry.channel
        let kept := fun m : Fin 8 => (s.slot m).list.filter (fun e => decide (e.channel ∉ mine))
        let robbed := all8.filter (fun m => decide (m ≠ n) && (s.slot m).state == .fading && !(s.slot m).list.isEmpty && (kept m).isEmpty)
        let done := ∀ e ∈ sl.list, e.offset + sl.duration = 0
        (∀ c, t.channel c = match sl.list.find? (fun e => e.channel == c) with
          | none => s.channel c
          | some e => { s.channel c with
            level := if sl.duration = 0 ∧ e.offset = 0 then e.target else (s.channel c).level
            owner := if done then none else some n }) ∧
        (t.slot n = if done then Slot.reset else { sl with
          state := .fading, delay := 0, elapsed := 0, timer := some 20
          list := sl.list.map (fun e => { e with start := (s.channel e.channel).level }) }) ∧
        (∀ m, m ≠ n → t.slot m = if m ∈ robbed then Slot.reset
          else if (s.slot m).state = .fading then { s.slot m with list := kept m } else s.slot m) ∧
        ∀ p, s.tells t p ((if done ∧ sl.port = some p then [⟨.cueDone, n.val, sl.cue, s.deviceSeconds⟩] else []) ++
          (robbed.filter (fun m => (s.slot m).port == some p)).map
            (fun m => ⟨.cuePreempted, m.val, (s.slot m).cue, s.deviceSeconds⟩))) ∧
      t = { s with governor := t.governor, channels := t.channels, slots := t.slots, store := t.store, ports := t.ports }) ∧
    (if sl.state ≠ .waitingHeadroom then exec (.holdExpiry n) s = .next s
     else ∃ t, exec (.holdExpiry n) s = .next t ∧ freed t)

/-- FADE_STEP and CUE_DONE (R148, R149): 20 ms further, every listed channel at its level, its start plus the rounded share of the distance
to its target; a slot of which every entry is reached is freed with CUE_DONE, its channels unowned at their targets, and one evaluation
follows. CUE_DONE is the step that reaches the last entry (log entry 6). -/
def Obligations.FadeStepsReachTheirTargets : Prop :=
  (∀ d start target offset elapsed : Nat,
    min start target ≤ fadeLevel d start target offset elapsed ∧ fadeLevel d start target offset elapsed ≤ max start target ∧
      (offset + d ≤ elapsed → fadeLevel d start target offset elapsed = target) ∧
      (0 < d → (fadeLevel d start target offset elapsed : Int) = start + ((target : Int) - start).sign *
        ((((target : Int) - start).natAbs * min d (elapsed - offset) + d / 2) / d : Nat)) ∧
      (d = 0 → fadeLevel d start target offset elapsed = if elapsed < offset then start else target)) ∧
  ∀ (n : Fin 8) (s : State), s.lightingSound →
    let sl := s.slot n
    let reached := fun elapsed : Nat => ∀ e ∈ sl.list, e.offset + sl.duration ≤ elapsed
    let level := fun (elapsed : Nat) (c : Fin 96) => match sl.list.find? (fun e => e.channel == c) with
      | some e => fadeLevel sl.duration e.start e.target e.offset elapsed
      | none => (s.channel c).level
    let completes := fun (c : Instr) (level : Fin 96 → Nat) => s.governor.queue = [] → ∃ t, exec c s = .next t ∧
      t.slot n = Slot.reset ∧ (∀ m, m ≠ n → t.slot m = s.slot m) ∧
      (∀ c, t.channel c = { s.channel c with
        level := level c, owner := if (s.channel c).owner = some n then none else (s.channel c).owner }) ∧
      (∀ p, sl.port = some p → (s.port p).queue.length < 8 →
        (s.port p).queue ++ [⟨.cueDone, n.val, sl.cue, s.deviceSeconds⟩] <+: (t.port p).queue) ∧
      t.governor.evalCount = s.governor.evalCount + 1 ∧ t.evaluated ∧ s.tellsOverload t ∧
      t = { s with governor := t.governor, channels := t.channels, slots := t.slots, ports := t.ports }
    (sl.state ≠ .fading → exec (.fadeStep n) s = .next s ∧ exec (.cueDone n) s = .next s) ∧
    (sl.state = .fading →
      (if reached (sl.elapsed + 20) then completes (.fadeStep n) (level (sl.elapsed + 20))
       else ∃ t, exec (.fadeStep n) s = .next t ∧
        (∀ c, t.channel c = { s.channel c with level := level (sl.elapsed + 20) c }) ∧
        t = { s.setSlot n { sl with elapsed := sl.elapsed + 20, timer := some 20 } with channels := t.channels }) ∧
      (if reached sl.elapsed then completes (.cueDone n) (fun c => (s.channel c).level)
       else if reached (sl.elapsed + 20) then exec (.cueDone n) s = exec (.fadeStep n) s
       else exec (.cueDone n) s = .next s))

/-- The effective level of every channel at a frame start (R154, R155): 0 for a haze channel while haze forcing holds, scaled by F
for a trimmable one, the level otherwise; and the frame that FXOUT then sends (R180): 5Ch, the 96 levels in channel order, and the
check that makes their sum 0, each byte as a start bit, its bits from the lowest, and a stop bit. Nothing else changes. -/
def Obligations.FrameCarriesEffectiveLevels : Prop :=
  ∀ s : State, ∃ t, exec .frameStart s = .next t ∧ t = { s with sent := t.sent, fxFrame := t.fxFrame } ∧
    (∃ check : Byte, t.fxFrame = 0x5C#8 :: (List.ofFn (fun c : Fin 96 => BitVec.ofNat 8 (pick t.sent c)) ++ [check]) ∧
      byteSum (t.fxFrame.drop 1) = 0) ∧
    (t.fxout.length = 980 ∧ ∀ k b, t.fxFrame[k]? = some b → (t.fxout.drop (10 * k)).take 10 =
      [false, b.getLsbD 0, b.getLsbD 1, b.getLsbD 2, b.getLsbD 3, b.getLsbD 4, b.getLsbD 5, b.getLsbD 6, b.getLsbD 7, true]) ∧
    ∀ c, (pick t.sent c =
      if (s.channel c).haze = true ∧ (s.fog.state ≠ .clear ∨ s.surface.mode = .resurface) then 0
      else if (s.channel c).trimmable = true then ((s.channel c).level * s.governor.f + 128) / 256
      else (s.channel c).level) ∧
      ((s.channel c).level ≤ 255 → s.governor.f ≤ 256 → pick t.sent c ≤ 255) ∧
      (s.governor.f = 256 → (s.channel c).haze = false → pick t.sent c = (s.channel c).level) ∧
      (s.governor.f = 0 → (s.channel c).trimmable = true → pick t.sent c = 0)

/-- The member orders of a sweep (R150), and the member offsets that follow from them (R151). -/
def Obligations.SweepsNameEveryMemberOnce : Prop :=
  ∀ (w : Sweep), w.startAt < 8 →
    w.memberOrder.Nodup ∧ w.memberOrder.length = (match w.length with | .full => 8 | .half => 4) ∧
    ∀ k, k < w.memberOrder.length → w.memberOrder[k]? = some (match w.order, w.length with
      | .rotate, .full => (w.startAt + k) % 8
      | .rotate, .half => 4 * (w.startAt / 4) + (w.startAt + k) % 4
      | .mirror, _ => w.startAt ^^^ k) ∧
    (w.length = .half → ∀ m ∈ w.memberOrder, m / 4 = w.startAt / 4) ∧
    (∀ k m, w.memberOrder[k]? = some m → memberOffset (some w) (8 * w.group + m) = k * w.memberStep * 100) ∧
    ∀ c, (c / 8 ≠ w.group ∨ c % 8 ∉ w.memberOrder) → memberOffset (some w) c = 0

/-! ### The ice load governor -/

/-- Every step keeps R119's rule: while ICE_OVERLOAD is clear, the spill, the untrimmable load and the trimmed load do not exceed the
ceiling. -/
def Obligations.LoadsStayWithinTheCeiling : Prop :=
  ∀ s t : State, s.governor.withinCeiling → step s = .next t → t.governor.withinCeiling

/-- The trim factor rises only at round ends, and by at most 32 at each (R118); power-on reset alone sets it anew. -/
def Obligations.TrimFactorRisesOnlyAtRoundEnds : Prop :=
  ∀ s t : State, step s = .next t →
    match s.pending.head? with
    | some (.powerOnReset _ _ _ _) => t.governor.f = 256
    | some .allocationRound => t.governor.f ≤ s.governor.f + 32
    | _ => t.governor.f ≤ s.governor.f

/-! ### The tenant ports -/

/-- The line events of a port (R160, R161, R163): each changes its port, and nothing else. A break drops the turn and keeps the
completion queue, LOST and the rate. RESULT_SENT out of ANSWERING leaves no trace (log entry 1). THE MODEL'S DEDUCTION (log entry 14):
BREAK and DISCARD_GAP also end the awaiting of an early frame's length byte. -/
def Obligations.LineEventsTouchOnlyTheirPort : Prop :=
  ∀ (p : Port) (s : State),
    exec (.breakLine p) s = .next (s.setPort p { PortState.reset (s.port p).rate with
      queue := (s.port p).queue, lost := (s.port p).lost, lineDropped := true }) ∧
    exec (.rxReturnedHigh p) s = .next (s.setPort p { s.port p with lineDropped := false }) ∧
    exec (.discardGap p) s = .next (s.setPort p { s.port p with discard := 0, awaitLength := false }) ∧
    exec (.resultSent p) s = .next
      (if (s.port p).phase = .answering then s.setPort p { s.port p with phase := .idle, tx := [] } else s)

/-- INTER_BYTE_GAP and LINK_ERROR (R159): a frame that breaks off, or ends with a bad length, an error or a bad sum, is answered with
LINK_ERROR and code 0, and nothing outside the port changes. OUT_OF_TURN_FRAME (R160): a frame that begins while a result is being
sent sets OUT_OF_TURN and is dropped whole, and the rest of it in whichever phase it arrives. A byte is marked by its parity bit and
its stop bit (R157). -/
def Obligations.BrokenFramesNeverReachABlock : Prop :=
  ∀ (p : Port) (s : State),
    ((s.port p).ready = true → ∀ bytes : List RxByte,
      (beginsFrame bytes = true → exec (.interByteGap p bytes) s = .next (s.refused p 0 .linkError)) ∧
      (endsInLinkError bytes = true → exec (.linkError p bytes) s = .next (s.refused p 0 .linkError))) ∧
    (((s.port p).phase = .executing ∨ (s.port p).phase = .answering) → (s.port p).lineDropped = false →
      (s.port p).awaitLength = false → (s.port p).discard = 0 →
      ∀ (first len : RxByte) (rest : List RxByte), first.startsFrame = true →
        (len.goodLength = true → rest.length + 1 ≤ len.value.toNat →
          exec (.outOfTurnFrame p (first :: len :: rest)) s = .next
            (s.setPort p { s.port p with outOfTurn := true, discard := len.value.toNat - 1 - rest.length })) ∧
        (len.goodLength = false → exec (.outOfTurnFrame p [first, len]) s = .next
          (s.setPort p { s.port p with outOfTurn := true }))) ∧
    ((s.port p).lineDropped = false → (s.port p).awaitLength = false →
      ∀ rest : List RxByte, rest.length ≤ (s.port p).discard → exec (.outOfTurnFrame p rest) s = .next
        (s.setPort p { s.port p with discard := (s.port p).discard - rest.length })) ∧
    ∀ b : RxByte, b.bad = true ↔
      ((List.range 8).countP (fun k => b.value.getLsbD k) + if b.parity then 1 else 0) % 2 = 1 ∨ b.stop = false

/-- The port's checks in the order of R162: an unknown code, a frame length that Table 11-3 does not give the request, by the kind byte
for LOAD_PROFILE and the pair count for CUE_WRITE (R176), a must-collect record (R167), a positioner that does not exist, and the port
set of the domain that Table 10-7 has the port check, by its number in Table 10-5. -/
def Obligations.PortChecksComeBeforeTheBlock : Prop :=
  ∀ (p : Port) (payload : List Byte) (s : State), (s.port p).ready = true → payload.length ≤ 247 →
    (∀ code : Byte, unknownCode code = true →
      exec (.unknownRequest p code payload) s = .next (s.refused p code .unknownRequest)) ∧
    ∀ k : RequestKind,
      let first := readU8 payload 0
      let length : Nat := match k with
        | .status | .collect | .calibrateShort => 3
        | .authLock | .probeRelease | .surfaceMode | .resurfPreheat | .claimAuto | .home => 4
        | .read | .authSet | .zoneSource | .zoneLock | .posMode | .go | .cueProbe => 5
        | .move | .cueInvalidate | .release => 6
        | .plantReport => 7
        | .probeOverride | .claimManual => 8
        | .slabScan | .zoneSet => 9
        | .loadProfile => if first = 0 then 42 else if first = 1 then 61 else if first = 2 then 196 else 0
        | .cueWrite => 21 + 2 * readU8 payload 17
      let domain : Option (Fin 13) := match k with
        | .status | .collect | .read | .loadProfile | .slabScan | .go | .release => none
        | .authSet | .authLock => some 12
        | .calibrateShort | .probeOverride | .probeRelease => some 10
        | .surfaceMode => some (if first = 4 ∨ s.surface.mode = .resurface then 1 else 0)
        | .plantReport | .resurfPreheat => some 11
        | .claimManual | .claimAuto => some 3
        | .zoneSet | .zoneSource | .zoneLock => some 2
        | .move | .home | .posMode => some (if first = 0 ∨ first = 1 ∨ first = 3 then 4 else 5)
        | .cueWrite | .cueInvalidate | .cueProbe => some 9
      if payload.length + 3 ≠ length then exec (k.command p payload) s = .next (s.refused p k.code .badArg)
      else if (s.port p).mustCollectPending = true ∧ k ≠ .status ∧ k ≠ .collect ∧ k ≠ .read then
        exec (k.command p payload) s = .next (s.refused p k.code .uncollected)
      else if (k = .move ∨ k = .home ∨ k = .posMode) ∧ 7 < first then
        exec (k.command p payload) s = .next (s.refused p k.code .badArg)
      else ∀ d, domain = some d → s.inDomain d p = false →
        exec (k.command p payload) s = .next (s.refused p k.code .noAuthority)

/-- Every sound frame at a ready port is answered by one result frame (R163), and a request that is refused has no effect on any
block (R162): whatever its kind and payload, only its port's turn goes on. -/
def Obligations.RefusedRequestsHaveNoEffect : Prop :=
  ∀ (p : Port) (k : RequestKind) (payload : List Byte) (s : State), (s.port p).ready = true → payload.length ≤ 247 →
    ∃ t r, exec (k.command p payload) s = .next t ∧ (t.port p).phase = .answering ∧
      (∃ flags body, (t.port p).tx = resultFrame k.code (BitVec.ofNat 8 r.code) flags body ∧ (r ≠ .ok → body = [])) ∧
      (r ≠ .ok → r ≠ .accepted → t = s.refused p k.code r)

/-- STATUS, COLLECT, READ and CUE_PROBE (R140, R166, R168, R169, R177, R179): what each returns, a record by Table 11-5 with its kind code,
and every field of every page of every view at its place in Table 11-7, and that it changes nothing but its port. THE MODEL'S CHOICES:
the bytes of what is absent where R174 and R179 leave them open (log entry 10); that the received frame is cleared when the request is
taken, as the COLLECT clause shows (log entry 14); the spike run and override as they stand (log entry 16); and the bits of the valid
set mask and of the SURFACE view's valid flags (log entry 20). -/
def Obligations.ReadingRequestsChangeOnlyThePort : Prop :=
  ∀ (p : Port) (s : State),
    let q := s.port p
    let counts := [BitVec.ofNat 8 (Port.code p), BitVec.ofNat 8 q.queue.length,
      BitVec.ofNat 8 (q.queue.countP Record.mustCollect)] ++ encU32 s.deviceSeconds.toNat
    let conditions := [BitVec.ofNat 8 s.surface.mode.code,
      flagByte [s.surface.plantStale, s.pool.loopFail, s.governor.iceOverload, s.surface.ready, s.surface.softIce,
        s.surface.plantValid, s.surface.buildingValid, s.surface.lightingValid], BitVec.ofNat 8 s.fog.state.code]
    let kinds : List RecordKind := [.surfaceChanged, .prepReady, .softIce, .plantStale, .plantFresh, .fogSevere, .fogBlind,
      .loopFail, .loopRestored, .sourceSwitched, .switchTimeout, .switchSuperseded, .sourceFail, .moveDone, .homeDone,
      .moveSuperseded, .posFault, .iceOverload, .iceClear, .noHeadroom, .fillNeeded, .fillTimeout, .cueNoAuthority, .cueMode,
      .cueInvalidated, .cueDone, .cuePreempted, .cueReleased]
    (∀ r : Record, r.mustCollect = decide (r.kind ∈ [.loopFail, .sourceFail, .posFault]) ∧
      r.bytes = encU8 (kinds.idxOf r.kind + 1) ++ encU8 (if r.mustCollect = true then 1 else 0) ++ encU16 r.object ++
        encS16 r.value ++ encU32 r.seconds.toNat) ∧
    (q.ready = true →
      exec (.status p []) s = .next ((s.enterExecuting p).answer p 0x01 { result := .ok, payload := counts ++ conditions }) ∧
      (q.queue = [] → exec (.collect p []) s = .next (s.refused p 0x02 .empty)) ∧
      (∀ r rest, q.queue = r :: rest → exec (.collect p []) s = .next (s.setPort p { q with
        phase := .answering, buffer := [], expected := 0, errorMark := false, outOfTurn := false, queue := rest,
        lost := q.lost && !rest.isEmpty,
        tx := resultFrame 0x02 0 (flagByte [!rest.isEmpty, rest.any Record.mustCollect, q.lost, q.outOfTurn]) r.bytes })) ∧
      ∀ view page : Nat, view < 256 → page < 256 →
        if 9 < view ∨ (view < 9 ∧ 0 < page) ∨ 25 < page then
          exec (.read p (payloadRead view page)) s = .next (s.refused p 0x03 .badArg)
        else ∃ body, exec (.read p (payloadRead view page)) s = .next ((s.enterExecuting p).answer p 0x03
          { result := .ok, payload := encU8 view ++ encU8 page ++ encU8 (if view < 9 then 1 else 26) ++ body }) ∧
          body.length = pageLength view page ∧
          ∀ field ∈ s.pageFields view page, (body.drop field.1).take field.2.length = field.2) ∧
    (s.mayCommand p domCueStore = true → ∀ cue : Nat, cue < 65536 →
      let line := cueLine cue
      let head := encU8 line.val ++ encU8 (cue / 64) ++ encU8 (s.entry line 0).state.code ++ encU8 (s.entry line 0).tag ++
        encU8 (s.entry line 1).state.code ++ encU8 (s.entry line 1).tag ++ encU8 (pick s.store line).lru.val
      if cue = 0 ∨ 4095 < cue then exec (.cueProbe p (payloadCue cue)) s = .next (s.refused p 0x19 .badArg)
      else ∃ tail, exec (.cueProbe p (payloadCue cue)) s = .next ((s.enterExecuting p).answer p 0x19
          { result := .ok, payload := head ++ tail }) ∧ tail.length = 21 ∧
        match s.wayOf cue with
        | none => tail = 0xFF :: List.replicate 20 0
        | some way => (∀ k : Fin 8, (tail.getD 2 0).getLsbD k.val = (pick (s.entry line way).segments k).isSome) ∧
            tail.take 2 = encU8 way.val ++ encU8 (s.entry line way).state.code ∧
            (tail.drop 3).take 3 = encU8 (s.entry line way).waiters.length ++ encU16 ((s.entry line way).fillTimer.getD 65535) ∧
            match (s.entry line way).header with
            | none => tail.drop 6 = List.replicate 15 0
            | some h => tail.drop 6 = encU8 1 ++ encU8 h.cls.code ++ encU16 h.fadeTime ++ encU16 h.delay ++ encU16 h.holdTime ++
                encU8 h.policy.code ++ sweepBytes h.sweep ++ encU8 h.segCount)

/-- AUTH_SET and AUTH_LOCK (R170 to R172). -/
def Obligations.AuthorityRequestsChangeTheMap : Prop :=
  ∀ (p : Port) (s : State), s.mayCommand p domAuthority = true →
    (∀ (d : Fin 13) (set : PortSet),
      exec (.authSet p (payloadAuthSet d.val
        ((if set.p then 1 else 0) + (if set.b then 2 else 0) + (if set.l then 4 else 0)))) s = .next
        (if (pick s.authority d).locked = true then s.refused p 0x04 .lockedResult
         else s.served p .authSet .ok (fun u => { u with authority := put u.authority d ⟨set, false⟩ }))) ∧
    (∀ d : Fin 13, exec (.authLock p (payloadAuthLock d.val)) s = .next
      (s.served p .authLock .ok (fun u => { u with authority := put u.authority d ⟨(pick u.authority d).ports, true⟩ }))) ∧
    (∀ d mask : Nat, d < 256 → mask < 256 → 12 < d ∨ 7 < mask →
      exec (.authSet p (payloadAuthSet d mask)) s = .next (s.refused p 0x04 .badArg)) ∧
    ∀ d : Nat, 12 < d → d < 256 → exec (.authLock p (payloadAuthLock d)) s = .next (s.refused p 0x05 .badArg)

/-- Posting a record (R164, R165): at the tail while fewer than 8 are held; into a full queue a must-collect record takes the place of
the newest ordinary one, and any other record is lost; LOST tells of it. No other port and no block changes, and ATTN is asserted. -/
def Obligations.PostedRecordsJoinTheQueue : Prop :=
  ∀ (p : Port) (kind : RecordKind) (object : Nat) (value : Int) (s : State),
    let q := s.port p
    let r : Record := ⟨kind, object, value, s.deviceSeconds⟩
    ((s.post p kind object value).port p).attn = true ∧
    (q.queue.length < 8 → s.post p kind object value = s.setPort p { q with queue := q.queue ++ [r] }) ∧
    (8 ≤ q.queue.length → kind.mustCollect = false → s.post p kind object value = s.setPort p { q with lost := true }) ∧
    (8 ≤ q.queue.length → kind.mustCollect = true → (∀ x ∈ q.queue, x.mustCollect = true) →
      s.post p kind object value = s.setPort p { q with lost := true }) ∧
    (8 ≤ q.queue.length → kind.mustCollect = true → ∀ (front : List Record) (x : Record) (back : List Record),
      q.queue = front ++ x :: back → x.mustCollect = false → (∀ y ∈ back, y.mustCollect = true) →
      s.post p kind object value = s.setPort p { q with queue := front ++ back ++ [r], lost := true })

/-- The frames of Table 11-2 (R175): from the length byte through the check byte the bytes sum to 0, the length byte counts what
follows the start byte, and ZONE_LOCK for zone 2, on, is sent as the bytes that R175 gives. A port sends each byte of its result as a
start bit, the bits from the lowest, a parity bit that makes the number of set bits even, and a stop bit (R157). -/
def Obligations.FramesSumToZero : Prop :=
  (∀ (code result flags : Byte) (payload : List Byte),
    byteSum ((requestFrame code payload).drop 1) = 0 ∧ byteSum ((resultFrame code result flags payload).drop 1) = 0 ∧
    (payload.length ≤ 247 → readU8 (requestFrame code payload) 1 + 1 = (requestFrame code payload).length) ∧
    (payload.length ≤ 245 → readU8 (resultFrame code result flags payload) 1 + 1 =
      (resultFrame code result flags payload).length)) ∧
  (∀ attn must lost outOfTurn : Bool, ∀ b : Nat, (flagByte [attn, must, lost, outOfTurn]).getLsbD b =
    if b = 0 then attn else if b = 1 then must else if b = 2 then lost else if b = 3 then outOfTurn else false) ∧
  requestFrame RequestKind.zoneLock.code (payloadZoneLock 2 1) = [0xC3, 0x05, 0x12, 0x02, 0x01, 0xE6] ∧
  ∀ q : PortState, q.txLine.length = 11 * q.tx.length ∧ ∀ k b, q.tx[k]? = some b → ∃ parity,
    (q.txLine.drop (11 * k)).take 11 = [false, b.getLsbD 0, b.getLsbD 1, b.getLsbD 2, b.getLsbD 3, b.getLsbD 4, b.getLsbD 5,
      b.getLsbD 6, b.getLsbD 7, parity, true] ∧
    ((List.range 8).countP (fun k => b.getLsbD k) + if parity then 1 else 0) % 2 = 0

/-! ### Invariants of the whole machine -/

/-- Every step keeps the completion queues within their capacity (R164). -/
def Obligations.QueuesStayWithinCapacity : Prop :=
  ∀ s t : State, s.queuesBounded → step s = .next t → t.queuesBounded

/-- Every step keeps the travel slots and the travel queue in agreement with the positioners (R96, R98): at most four positioners
travel or home, and a position exists exactly in IDLE, WAITING and TRAVEL, within 0..1023. -/
def Obligations.TravelSlotsStaySound : Prop :=
  ∀ s t : State, s.travelSound → step s = .next t → t.travelSound

/-- Every step keeps the fade slots, the channels, the headroom queue and the cue store in agreement (R120, R128, R138, R144, R146). -/
def Obligations.LightingStaysSound : Prop :=
  ∀ s t : State, s.lightingSound → step s = .next t → t.lightingSound

/-- Only power-on reset returns the part to START, and only it opens a locked domain: every other step leaves the set and the lock of
a locked domain as they are (R58, R171, R172). -/
def Obligations.OnlyResetReentersStartOrUnlocks : Prop :=
  ∀ s t : State, step s = .next t →
    (∃ straps drvfault endstop proven, s.pending.head? = some (.powerOnReset straps drvfault endstop proven)) ∨
    ((s.surface.mode ≠ .start → t.surface.mode ≠ .start) ∧
      ∀ d, (pick s.authority d).locked = true → pick t.authority d = pick s.authority d)

/-- The state after reset meets every invariant. -/
def Obligations.ResetMeetsTheInvariants : Prop :=
  State.reset.queuesBounded ∧ State.reset.travelSound ∧ State.reset.lightingSound ∧ State.reset.loopSound ∧
    State.reset.governor.withinCeiling
end

