-- ==== Sys2Proof/Laws/Codec.lean ====
section
/-! SUPPORT. Fields read back as they are written (R174), and the sum of a sealed frame (R175). -/

namespace Sys2Proof

theorem readU8_cons_zero (b : Byte) (bs : List Byte) : readU8 (b :: bs) 0 = b.toNat := rfl
theorem readU8_cons_succ (b : Byte) (bs : List Byte) (k : Nat) : readU8 (b :: bs) (k + 1) = readU8 bs k := rfl

@[simp] theorem readU8_byte {n : Nat} (h : n < 256) (bs : List Byte) : readU8 (BitVec.ofNat 8 n :: bs) 0 = n := by
  simp [readU8]; omega

@[simp] theorem readU16_bytes {n : Nat} (h : n < 65536) (bs : List Byte) :
    readU16 (BitVec.ofNat 8 (n / 256) :: BitVec.ofNat 8 n :: bs) 0 = n := by
  simp [readU16, readU8]; omega

theorem readU16_encU16 {n : Nat} (h : n < 65536) (bs : List Byte) : readU16 (encU16 n ++ bs) 0 = n := by
  simp [encU16, h]

/-- A list of bytes before a field only moves it. -/
theorem readU8_append (pre bs : List Byte) (k : Nat) : readU8 (pre ++ bs) (pre.length + k) = readU8 bs k := by
  simp [readU8, List.getElem?_append]

theorem readU16_append (pre bs : List Byte) (k : Nat) : readU16 (pre ++ bs) (pre.length + k) = readU16 bs k := by
  have := readU8_append pre bs (k + 1)
  simp only [readU16, readU8_append]
  rw [← this]; rfl

theorem readS16_append (pre bs : List Byte) (k : Nat) : readS16 (pre ++ bs) (pre.length + k) = readS16 bs k := by
  simp only [readS16, readU16_append]

theorem readS16_encS16 {i : Int} (lo : -32768 ≤ i) (hi : i < 32768) (bs : List Byte) : readS16 (encS16 i ++ bs) 0 = i := by
  have hn : (BitVec.ofInt 16 i).toNat < 65536 := (BitVec.ofInt 16 i).isLt
  have hv : ((BitVec.ofInt 16 i).toNat : Int) = i % 65536 := by
    simp [BitVec.toNat_ofInt]; omega
  rw [readS16, encS16, readU16_encU16 hn]
  split <;> omega

/-- The sum of bytes from a start value. -/
theorem byteSum_foldl (bs : List Byte) (x : Byte) : bs.foldl (· + ·) x = x + byteSum bs := by
  induction bs generalizing x with
  | nil => simp [byteSum]
  | cons b bs ih =>
    have h : byteSum (b :: bs) = bs.foldl (· + ·) (0 + b) := rfl
    rw [List.foldl_cons, ih, h, ih, zero_add, add_assoc]

theorem byteSum_append (as bs : List Byte) : byteSum (as ++ bs) = byteSum as + byteSum bs := by
  rw [byteSum, List.foldl_append, byteSum_foldl]; rfl

/-- The check byte makes the sum of a frame's bytes after the start byte 0 (R175). -/
theorem byteSum_check (body : List Byte) : byteSum (body ++ [checkByte body]) = 0 := by
  rw [byteSum_append, checkByte]
  show byteSum body + (0 + -byteSum body) = 0
  simp

end Sys2Proof
end

