-- ==== Sys2Proof/Laws/State.lean ====
section
/-! SUPPORT. What each update of the state leaves as it was: one lemma per field per update. -/

namespace Sys2Proof.Machine

variable (s : State)

/-! ### setZone -/

@[simp] theorem setZone_scanner (z : Fin 4) (x : Zone) : (s.setZone z x).scanner = s.scanner := rfl
@[simp] theorem setZone_surface (z : Fin 4) (x : Zone) : (s.setZone z x).surface = s.surface := rfl
@[simp] theorem setZone_plant (z : Fin 4) (x : Zone) : (s.setZone z x).plant = s.plant := rfl
@[simp] theorem setZone_building (z : Fin 4) (x : Zone) : (s.setZone z x).building = s.building := rfl
@[simp] theorem setZone_fog (z : Fin 4) (x : Zone) : (s.setZone z x).fog = s.fog := rfl
@[simp] theorem setZone_pool (z : Fin 4) (x : Zone) : (s.setZone z x).pool = s.pool := rfl
@[simp] theorem setZone_boilerProven (z : Fin 4) (x : Zone) : (s.setZone z x).boilerProven = s.boilerProven := rfl
@[simp] theorem setZone_positioners (z : Fin 4) (x : Zone) : (s.setZone z x).positioners = s.positioners := rfl
@[simp] theorem setZone_governor (z : Fin 4) (x : Zone) : (s.setZone z x).governor = s.governor := rfl
@[simp] theorem setZone_store (z : Fin 4) (x : Zone) : (s.setZone z x).store = s.store := rfl
@[simp] theorem setZone_channels (z : Fin 4) (x : Zone) : (s.setZone z x).channels = s.channels := rfl
@[simp] theorem setZone_slots (z : Fin 4) (x : Zone) : (s.setZone z x).slots = s.slots := rfl
@[simp] theorem setZone_sent (z : Fin 4) (x : Zone) : (s.setZone z x).sent = s.sent := rfl
@[simp] theorem setZone_fxFrame (z : Fin 4) (x : Zone) : (s.setZone z x).fxFrame = s.fxFrame := rfl
@[simp] theorem setZone_ports (z : Fin 4) (x : Zone) : (s.setZone z x).ports = s.ports := rfl
@[simp] theorem setZone_authority (z : Fin 4) (x : Zone) : (s.setZone z x).authority = s.authority := rfl
@[simp] theorem setZone_deviceSeconds (z : Fin 4) (x : Zone) : (s.setZone z x).deviceSeconds = s.deviceSeconds := rfl
@[simp] theorem setZone_openChoices (z : Fin 4) (x : Zone) : (s.setZone z x).openChoices = s.openChoices := rfl
@[simp] theorem setZone_pending (z : Fin 4) (x : Zone) : (s.setZone z x).pending = s.pending := rfl

/-! ### setPos -/

@[simp] theorem setPos_scanner (v : Fin 8) (x : Positioner) : (s.setPos v x).scanner = s.scanner := rfl
@[simp] theorem setPos_surface (v : Fin 8) (x : Positioner) : (s.setPos v x).surface = s.surface := rfl
@[simp] theorem setPos_plant (v : Fin 8) (x : Positioner) : (s.setPos v x).plant = s.plant := rfl
@[simp] theorem setPos_building (v : Fin 8) (x : Positioner) : (s.setPos v x).building = s.building := rfl
@[simp] theorem setPos_fog (v : Fin 8) (x : Positioner) : (s.setPos v x).fog = s.fog := rfl
@[simp] theorem setPos_pool (v : Fin 8) (x : Positioner) : (s.setPos v x).pool = s.pool := rfl
@[simp] theorem setPos_zones (v : Fin 8) (x : Positioner) : (s.setPos v x).zones = s.zones := rfl
@[simp] theorem setPos_boilerProven (v : Fin 8) (x : Positioner) : (s.setPos v x).boilerProven = s.boilerProven := rfl
@[simp] theorem setPos_governor (v : Fin 8) (x : Positioner) : (s.setPos v x).governor = s.governor := rfl
@[simp] theorem setPos_store (v : Fin 8) (x : Positioner) : (s.setPos v x).store = s.store := rfl
@[simp] theorem setPos_channels (v : Fin 8) (x : Positioner) : (s.setPos v x).channels = s.channels := rfl
@[simp] theorem setPos_slots (v : Fin 8) (x : Positioner) : (s.setPos v x).slots = s.slots := rfl
@[simp] theorem setPos_sent (v : Fin 8) (x : Positioner) : (s.setPos v x).sent = s.sent := rfl
@[simp] theorem setPos_fxFrame (v : Fin 8) (x : Positioner) : (s.setPos v x).fxFrame = s.fxFrame := rfl
@[simp] theorem setPos_ports (v : Fin 8) (x : Positioner) : (s.setPos v x).ports = s.ports := rfl
@[simp] theorem setPos_authority (v : Fin 8) (x : Positioner) : (s.setPos v x).authority = s.authority := rfl
@[simp] theorem setPos_deviceSeconds (v : Fin 8) (x : Positioner) : (s.setPos v x).deviceSeconds = s.deviceSeconds := rfl
@[simp] theorem setPos_openChoices (v : Fin 8) (x : Positioner) : (s.setPos v x).openChoices = s.openChoices := rfl
@[simp] theorem setPos_pending (v : Fin 8) (x : Positioner) : (s.setPos v x).pending = s.pending := rfl

/-! ### setSlot -/

@[simp] theorem setSlot_scanner (n : Fin 8) (x : Slot) : (s.setSlot n x).scanner = s.scanner := rfl
@[simp] theorem setSlot_surface (n : Fin 8) (x : Slot) : (s.setSlot n x).surface = s.surface := rfl
@[simp] theorem setSlot_plant (n : Fin 8) (x : Slot) : (s.setSlot n x).plant = s.plant := rfl
@[simp] theorem setSlot_building (n : Fin 8) (x : Slot) : (s.setSlot n x).building = s.building := rfl
@[simp] theorem setSlot_fog (n : Fin 8) (x : Slot) : (s.setSlot n x).fog = s.fog := rfl
@[simp] theorem setSlot_pool (n : Fin 8) (x : Slot) : (s.setSlot n x).pool = s.pool := rfl
@[simp] theorem setSlot_zones (n : Fin 8) (x : Slot) : (s.setSlot n x).zones = s.zones := rfl
@[simp] theorem setSlot_boilerProven (n : Fin 8) (x : Slot) : (s.setSlot n x).boilerProven = s.boilerProven := rfl
@[simp] theorem setSlot_positioners (n : Fin 8) (x : Slot) : (s.setSlot n x).positioners = s.positioners := rfl
@[simp] theorem setSlot_governor (n : Fin 8) (x : Slot) : (s.setSlot n x).governor = s.governor := rfl
@[simp] theorem setSlot_store (n : Fin 8) (x : Slot) : (s.setSlot n x).store = s.store := rfl
@[simp] theorem setSlot_channels (n : Fin 8) (x : Slot) : (s.setSlot n x).channels = s.channels := rfl
@[simp] theorem setSlot_sent (n : Fin 8) (x : Slot) : (s.setSlot n x).sent = s.sent := rfl
@[simp] theorem setSlot_fxFrame (n : Fin 8) (x : Slot) : (s.setSlot n x).fxFrame = s.fxFrame := rfl
@[simp] theorem setSlot_ports (n : Fin 8) (x : Slot) : (s.setSlot n x).ports = s.ports := rfl
@[simp] theorem setSlot_authority (n : Fin 8) (x : Slot) : (s.setSlot n x).authority = s.authority := rfl
@[simp] theorem setSlot_deviceSeconds (n : Fin 8) (x : Slot) : (s.setSlot n x).deviceSeconds = s.deviceSeconds := rfl
@[simp] theorem setSlot_openChoices (n : Fin 8) (x : Slot) : (s.setSlot n x).openChoices = s.openChoices := rfl
@[simp] theorem setSlot_pending (n : Fin 8) (x : Slot) : (s.setSlot n x).pending = s.pending := rfl

/-! ### setChannel -/

@[simp] theorem setChannel_scanner (c : Fin 96) (x : Channel) : (s.setChannel c x).scanner = s.scanner := rfl
@[simp] theorem setChannel_surface (c : Fin 96) (x : Channel) : (s.setChannel c x).surface = s.surface := rfl
@[simp] theorem setChannel_plant (c : Fin 96) (x : Channel) : (s.setChannel c x).plant = s.plant := rfl
@[simp] theorem setChannel_building (c : Fin 96) (x : Channel) : (s.setChannel c x).building = s.building := rfl
@[simp] theorem setChannel_fog (c : Fin 96) (x : Channel) : (s.setChannel c x).fog = s.fog := rfl
@[simp] theorem setChannel_pool (c : Fin 96) (x : Channel) : (s.setChannel c x).pool = s.pool := rfl
@[simp] theorem setChannel_zones (c : Fin 96) (x : Channel) : (s.setChannel c x).zones = s.zones := rfl
@[simp] theorem setChannel_boilerProven (c : Fin 96) (x : Channel) : (s.setChannel c x).boilerProven = s.boilerProven := rfl
@[simp] theorem setChannel_positioners (c : Fin 96) (x : Channel) : (s.setChannel c x).positioners = s.positioners := rfl
@[simp] theorem setChannel_governor (c : Fin 96) (x : Channel) : (s.setChannel c x).governor = s.governor := rfl
@[simp] theorem setChannel_store (c : Fin 96) (x : Channel) : (s.setChannel c x).store = s.store := rfl
@[simp] theorem setChannel_slots (c : Fin 96) (x : Channel) : (s.setChannel c x).slots = s.slots := rfl
@[simp] theorem setChannel_sent (c : Fin 96) (x : Channel) : (s.setChannel c x).sent = s.sent := rfl
@[simp] theorem setChannel_fxFrame (c : Fin 96) (x : Channel) : (s.setChannel c x).fxFrame = s.fxFrame := rfl
@[simp] theorem setChannel_ports (c : Fin 96) (x : Channel) : (s.setChannel c x).ports = s.ports := rfl
@[simp] theorem setChannel_authority (c : Fin 96) (x : Channel) : (s.setChannel c x).authority = s.authority := rfl
@[simp] theorem setChannel_deviceSeconds (c : Fin 96) (x : Channel) : (s.setChannel c x).deviceSeconds = s.deviceSeconds := rfl
@[simp] theorem setChannel_openChoices (c : Fin 96) (x : Channel) : (s.setChannel c x).openChoices = s.openChoices := rfl
@[simp] theorem setChannel_pending (c : Fin 96) (x : Channel) : (s.setChannel c x).pending = s.pending := rfl

/-! ### setEntry -/

@[simp] theorem setEntry_scanner (l : Fin 64) (w : Fin 2) (e : Entry) : (s.setEntry l w e).scanner = s.scanner := rfl
@[simp] theorem setEntry_surface (l : Fin 64) (w : Fin 2) (e : Entry) : (s.setEntry l w e).surface = s.surface := rfl
@[simp] theorem setEntry_plant (l : Fin 64) (w : Fin 2) (e : Entry) : (s.setEntry l w e).plant = s.plant := rfl
@[simp] theorem setEntry_building (l : Fin 64) (w : Fin 2) (e : Entry) : (s.setEntry l w e).building = s.building := rfl
@[simp] theorem setEntry_fog (l : Fin 64) (w : Fin 2) (e : Entry) : (s.setEntry l w e).fog = s.fog := rfl
@[simp] theorem setEntry_pool (l : Fin 64) (w : Fin 2) (e : Entry) : (s.setEntry l w e).pool = s.pool := rfl
@[simp] theorem setEntry_zones (l : Fin 64) (w : Fin 2) (e : Entry) : (s.setEntry l w e).zones = s.zones := rfl
@[simp] theorem setEntry_boilerProven (l : Fin 64) (w : Fin 2) (e : Entry) : (s.setEntry l w e).boilerProven = s.boilerProven := rfl
@[simp] theorem setEntry_positioners (l : Fin 64) (w : Fin 2) (e : Entry) : (s.setEntry l w e).positioners = s.positioners := rfl
@[simp] theorem setEntry_governor (l : Fin 64) (w : Fin 2) (e : Entry) : (s.setEntry l w e).governor = s.governor := rfl
@[simp] theorem setEntry_channels (l : Fin 64) (w : Fin 2) (e : Entry) : (s.setEntry l w e).channels = s.channels := rfl
@[simp] theorem setEntry_slots (l : Fin 64) (w : Fin 2) (e : Entry) : (s.setEntry l w e).slots = s.slots := rfl
@[simp] theorem setEntry_sent (l : Fin 64) (w : Fin 2) (e : Entry) : (s.setEntry l w e).sent = s.sent := rfl
@[simp] theorem setEntry_fxFrame (l : Fin 64) (w : Fin 2) (e : Entry) : (s.setEntry l w e).fxFrame = s.fxFrame := rfl
@[simp] theorem setEntry_ports (l : Fin 64) (w : Fin 2) (e : Entry) : (s.setEntry l w e).ports = s.ports := rfl
@[simp] theorem setEntry_authority (l : Fin 64) (w : Fin 2) (e : Entry) : (s.setEntry l w e).authority = s.authority := rfl
@[simp] theorem setEntry_deviceSeconds (l : Fin 64) (w : Fin 2) (e : Entry) : (s.setEntry l w e).deviceSeconds = s.deviceSeconds := rfl
@[simp] theorem setEntry_openChoices (l : Fin 64) (w : Fin 2) (e : Entry) : (s.setEntry l w e).openChoices = s.openChoices := rfl
@[simp] theorem setEntry_pending (l : Fin 64) (w : Fin 2) (e : Entry) : (s.setEntry l w e).pending = s.pending := rfl

/-! ### setLru -/

@[simp] theorem setLru_scanner (l : Fin 64) (w : Fin 2) : (s.setLru l w).scanner = s.scanner := rfl
@[simp] theorem setLru_surface (l : Fin 64) (w : Fin 2) : (s.setLru l w).surface = s.surface := rfl
@[simp] theorem setLru_plant (l : Fin 64) (w : Fin 2) : (s.setLru l w).plant = s.plant := rfl
@[simp] theorem setLru_building (l : Fin 64) (w : Fin 2) : (s.setLru l w).building = s.building := rfl
@[simp] theorem setLru_fog (l : Fin 64) (w : Fin 2) : (s.setLru l w).fog = s.fog := rfl
@[simp] theorem setLru_pool (l : Fin 64) (w : Fin 2) : (s.setLru l w).pool = s.pool := rfl
@[simp] theorem setLru_zones (l : Fin 64) (w : Fin 2) : (s.setLru l w).zones = s.zones := rfl
@[simp] theorem setLru_boilerProven (l : Fin 64) (w : Fin 2) : (s.setLru l w).boilerProven = s.boilerProven := rfl
@[simp] theorem setLru_positioners (l : Fin 64) (w : Fin 2) : (s.setLru l w).positioners = s.positioners := rfl
@[simp] theorem setLru_governor (l : Fin 64) (w : Fin 2) : (s.setLru l w).governor = s.governor := rfl
@[simp] theorem setLru_channels (l : Fin 64) (w : Fin 2) : (s.setLru l w).channels = s.channels := rfl
@[simp] theorem setLru_slots (l : Fin 64) (w : Fin 2) : (s.setLru l w).slots = s.slots := rfl
@[simp] theorem setLru_sent (l : Fin 64) (w : Fin 2) : (s.setLru l w).sent = s.sent := rfl
@[simp] theorem setLru_fxFrame (l : Fin 64) (w : Fin 2) : (s.setLru l w).fxFrame = s.fxFrame := rfl
@[simp] theorem setLru_ports (l : Fin 64) (w : Fin 2) : (s.setLru l w).ports = s.ports := rfl
@[simp] theorem setLru_authority (l : Fin 64) (w : Fin 2) : (s.setLru l w).authority = s.authority := rfl
@[simp] theorem setLru_deviceSeconds (l : Fin 64) (w : Fin 2) : (s.setLru l w).deviceSeconds = s.deviceSeconds := rfl
@[simp] theorem setLru_openChoices (l : Fin 64) (w : Fin 2) : (s.setLru l w).openChoices = s.openChoices := rfl
@[simp] theorem setLru_pending (l : Fin 64) (w : Fin 2) : (s.setLru l w).pending = s.pending := rfl

/-! ### setClaim -/

@[simp] theorem setClaim_scanner (c : Fin 8) (x : Claim) : (s.setClaim c x).scanner = s.scanner := rfl
@[simp] theorem setClaim_surface (c : Fin 8) (x : Claim) : (s.setClaim c x).surface = s.surface := rfl
@[simp] theorem setClaim_plant (c : Fin 8) (x : Claim) : (s.setClaim c x).plant = s.plant := rfl
@[simp] theorem setClaim_building (c : Fin 8) (x : Claim) : (s.setClaim c x).building = s.building := rfl
@[simp] theorem setClaim_fog (c : Fin 8) (x : Claim) : (s.setClaim c x).fog = s.fog := rfl
@[simp] theorem setClaim_zones (c : Fin 8) (x : Claim) : (s.setClaim c x).zones = s.zones := rfl
@[simp] theorem setClaim_boilerProven (c : Fin 8) (x : Claim) : (s.setClaim c x).boilerProven = s.boilerProven := rfl
@[simp] theorem setClaim_positioners (c : Fin 8) (x : Claim) : (s.setClaim c x).positioners = s.positioners := rfl
@[simp] theorem setClaim_governor (c : Fin 8) (x : Claim) : (s.setClaim c x).governor = s.governor := rfl
@[simp] theorem setClaim_store (c : Fin 8) (x : Claim) : (s.setClaim c x).store = s.store := rfl
@[simp] theorem setClaim_channels (c : Fin 8) (x : Claim) : (s.setClaim c x).channels = s.channels := rfl
@[simp] theorem setClaim_slots (c : Fin 8) (x : Claim) : (s.setClaim c x).slots = s.slots := rfl
@[simp] theorem setClaim_sent (c : Fin 8) (x : Claim) : (s.setClaim c x).sent = s.sent := rfl
@[simp] theorem setClaim_fxFrame (c : Fin 8) (x : Claim) : (s.setClaim c x).fxFrame = s.fxFrame := rfl
@[simp] theorem setClaim_ports (c : Fin 8) (x : Claim) : (s.setClaim c x).ports = s.ports := rfl
@[simp] theorem setClaim_authority (c : Fin 8) (x : Claim) : (s.setClaim c x).authority = s.authority := rfl
@[simp] theorem setClaim_deviceSeconds (c : Fin 8) (x : Claim) : (s.setClaim c x).deviceSeconds = s.deviceSeconds := rfl
@[simp] theorem setClaim_openChoices (c : Fin 8) (x : Claim) : (s.setClaim c x).openChoices = s.openChoices := rfl
@[simp] theorem setClaim_pending (c : Fin 8) (x : Claim) : (s.setClaim c x).pending = s.pending := rfl

/-! ### setProbe -/

@[simp] theorem setProbe_surface (i : Fin 32) (r : Probe) : (s.setProbe i r).surface = s.surface := rfl
@[simp] theorem setProbe_plant (i : Fin 32) (r : Probe) : (s.setProbe i r).plant = s.plant := rfl
@[simp] theorem setProbe_building (i : Fin 32) (r : Probe) : (s.setProbe i r).building = s.building := rfl
@[simp] theorem setProbe_fog (i : Fin 32) (r : Probe) : (s.setProbe i r).fog = s.fog := rfl
@[simp] theorem setProbe_pool (i : Fin 32) (r : Probe) : (s.setProbe i r).pool = s.pool := rfl
@[simp] theorem setProbe_zones (i : Fin 32) (r : Probe) : (s.setProbe i r).zones = s.zones := rfl
@[simp] theorem setProbe_boilerProven (i : Fin 32) (r : Probe) : (s.setProbe i r).boilerProven = s.boilerProven := rfl
@[simp] theorem setProbe_positioners (i : Fin 32) (r : Probe) : (s.setProbe i r).positioners = s.positioners := rfl
@[simp] theorem setProbe_governor (i : Fin 32) (r : Probe) : (s.setProbe i r).governor = s.governor := rfl
@[simp] theorem setProbe_store (i : Fin 32) (r : Probe) : (s.setProbe i r).store = s.store := rfl
@[simp] theorem setProbe_channels (i : Fin 32) (r : Probe) : (s.setProbe i r).channels = s.channels := rfl
@[simp] theorem setProbe_slots (i : Fin 32) (r : Probe) : (s.setProbe i r).slots = s.slots := rfl
@[simp] theorem setProbe_sent (i : Fin 32) (r : Probe) : (s.setProbe i r).sent = s.sent := rfl
@[simp] theorem setProbe_fxFrame (i : Fin 32) (r : Probe) : (s.setProbe i r).fxFrame = s.fxFrame := rfl
@[simp] theorem setProbe_ports (i : Fin 32) (r : Probe) : (s.setProbe i r).ports = s.ports := rfl
@[simp] theorem setProbe_authority (i : Fin 32) (r : Probe) : (s.setProbe i r).authority = s.authority := rfl
@[simp] theorem setProbe_deviceSeconds (i : Fin 32) (r : Probe) : (s.setProbe i r).deviceSeconds = s.deviceSeconds := rfl
@[simp] theorem setProbe_openChoices (i : Fin 32) (r : Probe) : (s.setProbe i r).openChoices = s.openChoices := rfl
@[simp] theorem setProbe_pending (i : Fin 32) (r : Probe) : (s.setProbe i r).pending = s.pending := rfl

/-! ### setDomain -/

@[simp] theorem setDomain_scanner (d : Fin 13) (x : Domain) : (s.setDomain d x).scanner = s.scanner := rfl
@[simp] theorem setDomain_surface (d : Fin 13) (x : Domain) : (s.setDomain d x).surface = s.surface := rfl
@[simp] theorem setDomain_plant (d : Fin 13) (x : Domain) : (s.setDomain d x).plant = s.plant := rfl
@[simp] theorem setDomain_building (d : Fin 13) (x : Domain) : (s.setDomain d x).building = s.building := rfl
@[simp] theorem setDomain_fog (d : Fin 13) (x : Domain) : (s.setDomain d x).fog = s.fog := rfl
@[simp] theorem setDomain_pool (d : Fin 13) (x : Domain) : (s.setDomain d x).pool = s.pool := rfl
@[simp] theorem setDomain_zones (d : Fin 13) (x : Domain) : (s.setDomain d x).zones = s.zones := rfl
@[simp] theorem setDomain_boilerProven (d : Fin 13) (x : Domain) : (s.setDomain d x).boilerProven = s.boilerProven := rfl
@[simp] theorem setDomain_positioners (d : Fin 13) (x : Domain) : (s.setDomain d x).positioners = s.positioners := rfl
@[simp] theorem setDomain_governor (d : Fin 13) (x : Domain) : (s.setDomain d x).governor = s.governor := rfl
@[simp] theorem setDomain_store (d : Fin 13) (x : Domain) : (s.setDomain d x).store = s.store := rfl
@[simp] theorem setDomain_channels (d : Fin 13) (x : Domain) : (s.setDomain d x).channels = s.channels := rfl
@[simp] theorem setDomain_slots (d : Fin 13) (x : Domain) : (s.setDomain d x).slots = s.slots := rfl
@[simp] theorem setDomain_sent (d : Fin 13) (x : Domain) : (s.setDomain d x).sent = s.sent := rfl
@[simp] theorem setDomain_fxFrame (d : Fin 13) (x : Domain) : (s.setDomain d x).fxFrame = s.fxFrame := rfl
@[simp] theorem setDomain_ports (d : Fin 13) (x : Domain) : (s.setDomain d x).ports = s.ports := rfl
@[simp] theorem setDomain_deviceSeconds (d : Fin 13) (x : Domain) : (s.setDomain d x).deviceSeconds = s.deviceSeconds := rfl
@[simp] theorem setDomain_openChoices (d : Fin 13) (x : Domain) : (s.setDomain d x).openChoices = s.openChoices := rfl
@[simp] theorem setDomain_pending (d : Fin 13) (x : Domain) : (s.setDomain d x).pending = s.pending := rfl

/-! ### disown -/

@[simp] theorem disown_scanner (n : Fin 8) : (s.disown n).scanner = s.scanner := rfl
@[simp] theorem disown_surface (n : Fin 8) : (s.disown n).surface = s.surface := rfl
@[simp] theorem disown_plant (n : Fin 8) : (s.disown n).plant = s.plant := rfl
@[simp] theorem disown_building (n : Fin 8) : (s.disown n).building = s.building := rfl
@[simp] theorem disown_fog (n : Fin 8) : (s.disown n).fog = s.fog := rfl
@[simp] theorem disown_pool (n : Fin 8) : (s.disown n).pool = s.pool := rfl
@[simp] theorem disown_zones (n : Fin 8) : (s.disown n).zones = s.zones := rfl
@[simp] theorem disown_boilerProven (n : Fin 8) : (s.disown n).boilerProven = s.boilerProven := rfl
@[simp] theorem disown_positioners (n : Fin 8) : (s.disown n).positioners = s.positioners := rfl
@[simp] theorem disown_governor (n : Fin 8) : (s.disown n).governor = s.governor := rfl
@[simp] theorem disown_store (n : Fin 8) : (s.disown n).store = s.store := rfl
@[simp] theorem disown_slots (n : Fin 8) : (s.disown n).slots = s.slots := rfl
@[simp] theorem disown_sent (n : Fin 8) : (s.disown n).sent = s.sent := rfl
@[simp] theorem disown_fxFrame (n : Fin 8) : (s.disown n).fxFrame = s.fxFrame := rfl
@[simp] theorem disown_ports (n : Fin 8) : (s.disown n).ports = s.ports := rfl
@[simp] theorem disown_authority (n : Fin 8) : (s.disown n).authority = s.authority := rfl
@[simp] theorem disown_deviceSeconds (n : Fin 8) : (s.disown n).deviceSeconds = s.deviceSeconds := rfl
@[simp] theorem disown_openChoices (n : Fin 8) : (s.disown n).openChoices = s.openChoices := rfl
@[simp] theorem disown_pending (n : Fin 8) : (s.disown n).pending = s.pending := rfl

/-! ### leaveWaiters -/

@[simp] theorem leaveWaiters_scanner (n : Fin 8) (cue : Nat) : (s.leaveWaiters n cue).scanner = s.scanner := rfl
@[simp] theorem leaveWaiters_surface (n : Fin 8) (cue : Nat) : (s.leaveWaiters n cue).surface = s.surface := rfl
@[simp] theorem leaveWaiters_plant (n : Fin 8) (cue : Nat) : (s.leaveWaiters n cue).plant = s.plant := rfl
@[simp] theorem leaveWaiters_building (n : Fin 8) (cue : Nat) : (s.leaveWaiters n cue).building = s.building := rfl
@[simp] theorem leaveWaiters_fog (n : Fin 8) (cue : Nat) : (s.leaveWaiters n cue).fog = s.fog := rfl
@[simp] theorem leaveWaiters_pool (n : Fin 8) (cue : Nat) : (s.leaveWaiters n cue).pool = s.pool := rfl
@[simp] theorem leaveWaiters_zones (n : Fin 8) (cue : Nat) : (s.leaveWaiters n cue).zones = s.zones := rfl
@[simp] theorem leaveWaiters_boilerProven (n : Fin 8) (cue : Nat) : (s.leaveWaiters n cue).boilerProven = s.boilerProven := rfl
@[simp] theorem leaveWaiters_positioners (n : Fin 8) (cue : Nat) : (s.leaveWaiters n cue).positioners = s.positioners := rfl
@[simp] theorem leaveWaiters_governor (n : Fin 8) (cue : Nat) : (s.leaveWaiters n cue).governor = s.governor := rfl
@[simp] theorem leaveWaiters_channels (n : Fin 8) (cue : Nat) : (s.leaveWaiters n cue).channels = s.channels := rfl
@[simp] theorem leaveWaiters_slots (n : Fin 8) (cue : Nat) : (s.leaveWaiters n cue).slots = s.slots := rfl
@[simp] theorem leaveWaiters_sent (n : Fin 8) (cue : Nat) : (s.leaveWaiters n cue).sent = s.sent := rfl
@[simp] theorem leaveWaiters_fxFrame (n : Fin 8) (cue : Nat) : (s.leaveWaiters n cue).fxFrame = s.fxFrame := rfl
@[simp] theorem leaveWaiters_ports (n : Fin 8) (cue : Nat) : (s.leaveWaiters n cue).ports = s.ports := rfl
@[simp] theorem leaveWaiters_authority (n : Fin 8) (cue : Nat) : (s.leaveWaiters n cue).authority = s.authority := rfl
@[simp] theorem leaveWaiters_deviceSeconds (n : Fin 8) (cue : Nat) : (s.leaveWaiters n cue).deviceSeconds = s.deviceSeconds := rfl
@[simp] theorem leaveWaiters_openChoices (n : Fin 8) (cue : Nat) : (s.leaveWaiters n cue).openChoices = s.openChoices := rfl
@[simp] theorem leaveWaiters_pending (n : Fin 8) (cue : Nat) : (s.leaveWaiters n cue).pending = s.pending := rfl

/-! ### leaveHeadroom -/

@[simp] theorem leaveHeadroom_scanner (n : Fin 8) : (s.leaveHeadroom n).scanner = s.scanner := rfl
@[simp] theorem leaveHeadroom_surface (n : Fin 8) : (s.leaveHeadroom n).surface = s.surface := rfl
@[simp] theorem leaveHeadroom_plant (n : Fin 8) : (s.leaveHeadroom n).plant = s.plant := rfl
@[simp] theorem leaveHeadroom_building (n : Fin 8) : (s.leaveHeadroom n).building = s.building := rfl
@[simp] theorem leaveHeadroom_fog (n : Fin 8) : (s.leaveHeadroom n).fog = s.fog := rfl
@[simp] theorem leaveHeadroom_pool (n : Fin 8) : (s.leaveHeadroom n).pool = s.pool := rfl
@[simp] theorem leaveHeadroom_zones (n : Fin 8) : (s.leaveHeadroom n).zones = s.zones := rfl
@[simp] theorem leaveHeadroom_boilerProven (n : Fin 8) : (s.leaveHeadroom n).boilerProven = s.boilerProven := rfl
@[simp] theorem leaveHeadroom_positioners (n : Fin 8) : (s.leaveHeadroom n).positioners = s.positioners := rfl
@[simp] theorem leaveHeadroom_store (n : Fin 8) : (s.leaveHeadroom n).store = s.store := rfl
@[simp] theorem leaveHeadroom_channels (n : Fin 8) : (s.leaveHeadroom n).channels = s.channels := rfl
@[simp] theorem leaveHeadroom_slots (n : Fin 8) : (s.leaveHeadroom n).slots = s.slots := rfl
@[simp] theorem leaveHeadroom_sent (n : Fin 8) : (s.leaveHeadroom n).sent = s.sent := rfl
@[simp] theorem leaveHeadroom_fxFrame (n : Fin 8) : (s.leaveHeadroom n).fxFrame = s.fxFrame := rfl
@[simp] theorem leaveHeadroom_ports (n : Fin 8) : (s.leaveHeadroom n).ports = s.ports := rfl
@[simp] theorem leaveHeadroom_authority (n : Fin 8) : (s.leaveHeadroom n).authority = s.authority := rfl
@[simp] theorem leaveHeadroom_deviceSeconds (n : Fin 8) : (s.leaveHeadroom n).deviceSeconds = s.deviceSeconds := rfl
@[simp] theorem leaveHeadroom_openChoices (n : Fin 8) : (s.leaveHeadroom n).openChoices = s.openChoices := rfl
@[simp] theorem leaveHeadroom_pending (n : Fin 8) : (s.leaveHeadroom n).pending = s.pending := rfl

/-! ### setPort -/

@[simp] theorem setPort_scanner (p : Port) (q : PortState) : (s.setPort p q).scanner = s.scanner := by cases p <;> rfl
@[simp] theorem setPort_surface (p : Port) (q : PortState) : (s.setPort p q).surface = s.surface := by cases p <;> rfl
@[simp] theorem setPort_plant (p : Port) (q : PortState) : (s.setPort p q).plant = s.plant := by cases p <;> rfl
@[simp] theorem setPort_building (p : Port) (q : PortState) : (s.setPort p q).building = s.building := by cases p <;> rfl
@[simp] theorem setPort_fog (p : Port) (q : PortState) : (s.setPort p q).fog = s.fog := by cases p <;> rfl
@[simp] theorem setPort_pool (p : Port) (q : PortState) : (s.setPort p q).pool = s.pool := by cases p <;> rfl
@[simp] theorem setPort_zones (p : Port) (q : PortState) : (s.setPort p q).zones = s.zones := by cases p <;> rfl
@[simp] theorem setPort_boilerProven (p : Port) (q : PortState) : (s.setPort p q).boilerProven = s.boilerProven := by cases p <;> rfl
@[simp] theorem setPort_positioners (p : Port) (q : PortState) : (s.setPort p q).positioners = s.positioners := by cases p <;> rfl
@[simp] theorem setPort_governor (p : Port) (q : PortState) : (s.setPort p q).governor = s.governor := by cases p <;> rfl
@[simp] theorem setPort_store (p : Port) (q : PortState) : (s.setPort p q).store = s.store := by cases p <;> rfl
@[simp] theorem setPort_channels (p : Port) (q : PortState) : (s.setPort p q).channels = s.channels := by cases p <;> rfl
@[simp] theorem setPort_slots (p : Port) (q : PortState) : (s.setPort p q).slots = s.slots := by cases p <;> rfl
@[simp] theorem setPort_sent (p : Port) (q : PortState) : (s.setPort p q).sent = s.sent := by cases p <;> rfl
@[simp] theorem setPort_fxFrame (p : Port) (q : PortState) : (s.setPort p q).fxFrame = s.fxFrame := by cases p <;> rfl
@[simp] theorem setPort_authority (p : Port) (q : PortState) : (s.setPort p q).authority = s.authority := by cases p <;> rfl
@[simp] theorem setPort_deviceSeconds (p : Port) (q : PortState) : (s.setPort p q).deviceSeconds = s.deviceSeconds := by cases p <;> rfl
@[simp] theorem setPort_openChoices (p : Port) (q : PortState) : (s.setPort p q).openChoices = s.openChoices := by cases p <;> rfl
@[simp] theorem setPort_pending (p : Port) (q : PortState) : (s.setPort p q).pending = s.pending := by cases p <;> rfl

/-! ### post -/

@[simp] theorem post_scanner (p : Port) (k : RecordKind) (o : Nat) (v : Int) : (s.post p k o v).scanner = s.scanner := by cases p <;> rfl
@[simp] theorem post_surface (p : Port) (k : RecordKind) (o : Nat) (v : Int) : (s.post p k o v).surface = s.surface := by cases p <;> rfl
@[simp] theorem post_plant (p : Port) (k : RecordKind) (o : Nat) (v : Int) : (s.post p k o v).plant = s.plant := by cases p <;> rfl
@[simp] theorem post_building (p : Port) (k : RecordKind) (o : Nat) (v : Int) : (s.post p k o v).building = s.building := by cases p <;> rfl
@[simp] theorem post_fog (p : Port) (k : RecordKind) (o : Nat) (v : Int) : (s.post p k o v).fog = s.fog := by cases p <;> rfl
@[simp] theorem post_pool (p : Port) (k : RecordKind) (o : Nat) (v : Int) : (s.post p k o v).pool = s.pool := by cases p <;> rfl
@[simp] theorem post_zones (p : Port) (k : RecordKind) (o : Nat) (v : Int) : (s.post p k o v).zones = s.zones := by cases p <;> rfl
@[simp] theorem post_boilerProven (p : Port) (k : RecordKind) (o : Nat) (v : Int) : (s.post p k o v).boilerProven = s.boilerProven := by cases p <;> rfl
@[simp] theorem post_positioners (p : Port) (k : RecordKind) (o : Nat) (v : Int) : (s.post p k o v).positioners = s.positioners := by cases p <;> rfl
@[simp] theorem post_governor (p : Port) (k : RecordKind) (o : Nat) (v : Int) : (s.post p k o v).governor = s.governor := by cases p <;> rfl
@[simp] theorem post_store (p : Port) (k : RecordKind) (o : Nat) (v : Int) : (s.post p k o v).store = s.store := by cases p <;> rfl
@[simp] theorem post_channels (p : Port) (k : RecordKind) (o : Nat) (v : Int) : (s.post p k o v).channels = s.channels := by cases p <;> rfl
@[simp] theorem post_slots (p : Port) (k : RecordKind) (o : Nat) (v : Int) : (s.post p k o v).slots = s.slots := by cases p <;> rfl
@[simp] theorem post_sent (p : Port) (k : RecordKind) (o : Nat) (v : Int) : (s.post p k o v).sent = s.sent := by cases p <;> rfl
@[simp] theorem post_fxFrame (p : Port) (k : RecordKind) (o : Nat) (v : Int) : (s.post p k o v).fxFrame = s.fxFrame := by cases p <;> rfl
@[simp] theorem post_authority (p : Port) (k : RecordKind) (o : Nat) (v : Int) : (s.post p k o v).authority = s.authority := by cases p <;> rfl
@[simp] theorem post_deviceSeconds (p : Port) (k : RecordKind) (o : Nat) (v : Int) : (s.post p k o v).deviceSeconds = s.deviceSeconds := by cases p <;> rfl
@[simp] theorem post_openChoices (p : Port) (k : RecordKind) (o : Nat) (v : Int) : (s.post p k o v).openChoices = s.openChoices := by cases p <;> rfl
@[simp] theorem post_pending (p : Port) (k : RecordKind) (o : Nat) (v : Int) : (s.post p k o v).pending = s.pending := by cases p <;> rfl

/-! ### enterExecuting -/

@[simp] theorem enterExecuting_scanner (p : Port) : (s.enterExecuting p).scanner = s.scanner := by cases p <;> rfl
@[simp] theorem enterExecuting_surface (p : Port) : (s.enterExecuting p).surface = s.surface := by cases p <;> rfl
@[simp] theorem enterExecuting_plant (p : Port) : (s.enterExecuting p).plant = s.plant := by cases p <;> rfl
@[simp] theorem enterExecuting_building (p : Port) : (s.enterExecuting p).building = s.building := by cases p <;> rfl
@[simp] theorem enterExecuting_fog (p : Port) : (s.enterExecuting p).fog = s.fog := by cases p <;> rfl
@[simp] theorem enterExecuting_pool (p : Port) : (s.enterExecuting p).pool = s.pool := by cases p <;> rfl
@[simp] theorem enterExecuting_zones (p : Port) : (s.enterExecuting p).zones = s.zones := by cases p <;> rfl
@[simp] theorem enterExecuting_boilerProven (p : Port) : (s.enterExecuting p).boilerProven = s.boilerProven := by cases p <;> rfl
@[simp] theorem enterExecuting_positioners (p : Port) : (s.enterExecuting p).positioners = s.positioners := by cases p <;> rfl
@[simp] theorem enterExecuting_governor (p : Port) : (s.enterExecuting p).governor = s.governor := by cases p <;> rfl
@[simp] theorem enterExecuting_store (p : Port) : (s.enterExecuting p).store = s.store := by cases p <;> rfl
@[simp] theorem enterExecuting_channels (p : Port) : (s.enterExecuting p).channels = s.channels := by cases p <;> rfl
@[simp] theorem enterExecuting_slots (p : Port) : (s.enterExecuting p).slots = s.slots := by cases p <;> rfl
@[simp] theorem enterExecuting_sent (p : Port) : (s.enterExecuting p).sent = s.sent := by cases p <;> rfl
@[simp] theorem enterExecuting_fxFrame (p : Port) : (s.enterExecuting p).fxFrame = s.fxFrame := by cases p <;> rfl
@[simp] theorem enterExecuting_authority (p : Port) : (s.enterExecuting p).authority = s.authority := by cases p <;> rfl
@[simp] theorem enterExecuting_deviceSeconds (p : Port) : (s.enterExecuting p).deviceSeconds = s.deviceSeconds := by cases p <;> rfl
@[simp] theorem enterExecuting_openChoices (p : Port) : (s.enterExecuting p).openChoices = s.openChoices := by cases p <;> rfl
@[simp] theorem enterExecuting_pending (p : Port) : (s.enterExecuting p).pending = s.pending := by cases p <;> rfl

/-! ### answer -/

@[simp] theorem answer_scanner (p : Port) (code : Byte) (a : Answer) : (s.answer p code a).scanner = s.scanner := by cases p <;> rfl
@[simp] theorem answer_surface (p : Port) (code : Byte) (a : Answer) : (s.answer p code a).surface = s.surface := by cases p <;> rfl
@[simp] theorem answer_plant (p : Port) (code : Byte) (a : Answer) : (s.answer p code a).plant = s.plant := by cases p <;> rfl
@[simp] theorem answer_building (p : Port) (code : Byte) (a : Answer) : (s.answer p code a).building = s.building := by cases p <;> rfl
@[simp] theorem answer_fog (p : Port) (code : Byte) (a : Answer) : (s.answer p code a).fog = s.fog := by cases p <;> rfl
@[simp] theorem answer_pool (p : Port) (code : Byte) (a : Answer) : (s.answer p code a).pool = s.pool := by cases p <;> rfl
@[simp] theorem answer_zones (p : Port) (code : Byte) (a : Answer) : (s.answer p code a).zones = s.zones := by cases p <;> rfl
@[simp] theorem answer_boilerProven (p : Port) (code : Byte) (a : Answer) : (s.answer p code a).boilerProven = s.boilerProven := by cases p <;> rfl
@[simp] theorem answer_positioners (p : Port) (code : Byte) (a : Answer) : (s.answer p code a).positioners = s.positioners := by cases p <;> rfl
@[simp] theorem answer_governor (p : Port) (code : Byte) (a : Answer) : (s.answer p code a).governor = s.governor := by cases p <;> rfl
@[simp] theorem answer_store (p : Port) (code : Byte) (a : Answer) : (s.answer p code a).store = s.store := by cases p <;> rfl
@[simp] theorem answer_channels (p : Port) (code : Byte) (a : Answer) : (s.answer p code a).channels = s.channels := by cases p <;> rfl
@[simp] theorem answer_slots (p : Port) (code : Byte) (a : Answer) : (s.answer p code a).slots = s.slots := by cases p <;> rfl
@[simp] theorem answer_sent (p : Port) (code : Byte) (a : Answer) : (s.answer p code a).sent = s.sent := by cases p <;> rfl
@[simp] theorem answer_fxFrame (p : Port) (code : Byte) (a : Answer) : (s.answer p code a).fxFrame = s.fxFrame := by cases p <;> rfl
@[simp] theorem answer_authority (p : Port) (code : Byte) (a : Answer) : (s.answer p code a).authority = s.authority := by cases p <;> rfl
@[simp] theorem answer_deviceSeconds (p : Port) (code : Byte) (a : Answer) : (s.answer p code a).deviceSeconds = s.deviceSeconds := by cases p <;> rfl
@[simp] theorem answer_openChoices (p : Port) (code : Byte) (a : Answer) : (s.answer p code a).openChoices = s.openChoices := by cases p <;> rfl
@[simp] theorem answer_pending (p : Port) (code : Byte) (a : Answer) : (s.answer p code a).pending = s.pending := by cases p <;> rfl

/-! ### Reading back what an update writes -/

@[simp] theorem port_setPort_same (p : Port) (q : PortState) : (s.setPort p q).port p = q := by cases p <;> rfl

theorem port_setPort_other {p p' : Port} (q : PortState) (h : p' ≠ p) : (s.setPort p q).port p' = s.port p' := by
  cases p <;> cases p' <;> first | rfl | exact absurd rfl h

@[simp] theorem setPort_setPort (p : Port) (q r : PortState) : (s.setPort p q).setPort p r = s.setPort p r := by
  cases p <;> rfl

@[simp] theorem setPort_port (p : Port) : s.setPort p (s.port p) = s := by cases p <;> rfl

@[simp] theorem inDomain_setPort (p p' : Port) (q : PortState) (d : Fin 13) :
    (s.setPort p q).inDomain d p' = s.inDomain d p' := by cases p <;> rfl

@[simp] theorem inDomain_enterExecuting (p p' : Port) (d : Fin 13) :
    (s.enterExecuting p).inDomain d p' = s.inDomain d p' := by cases p <;> rfl

@[simp] theorem port_enterExecuting_same (p : Port) : (s.enterExecuting p).port p = (s.port p).executing := by cases p <;> rfl

theorem port_enterExecuting_other {p p' : Port} (h : p' ≠ p) : (s.enterExecuting p).port p' = s.port p' :=
  port_setPort_other s _ h

@[simp] theorem port_answer_same (p : Port) (code : Byte) (a : Answer) :
    (s.answer p code a).port p = (s.port p).answer code a := by cases p <;> rfl

theorem port_answer_other {p p' : Port} (code : Byte) (a : Answer) (h : p' ≠ p) :
    (s.answer p code a).port p' = s.port p' := port_setPort_other s _ h

@[simp] theorem executing_queue (q : PortState) : q.executing.queue = q.queue := rfl
@[simp] theorem executing_lost (q : PortState) : q.executing.lost = q.lost := rfl
@[simp] theorem answer_queue (q : PortState) (code : Byte) (a : Answer) : (q.answer code a).queue = q.queue := rfl
@[simp] theorem answer_lost (q : PortState) (code : Byte) (a : Answer) : (q.answer code a).lost = q.lost := rfl

end Sys2Proof.Machine
end

