-- ==== Sys2Proof/Laws/Frames.lean ====
section
/-! SUPPORT. What the shared operations of each block can change: lighting operations change the governor, the channels, the slots,
the store and the ports; positioner operations the positioners, the ports and the model's counter; zone operations the zones and
the ports. -/

namespace Sys2Proof.Machine

/-- A relation that holds of every step of a fold holds of the fold. -/
theorem foldl_related {α : Type} {R : State → State → Prop} (hrefl : ∀ s, R s s)
    (htrans : ∀ {a b c}, R a b → R b c → R a c) (f : State → α → State) (hf : ∀ s x, R s (f s x)) (l : List α) (s : State) :
    R s (l.foldl f s) := by
  induction l generalizing s with
  | nil => exact hrefl s
  | cons x l ih => exact htrans (hf s x) (ih (f s x))

/-! ### Lighting -/

/-- Nothing but the governor, the channels, the slots, the store and the ports differs. -/
def LightingOnly (s t : State) : Prop :=
  t = { s with governor := t.governor, channels := t.channels, slots := t.slots, store := t.store, ports := t.ports }

theorem LightingOnly.refl (s : State) : LightingOnly s s := rfl

theorem LightingOnly.trans {a b c : State} (h : LightingOnly a b) (k : LightingOnly b c) : LightingOnly a c := by
  unfold LightingOnly at *
  rw [k, h]

theorem lighting_foldl {α : Type} (f : State → α → State) (hf : ∀ s x, LightingOnly s (f s x)) (l : List α) (s : State) :
    LightingOnly s (l.foldl f s) := foldl_related LightingOnly.refl LightingOnly.trans f hf l s

theorem lighting_post (s : State) (p : Port) (k : RecordKind) (o : Nat) (v : Int) : LightingOnly s (s.post p k o v) := by
  cases p <;> rfl

theorem lighting_postTo (s : State) (p : Option Port) (k : RecordKind) (o : Nat) (v : Int) :
    LightingOnly s (s.postTo p k o v) := by
  cases p
  · rfl
  · exact lighting_post ..

theorem lighting_postAll (s : State) (ps : List Port) (k : RecordKind) (o : Nat) (v : Int) :
    LightingOnly s (s.postAll ps k o v) := lighting_foldl _ (fun s p => lighting_post s p k o v) ps s

theorem lighting_freeSlot (s : State) (n : Fin 8) : LightingOnly s (s.freeSlot n) := rfl

theorem lighting_endSlot (s : State) (n : Fin 8) (k : RecordKind) : LightingOnly s (s.endSlot n k) :=
  (lighting_freeSlot s n).trans (lighting_postTo ..)

theorem lighting_setChannel (s : State) (c : Fin 96) (x : Channel) : LightingOnly s (s.setChannel c x) := rfl

theorem lighting_setSlot (s : State) (n : Fin 8) (x : Slot) : LightingOnly s (s.setSlot n x) := rfl

theorem lighting_writeLevels (s : State) (n : Fin 8) : LightingOnly s (s.writeLevels n) :=
  lighting_foldl _ (fun _s _e => lighting_setChannel ..) _ s

theorem lighting_takeChannel (n : Fin 8) (s : State) (e : ListEntry) : LightingOnly s (State.takeChannel n s e) := by
  unfold State.takeChannel
  refine LightingOnly.trans ?_ (lighting_setChannel ..)
  split
  · exact LightingOnly.refl s
  · split
    · exact LightingOnly.refl s
    · exact lighting_setSlot ..

theorem lighting_startFading (s : State) (n : Fin 8) : LightingOnly s (s.startFading n) := by
  unfold State.startFading
  refine LightingOnly.trans ?_ (lighting_writeLevels ..)
  have h := lighting_foldl (State.takeChannel n) (lighting_takeChannel n) (s.slot n).list s
  exact h.trans rfl

theorem lighting_judgePreempted (s : State) (m : Fin 8) : LightingOnly s (s.judgePreempted m) := by
  unfold State.judgePreempted
  split
  · exact lighting_endSlot ..
  · exact LightingOnly.refl s

theorem lighting_enterFading (s : State) (n : Fin 8) : LightingOnly s (s.enterFading n).1 := by
  unfold State.enterFading
  refine LightingOnly.trans (b := if ((s.startFading n).slot n).allReached then (s.startFading n).endSlot n .cueDone
    else s.startFading n) ?_ (lighting_foldl _ lighting_judgePreempted _ _)
  split
  · exact (lighting_startFading s n).trans (lighting_endSlot ..)
  · exact lighting_startFading s n

theorem lighting_serveSlot (acc : State × Nat) (n : Fin 8) : LightingOnly acc.1 (serveSlot acc n).1 := by
  unfold serveSlot
  split
  · exact lighting_enterFading ..
  · exact LightingOnly.refl _

theorem lighting_serveQueue (s : State) : LightingOnly s s.serveQueue.1 := by
  have h : ∀ (l : List (Fin 8)) (acc : State × Nat), LightingOnly acc.1 (l.foldl serveSlot acc).1 := by
    intro l
    induction l with
    | nil => exact fun acc => LightingOnly.refl _
    | cons n l ih => exact fun acc => (lighting_serveSlot acc n).trans (ih _)
  exact h s.governor.queue (s, 0)

theorem lighting_judgeOverload (s : State) : LightingOnly s s.judgeOverload := by
  unfold State.judgeOverload
  dsimp only
  split
  · rfl
  · exact LightingOnly.trans (b := { s with governor := { s.governor with iceOverload := decide (s.governor.avail < 0) } }) rfl
      (lighting_postAll ..)

theorem lighting_evaluateOnce (s : State) (k : EvalKind) (spill : Option Nat) :
    LightingOnly s (s.evaluateOnce k spill).1 := by
  unfold State.evaluateOnce
  have h1 : LightingOnly s (s.openEvaluation spill) := rfl
  have h2 := h1.trans (lighting_serveQueue (s.openEvaluation spill))
  have h3 : LightingOnly _ ((s.openEvaluation spill).serveQueue.1.weigh k) := rfl
  have h4 := (h2.trans h3).trans (lighting_judgeOverload _)
  exact h4.trans rfl

theorem lighting_evaluations (fuel asked : Nat) (s : State) : LightingOnly s (evaluations fuel asked s) := by
  induction fuel generalizing asked s with
  | zero => exact LightingOnly.refl s
  | succ fuel ih =>
    cases asked with
    | zero => exact LightingOnly.refl s
    | succ asked => exact (lighting_evaluateOnce s .ordinary none).trans (ih _ _)

theorem lighting_evaluate (s : State) : LightingOnly s s.evaluate := lighting_evaluations ..

theorem lighting_evaluateRound (s : State) (spill : Nat) : LightingOnly s (s.evaluateRound spill) :=
  (lighting_evaluateOnce s .roundEnd (some spill)).trans (lighting_evaluations ..)

theorem lighting_judgeAdmission (s : State) (n : Fin 8) : LightingOnly s (s.judgeAdmission n) := by
  unfold State.judgeAdmission
  have h := lighting_setSlot s n { s.slot n with delay := 0 }
  generalize s.setSlot n { s.slot n with delay := 0 } = ended at h ⊢
  dsimp only
  split
  · split
    · exact h.trans (lighting_endSlot ..)
    · exact h.trans rfl
  · exact h.trans ((lighting_enterFading _ n).trans (lighting_evaluations ..))

theorem lighting_enterDelay (s : State) (n : Fin 8) (sl : Slot) : LightingOnly s (s.enterDelay n sl) := by
  unfold State.enterDelay
  split
  · exact (lighting_setSlot s n sl).trans (lighting_judgeAdmission ..)
  · exact lighting_setSlot ..

theorem lighting_judgeWaiter (e : Entry) (h : Header) (s : State) (n : Fin 8) :
    LightingOnly s (State.judgeWaiter e h s n) := by
  unfold State.judgeWaiter
  dsimp only
  repeat' split
  all_goals first | exact lighting_endSlot .. | exact lighting_enterDelay ..

theorem lighting_writeCue (s : State) (line : Fin 64) (way : Fin 2) (base : Entry) (w : CueWrite) :
    LightingOnly s (s.writeCue line way base w) := by
  unfold State.writeCue
  refine LightingOnly.trans (b := (s.setEntry line way (base.written w).settled).setLru line (otherWay way)) rfl ?_
  dsimp only
  split
  · exact lighting_foldl _ (fun t n => lighting_judgeWaiter _ _ t n) _ _
  · exact LightingOnly.refl _

theorem lighting_dropEntry (s : State) (line : Fin 64) (way : Fin 2) (k : RecordKind) :
    LightingOnly s (s.dropEntry line way k) := by
  refine LightingOnly.trans (b := s.setEntry line way (s.entry line way).invalidated) rfl ?_
  exact lighting_foldl _ (fun s n => lighting_endSlot s n k) _ _

/-! ### Positioners -/

/-- Nothing but the positioners, the ports and the model's counter of open choices differs. -/
def PositionersOnly (s t : State) : Prop :=
  t = { s with positioners := t.positioners, ports := t.ports, openChoices := t.openChoices }

theorem PositionersOnly.refl (s : State) : PositionersOnly s s := rfl

theorem PositionersOnly.trans {a b c : State} (h : PositionersOnly a b) (k : PositionersOnly b c) : PositionersOnly a c := by
  unfold PositionersOnly at *
  rw [k, h]

theorem positioners_foldl {α : Type} (f : State → α → State) (hf : ∀ s x, PositionersOnly s (f s x)) (l : List α) (s : State) :
    PositionersOnly s (l.foldl f s) := foldl_related PositionersOnly.refl PositionersOnly.trans f hf l s

theorem positioners_post (s : State) (p : Port) (k : RecordKind) (o : Nat) (v : Int) : PositionersOnly s (s.post p k o v) := by
  cases p <;> rfl

theorem positioners_postTo (s : State) (p : Option Port) (k : RecordKind) (o : Nat) (v : Int) :
    PositionersOnly s (s.postTo p k o v) := by
  cases p
  · rfl
  · exact positioners_post ..

theorem positioners_tellRequester (s : State) (v : Fin 8) (k : RecordKind) (x : Int) :
    PositionersOnly s (s.tellRequester v k x) :=
  (positioners_postTo s (s.pos v).port k v.val x).trans rfl

theorem positioners_passSlot (k : Fin 4) (q : List (Fin 8)) (s : State) : PositionersOnly s (State.passSlot k q s) := by
  induction q generalizing s with
  | nil => rfl
  | cons v rest ih =>
    unfold State.passSlot
    dsimp only
    split
    · refine PositionersOnly.trans ?_ (ih _)
      exact PositionersOnly.trans
        (b := ({ s with positioners := { s.positioners with queue := rest } } : State).stopHomed v) rfl
        (positioners_tellRequester ..)
    · split <;> rfl

theorem positioners_freeTravelSlot (s : State) (v : Fin 8) : PositionersOnly s (s.freeTravelSlot v) := by
  unfold State.freeTravelSlot
  split
  · rfl
  · refine PositionersOnly.trans (b := { s with positioners :=
      { s.positioners with holders := s.positioners.holders.filter (fun x => x.2 != v) } }) rfl (positioners_passSlot ..)

theorem positioners_enterFault (s : State) (v : Fin 8) (c : FaultCause) : PositionersOnly s (s.enterFault v c) := by
  unfold State.enterFault
  refine PositionersOnly.trans (b := (s.setPos v { s.pos v with
    state := .fault, position := none, intent := none, cause := some c, stepTimer := none }).leaveTravelQueue v) rfl ?_
  refine PositionersOnly.trans (positioners_freeTravelSlot _ v) ?_
  exact PositionersOnly.trans (positioners_foldl _ (fun s p => positioners_post s p .posFault v.val c.code) _ _) rfl

theorem positioners_seekTravel (s : State) (v : Fin 8) : PositionersOnly s (s.seekTravel v) := by
  unfold State.seekTravel
  split <;> rfl

theorem positioners_seekHoming (s : State) (v : Fin 8) : PositionersOnly s (s.seekHoming v) := by
  unfold State.seekHoming
  split <;> rfl

theorem positioners_endTravel (s : State) (v : Fin 8) : PositionersOnly s (s.endTravel v) := by
  unfold State.endTravel
  refine PositionersOnly.trans (b := s.setPos v { s.pos v with state := .idle, stepTimer := none }) rfl ?_
  exact (positioners_freeTravelSlot _ v).trans (positioners_tellRequester ..)

theorem positioners_checkEndstop (s : State) (v : Fin 8) (b : Bool) : PositionersOnly s (s.checkEndstop v b) := by
  unfold State.checkEndstop
  dsimp only
  split
  · exact positioners_enterFault ..
  · generalize (if (s.pos v).endstop && (s.pos v).target < (s.pos v).position.getD 0 then 0
      else (s.pos v).position.getD 0) = c
    split
    · refine PositionersOnly.trans ?_ (positioners_endTravel ..)
      rfl
    · rfl

theorem positioners_travelStep (s : State) (v : Fin 8) : PositionersOnly s (s.travelStep v) := by
  unfold State.travelStep
  refine PositionersOnly.trans ?_ (positioners_checkEndstop ..)
  rfl

theorem positioners_homingStep (s : State) (v : Fin 8) : PositionersOnly s (s.homingStep v) := by
  unfold State.homingStep
  dsimp only
  split
  · refine PositionersOnly.trans ?_ (positioners_enterFault ..)
    rfl
  · rfl

/-! ### Zones -/

/-- Nothing but the zones and the ports differs. -/
def ZonesOnly (s t : State) : Prop := t = { s with zones := t.zones, ports := t.ports }

theorem ZonesOnly.refl (s : State) : ZonesOnly s s := rfl

theorem ZonesOnly.trans {a b c : State} (h : ZonesOnly a b) (k : ZonesOnly b c) : ZonesOnly a c := by
  unfold ZonesOnly at *
  rw [k, h]

theorem zones_foldl {α : Type} (f : State → α → State) (hf : ∀ s x, ZonesOnly s (f s x)) (l : List α) (s : State) :
    ZonesOnly s (l.foldl f s) := foldl_related ZonesOnly.refl ZonesOnly.trans f hf l s

theorem zones_post (s : State) (p : Port) (k : RecordKind) (o : Nat) (v : Int) : ZonesOnly s (s.post p k o v) := by
  cases p <;> rfl

theorem zones_postTo (s : State) (p : Option Port) (k : RecordKind) (o : Nat) (v : Int) : ZonesOnly s (s.postTo p k o v) := by
  cases p
  · rfl
  · exact zones_post ..

theorem zones_postZone (s : State) (p : Option Port) (k : RecordKind) (z : Fin 4) (x : Source) :
    ZonesOnly s (s.postZone p k z x) := by
  unfold State.postZone
  dsimp only
  split
  · exact zones_post ..
  · exact (zones_post ..).trans (zones_postTo ..)

theorem zones_completeSwitch (s : State) (z : Fin 4) : ZonesOnly s (s.completeSwitch z) := by
  unfold State.completeSwitch
  dsimp only
  split
  · exact ZonesOnly.refl s
  · refine ZonesOnly.trans ?_ (zones_postZone ..)
    rfl
  · refine ZonesOnly.trans ?_ (zones_postZone ..)
    rfl

theorem zones_readProven (s : State) (z : Fin 4) : ZonesOnly s (s.readProven z) := by
  unfold State.readProven
  split
  · split
    · exact zones_completeSwitch ..
    · exact ZonesOnly.refl s
  · exact ZonesOnly.refl s

theorem zones_startSwitch (s : State) (z : Fin 4) (b : Bool) (p : Option Port) : ZonesOnly s (s.startSwitch z b p) := by
  unfold State.startSwitch
  refine ZonesOnly.trans (b := s.supersedeSwitch z) ?_ ?_
  · unfold State.supersedeSwitch
    dsimp only
    split
    · exact zones_postTo ..
    · exact ZonesOnly.refl s
  · refine ZonesOnly.trans ?_ (zones_readProven ..)
    rfl

theorem zones_failOver (s : State) : ZonesOnly s s.failOver := by
  refine zones_foldl _ (fun s z => ?_) _ s
  unfold State.failOverZone
  dsimp only
  split
  · refine ZonesOnly.trans ?_ (zones_readProven ..)
    refine ZonesOnly.trans ?_ (zones_postZone ..)
    rfl
  · exact ZonesOnly.refl s

end Sys2Proof.Machine
end

