-- ==== Sys2Proof/Laws/Ports.lean ====
section
/-! SUPPORT. What the tenant ports do: posting a record, and receiving a frame byte by byte. -/

namespace Sys2Proof.Machine

/-! ### Posting (R164) -/

theorem length_withoutNewestOrdinary (q : List Record) (h : q.any (fun x => !x.mustCollect) = true) :
    (withoutNewestOrdinary q).length + 1 = q.length := by
  have hr : ∃ x ∈ q.reverse, (fun r : Record => !r.mustCollect) x = true := by
    obtain ⟨x, hx, hp⟩ := List.any_eq_true.mp h
    exact ⟨x, List.mem_reverse.mpr hx, hp⟩
  obtain ⟨x, hx, hp⟩ := hr
  have := List.length_eraseP_of_mem (p := fun r : Record => !r.mustCollect) hx hp
  have hpos : 0 < q.reverse.length := List.length_pos_of_mem hx
  rw [List.length_reverse] at hpos
  simp only [withoutNewestOrdinary, List.length_reverse] at this ⊢
  omega

/-- A record never makes a queue of at most 8 longer than 8. -/
theorem enqueue_length (q : PortState) (r : Record) (h : q.queue.length ≤ 8) : (q.enqueue r).queue.length ≤ 8 := by
  unfold PortState.enqueue Config.queueCapacity
  split
  · simp; omega
  · split
    · next h1 h2 =>
      simp only [Bool.and_eq_true] at h2
      have := length_withoutNewestOrdinary q.queue h2.2
      simp; omega
    · exact h

/-- Posting changes one port's queue and its LOST flag, and nothing else. -/
theorem enqueue_frame (q : PortState) (r : Record) :
    q.enqueue r = { q with queue := (q.enqueue r).queue, lost := (q.enqueue r).lost } := by
  unfold PortState.enqueue
  split
  · rfl
  · split <;> rfl

theorem port_post_same (s : State) (p : Port) (k : RecordKind) (o : Nat) (v : Int) :
    (s.post p k o v).port p = (s.port p).enqueue ⟨k, o, v, s.deviceSeconds⟩ := port_setPort_same ..

theorem port_post_other (s : State) {p p' : Port} (k : RecordKind) (o : Nat) (v : Int) (h : p' ≠ p) :
    (s.post p k o v).port p' = s.port p' := port_setPort_other s _ h

/-! ### A frame being received (R158) -/

/-- The port takes the bytes of a frame: RECEIVING, with no byte of it dropped. -/
def PortState.inFrame (q : PortState) : Prop :=
  q.phase = .receiving ∧ q.lineDropped = false ∧ q.awaitLength = false ∧ q.discard = 0

/-- A port in a frame after more bytes of it, with `k` still to come. -/
def PortState.grown (q : PortState) (bs : List RxByte) (k : Nat) : PortState :=
  { q with buffer := q.buffer ++ bs.map RxByte.value, expected := k, errorMark := q.errorMark || bs.any RxByte.bad }

theorem receiveByte_inFrame (s : State) (p : Port) (b : RxByte) (h : (s.port p).inFrame) :
    s.receiveByte p b = s.frameByte p b := by
  obtain ⟨h1, h2, h3, h4⟩ := h
  simp [State.receiveByte, h1, h2, h3, h4]

/-- Bytes of a frame that do not end it are appended and counted. -/
theorem receive_grow (p : Port) (bs : List RxByte) (k : Nat) (s : State) (hf : (s.port p).inFrame)
    (hb : 2 ≤ (s.port p).buffer.length) (he : (s.port p).expected = bs.length + (k + 1)) :
    s.receive p bs = s.setPort p ((s.port p).grown bs (k + 1)) := by
  induction bs generalizing s with
  | nil =>
    have : (s.port p).grown [] (k + 1) = s.port p := by
      simp only [List.length_nil, Nat.zero_add] at he
      simp [PortState.grown, ← he]
    rw [this, setPort_port]; rfl
  | cons b bs ih =>
    simp only [List.length_cons] at he
    have hstep : s.receiveByte p b = s.setPort p ((s.port p).grown [b] (bs.length + (k + 1))) := by
      rw [receiveByte_inFrame s p b hf, State.frameByte]
      rw [if_neg (by omega), if_neg (by omega)]
      simp only [PortState.grown, List.map_cons, List.map_nil, List.any_cons, List.any_nil, Bool.or_false]
      congr 2
      omega
    have hrun : s.receive p (b :: bs) = (s.receiveByte p b).receive p bs := rfl
    rw [hrun, hstep, ih]
    · simp [PortState.grown, Bool.or_assoc]
    · simpa [PortState.grown, PortState.inFrame] using hf
    · simp [PortState.grown]; omega
    · simp [PortState.grown]

/-- The last byte of a frame ends its reception, and the frame is judged. -/
theorem receive_last (p : Port) (b : RxByte) (s : State) (hf : (s.port p).inFrame)
    (hb : 2 ≤ (s.port p).buffer.length) (he : (s.port p).expected = 1) :
    s.receiveByte p b = (s.setPort p ((s.port p).grown [b] 0)).judgeFrame p := by
  rw [receiveByte_inFrame s p b hf, State.frameByte, if_neg (by omega), if_pos (by omega)]
  simp [PortState.grown, he]

/-- All bytes of a frame after its length byte. -/
theorem receive_rest (p : Port) (bs : List RxByte) (b : RxByte) (s : State) (hf : (s.port p).inFrame)
    (hb : 2 ≤ (s.port p).buffer.length) (he : (s.port p).expected = bs.length + 1) :
    s.receive p (bs ++ [b]) = (s.setPort p ((s.port p).grown (bs ++ [b]) 0)).judgeFrame p := by
  have hsplit : s.receive p (bs ++ [b]) = (s.receive p bs).receiveByte p b := by
    simp [State.receive, List.foldl_append]
  rw [hsplit, receive_grow p bs 0 s hf hb he, receive_last]
  · simp [PortState.grown, Bool.or_assoc]
  · simpa [PortState.grown, PortState.inFrame] using hf
  · simp [PortState.grown]; omega
  · simp [PortState.grown]

/-! ### A frame at a ready port -/

theorem ready_iff (q : PortState) :
    q.ready = true ↔ q.phase = .idle ∧ q.discard = 0 ∧ q.awaitLength = false ∧ q.lineDropped = false := by
  simp [PortState.ready, and_assoc]

/-- The port after the start byte. -/
def PortState.started (q : PortState) (b : Byte) : PortState :=
  { q with phase := .receiving, buffer := [b], errorMark := false }

theorem receiveByte_start (s : State) (p : Port) (b : RxByte) (hr : (s.port p).ready = true) (hb : b.startsFrame = true) :
    s.receiveByte p b = s.setPort p ((s.port p).started b.value) := by
  obtain ⟨h1, h2, h3, h4⟩ := (ready_iff _).mp hr
  simp [State.receiveByte, h1, h2, h3, h4, PortState.idleByte, hb, PortState.started]

theorem started_inFrame (q : PortState) (b : Byte) (hr : q.ready = true) : (q.started b).inFrame := by
  obtain ⟨_, h2, h3, h4⟩ := (ready_iff _).mp hr
  exact ⟨rfl, h4, h3, h2⟩

/-- The port after the start byte and a good length byte. -/
def PortState.lengthTaken (q : PortState) (b l : Byte) : PortState :=
  { q.started b with buffer := [b, l], expected := l.toNat - 1 }

theorem receive_head (s : State) (p : Port) (b l : RxByte) (hr : (s.port p).ready = true) (hb : b.startsFrame = true)
    (hl : l.goodLength = true) :
    (s.receiveByte p b).receiveByte p l = s.setPort p ((s.port p).lengthTaken b.value l.value) := by
  rw [receiveByte_start s p b hr hb]
  have hf : ((s.setPort p ((s.port p).started b.value)).port p).inFrame := by
    rw [port_setPort_same]; exact started_inFrame _ _ hr
  rw [receiveByte_inFrame _ p l hf, State.frameByte, port_setPort_same, setPort_setPort]
  simp [PortState.started, PortState.lengthTaken, hl]

/-- What is dropped when a frame has been received whole is all of it: the port that executes is that of before the frame. -/
theorem executing_grown (q : PortState) (b l : Byte) (bs : List RxByte) :
    ((q.lengthTaken b l).grown bs 0).executing = q.executing := rfl

/-- A whole frame at a ready port is judged on its bytes. -/
theorem receive_frame (s : State) (p : Port) (b l : RxByte) (bs : List RxByte) (hr : (s.port p).ready = true)
    (hb : b.startsFrame = true) (hl : l.goodLength = true) (hn : bs.length + 1 = l.value.toNat) :
    s.receive p (b :: l :: bs) =
      if bs.any RxByte.bad || byteSum (l.value :: bs.map RxByte.value) != 0 then s.failLink p
      else s.takeRequest p ((b.value :: l.value :: bs.map RxByte.value).getD 2 0) (bs.map RxByte.value).tail.dropLast := by
  have hrun : s.receive p (b :: l :: bs) = ((s.receiveByte p b).receiveByte p l).receive p bs := rfl
  have hlen : 3 ≤ l.value.toNat := by
    simp only [RxByte.goodLength, Bool.and_eq_true, decide_eq_true_eq] at hl
    exact hl.1.2
  obtain ⟨cs, c, rfl⟩ : ∃ cs c, bs = cs ++ [c] := by
    rcases List.eq_nil_or_concat bs with h | ⟨cs, c, h⟩
    · subst h; simp at hn; omega
    · exact ⟨cs, c, by simpa using h⟩
  rw [hrun, receive_head s p b l hr hb hl, receive_rest]
  · rw [port_setPort_same, setPort_setPort, State.judgeFrame, port_setPort_same]
    have he : ((s.port p).lengthTaken b.value l.value).grown (cs ++ [c]) 0 =
        ((s.port p).lengthTaken b.value l.value).grown (cs ++ [c]) 0 := rfl
    have hexec : (s.setPort p (((s.port p).lengthTaken b.value l.value).grown (cs ++ [c]) 0)).enterExecuting p =
        s.enterExecuting p := by
      rw [State.enterExecuting, port_setPort_same, setPort_setPort, executing_grown, State.enterExecuting]
    simp only [State.failLink, State.takeRequest, hexec]
    simp [PortState.grown, PortState.lengthTaken, PortState.started]
  · rw [port_setPort_same]; exact started_inFrame (s.port p) b.value hr
  · rw [port_setPort_same]; simp [PortState.lengthTaken]
  · rw [port_setPort_same]
    simp only [PortState.lengthTaken]
    simp at hn; omega

@[simp] theorem soundByte_value (b : Byte) : (soundByte b).value = b := rfl

/-- A byte with correct parity and a stop bit has no error (R157). -/
@[simp] theorem soundByte_bad (b : Byte) : (soundByte b).bad = false := by
  simp [soundByte, RxByte.bad, RxByte.parityError, RxByte.framingError]

theorem sound_not_bad (bs : List Byte) : (soundBytes bs).any RxByte.bad = false := by
  simp [soundBytes]

theorem sound_values (bs : List Byte) : (soundBytes bs).map RxByte.value = bs := by
  induction bs with
  | nil => rfl
  | cons b bs ih => exact congrArg (b :: ·) ih

/-- A whole sound request frame at a ready port is taken as its request (R158, R162). -/
theorem request_of_ready (s : State) (p : Port) (code : Byte) (payload : List Byte) (hr : (s.port p).ready = true)
    (hn : payload.length ≤ 247) : s.request p code payload = s.takeRequest p code payload := by
  have hlen : (BitVec.ofNat 8 (payload.length + 3)).toNat = payload.length + 3 := by simp; omega
  have hframe : soundBytes (requestFrame code payload) =
      soundByte frameStartByte :: soundByte (BitVec.ofNat 8 (payload.length + 3)) ::
        soundBytes (code :: payload ++ [checkByte (BitVec.ofNat 8 (payload.length + 3) :: code :: payload)]) := by
    simp [requestFrame, sealFrame, soundBytes]
  rw [State.request, hframe, receive_frame s p _ _ _ hr (by decide)]
  · have hsum := byteSum_check (BitVec.ofNat 8 (payload.length + 3) :: code :: payload)
    rw [sound_not_bad, sound_values]
    simp only [List.cons_append] at hsum ⊢
    simp [hsum]
  · simp only [RxByte.goodLength, soundByte_bad, soundByte_value, hlen]; simp; omega
  · simp only [soundByte_value, hlen]; simp [soundBytes]

end Sys2Proof.Machine
end

