-- ==== Sys2Proof/Laws/Requests.lean ====
section
/-! SUPPORT. How a request reaches its owning block (R162, R167). -/

namespace Sys2Proof.Machine

theorem ofCode_code (k : RequestKind) : RequestKind.ofCode k.code = some k := by cases k <;> rfl

theorem ofCode_unknown {code : Byte} (h : unknownCode code = true) : RequestKind.ofCode code = none := by
  simp only [unknownCode, Bool.or_eq_true, beq_iff_eq, decide_eq_true_eq] at h
  unfold RequestKind.ofCode
  split
  · rfl
  · next hne =>
    have hz : code.toNat ≠ 0 := fun e => hne (BitVec.eq_of_toNat_eq (by simpa using e))
    rw [List.getElem?_eq_none]
    simp only [requestKinds, List.length_cons, List.length_nil]
    omega

@[simp] theorem mustCollectPending_executing (q : PortState) : q.executing.mustCollectPending = q.mustCollectPending := rfl

theorem clearToSend_iff (q : PortState) : q.clearToSend = true ↔ q.ready = true ∧ q.mustCollectPending = false := by
  simp [PortState.clearToSend]

/-- A request that passes the port's checks is handed to its block, and the turn answers with what the block gives. -/
theorem request_handed (s : State) (p : Port) (k : RequestKind) (payload : List Byte) (hr : (s.port p).ready = true)
    (hm : (s.port p).mustCollectPending = false ∨ k.unblocked = true) (hn : payload.length ≤ 247)
    (hl : k.lengthAllowed payload = true)
    (hd : (s.enterExecuting p).requestDomain k payload = some none ∨
      ∃ d, (s.enterExecuting p).requestDomain k payload = some (some d) ∧ s.inDomain d p = true) :
    s.request p k.code payload =
      ((s.enterExecuting p).handOver p k payload).1.answer p k.code ((s.enterExecuting p).handOver p k payload).2 := by
  have hblock : ((s.port p).mustCollectPending && !k.unblocked) = false := by
    rcases hm with h | h <;> simp [h]
  rw [request_of_ready s p k.code payload hr hn]
  rcases hd with h | ⟨d, h, hin⟩
  · simp [State.takeRequest, State.judgeRequest, ofCode_code, hl, hblock, h]
  · simp [State.takeRequest, State.judgeRequest, ofCode_code, hl, hblock, h, hin]

/-- A request of a port that may command in its domain is handed to its block. -/
theorem request_commanded (s : State) (p : Port) (k : RequestKind) (payload : List Byte) (d : Fin 13)
    (hs : s.mayCommand p d = true) (hn : payload.length ≤ 247) (hl : k.lengthAllowed payload = true)
    (hd : (s.enterExecuting p).requestDomain k payload = some (some d)) :
    s.request p k.code payload =
      ((s.enterExecuting p).handOver p k payload).1.answer p k.code ((s.enterExecuting p).handOver p k payload).2 := by
  simp only [State.mayCommand, Bool.and_eq_true, clearToSend_iff] at hs
  exact request_handed s p k payload hs.1.1 (.inl hs.1.2) hn hl (.inr ⟨d, hd, hs.2⟩)

end Sys2Proof.Machine
end

