-- ==== Sys2Proof/Laws/Tables.lean ====
section
/-! SUPPORT. The tables: reading back what was written, and every record changed at once. -/

namespace Sys2Proof.Machine

variable {α β : Type} {n : Nat}

@[simp] theorem pick_put_same (v : Vector α n) (i : Fin n) (x : α) : pick (put v i x) i = x := by
  simp [pick, put]

theorem pick_put_other (v : Vector α n) {i j : Fin n} (x : α) (h : j ≠ i) : pick (put v i x) j = pick v j := by
  have : i.val ≠ j.val := fun e => h (Fin.ext e.symm)
  simp [pick, put, this]

/-- What a table holds after one record is replaced. -/
theorem pick_put (v : Vector α n) (i j : Fin n) (x : α) : pick (put v i x) j = if j = i then x else pick v j := by
  split
  · next h => subst h; simp
  · next h => exact pick_put_other v x h

@[simp] theorem put_put (v : Vector α n) (i : Fin n) (x y : α) : put (put v i x) i y = put v i y := by
  simp [put]

@[simp] theorem put_pick (v : Vector α n) (i : Fin n) : put v i (pick v i) = v := by
  simp [put, pick]

@[simp] theorem pick_mapAll (f : α → β) (v : Vector α n) (i : Fin n) : pick (mapAll f v) i = f (pick v i) := by
  simp [pick, mapAll]

@[simp] theorem pick_replicate (x : α) (i : Fin n) : pick (Vector.replicate n x) i = x := by simp [pick]

@[simp] theorem pick_ofFn (f : Fin n → α) (i : Fin n) : pick (Vector.ofFn f) i = f i := by simp [pick]

/-! ### The records of the blocks -/

variable (s : State)

@[simp] theorem zone_setZone_same (z : Fin 4) (x : Zone) : (s.setZone z x).zone z = x := pick_put_same ..
theorem zone_setZone_other {z y : Fin 4} (x : Zone) (h : y ≠ z) : (s.setZone z x).zone y = s.zone y := pick_put_other _ x h
@[simp] theorem pos_setPos_same (v : Fin 8) (x : Positioner) : (s.setPos v x).pos v = x := pick_put_same ..
theorem pos_setPos_other {v w : Fin 8} (x : Positioner) (h : w ≠ v) : (s.setPos v x).pos w = s.pos w := pick_put_other _ x h
@[simp] theorem slot_setSlot_same (n : Fin 8) (x : Slot) : (s.setSlot n x).slot n = x := pick_put_same ..
theorem slot_setSlot_other {n m : Fin 8} (x : Slot) (h : m ≠ n) : (s.setSlot n x).slot m = s.slot m := pick_put_other _ x h
@[simp] theorem channel_setChannel_same (c : Fin 96) (x : Channel) : (s.setChannel c x).channel c = x := pick_put_same ..
theorem channel_setChannel_other {c d : Fin 96} (x : Channel) (h : d ≠ c) : (s.setChannel c x).channel d = s.channel d :=
  pick_put_other _ x h
@[simp] theorem claim_setClaim_same (c : Fin 8) (x : Claim) : (s.setClaim c x).claim c = x := pick_put_same ..
theorem claim_setClaim_other {c d : Fin 8} (x : Claim) (h : d ≠ c) : (s.setClaim c x).claim d = s.claim d :=
  pick_put_other _ x h
@[simp] theorem probe_setProbe_same (i : Fin 32) (r : Probe) : (s.setProbe i r).probe i = r := pick_put_same ..
theorem probe_setProbe_other {i j : Fin 32} (r : Probe) (h : j ≠ i) : (s.setProbe i r).probe j = s.probe j :=
  pick_put_other _ r h
@[simp] theorem entry_setEntry_same (l : Fin 64) (w : Fin 2) (e : Entry) : (s.setEntry l w e).entry l w = e := by
  simp [State.setEntry, State.entry]

end Sys2Proof.Machine
end

