-- ==== Sys2Proof/Tests/Slice0.lean ====
section
/-! SUPPORT. The model's own tests: an ill-formed command for each check of WellFormed, one-step tests with the values that the
manual's examples give, and for every statement with hypotheses a concrete state and operands that meet them. -/

namespace Sys2Proof.Tests

open Sys2Proof Sys2Proof.Machine

/-! ### WellFormed refuses -/

theorem test_wf_gap_no_start : (Instr.interByteGap .portP (soundBytes [0xC2])).wellFormed = false := by decide
theorem test_wf_gap_whole_frame :
    (Instr.interByteGap .portP (soundBytes [0xC3, 0x03, 0x01, 0xFC])).wellFormed = false := by decide
theorem test_wf_link_sound_frame :
    (Instr.linkError .portB (soundBytes [0xC3, 0x05, 0x12, 0x02, 0x01, 0xE6])).wellFormed = false := by decide
theorem test_wf_link_unfinished : (Instr.linkError .portB (soundBytes [0xC3, 0x05, 0x12])).wellFormed = false := by decide
theorem test_wf_out_of_turn_no_bytes : (Instr.outOfTurnFrame .portL []).wellFormed = false := by decide
theorem test_wf_unknown_known_code : (Instr.unknownRequest .portP 0x1A []).wellFormed = false := by decide
theorem test_wf_unknown_too_long : (Instr.unknownRequest .portP 0x1B (List.replicate 248 0)).wellFormed = false := by
  decide +kernel
theorem test_wf_request_too_long : (Instr.cueWrite .portL (List.replicate 248 0)).wellFormed = false := by decide +kernel
theorem test_wf_link_bad_sum :
    (Instr.linkError .portB (soundBytes [0xC3, 0x05, 0x12, 0x02, 0x01, 0xE7])).wellFormed = true := by decide

/-! ### States for the tests -/

/-- The state after a command. -/
def after (c : Instr) (s : State) : State :=
  match exec c s with
  | .next t => t
  | _ => s

/-- Outside START with every profile valid, and these surface items. -/
def inMode (m : Mode) (dwell : Nat) : State :=
  { State.reset with surface := { Surface.reset with
      mode := m, dwell := dwell, plantValid := true, buildingValid := true, lightingValid := true, calComplete := true } }

/-- The scanner about to convert a channel. -/
def scanning (longCal : Bool) (c : Fin 32) (count : Nat) : State :=
  { State.reset with scanner := { Scanner.reset with longCal := longCal, channel := c, calCount := count } }

/-- The scanner about to convert S7 with offset 2, its record as given (Table 1-5). -/
def scanningS7 (r : Probe) : State :=
  { State.reset with scanner := { Scanner.reset with
      longCal := false, channel := 7, offset := 2, probes := put Scanner.reset.probes 7 r } }

/-- The scanner about to complete a pass at which every slab probe has one value. -/
def surveying (m : Mode) (inBand aboveRun : Nat) (v : Int) : State :=
  let slab : Vector Probe 32 := Vector.ofFn (fun i => if i.val < 20 then { Probe.reset with value := v, quality := .good } else Probe.reset)
  { inMode m 0 with
    scanner := { Scanner.reset with longCal := false, channel := 31, probes := slab }
    plant := { PlantProfile.reset with bandLow := -60, bandHigh := -40, softThreshold := -30 }
    surface := { (inMode m 0).surface with inBand := inBand, aboveRun := aboveRun } }

/-- The scanner about to complete a pass with this margin of the layer, and the fog unit with the building profile of section
3.6.1. -/
def cycling (m : Mode) (margin : Int) (state : FogState) (dwell : Nat) : State :=
  let good (v : Int) : Probe := { Probe.reset with value := v, quality := .good }
  { inMode m 0 with
    scanner := { Scanner.reset with
      longCal := false, channel := 31
      probes := put (put (put Scanner.reset.probes probeA0 (good 124)) probeH0 (good 785)) probeA1 (good (88 + margin)) }
    building := { BuildingProfile.reset with
      watchIn := 40, actIn := 25, severeIn := 10, h := 10, resurfBias := 20, regenMin := 60, regenWatch := 80, regenAct := 180
      regenMax := 320 }
    fog := { Fog.reset with state := state, dwell := dwell } }

/-- V0 as given, with the holders and the queue of the travel slots. -/
def withV0 (r : Positioner) (holders : List (Fin 4 × Fin 8)) (queue : List (Fin 8)) : State :=
  { inMode .play 60 with positioners := ⟨put (Vector.replicate 8 Positioner.reset) 0 r, holders, queue⟩ }

/-- V0 in TRAVEL from a position to a target. -/
def travelling (x target : Nat) (endstop : Bool) : State :=
  withV0 { Positioner.reset with
    state := .travel, position := some x, target := target, manual := true, endstop := endstop, stepTimer := some 5 } [(0, 0)] []

/-- V0 in HOMING after so many steps. -/
def homing (count : Nat) (endstop : Bool) : State :=
  withV0 { Positioner.reset with state := .homing, homingCount := count, endstop := endstop, stepTimer := some 5 } [(0, 0)] []

/-- V0 in IDLE and MANUAL at a position. -/
def idling (x : Nat) : State := withV0 { Positioner.reset with state := .idle, position := some x, manual := true } [] []

/-- V0 waiting behind four holders, with an intent. -/
def queueing (state : PosState) (position : Option Nat) (intent : Intent) : State :=
  { inMode .play 60 with positioners :=
      ⟨#v[{ Positioner.reset with state := state, position := position, target := 9, manual := true, intent := some intent },
          { Positioner.reset with state := .travel, position := some 0, target := 1023 },
          { Positioner.reset with state := .travel, position := some 1023, target := 0 },
          { Positioner.reset with state := .homing }, { Positioner.reset with state := .homing },
          { Positioner.reset with state := .idle, position := some 512 },
          { Positioner.reset with state := .fault, cause := some .slip }, Positioner.reset],
       [(0, 1), (1, 2), (2, 3), (3, 4)], [0]⟩ }

/-- Cue 1 waits to be filled for slot 1; a cue of line 2 is present; slot 0 fades channel 5, slot 2 waits for headroom. -/
def playing (elapsed : Nat) (queue : List (Fin 8)) : State :=
  let header : Header := ⟨.houseCue, 10, 0, 50, .hold, none, 1⟩
  let fading : Slot := { Slot.reset with
    state := .fading, cue := 66, port := some .portL, cls := some .houseCue, policy := some .trim, duration := 1000
    elapsed := elapsed, list := [⟨5, 0, 200, 0⟩], timer := some 20 }
  let waiting : Slot := if 2 ∈ queue then { Slot.reset with
    state := .waitingHeadroom, cue := 66, port := some .portB, cls := some .houseCue, policy := some .hold, hold := 1
    duration := 1000, list := [⟨6, 0, 250, 0⟩], timer := some 1 } else Slot.reset
  { inMode .play 60 with
    slots := #v[fading, { Slot.reset with state := .waitingFill, cue := 1, port := some .portL }, waiting, Slot.reset,
      Slot.reset, Slot.reset, Slot.reset, Slot.reset]
    channels := put (Vector.replicate 96 Channel.reset) 5 ⟨100, some 0, 255, true, false⟩
    governor := { Governor.reset with queue := queue }
    store := put (put (Vector.replicate 64 ⟨Vector.replicate 2 Entry.reset, 0⟩)
      1 ⟨#v[{ Entry.reset with state := .filling, waiters := [1], fillTimer := some 1 }, Entry.reset], 0⟩)
      2 ⟨#v[Entry.reset, { Entry.reset with
        state := .present, tag := 1, header := some header, segments := put (Vector.replicate 8 none) 0 (some [⟨5, 200⟩]) }], 1⟩ }

/-- As `playing`, with slot 3 about to take channel 5 from slot 0. -/
def entering (duration : Nat) : State := (playing 0 []).setSlot 3 { Slot.reset with
  state := .delay, cue := 66, port := some .portP, cls := some .houseCue, policy := some .trim, duration := duration
  list := [⟨5, 0, 250, 0⟩], timer := some 1 }

/-- A port in a phase, everything else at reset. -/
def portIn (p : Port) (phase : Phase) : State := State.reset.setPort p { PortState.reset .baud19200 with phase := phase }

/-! ### One-step tests with the manual's values -/

/-- Section 1.3.1, pass n. -/
theorem test_conversion_good : let r := (after (.probeConversion (-41)) (scanningS7 ⟨-45, .good, 0, none, 0, .noReading⟩)).probe 7
    (r.value, r.quality, r.spikeRun) = (-43, Quality.good, 0) := by decide
/-- Section 1.3.1, pass n + 4: a second spike is held back. -/
theorem test_conversion_spike : let r := (after (.probeConversion 31) (scanningS7 ⟨-42, .spike, 1, none, 0, .noReading⟩)).probe 7
    (r.value, r.quality, r.spikeRun) = (-42, Quality.spike, 2) := by decide
/-- Section 3.4.1. -/
theorem test_dew_point_humid_evening : dewPoint 124 785 = ⟨124, 785, 1454, 1141, 88, true⟩ := by decide
/-- Section 3.4.2, the rows of A0 = 450 and A0 = -35. -/
theorem test_dew_point_limits : (dewPoint 450 1000).td = 400 ∧ (dewPoint (-35) 620).td = -96 := by decide
/-- Section 2.6.1: the tick at 7,031. -/
theorem test_tick_report_goes_stale :
    (after .deviceSecondTick { inMode .play 60 with surface := { (inMode .play 60).surface with reportAge := 30 } }).surface.plantStale
      = true := by decide
/-- R114: H_ice 420 in PLAY with margin 60, and with SOFT_ICE and a derate of 80. -/
theorem test_report_ceiling :
    let s := inMode .play 0
    let reported (softIce : Bool) := after (.plantReport .portP (payloadPlantReport 300 420)) { s with
      plant := { PlantProfile.reset with marginPlay := 60, softDerate := 80 }
      surface := { s.surface with softIce := softIce } }
    (reported false).governor.ceiling = 360000 ∧ (reported true).governor.ceiling = 280000 := by decide +kernel
/-- Section 9.6.1: the member order and two offsets. -/
theorem test_sweep_half : (Sweep.mk 3 .rotate .half 5 15).memberOrder = [5, 6, 7, 4] ∧
    memberOffset (some ⟨3, .rotate, .half, 5, 15⟩) 28 = 4500 ∧ memberOffset (some ⟨3, .rotate, .half, 5, 15⟩) 24 = 0 := by
  decide
/-- Table 9-6, channel 30. -/
theorem test_fade_level : fadeLevel 3000 0 255 1500 2400 = 77 := by decide
/-- Section 8.8.1: the channel list. -/
theorem test_copy_repeated_channels :
    let e := { Entry.reset with segments := put (put (Vector.replicate 8 none)
      0 (some [⟨10, 200⟩, ⟨11, 180⟩, ⟨12, 0⟩, ⟨10, 220⟩])) 1 (some [⟨11, 90⟩, ⟨40, 255⟩, ⟨12, 60⟩]) }
    (channelList e ⟨.houseCue, 30, 0, 50, .trim, none, 2⟩).map (fun x => (x.channel.val, x.target)) =
      [(10, 220), (11, 90), (12, 60), (40, 255)] := by decide
/-- Section 11.2: ZONE_LOCK for zone 2, on. -/
theorem test_zone_lock : ((after (.zoneLock .portB (payloadZoneLock 2 1)) State.reset).zone 2).locked = true := by decide
/-- Section 10.4.1: the ZONE_LOCK at 177 meets a must-collect record. -/
theorem test_uncollected : ((after (.zoneLock .portB (payloadZoneLock 2 1))
    (State.reset.post .portB .loopFail 0 0)).port .portB).tx = resultFrame 0x12 14 3 [] := by decide
/-- Section 10.4.1: POS_FAULT into the full queue at 175 takes the place of record 8. -/
theorem test_full_queue : let r (k : RecordKind) : Record := ⟨k, 0, 0, 0⟩
    (({ PortState.reset .baud19200 with queue := [r .loopFail, r .sourceFail, r .sourceFail, r .sourceFail, r .sourceSwitched,
      r .sourceSwitched, r .sourceSwitched, r .fogSevere] }.enqueue (r .posFault)).queue.map Record.kind) =
      [.loopFail, .sourceFail, .sourceFail, .sourceFail, .sourceSwitched, .sourceSwitched, .sourceSwitched, .posFault] := by decide
/-- Section 10.3.1, steps 3 and 4: an early frame of two more bytes. -/
theorem test_early_request :
    let q := (after (.outOfTurnFrame .portB (soundBytes [0xC3, 0x03])) (portIn .portB .answering)).port .portB
    (q.discard, q.outOfTurn) = (2, true) := by decide
/-- Section 10.3.1, steps 5 and 6: the result has left TX, and the rest of the early frame is dropped at the IDLE port. -/
theorem test_early_request_rest :
    let early := after (.outOfTurnFrame .portB (soundBytes [0xC3, 0x03])) (portIn .portB .answering)
    let q := (after (.outOfTurnFrame .portB (soundBytes [0x01, 0xFC])) (after (.resultSent .portB) early)).port .portB
    (Instr.outOfTurnFrame .portB (soundBytes [0x01, 0xFC])).wellFormed = true ∧
    (q.phase, q.discard, q.outOfTurn, q.ready) = (Phase.idle, 0, true, true) := by decide
/-- R157: eight data bits, a parity bit that makes their sum even, and a stop bit that is high. -/
theorem test_characters : (soundByte 0xC3).bad = false ∧ (soundByte 0x13).parity = true ∧ (RxByte.mk 0x13 false true).parityError = true ∧
    (RxByte.mk 0xC3 false false).framingError = true ∧
    ({ PortState.reset .baud19200 with tx := [0x13] } : PortState).txLine =
      [false, true, true, false, false, true, false, false, false, true, true] := by decide
/-- Table 2-7: the survey of one pass end. -/
theorem test_survey : slabStats [(0, -52), (1, -50), (2, -49), (3, -51), (5, -48), (6, -47), (7, -45), (8, -50), (9, -53), (10, -46),
    (12, -38), (13, -44), (14, -49), (15, -52), (16, -50), (18, -47), (19, -51)] = ⟨17, -48, -53, -38, 12⟩ := by decide
/-- Table 2-8, pass end 6, and the pass end at which the band has been held 75 times. -/
theorem test_pass_ends_survey : (after (.probeConversion 0) (surveying .play 0 2 (-25))).surface.softIce = true ∧
    (after (.probeConversion 0) (surveying .play 0 2 (-31))).surface.aboveRun = 0 ∧
    (after (.probeConversion 0) (surveying .prep 74 0 (-45))).surface.ready = true ∧
    (after (.probeConversion 0) (surveying .prep 73 0 (-45))).surface.ready = false := by decide +kernel
/-- Table 3-7, the rows of 30, 60, 100, 110 and 640. -/
theorem test_fog_cycles :
    let cycle (m : Mode) (margin : Int) (state : FogState) (dwell : Nat) : FogState × Nat × Nat :=
      let f := (after (.probeConversion 0) (cycling m margin state dwell)).fog
      (f.state, f.request, f.fanStage)
    cycle .resurface 29 .act 10 = (.severe, 320, 2) ∧ cycle .resurface 35 .severe 30 = (.severe, 320, 2) ∧
    cycle .resurface 41 .severe 70 = (.act, 180, 2) ∧ cycle .resurface 58 .act 10 = (.act, 180, 2) ∧
    cycle .play 36 .blind 340 = (.watch, 80, 1) := by decide +kernel
/-- R180: the check byte of the frame with channel 20 at 73 and channel 21 at 193; and the bits of the start byte on FXOUT. -/
theorem test_fixture_frame :
    let level (k : Nat) : Channel := { Channel.reset with level := k }
    let s := { State.reset with channels := put (put State.reset.channels 20 (level 73)) 21 (level 193) }
    (after .frameStart s).fxFrame.getLast? = some 0xF6 ∧ (after .frameStart s).fxFrame.length = 98 ∧
    (after .frameStart s).fxout.take 10 = [false, false, false, true, true, true, false, true, false, true] := by decide +kernel
/-- Section 5.9.1, the round end at 215, and R92: a fallback that has timed out counts from 0 again. -/
theorem test_fallback_times_out :
    let s := (inMode .play 0).setZone 3 { Zone.reset with source := .recovered, switch := .provingBoiler 1, fallback := true, starved := 3 }
    let z := (after (.switchTimeout 3) s).zone 3
    (z.source, z.switch, z.fallback, z.starved) = (Source.recovered, Switch.steady, true, 0) := by decide
/-- R103: homing succeeds at ENDSTOP. -/
theorem test_homing_succeeds : let r := (after (.endstopActive 0 true) (homing 300 false)).pos 0
    (r.state, r.position) = (PosState.idle, some 0) := by decide
/-- R105: a step at position 21 with ENDSTOP active is a slip. -/
theorem test_travel_slip : ((after (.positionerStep 0) (travelling 20 40 true)).pos 0).cause = some .slip := by decide
/-- R154: a channel at 100 with F = 128 is sent at 50. -/
theorem test_frame_scaled : pick (after .frameStart { playing 0 [] with governor := { Governor.reset with f := 128 } }).sent 5 = 50 := by
  decide
/-- R137: the waiting slot is freed. -/
theorem test_fill_timeout : ((after (.fillTimeout 1 0) (playing 0 [])).slot 1) = Slot.reset := by decide

/-! ### The invariants hold somewhere else than at reset -/

theorem travelSound_of {s : State}
    (h : ((s.positioners.holders.map Prod.fst).Nodup ∧ (s.positioners.holders.map Prod.snd).Nodup ∧
        s.positioners.queue.Nodup ∧ (∀ v, v ∈ s.positioners.holders.map Prod.snd ↔ (s.pos v).moving = true) ∧
        (∀ v, (s.pos v).position.isSome = (s.pos v).placed) ∧ (∀ v, (s.pos v).position.getD 0 ≤ 1023) ∧
        (∀ v, (s.pos v).target ≤ 1023)) ∧
      ∀ v, v ∈ s.positioners.queue → (s.pos v).state = .waiting ∨
        (((s.pos v).state = .unhomed ∨ (s.pos v).state = .fault) ∧ (s.pos v).intent = some .home)) : s.travelSound where
  slotsOnce := h.1.1
  holdersOnce := h.1.2.1
  queuedOnce := h.1.2.2.1
  holding := h.1.2.2.2.1
  placing := h.1.2.2.2.2.1
  range v x hx := by simpa [hx] using h.1.2.2.2.2.2.1 v
  targets := h.1.2.2.2.2.2.2
  queued := h.2

theorem witness_travelSound_moving : (travelling 1023 0 false).travelSound ∧ (homing 1099 true).travelSound :=
  ⟨travelSound_of (by decide), travelSound_of (by decide)⟩

theorem witness_travelSound_queued : (queueing .waiting (some 7) .move).travelSound ∧
    (queueing .waiting (some 7) .home).travelSound ∧ (queueing .unhomed none .home).travelSound :=
  ⟨travelSound_of (by decide), travelSound_of (by decide), travelSound_of (by decide)⟩

theorem witness_travelSound_idle : (idling 0).travelSound ∧ (idling 1023).travelSound :=
  ⟨travelSound_of (by decide), travelSound_of (by decide)⟩

theorem lightingSound_of {s : State}
    (h : (∀ n, (s.slot n).state = .free → s.slot n = Slot.reset) ∧
      (∀ c n, (s.channel c).owner = some n ↔ (s.slot n).state = .fading ∧ c ∈ (s.slot n).list.map ListEntry.channel) ∧
      (∀ n, ((s.slot n).list.map ListEntry.channel).Nodup) ∧
      (∀ n, n ∈ s.governor.queue ↔ (s.slot n).state = .waitingHeadroom) ∧ s.governor.queue.Nodup)
    (k : (∀ l, (s.entry l 0).state ≠ .invalid → (s.entry l 1).state ≠ .invalid → (s.entry l 0).tag ≠ (s.entry l 1).tag) ∧
      (∀ l w, (s.entry l w).state = .present → (s.entry l w).complete = true) ∧ (∀ l w, (s.entry l w).waiters.Nodup) ∧
      (∀ l w n, n ∈ (s.entry l w).waiters → (s.entry l w).state = .filling ∧ (s.slot n).state = .waitingFill ∧
        cueLine (s.slot n).cue = l ∧ cueTag (s.slot n).cue = (s.entry l w).tag) ∧
      ∀ n, (s.slot n).state = .waitingFill → ∃ w, n ∈ (s.entry (cueLine (s.slot n).cue) w).waiters) : s.lightingSound where
  freeReset := h.1
  owners := h.2.1
  lists := h.2.2.1
  headroom := h.2.2.2.1
  headroomOnce := h.2.2.2.2
  tags := k.1
  present := k.2.1
  waitersOnce := k.2.2.1
  waiters := k.2.2.2.1
  waiting := k.2.2.2.2

theorem witness_lightingSound : (playing 980 [2]).lightingSound ∧ (playing 980 []).lightingSound :=
  ⟨lightingSound_of (by decide) (by decide), lightingSound_of (by decide) (by decide)⟩

theorem witness_lightingSound_elapsed : (playing 960 []).lightingSound ∧ (playing 1000 []).lightingSound :=
  ⟨lightingSound_of (by decide) (by decide), lightingSound_of (by decide) (by decide)⟩

/-! ### What the hypotheses and the cases of the statements ask for

Each theorem names its statement, and shows for each of its cases a state and operands, at the boundary values. -/

theorem witness_StepTakesTheOldestCommand :
    ({ State.reset with pending := [.frameStart, .allocationRound] } : State).pending = .frameStart :: [.allocationRound] := rfl

theorem witness_IdleMillisecond : State.reset.pending = [] := rfl

theorem witness_ProbeConversion : let s := scanning false 31 0
    s.scanner.longCal = false ∧ s.scanner.channel ≠ probeRef ∧ (scanning false 21 0).scanner.channel = probeH0 ∧
    (s.probe s.scanner.channel).override = none ∧
    (s.setProbe 31 { Probe.reset with override := some ⟨20, 0⟩ }).scanner.channel ≠ probeRef ∧
    ((s.setProbe 31 { Probe.reset with override := some ⟨20, 0⟩ }).probe 31).override ≠ none ∧
    (s.setProbe 31 { Probe.reset with quality := .spike, spikeRun := 1 }).scanner.longCal = false ∧
    clampInt (-600) 1100 1100 = 1100 ∧ clampInt (-600) 1100 (-600) = -600 ∧
    50 < (clampInt (-500) 1000 (clampInt (-600) 1100 51 - s.scanner.offset) - 0).natAbs := by decide

theorem witness_ReferenceConversion : (scanning true 25 31).scanner.channel = probeRef ∧
    (scanning true 25 31).scanner.longCal = true ∧ (scanning true 25 31).scanner.calCount = 31 ∧
    (scanning false 25 32).scanner.channel = probeRef ∧ (scanning false 25 32).scanner.longCal = false ∧
    ({ scanning false 25 32 with scanner := { (scanning false 25 32).scanner with passNumber := 63 } } : State).scanner.channel
      = probeRef ∧ ((63 : BitVec 32).toNat + 1) % 64 = 0 ∧ clampInt (-600) 1100 1099 < 1100 ∧ -600 < clampInt (-600) 1100 (-599) := by
  decide

theorem witness_LongCalibration : (scanning true 30 32).scanner.longCal = true ∧ (scanning true 30 32).scanner.channel ≠ probeRef ∧
    (scanning true 30 32).scanner.channel ≠ 31 ∧ (scanning true 31 31).scanner.channel = 31 ∧
    (scanning true 31 31).scanner.channel ≠ probeRef ∧ (scanning true 31 31).scanner.calCount ≠ 32 ∧
    (scanning true 31 32).scanner.calCount = 32 ∧ (scanning true 31 32).surface.plantValid = false ∧
    ({ inMode .start 0 with scanner := (scanning true 31 32).scanner } : State).surface.mode = .start ∧
    (inMode .start 0).surface.plantValid = true ∧ (inMode .start 0).surface.lightingValid = true := by decide

/-- For FogCycleFollowsTheMargin too; `surveying` and `cycling` show the cases. -/
theorem witness_PassEnd : (scanning false 31 0).scanner.longCal = false ∧ (scanning false 31 0).scanner.channel = 31 := by decide

theorem witness_ProbeRequests : State.reset.mayCommand .portP domProbes = true ∧ State.reset.scanner.longCal = true ∧
    (scanning false 0 0).mayCommand .portP domProbes = true ∧ (scanning false 0 0).scanner.longCal = false ∧
    (31 : Fin 32) ≠ probeRef ∧ probeH0 ≠ probeRef := by decide

theorem witness_OverridesExpire :
    ((State.reset.setProbe 31 { Probe.reset with override := some ⟨20, 1⟩ }).probe 31).override.map Override.remaining = some 1 ∧
    ({ inMode .hold 0 with surface := { (inMode .hold 0).surface with reportAge := 31 } } : State).surface.plantStale = false := by
  decide

theorem witness_SurfaceMode :
    (inMode .hold 60).mayCommand .portP domSurface = true ∧ (inMode .hold 60).surface.mode ≠ .resurface ∧ Mode.prep.code = 2 ∧
    (inMode .resurface 179).mayCommand .portP domResurface = true ∧ (inMode .resurface 180).surface.dwell = 180 ∧
    (inMode .play 59).mayCommand .portP domResurface = true ∧ (inMode .play 59).surface.dwell < 60 ∧ Mode.resurface.code = 4 ∧
    (inMode .prep 60).mayCommand .portB domSurface = true ∧ (inMode .prep 60).surface.ready = false ∧
    ({ inMode .prep 60 with surface := { (inMode .prep 60).surface with ready := true } } : State).mayCommand .portP domSurface
      = true ∧
    (inMode .start 60).mayCommand .portB domSurface = true ∧ Mode.covered.code = 5 := by decide

theorem witness_ResurfaceTimer : ({ inMode .resurface 0 with surface := { (inMode .resurface 0).surface with
    resurfaceTimer := some 1 } } : State).surface.resurfaceTimer = some 1 ∧ (inMode .resurface 0).surface.mode = .resurface := by
  decide

/-- A plant profile at boundary values of its ranges. -/
def plantSample : PlantProfile :=
  { bandLow := -200, bandHigh := 100, softThreshold := -1, resurfaceMax := 30, marginHold := 500, marginPrep := 257, marginPlay := 256
    marginResurf := 255, marginCovered := 0, softDerate := 500, cover := 1000, spillShare := 1000, subsoilSet := -100
    subsoilKW := 500, resurfKW := 1, dischargeLimit := 1000, tankUsable := 900, tankKW := 2000, step0 := 16, step1 := 1, step3 := 2 }

/-- A building profile at boundary values of its ranges. -/
def buildingSample : BuildingProfile :=
  { watchIn := 100, actIn := 99, severeIn := 0, h := 50, resurfBias := 50, regenMin := 0, regenWatch := 257, regenAct := 500
    regenMax := 500, backupEnable := true, loopFailThreshold := 800, step2 := 1, step4 := 2, step5 := 3, step6 := 4, step7 := 16
    zones := #v[⟨1, 500, 0, 300, 250⟩, ⟨100, 1, 1, 0, 800⟩, ⟨2, 300, 299, 1, 251⟩, ⟨3, 0, 0, 2, 799⟩] }

theorem witness_ProfileRecords : plantSample.clamped = plantSample ∧ buildingSample.clamped = buildingSample := by decide

theorem witness_LoadProfile :
    ((inMode .hold 0).port .portP).clearToSend = true ∧ (plantSample.payload.drop 1).length = 38 ∧
    (inMode .hold 0).surface.mode = .hold ∧ plantSample.bandLow < plantSample.bandHigh ∧
    (readPlant (0 :: plantSample.payload.drop 1)).bandHigh = 100 ∧
    (readPlant (0 :: List.replicate 38 0)).bandHigh ≤ (readPlant (0 :: List.replicate 38 0)).bandLow ∧
    (State.reset.port .portB).clearToSend = true ∧ (buildingSample.payload.drop 1).length = 57 ∧
    (readBuilding (1 :: buildingSample.payload.drop 1)).ordered = true ∧ (readBuilding (1 :: List.replicate 57 0)).ordered = false ∧
    (inMode .start 0).surface.mode = .start ∧ ((inMode .start 0).port .portB).clearToSend = true ∧
    (inMode .start 0).surface.calComplete = true ∧
    ((inMode .play 0).port .portP).clearToSend = true ∧ (inMode .play 0).surface.mode ≠ .hold ∧
    (State.reset.port .portL).clearToSend = true ∧ (List.replicate 192 (3 : Byte)).length = 192 ∧
    (∀ n, (State.reset.slot n).state = .free) ∧ State.reset.governor.queue = [] ∧
    ((inMode .start 0).port .portL).clearToSend = true ∧ (∀ n, ((inMode .start 0).slot n).state = .free) ∧
    (inMode .start 0).governor.queue = [] ∧ ((playing 0 []).port .portL).clearToSend = true ∧
    ((playing 0 []).slot 0).state ≠ .free ∧ 3 ≤ (3 : Byte).toNat := by decide +kernel

theorem witness_PlantReport : State.reset.governor.queue = [] ∧ State.reset.mayCommand .portP domPlantData = true ∧ (inMode .play 0).mayCommand .portP domPlantData = true
    := by decide

/-- Ticks at which a report goes stale, the resurface timer ends, and nothing is due at any port. -/
theorem witness_DeviceTick :
    let aged (age : Nat) : State := { inMode .play 0 with surface := { (inMode .play 0).surface with reportAge := age } }
    let ending : State := { inMode .resurface 0 with surface := { (inMode .resurface 0).surface with resurfaceTimer := some 1 } }
    ((aged 30).surface.plantStale = false ∧ ((after .deviceSecondTick (aged 30)).port .portP).lost = false ∧
      ((after .deviceSecondTick (aged 30)).port .portP).queue = [⟨.plantStale, 0, 31, 1⟩]) ∧
    (after .deviceSecondTick (aged 29)).ports = (aged 29).ports ∧
    ending.surface.resurfaceTimer = some 1 ∧ ((after .deviceSecondTick ending).port .portL).lost = false := by decide +kernel

theorem witness_SlabScan : (State.reset.port .portB).clearToSend = true := by decide

theorem witness_BlindHoldEnd : ({ inMode .play 0 with fog := { Fog.reset with holdTimer := some 1, held := some .act } } : State).fog.state
    = .blind ∧ (inMode .play 0).surface.mode ≠ .start := by decide

/-- The loop monitor about to set LOOP_FAIL (by either run) or to clear it. -/
def monitoring (loopFail : Bool) (unusable low restore : Nat) (w0 : Option Int) : State :=
  let s := { inMode .play 0 with pool := { Pool.reset with
    loopFail := loopFail, unusableRun := unusable, lowRun := low, restoreRun := restore }
                                 building := buildingSample }
  match w0 with
  | none => s
  | some w => s.setProbe probeW0 { Probe.reset with pubValue := w, pubQuality := .good }

theorem witness_LoopMonitor :
    (monitoring false 9 0 0 none).published probeW0 = none ∧ (monitoring false 9 0 0 none).surface.mode ≠ .start ∧
    (monitoring false 0 9 0 (some 799)).published probeW0 = some 799 ∧ (monitoring false 0 9 0 (some 799)).pool.lowRun = 9 ∧
    (monitoring true 0 0 29 (some 830)).published probeW0 = some 830 ∧
    (monitoring true 0 0 29 (some 830)).building.loopFailThreshold + 30 ≤ 830 := by decide

/-- The loop has failed: zone 1 proves toward the boiler, the others are OFF. -/
def failedLoop (c : Instr) : State :=
  { (monitoring true 0 0 0 none).setZone 1 { Zone.reset with switch := .provingBoiler 1 } with pending := [c] }

theorem witness_NoZone : (failedLoop .frameStart).loopSound ∧ ∃ t, step (failedLoop .frameStart) = .next t :=
  ⟨fun _ => by decide, _, rfl⟩

theorem witness_Proving :
    let steady := inMode .play 0
    let proving := (monitoring false 0 0 0 (some 250)).setZone 0 { Zone.reset with switch := .provingLoop 29, port := some .portB }
    let tooCold := (monitoring false 0 0 0 (some 249)).setZone 0 { Zone.reset with switch := .provingLoop 29 }
    let lastSecond := (inMode .play 0).setZone 3 { Zone.reset with switch := .provingBoiler 1 }
    (steady.zone 0).switch = .steady ∧ (proving.zone 0).switch = .provingLoop 29 ∧ proving.pool.loopFail = false ∧
    (proving.published probeW0).any (fun w => decide ((pick proving.building.zones 0).minSupply ≤ w)) = true ∧
    (tooCold.published probeW0).any (fun w => decide ((pick tooCold.building.zones 0).minSupply ≤ w)) = false ∧
    (lastSecond.zone 3).switch = .provingBoiler 1 := by decide

/-- R88: SOURCE_SWITCHED goes to B, and to the requesting port that is not B. -/
theorem test_boiler_proven_tells_requester :
    let t := after (.boilerProvenActive true) ((inMode .play 0).setZone 2 { Zone.reset with
      switch := .provingBoiler 7, port := some .portL })
    (t.port .portL).queue = [⟨.sourceSwitched, 2, 2, 0⟩] ∧ (t.port .portB).queue = [⟨.sourceSwitched, 2, 2, 0⟩] ∧
    (t.port .portP).queue = [] := by decide

theorem witness_ZoneSet : State.reset.mayCommand .portB domZones = true := by decide

/-- The BAD_ARG clause asks for the first line alone. -/
theorem witness_ZoneSource :
    State.reset.mayCommand .portB domZones = true ∧ State.reset.surface.mode = .start ∧
    ((inMode .play 0).setZone 0 { Zone.reset with locked := true }).mayCommand .portB domZones = true ∧
    (monitoring true 0 0 0 none).mayCommand .portB domZones = true ∧ (monitoring true 0 0 0 none).pool.loopFail = true ∧
    ((inMode .play 0).setZone 0 { Zone.reset with source := .boiler }).mayCommand .portB domZones = true ∧
    (((inMode .play 0).setZone 0 { Zone.reset with source := .boiler, switch := .provingLoop 3, port := some .portL }).zone 0).port
      = some .portL ∧
    ({ inMode .play 0 with boilerProven := true } : State).mayCommand .portB domZones = true ∧
    ((inMode .play 0).zone 0).locked = false := by decide

theorem witness_AllocationRound : State.reset.pool.roundTimer = none ∧
    ({ inMode .play 0 with pool := { Pool.reset with roundTimer := some 1 } } : State).pool.roundTimer ≠ none := by decide

theorem witness_Claims : State.reset.mayCommand .portB domClaims = true ∧ State.reset.surface.plantValid = false ∧
    (inMode .play 0).mayCommand .portB domClaims = true ∧ (inMode .play 0).surface.buildingValid = true ∧ (6 : Fin 8) ≠ storage ∧
    State.reset.mayCommand .portP domPlantData = true := by decide

theorem witness_TravelSteps :
    (travelling 20 40 true).travelSound ∧ ((travelling 20 40 true).pos 0).state = .travel ∧
    (travelling 19 40 true).travelSound ∧ (travelling 2 0 true).travelSound ∧ (travelling 1 0 true).travelSound ∧
    (travelling 1022 1023 false).travelSound ∧ (travelling 7 7 false).travelSound ∧ ((travelling 7 7 false).pos 0).position = some 7 ∧
    (travelling 7 7 false).positioners.queue = [] ∧ (idling 0).travelSound ∧ ((idling 0).pos 0).state ≠ .travel :=
  ⟨travelSound_of (by decide), by decide, travelSound_of (by decide), travelSound_of (by decide),
   travelSound_of (by decide), travelSound_of (by decide), travelSound_of (by decide), by decide, by decide,
   travelSound_of (by decide), by decide⟩

/-- V0 at the end of a travel, and behind it V1, to home with ENDSTOP active, and V2, to move. -/
def handing : State :=
  { inMode .play 60 with positioners :=
      ⟨#v[{ Positioner.reset with state := .travel, position := some 7, target := 7 },
          { Positioner.reset with port := some .portP, intent := some .home, endstop := true },
          { Positioner.reset with state := .waiting, position := some 7, target := 9, intent := some .move },
          { Positioner.reset with state := .homing }, { Positioner.reset with state := .homing },
          { Positioner.reset with state := .homing }, Positioner.reset, Positioner.reset],
       [(0, 0), (1, 3), (2, 4), (3, 5)], [1, 2]⟩ }

/-- R98, R104: the freed slot passes V1, which completes at the grant, and V2 travels in it. -/
theorem test_slot_handed_on :
    let t := after (.travelEnd 0) handing
    (t.pos 1).state = .idle ∧ (t.pos 2).state = .travel ∧ (0, 2) ∈ t.positioners.holders ∧ t.positioners.queue = [] ∧
    (t.port .portP).queue = [⟨.homeDone, 1, 0, 0⟩] := by decide

theorem witness_handsOn : handing.travelSound ∧ handing.homedAtGrant = [1] ∧ (handing.pos 0).state = .travel :=
  ⟨travelSound_of (by decide), by decide, by decide⟩

theorem witness_HomingSteps :
    (homing 1098 false).travelSound ∧ (homing 1099 false).travelSound ∧ (homing 1099 true).travelSound ∧
    (homing 1100 false).travelSound ∧ ((homing 1100 false).pos 0).state = .homing ∧ ((homing 1100 false).pos 0).homingCount = 1100 :=
  ⟨travelSound_of (by decide), travelSound_of (by decide), travelSound_of (by decide),
   travelSound_of (by decide), by decide, by decide⟩

theorem witness_Endstop :
    (homing 5 false).travelSound ∧ (travelling 21 40 false).travelSound ∧ (travelling 20 0 false).travelSound ∧
    (travelling 20 1 false).travelSound ∧ (travelling 20 20 false).travelSound ∧ (idling 30).travelSound :=
  ⟨travelSound_of (by decide), travelSound_of (by decide), travelSound_of (by decide),
   travelSound_of (by decide), travelSound_of (by decide), travelSound_of (by decide)⟩

theorem witness_DriverFault : (queueing .waiting (some 7) .move).travelSound ∧
    (queueing .waiting (some 7) .move).inDomain (posDomain 0) .portP = true ∧
    ((queueing .waiting (some 7) .move).port .portP).queue.length < 8 :=
  ⟨travelSound_of (by decide), by decide, by decide⟩

theorem witness_Move :
    ((idling 1023).travelSound ∧ (idling 1023).mayCommand .portP (posDomain 0) = true ∧ ((idling 1023).pos 0).manual = true ∧
      (idling 1023).positioners.holders.length < 4) ∧
    ((travelling 5 9 false).travelSound ∧ (travelling 5 9 false).mayCommand .portP (posDomain 0) = true) ∧
    ((queueing .waiting (some 7) .move).travelSound ∧ (queueing .waiting (some 7) .move).mayCommand .portP (posDomain 0) = true) ∧
    ((queueing .waiting (some 7) .home).travelSound ∧ (queueing .waiting (some 7) .home).mayCommand .portP (posDomain 0) = true) ∧
    ((queueing .unhomed none .home).travelSound ∧ (queueing .unhomed none .home).mayCommand .portP (posDomain 0) = true) ∧
    ((queueing .waiting (some 7) .move).mayCommand .portB (posDomain 5) = true ∧
      ((queueing .waiting (some 7) .move).pos 5).manual = false ∧
      ¬(queueing .waiting (some 7) .move).positioners.holders.length < 4) :=
  ⟨⟨travelSound_of (by decide), by decide⟩, ⟨travelSound_of (by decide), by decide⟩,
   ⟨travelSound_of (by decide), by decide⟩, ⟨travelSound_of (by decide), by decide⟩,
   ⟨travelSound_of (by decide), by decide⟩, by decide⟩

theorem witness_Home :
    ((idling 0).travelSound ∧ (idling 0).mayCommand .portP (posDomain 0) = true ∧ (idling 0).surface.plantValid = true ∧
      ((idling 0).pos 0).drvfault = false) ∧
    (homing 0 true).mayCommand .portP (posDomain 0) = true ∧ (homing 7 false).mayCommand .portP (posDomain 0) = true ∧
    (travelling 5 9 false).mayCommand .portP (posDomain 0) = true ∧
    ((queueing .fault none .home).travelSound ∧ (queueing .fault none .home).mayCommand .portP (posDomain 0) = true) ∧
    ((queueing .waiting (some 7) .home).mayCommand .portB (posDomain 5) = true ∧
      ¬(queueing .waiting (some 7) .home).positioners.holders.length < 4) ∧
    (State.reset.mayCommand .portP (posDomain 0) = true ∧ State.reset.surface.plantValid = false ∧
      (∀ v, (State.reset.pos v).state = .unhomed)) :=
  ⟨⟨travelSound_of (by decide), by decide⟩, by decide, by decide, by decide,
   ⟨travelSound_of (by decide), by decide⟩, by decide, by decide⟩

theorem witness_PosMode : State.reset.mayCommand .portP (posDomain 3) = true ∧ State.reset.mayCommand .portB (posDomain 7) = true ∧
    (State.reset.port .portL).clearToSend = true := by decide

/-- For AllocationRoundNeverOverspends, BlindHoldEndActsAsAct and RoundEndCapsAndSwitchesTheZones the first two clauses alone. -/
theorem witness_RoundEnd :
    let s := { queueing .waiting (some 7) .home with pool := { Pool.reset with roundTimer := some 1 } }
    s.pool.roundTimer ≠ none ∧ s.governor.queue = [] ∧ s.travelSound ∧
      ∀ v ∈ s.positioners.queue, (s.pos v).intent = some .home → (s.pos v).endstop = false :=
  ⟨by decide, by decide, travelSound_of (by decide), by decide⟩

theorem witness_Go :
    let s := playing 0 []
    let full := { s with slots := Vector.replicate 8 { Slot.reset with state := .waitingFill, cue := 1 } }
    let busyLine := s.setEntry 1 1 { Entry.reset with state := .filling, tag := 5 }
    let delayed := s.setEntry 2 1 { s.entry 2 1 with header := some ⟨.houseCue, 10, 1, 0, .hold, none, 1⟩ }
    (s.port .portL).clearToSend = true ∧ s.surface.mode = .play ∧ (s.slot 2).state = .free ∧
    (∀ m, m < 2 → (s.slot m).state ≠ .free) ∧
    ((s.entry (cueLine 66) 1).state = .present ∧ (s.entry (cueLine 66) 1).tag = 66 / 64 ∧ (s.entry (cueLine 66) 0).state = .invalid ∧
      s.inDomain domSurface .portL = false ∧ s.inDomain (CueClass.domain .houseCue) .portL = true ∧
      s.inDomain (CueClass.domain .houseCue) .portP = false ∧ s.surface.mode.allows .houseCue = true) ∧
    (delayed.entry 2 1).header.map Header.delay = some 1 ∧
    ((s.entry (cueLine 1) 0).state = .filling ∧ (s.entry (cueLine 1) 0).tag = 1 / 64) ∧
    ((s.entry (cueLine 4095) 0).state = .invalid ∧ (s.entry (cueLine 4095) 1).state = .invalid) ∧
    ((s.entry (cueLine 65) 0).tag ≠ 65 / 64 ∧ (s.entry (cueLine 65) 1).state = .invalid) ∧
    ((busyLine.entry 1 0).state = .filling ∧ (busyLine.entry 1 1).state = .filling ∧ (busyLine.slot 2).state = .free) ∧
    (∀ n, (full.slot n).state ≠ .free) ∧ (State.reset.port .portL).clearToSend = true := by decide

theorem witness_CueWriteReadsBack :
    let w : CueWrite := ⟨4095, ⟨.showCue, 6000, 600, 600, .trim, some ⟨11, .mirror, .half, 7, 100⟩, 8⟩, 7, List.replicate 12 ⟨95, 255⟩⟩
    validCue w.cue = true ∧ (∀ x, w.header.sweep = some x → x.group < 12 ∧ x.startAt < 8 ∧ x.memberStep ≤ 100) ∧
    w.segment.val < w.header.segCount ∧ w.pairs.length ≤ 12 ∧ ∀ q ∈ w.pairs, q.level < 256 :=
  ⟨by decide, by intro x hx; cases hx; decide, by decide, by decide, by decide⟩

/-- The first segment of a cue in the shortest form, and with a sweep. -/
def cuePayload (cue count segment : Nat) : List Byte :=
  encU16 cue ++ [1, 0, 10, 0, 0, 0, 50, 0, 0xFF, 0, 0, 0, 0] ++ encU8 count ++ encU8 segment ++ [1, 5, 200]

theorem witness_CueWrite :
    let s := playing 0 []
    let busyLine := s.setEntry 1 1 { Entry.reset with state := .filling, tag := 5 }
    s.mayCommand .portL domCueStore = true ∧ (cuePayload 1 1 0).length + 3 = 21 + 2 * readU8 (cuePayload 1 1 0) 17 ∧
    (readCueWrite (cuePayload 1 1 0)).isSome = true ∧ (readCueWrite (cuePayload 1 2 1)).isSome = true ∧
    readCueWrite (cuePayload 0 1 0) = none ∧ (cuePayload 0 1 0).length + 3 = 21 + 2 * readU8 (cuePayload 0 1 0) 17 ∧
    s.wayOf 1 = some 0 ∧ s.wayOf 66 = some 1 ∧ s.wayOf 3 = none ∧ s.allocatable (cueLine 3) = some 0 ∧
    busyLine.wayOf 65 = none ∧ busyLine.allocatable (cueLine 65) = none ∧ (s.entry 1 0).waiters = [1] := by decide

/-- Waiting slots and the headers that complete their fill: with a delay, and with none and one waiter. -/
theorem witness_CueWrite_completes : (playing 0 []).lightingSound ∧ (playing 0 []).wayOf 1 = some 0 ∧
    ((playing 0 []).entry 1 0).waiters = [1] ∧ ((playing 0 []).slot 1).port = some .portL ∧
    (playing 0 []).inDomain (CueClass.domain .houseCue) .portL = true ∧ (playing 0 []).surface.mode.allows .houseCue = true ∧
    (readCueWrite (cuePayload 1 1 0)).map (fun w => (w.header.delay, w.header.cls)) = some (0, .houseCue) ∧
    (readCueWrite ((cuePayload 1 1 0).set 6 1)).map (fun w => (w.header.delay, w.header.cls)) = some (1, .houseCue) ∧
    ((cuePayload 1 1 0).set 6 1).length + 3 = 21 + 2 * readU8 ((cuePayload 1 1 0).set 6 1) 17 :=
  ⟨lightingSound_of (by decide) (by decide), by decide⟩

theorem witness_CueInvalidate : (playing 980 [2]).mayCommand .portL domCueStore = true ∧
    ((playing 980 [2]).entry (cueLine 1) 0).state = .filling ∧ ((playing 980 [2]).entry (cueLine 1) 0).tag = 1 / 64 ∧
    ((playing 980 [2]).entry 2 1).state = .present := by decide

theorem witness_FillTimeout : ((playing 980 [2]).entry 1 0).state = .filling ∧ ((playing 980 [2]).entry 63 1).state = .invalid ∧
    ((playing 980 [2]).port .portL).queue = [] := by decide

theorem witness_Release : ((playing 0 [2]).port .portB).clearToSend = true ∧
    (((playing 0 [2]).slot 0).state ≠ .free ∧ ((playing 0 [2]).slot 0).port = some .portL ∧ ((playing 0 [2]).slot 0).cue = 66) ∧
    ((playing 0 [2]).slot 0).cls.any (fun c => (playing 0 [2]).inDomain c.domain .portB) = true ∧
    (((playing 0 [2]).slot 1).port ≠ some .portB ∧ ((playing 0 [2]).slot 1).cls = none) ∧
    (playing 0 []).governor.queue = [] ∧ (playing 0 [2]).governor.queue = [2] ∧
    ((playing 0 [2]).slot 2).cls.any (fun c => (playing 0 [2]).inDomain c.domain .portB) = true ∧
    ((playing 0 [2]).slot 7).state = .free ∧ ((playing 0 [2]).port .portL).queue.length < 8 := by decide

theorem witness_DelayEnd :
    let delayed (hold : Nat) (policy : TrimPolicy) : State := (inMode .play 0).setSlot 0 { Slot.reset with
      state := .delay, cue := 66, port := some .portL, cls := some .houseCue, policy := some policy, hold := hold, timer := some 1
      list := [⟨5, 0, 255, 0⟩] }
    let heavy (s : State) : State := { s with channels := put s.channels 5 ⟨0, none, 255, true, false⟩ }
    let needs (s : State) : Nat := s.governor.lSpill + s.lightingLoad [⟨5, 0, 255, 0⟩] false + s.lightingLoad [⟨5, 0, 255, 0⟩] true
    (((heavy (delayed 0 .hold)).slot 0).state = .delay ∧ (heavy (delayed 0 .hold)).ceilingNow < needs (heavy (delayed 0 .hold))) ∧
    ((heavy (delayed 1 .hold)).slot 0).hold = 1 ∧ ((heavy (delayed 0 .trim)).slot 0).policy = some .trim ∧
    (((entering 0).slot 3).state = .delay ∧ ((entering 0).slot 3).policy ≠ some .hold ∧ (entering 0).governor.queue = [] ∧
     ((entering 1000).slot 3).state = .delay ∧ (entering 1000).governor.queue = [] ∧ ((entering 0).slot 0).state = .fading) ∧
    ¬((delayed 0 .hold).ceilingNow < needs (delayed 0 .hold)) ∧
    ((playing 0 [2]).slot 2).state = .waitingHeadroom ∧ ((playing 0 [2]).slot 2).state ≠ .delay := by decide +kernel

theorem witness_DelayEnd_entering : (entering 0).lightingSound ∧ (entering 1000).lightingSound :=
  ⟨lightingSound_of (by decide) (by decide), lightingSound_of (by decide) (by decide)⟩

theorem witness_FadeSteps :
    let reached (s : State) (elapsed : Nat) : Prop := ∀ e ∈ (s.slot 0).list, e.offset + (s.slot 0).duration ≤ elapsed
    ((playing 980 []).slot 0).state = .fading ∧ (playing 980 []).governor.queue = [] ∧ reached (playing 980 []) 1000 ∧
    ¬reached (playing 960 []) 980 ∧ reached (playing 1000 []) 1000 ∧ ((playing 980 []).port .portL).queue.length < 8 ∧
    ((playing 980 []).slot 7).state ≠ .fading := by decide

theorem witness_FrameCarries : (∀ c, ((playing 0 []).channel c).level ≤ 255) ∧ (playing 0 []).governor.f = 256 ∧
    ((playing 0 []).channel 5).haze = false ∧ ((playing 0 []).channel 5).trimmable = true ∧
    ({ playing 0 [] with governor := { Governor.reset with f := 0 } } : State).governor.f = 0 ∧
    ({ playing 0 [] with channels := put (playing 0 []).channels 5 ⟨255, none, 0, false, true⟩ } : State).fog.state ≠ .clear := by
  decide

theorem witness_Sweeps : (Sweep.mk 11 .mirror .half 7 100).startAt < 8 ∧ (Sweep.mk 11 .mirror .half 7 100).length = .half ∧
    (Sweep.mk 11 .mirror .half 7 100).memberOrder[3]? = some 4 ∧ 88 / 8 = (Sweep.mk 11 .mirror .half 7 100).group ∧
    88 % 8 ∉ (Sweep.mk 11 .mirror .half 7 100).memberOrder ∧ 87 / 8 ≠ (Sweep.mk 11 .mirror .half 7 100).group := by decide

theorem witness_CopyLists : let h : Header := ⟨.showCue, 10, 0, 50, .trim, some ⟨11, .mirror, .half, 7, 100⟩, 8⟩
    ∀ w, h.sweep = some w → w.startAt < 8 := by
  intro h w e
  cases e
  decide

/-- A state with an evaluation behind it, loaded to its ceiling, and a command waiting. -/
def loaded (c : Instr) : State :=
  { playing 980 [] with
    pending := [c]
    governor := { Governor.reset with ceiling := 1000, lSpill := 200, lUntrim := 300, lTrim := 1000, f := 128, avail := 500 } }

theorem witness_LoadsStay : (loaded .allocationRound).governor.withinCeiling ∧ ∃ t, step (loaded .allocationRound) = .next t :=
  ⟨fun _ => by decide, _, rfl⟩

theorem witness_TrimFactor : (∃ t, step (loaded .allocationRound) = .next t) ∧ (∃ t, step (loaded (.cueDone 0)) = .next t) ∧
    ∃ t, step (loaded (.powerOnReset ⟨⟨true, true⟩, ⟨false, true⟩, ⟨true, false⟩⟩ 0xFF 0 true)) = .next t := ⟨⟨_, rfl⟩, ⟨_, rfl⟩, _, rfl⟩

theorem witness_BrokenFrames :
    (State.reset.port .portP).ready = true ∧ beginsFrame (soundBytes [0xC3]) = true ∧
    beginsFrame (soundBytes [0xC3, 0x05, 0x12, 0x02, 0x01]) = true ∧
    endsInLinkError (soundBytes [0xC3, 0x02]) = true ∧ endsInLinkError (soundBytes [0xC3, 0xFB]) = true ∧
    endsInLinkError (soundBytes [0xC3, 0x03, 0x01, 0xFD]) = true ∧
    endsInLinkError [soundByte 0xC3, soundByte 0x03, ⟨0x01, false, true⟩, soundByte 0xFC] = true ∧
    endsInLinkError [soundByte 0xC3, ⟨0x03, false, false⟩] = true ∧
    ((portIn .portL .answering).port .portL).phase = .answering ∧ ((portIn .portL .executing).port .portL).phase = .executing ∧
    ((portIn .portL .answering).port .portL).lineDropped = false ∧ ((portIn .portL .answering).port .portL).awaitLength = false ∧
    ((portIn .portL .answering).port .portL).discard = 0 ∧
    (let dropping := State.reset.setPort .portL { PortState.reset .baud19200 with discard := 2 }
     (dropping.port .portL).lineDropped = false ∧ (dropping.port .portL).awaitLength = false ∧
     (soundBytes [0x01, 0xFC]).length ≤ (dropping.port .portL).discard) ∧
    (soundByte 0xC3).startsFrame = true ∧ (soundByte 0x03).goodLength = true ∧ (soundByte 0xFA).goodLength = true ∧
    (soundByte 0x02).goodLength = false ∧ (RxByte.mk 0x03 false false).goodLength = false ∧ (RxByte.mk 0x03 true true).goodLength = false ∧
    (RxByte.mk 0x13 false true).bad = true ∧ (soundByte 0x13).bad = false := by decide

/-- For RefusedRequestsHaveNoEffect too. -/
theorem witness_PortChecks :
    (State.reset.port .portB).ready = true ∧ (List.replicate 247 (0 : Byte)).length ≤ 247 ∧ unknownCode 0 = true ∧ unknownCode 27 = true ∧
    ([2] : List Byte).length + 3 ≠ 5 ∧ ((State.reset.post .portB .posFault 0 0).port .portB).ready = true ∧
    ((State.reset.post .portB .posFault 0 0).port .portB).mustCollectPending = true ∧
    (payloadMove 8 0).length + 3 = 6 ∧ 7 < readU8 (payloadMove 8 0) 0 ∧ (payloadZoneLock 3 1).length + 3 = 5 ∧
    State.reset.inDomain 2 .portP = false := by decide +kernel

theorem witness_ReadingRequests : (State.reset.port .portP).ready = true ∧ (State.reset.port .portP).queue = [] ∧
    ((State.reset.post .portP .posFault 0 0).port .portP).ready = true ∧
    ((State.reset.post .portP .posFault 0 0).port .portP).queue = [⟨.posFault, 0, 0, 0⟩] ∧
    State.reset.mayCommand .portL domCueStore = true ∧ (playing 0 []).wayOf 66 = some 1 ∧ (playing 0 []).wayOf 4095 = none ∧
    (playing 0 []).mayCommand .portL domCueStore = true := by decide

theorem witness_Authority : State.reset.mayCommand .portB domAuthority = true ∧
    ({ State.reset with authority := put State.reset.authority 12 ⟨⟨false, true, false⟩, true⟩ } : State).mayCommand .portB domAuthority
      = true := by decide

theorem witness_PostedRecords :
    let ordinary : Record := ⟨.cueDone, 0, 1, 0⟩
    let must : Record := ⟨.posFault, 0, 1, 0⟩
    let q (rs : List Record) : PortState := { PortState.reset .baud19200 with queue := rs }
    (q (List.replicate 7 must)).queue.length < 8 ∧ 8 ≤ (q (List.replicate 8 ordinary)).queue.length ∧
    (∀ x ∈ (q (List.replicate 8 must)).queue, x.mustCollect = true) ∧
    (q (List.replicate 7 must ++ ordinary :: [])).queue = List.replicate 7 must ++ ordinary :: [] ∧
    (q ([] ++ ordinary :: List.replicate 7 must)).queue = [] ++ ordinary :: List.replicate 7 must ∧ ordinary.mustCollect = false ∧
    RecordKind.posFault.mustCollect = true ∧ RecordKind.cueDone.mustCollect = false := by decide

theorem witness_QueuesStay : (loaded (.cueDone 0)).queuesBounded ∧ ∃ t, step (loaded (.cueDone 0)) = .next t :=
  ⟨fun p => by cases p <;> decide, _, rfl⟩

theorem witness_TravelSlotsStay : ({ travelling 1 0 false with pending := [.travelEnd 0] } : State).travelSound ∧
    ∃ t, step { travelling 1 0 false with pending := [.travelEnd 0] } = .next t := ⟨travelSound_of (by decide), _, rfl⟩

theorem witness_LightingStays : (playing 980 [2]).lightingSound ∧ ∃ t, step (playing 980 [2]) = .next t :=
  ⟨witness_lightingSound.1, _, rfl⟩

theorem witness_OnlyReset : let s := { State.reset with
      authority := put State.reset.authority 4 ⟨⟨true, false, false⟩, true⟩, pending := [.status .portP []] }
    (pick s.authority 4).locked = true ∧ ∃ t, step s = .next t := ⟨by decide, _, rfl⟩

theorem witness_Frames : (List.replicate 247 (0xFF : Byte)).length ≤ 247 ∧ (List.replicate 245 (0xFF : Byte)).length ≤ 245 := by
  decide +kernel

end Sys2Proof.Tests
end

