-- ==== Sys2Proof/Proofs/FixtureLink.lean ====
section
/-! PROOFS. The effective levels and the bits of a fixture link frame (R154, R155, R180). -/

namespace Sys2Proof.Machine

/-! ### The effective level (R154) -/

theorem hazeForcing_iff (s : State) : s.hazeForcing = true ↔ s.fog.state ≠ .clear ∨ s.surface.mode = .resurface := by
  simp [State.hazeForcing]

theorem effectiveLevel_eq (s : State) (c : Fin 96) : s.effectiveLevel c =
    if (s.channel c).haze = true ∧ (s.fog.state ≠ .clear ∨ s.surface.mode = .resurface) then 0
    else if (s.channel c).trimmable = true then ((s.channel c).level * s.governor.f + 128) / 256
    else (s.channel c).level := by
  simp only [State.effectiveLevel, Bool.and_eq_true, hazeForcing_iff]

/-- A level of one byte stays one: `F` in 256ths never scales it up, rounding included. -/
theorem effectiveLevel_le (s : State) (c : Fin 96) (hl : (s.channel c).level ≤ 255) (hf : s.governor.f ≤ 256) :
    s.effectiveLevel c ≤ 255 := by
  have hprod : (s.channel c).level * s.governor.f ≤ 255 * 256 := Nat.mul_le_mul hl hf
  rw [effectiveLevel_eq]
  split
  · omega
  · split <;> omega

theorem effectiveLevel_of_full_factor (s : State) (c : Fin 96) (hf : s.governor.f = 256) (hh : (s.channel c).haze = false) :
    s.effectiveLevel c = (s.channel c).level := by
  have hscale : ((s.channel c).level * 256 + 128) / 256 = (s.channel c).level := by omega
  simp [effectiveLevel_eq, hh, hf, hscale]

theorem effectiveLevel_of_zero_factor (s : State) (c : Fin 96) (hf : s.governor.f = 0) (ht : (s.channel c).trimmable = true) :
    s.effectiveLevel c = 0 := by
  simp [effectiveLevel_eq, hf, ht]

/-! ### The frame (R180) -/

/-- A table's records in ascending order, each under `g`. -/
theorem map_toList_eq_ofFn {α β : Type} {n : Nat} (g : α → β) (v : Vector α n) :
    v.toList.map g = List.ofFn (fun i => g (pick v i)) := by
  apply List.ext_getElem <;> simp [pick]

theorem fixtureFrame_eq (v : Vector Nat 96) :
    let bytes := List.ofFn (fun c : Fin 96 => BitVec.ofNat 8 (pick v c))
    fixtureFrame v.toList = 0x5C#8 :: (bytes ++ [checkByte bytes]) := by
  simp only [fixtureFrame, map_toList_eq_ofFn]

/-! ### The bits on FXOUT (R180) -/

theorem fixtureBits_eq (b : Byte) : fixtureBits b =
    [false, b.getLsbD 0, b.getLsbD 1, b.getLsbD 2, b.getLsbD 3, b.getLsbD 4, b.getLsbD 5, b.getLsbD 6, b.getLsbD 7, true] := rfl

theorem fixtureBits_length (b : Byte) : (fixtureBits b).length = 10 := rfl

section Blocks
variable {α β : Type} {f : α → List β} {n : Nat}

/-- Blocks of one length `n`, one after the other. -/
theorem length_flatMap_of_blocks (hf : ∀ x, (f x).length = n) (l : List α) : (l.flatMap f).length = n * l.length := by
  simp [List.length_flatMap, hf, Nat.mul_comm]

/-- The `k`-th of the blocks stands `n * k` from the start. -/
theorem take_drop_flatMap_of_blocks (hf : ∀ x, (f x).length = n) {l : List α} {k : Nat} {x : α} (hk : l[k]? = some x) :
    ((l.flatMap f).drop (n * k)).take n = f x := by
  induction l generalizing k with
  | nil => simp at hk
  | cons y l ih =>
    cases k with
    | zero =>
      obtain rfl : y = x := by simpa using hk
      rw [List.flatMap_cons, Nat.mul_zero, List.drop_zero, List.take_left' (hf y)]
    | succ k =>
      rw [List.flatMap_cons, Nat.mul_succ, Nat.add_comm, ← List.drop_drop, List.drop_left' (hf y)]
      exact ih (by simpa using hk)

end Blocks

/-! ### FRAME_START (R155) -/

theorem startFrame_sent (s : State) (c : Fin 96) : pick s.startFrame.sent c = s.effectiveLevel c := pick_ofFn _ c

theorem startFrame_fxFrame (s : State) :
    let bytes := List.ofFn (fun c : Fin 96 => BitVec.ofNat 8 (pick s.startFrame.sent c))
    s.startFrame.fxFrame = 0x5C#8 :: (bytes ++ [checkByte bytes]) := fixtureFrame_eq s.startFrame.sent

theorem startFrame_fxout_length (s : State) : s.startFrame.fxout.length = 980 := by
  rw [State.fxout, length_flatMap_of_blocks fixtureBits_length]
  simp [startFrame_fxFrame]

theorem fxout_block (s : State) {k : Nat} {b : Byte} (hk : s.fxFrame[k]? = some b) :
    (s.fxout.drop (10 * k)).take 10 = fixtureBits b :=
  take_drop_flatMap_of_blocks fixtureBits_length hk

/-- Settles O44: the snapshot holds the effective levels, and the frame and its bits follow from it. -/
theorem frameCarriesEffectiveLevels : Obligations.FrameCarriesEffectiveLevels := by
  intro s
  refine ⟨s.startFrame, rfl, rfl, ⟨_, startFrame_fxFrame s, ?_⟩, ⟨startFrame_fxout_length s, fun k b hk => ?_⟩, fun c => ?_⟩
  · rw [startFrame_fxFrame]
    exact byteSum_check _
  · rw [fxout_block _ hk, fixtureBits_eq]
  · rw [startFrame_sent]
    exact ⟨effectiveLevel_eq s c, effectiveLevel_le s c, effectiveLevel_of_full_factor s c, effectiveLevel_of_zero_factor s c⟩

end Sys2Proof.Machine
end

