-- ==== Sys2Proof/Proofs/Sweeps.lean ====
section
/-! PROOFS. The member orders of a sweep and the member offsets (R150, R151). -/

namespace Sys2Proof.Machine

/-! ### The member orders (R150) -/

/-- How many members a sweep names. -/
def Sweep.size (w : Sweep) : Nat :=
  match w.length with
  | .full => 8
  | .half => 4

/-- The `k`-th member that a sweep names. -/
def Sweep.member (w : Sweep) (k : Nat) : Nat :=
  match w.order, w.length with
  | .rotate, .full => (w.startAt + k) % 8
  | .rotate, .half => 4 * (w.startAt / 4) + (w.startAt + k) % 4
  | .mirror, _ => w.startAt ^^^ k

theorem memberOrder_eq (w : Sweep) : w.memberOrder = (List.range w.size).map w.member := by
  obtain ⟨group, order, length, startAt, memberStep⟩ := w
  cases order <;> cases length <;> rfl

theorem memberOrder_length (w : Sweep) : w.memberOrder.length = w.size := by simp [memberOrder_eq]

theorem memberOrder_getElem? (w : Sweep) {k : Nat} (hk : k < w.memberOrder.length) : w.memberOrder[k]? = some (w.member k) := by
  rw [memberOrder_length] at hk
  simp [memberOrder_eq, hk]

theorem mem_memberOrder (w : Sweep) (m : Nat) : m ∈ w.memberOrder ↔ ∃ k < w.size, w.member k = m := by
  simp [memberOrder_eq]

/-- No two places of an order hold the same member: rotations are injective below their length, and XOR with the start member is
injective everywhere. -/
theorem member_injective (w : Sweep) {j k : Nat} (hj : j < w.size) (hk : k < w.size) (h : w.member j = w.member k) : j = k := by
  obtain ⟨group, order, length, startAt, memberStep⟩ := w
  cases order with
  | rotate => cases length <;> simp only [Sweep.size, Sweep.member] at hj hk h <;> omega
  | mirror => exact Nat.xor_right_injective h

/-- An order holds the numbers of members, which are below 8. -/
theorem member_lt (w : Sweep) (hs : w.startAt < 8) {k : Nat} (hk : k < w.size) : w.member k < 8 := by
  obtain ⟨group, order, length, startAt, memberStep⟩ := w
  have hk8 : k < 8 := by cases length <;> simp only [Sweep.size] at hk <;> omega
  cases order with
  | rotate => cases length <;> simp only [Sweep.member] at hs ⊢ <;> omega
  | mirror => exact Nat.xor_lt_two_pow (n := 3) hs hk8

/-- A HALF order stays in the half of the start member: XOR with a number below 4 leaves the quotient by 4. -/
theorem member_half (w : Sweep) (hl : w.length = .half) {k : Nat} (hk : k < w.size) : w.member k / 4 = w.startAt / 4 := by
  obtain ⟨group, order, length, startAt, memberStep⟩ := w
  subst hl
  have hk4 : k < 4 := hk
  cases order with
  | rotate => simp only [Sweep.member]; omega
  | mirror =>
    have hdiv : (startAt ^^^ k) / 2 ^ 2 = startAt / 2 ^ 2 ^^^ k / 2 ^ 2 := Nat.xor_div_two_pow
    simpa [Sweep.member, Nat.div_eq_of_lt hk4] using hdiv

theorem memberOrder_nodup (w : Sweep) : w.memberOrder.Nodup := by
  rw [memberOrder_eq]
  refine List.Nodup.map_on (fun j hj k hk h => ?_) List.nodup_range
  exact member_injective w (List.mem_range.mp hj) (List.mem_range.mp hk) h

/-! ### The member offsets (R151) -/

/-- In a list without repetition the first place of a value is the place it was read from. -/
theorem findIdx?_of_nodup {l : List Nat} (hl : l.Nodup) {k m : Nat} (hk : l[k]? = some m) : l.findIdx? (· == m) = some k := by
  obtain ⟨hlt, rfl⟩ := List.getElem?_eq_some_iff.mp hk
  refine List.findIdx?_eq_some_iff_getElem.mpr ⟨hlt, by simp, fun j hj => ?_⟩
  have hne : l[j] ≠ l[k] := fun e => Nat.ne_of_lt hj ((hl.getElem_inj_iff).mp e)
  simpa using hne

theorem offset_of_member (w : Sweep) (hs : w.startAt < 8) {k m : Nat} (hk : w.memberOrder[k]? = some m) :
    memberOffset (some w) (8 * w.group + m) = k * w.memberStep * 100 := by
  obtain ⟨j, hj, rfl⟩ := (mem_memberOrder w m).mp (List.mem_of_getElem? hk)
  have hlt := member_lt w hs hj
  have hgroup : (8 * w.group + w.member j) / 8 = w.group := by omega
  have hmember : (8 * w.group + w.member j) % 8 = w.member j := by omega
  simp [memberOffset, Sweep.offset, hgroup, hmember, findIdx?_of_nodup (memberOrder_nodup w) hk]

theorem offset_of_not_member (w : Sweep) {c : Nat} (hc : c / 8 ≠ w.group ∨ c % 8 ∉ w.memberOrder) :
    memberOffset (some w) c = 0 := by
  obtain hgroup | hmember := hc
  · simp [memberOffset, Sweep.offset, hgroup]
  · have hnone : w.memberOrder.findIdx? (· == c % 8) = none := by
      refine List.findIdx?_eq_none_iff.mpr fun m hm => beq_eq_false_iff_ne.mpr ?_
      rintro rfl
      exact hmember hm
    simp [memberOffset, Sweep.offset, hnone]

/-- Settles O45: an order is its member function over its length, which is injective, and an offset reads a member's place back. -/
theorem sweepsNameEveryMemberOnce : Obligations.SweepsNameEveryMemberOnce := by
  intro w hs
  refine ⟨memberOrder_nodup w, memberOrder_length w, fun k hk => ⟨memberOrder_getElem? w hk, fun hl m hm => ?_,
    fun _ _ => offset_of_member w hs, fun _ => offset_of_not_member w⟩⟩
  obtain ⟨j, hj, rfl⟩ := (mem_memberOrder w m).mp hm
  exact member_half w hl hj

end Sys2Proof.Machine
end

