-- ==== Sys2Proof/Proofs/TenantFrames.lean ====
section
/-! PROOFS. The request and result frames of the tenant ports, their flag byte and the characters on TX (R157, R175). -/

namespace Sys2Proof.Machine

/-! ### The frames (R175) -/

theorem sealFrame_sum (body : List Byte) : byteSum ((sealFrame body).drop 1) = 0 := byteSum_check _

theorem sealFrame_eq (body : List Byte) : sealFrame body =
    frameStartByte :: BitVec.ofNat 8 (body.length + 2) ::
      (body ++ [checkByte (BitVec.ofNat 8 (body.length + 2) :: body)]) := rfl

theorem sealFrame_length (body : List Byte) : (sealFrame body).length = body.length + 3 := by
  simp [sealFrame_eq]

/-- The length byte counts all but the start byte, while the count fits a byte. -/
theorem sealFrame_lengthByte {body : List Byte} (h : body.length + 2 < 256) :
    readU8 (sealFrame body) 1 + 1 = (sealFrame body).length := by
  rw [sealFrame_length, sealFrame_eq, readU8_cons_succ, readU8_byte h]

/-- The example of R175: ZONE_LOCK for zone 2, on. -/
theorem zoneLock_frame :
    requestFrame RequestKind.zoneLock.code (payloadZoneLock 2 1) = [0xC3, 0x05, 0x12, 0x02, 0x01, 0xE6] := by decide

/-! ### The flag byte (R163, R175) -/

/-- The number that a flag byte is made of has each flag as the bit of its place. -/
theorem testBit_flags (bits : List Bool) (k : Nat) :
    (bits.foldr (fun (b : Bool) (n : Nat) => 2 * n + (if b then 1 else 0)) 0).testBit k = bits.getD k false := by
  induction bits generalizing k with
  | nil => simp
  | cons b bits ih =>
    cases k with
    | zero => cases b <;> simp
    | succ k =>
      rw [List.foldr_cons, List.getD_cons_succ, ← ih, Nat.testBit_succ]
      congr 1
      split <;> omega

theorem flagByte_getLsbD {bits : List Bool} (h : bits.length ≤ 8) (k : Nat) :
    (flagByte bits).getLsbD k = bits.getD k false := by
  rw [flagByte, BitVec.getLsbD_ofNat, testBit_flags]
  rcases Nat.lt_or_ge k 8 with hk | hk
  · simp [hk]
  · simp [List.getElem?_eq_none (h.trans hk)]

theorem four_flags_getLsbD (attn must lost outOfTurn : Bool) (k : Nat) :
    (flagByte [attn, must, lost, outOfTurn]).getLsbD k =
      if k = 0 then attn else if k = 1 then must else if k = 2 then lost else if k = 3 then outOfTurn else false := by
  rw [flagByte_getLsbD (by simp)]
  match k with
  | 0 | 1 | 2 | 3 => rfl
  | _ + 4 => rfl

/-! ### The characters on TX (R157) -/

theorem dataBits_eq (b : Byte) : dataBits b =
    [b.getLsbD 0, b.getLsbD 1, b.getLsbD 2, b.getLsbD 3, b.getLsbD 4, b.getLsbD 5, b.getLsbD 6, b.getLsbD 7] := rfl

theorem soundByte_bits (b : Byte) : (soundByte b).bits =
    [false, b.getLsbD 0, b.getLsbD 1, b.getLsbD 2, b.getLsbD 3, b.getLsbD 4, b.getLsbD 5, b.getLsbD 6, b.getLsbD 7,
      evenParity b, true] := by
  simp only [RxByte.bits, soundByte, dataBits_eq, List.cons_append, List.nil_append]

theorem soundByte_bits_length (b : Byte) : (soundByte b).bits.length = 11 := by
  rw [soundByte_bits]; rfl

/-- Folding bits by exclusive or from `a`, and counting the set ones, agree on parity. -/
theorem countP_add_foldl_xor (l : List Bool) (a : Bool) :
    (l.countP id + (if a then 1 else 0) + if l.foldl Bool.xor a then 1 else 0) % 2 = 0 := by
  induction l generalizing a with
  | nil => cases a <;> rfl
  | cons b l ih =>
    have hl := ih (Bool.xor a b)
    rw [List.foldl_cons, List.countP_cons]
    cases a <;> cases b <;> simp at hl ⊢ <;> omega

theorem evenParity_even (b : Byte) :
    ((List.range 8).countP (fun k => b.getLsbD k) + if evenParity b then 1 else 0) % 2 = 0 := by
  have hbits : (dataBits b).countP id = (List.range 8).countP (fun k => b.getLsbD k) := List.countP_map
  rw [← hbits]
  exact countP_add_foldl_xor (dataBits b) false

theorem txLine_eq (q : PortState) : q.txLine = q.tx.flatMap fun b => (soundByte b).bits := List.flatMap_map ..

theorem txLine_length (q : PortState) : q.txLine.length = 11 * q.tx.length := by
  rw [txLine_eq, length_flatMap_of_blocks soundByte_bits_length]

theorem txLine_block (q : PortState) {k : Nat} {b : Byte} (hk : q.tx[k]? = some b) :
    (q.txLine.drop (11 * k)).take 11 = (soundByte b).bits := by
  rw [txLine_eq]
  exact take_drop_flatMap_of_blocks soundByte_bits_length hk

/-- Settles O55: both frames are sealed bodies, flags are read back by place, and TX is the blocks of its bytes' characters. -/
theorem framesSumToZero : Obligations.FramesSumToZero := by
  refine ⟨fun code result flags payload => ⟨sealFrame_sum _, sealFrame_sum _, fun hn => ?_, fun hn => ?_⟩,
    four_flags_getLsbD, zoneLock_frame, fun q => ⟨txLine_length q, fun k b hk => ⟨evenParity b, ?_, evenParity_even b⟩⟩⟩
  · exact sealFrame_lengthByte (by rw [List.length_cons]; omega)
  · exact sealFrame_lengthByte (by simp only [List.length_cons]; omega)
  · rw [txLine_block q hk, soundByte_bits]

end Sys2Proof.Machine
end

