-- ==== Sys2Proof/Proofs/BlockMoves.lean ====
section
/-! PROOFS. What an operation of a block is made of. A relation between states that holds of a block's single moves, and of one move
after another, holds of every operation of the block: each structure below lists the moves, and the theorems after it the
operations. Frames, invariants and bounds are then instances. -/

namespace Sys2Proof.Machine

variable {R : State → State → Prop}

/-- A relation that holds of nothing done, of one thing done after another, and of posting a record of the kinds `K`. -/
structure PostMoves (K : RecordKind → Prop) (R : State → State → Prop) : Prop where
  refl : ∀ s, R s s
  trans : ∀ {a b c}, R a b → R b c → R a c
  post : ∀ s p k o v, K k → R s (s.post p k o v)

namespace PostMoves
variable {K : RecordKind → Prop} (h : PostMoves K R)
include h

theorem foldl {α : Type} (f : State → α → State) (hf : ∀ s x, R s (f s x)) (l : List α) (s : State) : R s (l.foldl f s) :=
  foldl_related h.refl h.trans f hf l s

theorem postTo (s : State) (p : Option Port) {k : RecordKind} (hk : K k) (o : Nat) (v : Int) : R s (s.postTo p k o v) := by
  cases p with
  | none => exact h.refl s
  | some p => exact h.post s p k o v hk

theorem postAll (s : State) (ps : List Port) {k : RecordKind} (hk : K k) (o : Nat) (v : Int) : R s (s.postAll ps k o v) :=
  h.foldl _ (fun s p => h.post s p k o v hk) ps s

end PostMoves

/-- The kinds that are not must-collect: a full queue drops them. -/
def RecordKind.ordinary (k : RecordKind) : Prop := k.mustCollect = false

/-! ### Lighting -/

/-- The moves of the lighting, less evaluations. -/
structure LightingMoves (R : State → State → Prop) : Prop extends PostMoves RecordKind.ordinary R where
  freeSlot : ∀ s n, R s (s.freeSlot n)
  startFading : ∀ s n, R s (s.startFading n)
  setSlot : ∀ s n x, R s (s.setSlot n x)
  setEntry : ∀ s l w e, R s (s.setEntry l w e)
  setLru : ∀ s l w, R s (s.setLru l w)
  writeLevels : ∀ s n, R s (State.writeLevels s n)
  waitHeadroom : ∀ s n, R s (State.waitHeadroom s n)

namespace LightingMoves
variable (h : LightingMoves R)
include h

theorem endSlot (s : State) (n : Fin 8) {k : RecordKind} (hk : k.ordinary) : R s (s.endSlot n k) :=
  h.trans (h.freeSlot s n) (h.postTo _ _ hk _ _)

theorem judgePreempted (s : State) (m : Fin 8) : R s (s.judgePreempted m) := by
  unfold State.judgePreempted
  split
  · exact h.endSlot s m rfl
  · exact h.refl s

theorem enterFading (s : State) (n : Fin 8) : R s (s.enterFading n).1 := by
  unfold State.enterFading
  refine h.trans (h.startFading s n) (h.trans ?_ (h.foldl _ h.judgePreempted _ _))
  split
  · exact h.endSlot _ n (by rfl)
  · exact h.refl _

theorem serveSlots (l : List (Fin 8)) (acc : State × Nat) : R acc.1 (l.foldl serveSlot acc).1 := by
  induction l generalizing acc with
  | nil => exact h.refl _
  | cons n l ih =>
    refine h.trans ?_ (ih _)
    unfold serveSlot
    split
    · exact h.enterFading ..
    · exact h.refl _

theorem serveQueue (s : State) : R s s.serveQueue.1 := h.serveSlots s.governor.queue (s, 0)

/-- An evaluation is made of changes of the governor's figures, the queue's service and the records of ICE_OVERLOAD. -/
theorem evaluateOnce (hg : ∀ (s : State) g, R s { s with governor := g }) (s : State) (k : EvalKind) (spill : Option Nat) :
    R s (s.evaluateOnce k spill).1 := by
  have hjudge : ∀ t : State, R t t.judgeOverload := by
    intro t
    unfold State.judgeOverload
    dsimp only
    split
    · exact hg t _
    · refine h.trans (hg t _) (h.postAll _ _ ?_ _ _)
      split <;> rfl
  exact h.trans (hg s _) (h.trans (h.serveQueue (s.openEvaluation spill)) (h.trans (hg _ _) (h.trans (hjudge _) (hg _ _))))

end LightingMoves

/-- The moves of the lighting, an ordinary evaluation among them. -/
structure EvaluationMoves (R : State → State → Prop) : Prop extends LightingMoves R where
  evaluateOrdinary : ∀ s, R s (State.evaluateOnce s .ordinary none).1

namespace EvaluationMoves
variable (h : EvaluationMoves R)
include h

theorem evaluations (fuel asked : Nat) (s : State) : R s (evaluations fuel asked s) := by
  induction fuel generalizing asked s with
  | zero => exact h.refl s
  | succ fuel ih =>
    cases asked with
    | zero => exact h.refl s
    | succ asked => exact h.trans (h.evaluateOrdinary s) (ih _ _)

theorem evaluate (s : State) : R s s.evaluate := h.evaluations ..

theorem evaluateRound (hr : ∀ (s : State) spill, R s (s.evaluateOnce .roundEnd spill).1) (s : State) (spill : Nat) :
    R s (s.evaluateRound spill) := h.trans (hr s _) (h.evaluations ..)

theorem judgeAdmission (s : State) (n : Fin 8) : R s (s.judgeAdmission n) := by
  unfold State.judgeAdmission
  refine h.trans (h.setSlot s n { s.slot n with delay := 0 }) ?_
  dsimp only
  split
  · split
    · exact h.endSlot _ n (by rfl)
    · exact h.waitHeadroom _ n
  · exact h.trans (h.enterFading _ n) (h.evaluations ..)

theorem enterDelay (s : State) (n : Fin 8) (sl : Slot) : R s (s.enterDelay n sl) := by
  unfold State.enterDelay
  dsimp only
  split
  · exact h.trans (h.setSlot s n sl) (h.judgeAdmission ..)
  · exact h.setSlot ..

theorem judgeWaiter (e : Entry) (hd : Header) (s : State) (n : Fin 8) : R s (State.judgeWaiter e hd s n) := by
  unfold State.judgeWaiter
  dsimp only
  repeat' split
  all_goals first | exact h.enterDelay .. | exact h.endSlot s n (by rfl)

theorem writeCue (s : State) (line : Fin 64) (way : Fin 2) (base : Entry) (w : CueWrite) :
    R s (s.writeCue line way base w) := by
  unfold State.writeCue
  dsimp only
  refine h.trans (h.trans (h.setEntry s line way (base.written w).settled) (h.setLru _ line (otherWay way))) ?_
  split
  · exact h.foldl _ (h.judgeWaiter _ _) _ _
  · exact h.refl _

theorem dropEntry (s : State) (line : Fin 64) (way : Fin 2) {k : RecordKind} (hk : k.ordinary) :
    R s (s.dropEntry line way k) :=
  h.trans (h.setEntry s line way _) (h.foldl _ (fun t n => h.endSlot t n hk) _ _)

theorem invalidateLine (s : State) (line : Fin 64) : R s (s.invalidateLine line) := by
  have hway : ∀ (t : State) w, R t (t.invalidateWay line w) := by
    intro t w
    unfold State.invalidateWay
    split
    · exact h.refl t
    · exact h.dropEntry t line w (by rfl)
  exact h.trans (hway s 0) (hway _ 1)

theorem releaseSlots (s : State) (ns : List (Fin 8)) : R s (s.releaseSlots ns) :=
  h.trans (h.foldl _ (fun t n => h.endSlot t n (by rfl)) ns s) (h.evaluate _)

theorem completeSlot (s : State) (n : Fin 8) : R s (s.completeSlot n) := h.trans (h.endSlot s n (by rfl)) (h.evaluate _)

end EvaluationMoves

/-- The operations of the lighting that commands ask for. -/
structure LightingOperations (R : State → State → Prop) : Prop where
  evaluate : ∀ s, R s (State.evaluate s)
  freeForbidden : ∀ s, R s (State.freeForbidden s)
  delayEnd : ∀ s n, R s (State.delayEnd s n)
  holdExpiry : ∀ s n, R s (State.holdExpiry s n)
  fadeStep : ∀ s n, R s (State.fadeStep s n)
  fadeDone : ∀ s n, R s (State.fadeDone s n)
  fillTimeout : ∀ s l w, R s (State.fillTimeout s l w)
  go : ∀ s p payload, R s (handleGo s p payload).1
  cueWrite : ∀ s payload, R s (handleCueWrite s payload).1
  cueInvalidate : ∀ s payload, R s (handleCueInvalidate s payload).1
  release : ∀ s p payload, R s (handleRelease s p payload).1
  withLighting : ∀ s payload, R s (State.withLighting s payload)

theorem LightingOperations.mono {R' : State → State → Prop} (h : LightingOperations R) (hm : ∀ {s t}, R s t → R' s t) :
    LightingOperations R' where
  evaluate s := hm (h.evaluate s)
  freeForbidden s := hm (h.freeForbidden s)
  delayEnd s n := hm (h.delayEnd s n)
  holdExpiry s n := hm (h.holdExpiry s n)
  fadeStep s n := hm (h.fadeStep s n)
  fadeDone s n := hm (h.fadeDone s n)
  fillTimeout s l w := hm (h.fillTimeout s l w)
  go s p payload := hm (h.go s p payload)
  cueWrite s payload := hm (h.cueWrite s payload)
  cueInvalidate s payload := hm (h.cueInvalidate s payload)
  release s p payload := hm (h.release s p payload)
  withLighting s payload := hm (h.withLighting s payload)

namespace EvaluationMoves
variable (h : EvaluationMoves R)
include h

theorem freeForbidden (s : State) : R s s.freeForbidden := by
  refine h.foldl _ (fun t n => ?_) all8 s
  split
  · exact h.endSlot t n (by rfl)
  · exact h.refl t

theorem delayEnd (s : State) (n : Fin 8) : R s (s.delayEnd n) := by
  unfold State.delayEnd
  split
  · exact h.judgeAdmission s n
  · exact h.refl s

theorem holdExpiry (s : State) (n : Fin 8) : R s (s.holdExpiry n) := by
  unfold State.holdExpiry
  split
  · exact h.endSlot s n (by rfl)
  · exact h.refl s

theorem fadeStep (s : State) (n : Fin 8) : R s (s.fadeStep n) := by
  unfold State.fadeStep
  dsimp only
  have hwritten := h.trans (h.setSlot s n (s.slot n).advanced) (h.writeLevels _ n)
  split
  · split
    · exact h.trans hwritten (h.completeSlot _ n)
    · exact hwritten
  · exact h.refl s

theorem fadeDone (s : State) (n : Fin 8) : R s (s.fadeDone n) := by
  unfold State.fadeDone
  dsimp only
  split
  · exact h.refl s
  · split
    · exact h.completeSlot s n
    · split
      · exact h.fadeStep s n
      · exact h.refl s

theorem fillTimeout (s : State) (l : Fin 64) (w : Fin 2) : R s (s.fillTimeout l w) := by
  unfold State.fillTimeout
  split
  · exact h.dropEntry s l w (by rfl)
  · exact h.refl s

theorem goHit (s : State) (p : Port) (cue : Nat) (n : Fin 8) (w : Fin 2) (hd : Header) : R s (s.goHit p cue n w hd).1 := by
  unfold State.goHit
  split
  · exact h.refl s
  · split
    · exact h.refl s
    · exact h.trans (h.setLru ..) (h.enterDelay ..)

theorem goJoin (s : State) (p : Port) (cue : Nat) (n : Fin 8) (w : Fin 2) : R s (s.goJoin p cue n w).1 :=
  h.trans (h.setSlot ..) (h.setEntry ..)

theorem goMiss (s : State) (p : Port) (cue : Nat) (n : Fin 8) : R s (s.goMiss p cue n).1 := by
  unfold State.goMiss
  split
  · exact h.refl s
  · exact h.trans (h.trans (h.setSlot ..) (h.setEntry ..)) (h.post _ .portL .fillNeeded cue _ rfl)

theorem go (s : State) (p : Port) (payload : List Byte) : R s (handleGo s p payload).1 := by
  unfold handleGo
  dsimp only
  split
  · exact h.refl s
  · split
    · exact h.refl s
    · split
      · exact h.refl s
      · split
        · exact h.goMiss ..
        · split
          · exact h.goHit ..
          · exact h.goJoin ..

theorem cueWrite (s : State) (payload : List Byte) : R s (handleCueWrite s payload).1 := by
  unfold handleCueWrite
  split
  · exact h.refl s
  · dsimp only
    split
    · exact h.writeCue ..
    · split
      · exact h.writeCue ..
      · exact h.refl s

theorem cueInvalidate (s : State) (payload : List Byte) : R s (handleCueInvalidate s payload).1 := by
  unfold handleCueInvalidate
  split
  · dsimp only
    split
    · exact h.refl s
    · split
      · next way _ =>
        unfold State.invalidateWay
        split
        · exact h.refl s
        · exact h.dropEntry s _ way (by rfl)
      · exact h.refl s
  · split
    · exact h.invalidateLine ..
    · exact h.refl s
  · simp only [okay]
    exact h.foldl _ h.invalidateLine _ _
  · exact h.refl s

theorem release (s : State) (p : Port) (payload : List Byte) : R s (handleRelease s p payload).1 := by
  unfold handleRelease
  split
  · split
    · exact h.refl s
    · split
      · exact h.refl s
      · split
        · exact h.releaseSlots ..
        · exact h.refl s
  · dsimp only
    split
    · exact h.refl s
    · split
      · exact h.refl s
      · split
        · exact h.refl s
        · exact h.releaseSlots ..
  · exact h.refl s

theorem operations (hl : ∀ s payload, R s (State.withLighting s payload)) : LightingOperations R where
  evaluate := h.evaluate
  freeForbidden := h.freeForbidden
  delayEnd := h.delayEnd
  holdExpiry := h.holdExpiry
  fadeStep := h.fadeStep
  fadeDone := h.fadeDone
  fillTimeout := h.fillTimeout
  go := h.go
  cueWrite := h.cueWrite
  cueInvalidate := h.cueInvalidate
  release := h.release
  withLighting := hl

end EvaluationMoves

theorem lightingOnly_moves : LightingMoves LightingOnly where
  refl := LightingOnly.refl
  trans := LightingOnly.trans
  post s p k o v _ := lighting_post s p k o v
  freeSlot := lighting_freeSlot
  startFading := lighting_startFading
  setSlot := lighting_setSlot
  setEntry _ _ _ _ := rfl
  setLru _ _ _ := rfl
  writeLevels := lighting_writeLevels
  waitHeadroom _ _ := rfl

theorem lighting_withLighting (s : State) (payload : List Byte) : LightingOnly s (s.withLighting payload) := by
  unfold State.withLighting
  exact lighting_foldl _ (fun _ _ => lighting_setChannel ..) _ s

theorem lightingOnly_operations : LightingOperations LightingOnly :=
  EvaluationMoves.operations ⟨lightingOnly_moves, fun s => lighting_evaluateOnce s _ _⟩ lighting_withLighting

end Sys2Proof.Machine
end

-- ==== Sys2Proof/Proofs/BlockMoves.lean (positioners) ====
section
namespace Sys2Proof.Machine

variable {R : State → State → Prop}

/-! ### Positioners -/

/-- The operations of the positioner unit that commands and the other blocks ask for. -/
structure PositionerOperations (R : State → State → Prop) : Prop where
  travelTimer : ∀ s v, R s (State.travelTimer s v)
  travelEnd : ∀ s v, R s (State.travelEnd s v)
  homingTimer : ∀ s v, R s (State.homingTimer s v)
  homingFailure : ∀ s v, R s (State.homingFailure s v)
  endstopRises : ∀ s v, R s (State.endstopRises s v)
  endstopFalls : ∀ s v, R s (s.setPos v { s.pos v with endstop := false })
  drvfaultRises : ∀ s v, R s (State.drvfaultRises s v)
  drvfaultFalls : ∀ s v, R s (s.setPos v { s.pos v with drvfault := false })
  move : ∀ s p payload, R s (handleMove s p payload).1
  home : ∀ s p payload, R s (handleHome s p payload).1
  posMode : ∀ s payload, R s (handlePosMode s payload).1
  autoTarget : ∀ s v target, target ≤ 1023 → R s (State.autoTarget s v target)
  autoHome : ∀ s v, R s (State.autoHome s v)

theorem PositionerOperations.mono {R' : State → State → Prop} (h : PositionerOperations R) (hm : ∀ {s t}, R s t → R' s t) :
    PositionerOperations R' where
  travelTimer s v := hm (h.travelTimer s v)
  travelEnd s v := hm (h.travelEnd s v)
  homingTimer s v := hm (h.homingTimer s v)
  homingFailure s v := hm (h.homingFailure s v)
  endstopRises s v := hm (h.endstopRises s v)
  endstopFalls s v := hm (h.endstopFalls s v)
  drvfaultRises s v := hm (h.drvfaultRises s v)
  drvfaultFalls s v := hm (h.drvfaultFalls s v)
  move s p payload := hm (h.move s p payload)
  home s p payload := hm (h.home s p payload)
  posMode s payload := hm (h.posMode s payload)
  autoTarget s v x hx := hm (h.autoTarget s v x hx)
  autoHome s v := hm (h.autoHome s v)

/-- The moves of the positioner unit, with no condition on the positioners' records: for relations that do not speak of them. -/
structure PositionerMoves (R : State → State → Prop) : Prop extends PostMoves (fun _ => True) R where
  positioners : ∀ (s : State) x, R s { s with positioners := x }
  openChoices : ∀ (s : State) x, R s { s with openChoices := x }

namespace PositionerMoves
variable (h : PositionerMoves R)
include h

theorem setPos (s : State) (v : Fin 8) (x : Positioner) : R s (s.setPos v x) := h.positioners ..

theorem tellRequester (s : State) (v : Fin 8) (k : RecordKind) (x : Int) : R s (s.tellRequester v k x) :=
  h.trans (h.postTo s (s.pos v).port trivial v.val x) (h.setPos ..)

theorem passSlot (k : Fin 4) (q : List (Fin 8)) (s : State) : R s (State.passSlot k q s) := by
  induction q generalizing s with
  | nil => exact h.positioners s _
  | cons v rest ih =>
    unfold State.passSlot
    dsimp only
    split
    · refine h.trans ?_ (ih _)
      exact h.trans (h.trans (h.positioners s _) (h.setPos _ v _)) (h.tellRequester ..)
    · split
      · exact h.trans (h.positioners s _) (h.setPos _ v _)
      · exact h.trans (h.positioners s _) (h.setPos _ v _)

theorem freeTravelSlot (s : State) (v : Fin 8) : R s (s.freeTravelSlot v) := by
  unfold State.freeTravelSlot
  split
  · exact h.refl s
  · exact h.trans (h.positioners s _) (h.passSlot ..)

theorem leaveTravelQueue (s : State) (v : Fin 8) : R s (s.leaveTravelQueue v) := h.positioners ..

theorem takeTravelSlot (s : State) (v : Fin 8) : R s (s.takeTravelSlot v) :=
  h.trans (h.openChoices s (s.openChoices + 1)) (h.positioners _ _)

theorem seekTravel (s : State) (v : Fin 8) : R s (s.seekTravel v) := by
  unfold State.seekTravel
  split
  · exact h.trans (h.takeTravelSlot s v) (h.setPos _ v _)
  · exact h.trans (h.setPos s v _) (h.positioners _ _)

theorem seekHoming (s : State) (v : Fin 8) : R s (s.seekHoming v) := by
  unfold State.seekHoming
  split
  · exact h.trans (h.takeTravelSlot s v) (h.setPos _ v _)
  · exact h.trans (h.setPos s v _) (h.positioners _ _)

theorem endTravel (s : State) (v : Fin 8) : R s (s.endTravel v) :=
  h.trans (h.setPos s v _) (h.trans (h.freeTravelSlot ..) (h.tellRequester ..))

theorem endHoming (s : State) (v : Fin 8) : R s (s.endHoming v) :=
  h.trans (h.setPos s v _) (h.trans (h.freeTravelSlot ..) (h.tellRequester ..))

theorem enterFault (s : State) (v : Fin 8) (c : FaultCause) : R s (s.enterFault v c) := by
  unfold State.enterFault
  dsimp only
  refine h.trans (h.trans ?_ (h.postAll _ _ (by trivial) _ _)) (h.setPos ..)
  exact h.trans (h.trans (h.setPos s v _) (h.leaveTravelQueue _ v)) (h.freeTravelSlot _ v)

theorem checkEndstop (s : State) (v : Fin 8) (stepped : Bool) : R s (s.checkEndstop v stepped) := by
  unfold State.checkEndstop
  dsimp only
  split
  · exact h.enterFault ..
  · generalize (if (s.pos v).endstop && (s.pos v).target < (s.pos v).position.getD 0 then 0
      else (s.pos v).position.getD 0) = corrected
    split
    · exact h.trans (h.setPos ..) (h.endTravel ..)
    · exact h.setPos ..

theorem travelStep (s : State) (v : Fin 8) : R s (s.travelStep v) := h.trans (h.setPos s v _) (h.checkEndstop ..)

theorem homingStep (s : State) (v : Fin 8) : R s (s.homingStep v) := by
  unfold State.homingStep
  dsimp only
  split
  · exact h.trans (h.setPos s v _) (h.enterFault ..)
  · exact h.setPos ..

theorem settleHere (s : State) (v : Fin 8) : R s (s.settleHere v) :=
  h.trans (h.setPos s v _) (h.trans (h.leaveTravelQueue ..) (h.freeTravelSlot ..))

theorem supersede (s : State) (v : Fin 8) (x : Int) : R s (s.supersede v x) := h.postTo _ _ trivial _ _

theorem retarget (s : State) (p : Port) (v : Fin 8) (target : Nat) : R s (s.retarget p v target).1 := by
  unfold State.retarget
  have haimed := h.trans (h.supersede s v (s.pos v).target) (h.setPos _ v { (s.supersede v (s.pos v).target).pos v with
    target := target, port := some p })
  dsimp only
  split
  · exact h.trans haimed (h.trans (h.settleHere ..) (h.tellRequester ..))
  · exact haimed

theorem move (s : State) (p : Port) (payload : List Byte) : R s (handleMove s p payload).1 := by
  unfold handleMove
  split
  · exact h.refl s
  · dsimp only
    split
    · exact h.refl s
    · split
      · exact h.refl s
      · exact h.refl s
      · exact h.refl s
      · split
        · exact h.refl s
        · exact h.retarget ..
      · exact h.retarget ..
      · split
        · exact h.trans (h.setPos ..) (h.post _ _ _ _ _ trivial)
        · exact h.trans (h.setPos ..) (h.seekTravel ..)

theorem startHome (s : State) (p : Port) (v : Fin 8) : R s (s.startHome p v) := by
  unfold State.startHome
  have hasked := h.trans (h.supersede s v (s.pos v).replacedValue)
    (h.setPos _ v { (s.supersede v (s.pos v).replacedValue).pos v with port := some p })
  dsimp only
  split
  · exact h.trans hasked (h.setPos ..)
  · exact hasked
  · exact h.trans hasked (h.seekHoming ..)
  · exact h.trans hasked (h.setPos ..)
  all_goals
    split
    · exact hasked
    · exact h.trans hasked (h.seekHoming ..)

theorem homeAtEndstop (s : State) (p : Port) (v : Fin 8) : R s (s.homeAtEndstop p v) := by
  unfold State.homeAtEndstop
  dsimp only
  refine h.trans (h.trans (h.trans ?_ (h.leaveTravelQueue ..)) (h.freeTravelSlot ..)) (h.post _ _ _ _ _ trivial)
  exact h.trans (h.trans (h.supersede ..) (h.setPos ..)) (h.setPos ..)

theorem home (s : State) (p : Port) (payload : List Byte) : R s (handleHome s p payload).1 := by
  unfold handleHome
  split
  · exact h.refl s
  · next v _ =>
    split
    · exact h.refl s
    · split
      · exact h.homeAtEndstop ..
      · exact h.startHome ..

theorem posMode (s : State) (payload : List Byte) : R s (handlePosMode s payload).1 := by
  unfold handlePosMode
  split
  · dsimp only
    split
    · exact h.refl s
    · exact h.setPos ..
  · exact h.refl s

theorem applyTarget (s : State) (v : Fin 8) (target : Nat) : R s (s.applyTarget v target) := by
  unfold State.applyTarget
  dsimp only
  split
  · split
    · exact h.setPos ..
    · exact h.trans (h.setPos ..) (h.seekTravel ..)
  · have haimed := h.trans (h.supersede s v (s.pos v).target)
      (h.setPos _ v { (s.supersede v (s.pos v).target).pos v with target := target, port := none })
    split
    · exact h.trans haimed (h.settleHere ..)
    · exact haimed

theorem autoTarget (s : State) (v : Fin 8) (target : Nat) : R s (s.autoTarget v target) := by
  unfold State.autoTarget
  dsimp only
  refine h.trans ?_ (h.setPos ..)
  split
  · exact h.applyTarget ..
  · exact h.refl s

theorem autoHome (s : State) (v : Fin 8) : R s (s.autoHome v) := by
  unfold State.autoHome
  split
  · split
    · exact h.setPos ..
    · exact h.seekHoming ..
  · exact h.refl s

theorem operations : PositionerOperations R where
  travelTimer s v := by
    unfold State.travelTimer
    split
    · exact h.travelStep s v
    · exact h.refl s
  travelEnd s v := by
    unfold State.travelEnd
    dsimp only
    split
    · exact h.refl s
    · split
      · exact h.endTravel s v
      · split
        · exact h.travelStep s v
        · exact h.refl s
  homingTimer s v := by
    unfold State.homingTimer
    split
    · exact h.homingStep s v
    · exact h.refl s
  homingFailure s v := by
    unfold State.homingFailure
    dsimp only
    split
    · exact h.refl s
    · split
      · exact h.enterFault s v _
      · split
        · exact h.homingStep s v
        · exact h.refl s
  endstopRises s v := by
    unfold State.endstopRises
    have hseen := h.setPos s v { s.pos v with endstop := true }
    dsimp only
    split
    · exact h.trans hseen (h.endHoming ..)
    · exact h.trans hseen (h.checkEndstop ..)
    · exact hseen
  endstopFalls s v := h.setPos ..
  drvfaultRises s v := h.trans (h.setPos ..) (h.enterFault ..)
  drvfaultFalls s v := h.setPos ..
  move := h.move
  home := h.home
  posMode := h.posMode
  autoTarget s v x _ := h.autoTarget s v x
  autoHome := h.autoHome

end PositionerMoves

theorem positionersOnly_moves : PositionerMoves PositionersOnly where
  refl := PositionersOnly.refl
  trans := PositionersOnly.trans
  post s p k o v _ := positioners_post s p k o v
  positioners _ _ := rfl
  openChoices _ _ := rfl

theorem positionersOnly_operations : PositionerOperations PositionersOnly := positionersOnly_moves.operations

end Sys2Proof.Machine
end

-- ==== Sys2Proof/Proofs/BlockMoves.lean (zones) ====
section
namespace Sys2Proof.Machine

variable {R : State → State → Prop}

/-! ### Zones -/

@[simp] theorem zone_post (s : State) (p : Port) (k : RecordKind) (o : Nat) (v : Int) (z : Fin 4) :
    (s.post p k o v).zone z = s.zone z := by simp [State.zone]

@[simp] theorem zone_postTo (s : State) (p : Option Port) (k : RecordKind) (o : Nat) (v : Int) (z : Fin 4) :
    (s.postTo p k o v).zone z = s.zone z := by cases p <;> simp [State.postTo]

@[simp] theorem pool_postTo (s : State) (p : Option Port) (k : RecordKind) (o : Nat) (v : Int) :
    (s.postTo p k o v).pool = s.pool := by cases p <;> simp [State.postTo]

@[simp] theorem zone_supersedeSwitch (s : State) (z y : Fin 4) : (s.supersedeSwitch z).zone y = s.zone y := by
  unfold State.supersedeSwitch
  dsimp only
  split <;> simp

@[simp] theorem pool_supersedeSwitch (s : State) (z : Fin 4) : (s.supersedeSwitch z).pool = s.pool := by
  unfold State.supersedeSwitch
  dsimp only
  split <;> simp

/-- The moves of the zone controller: while LOOP_FAIL is set, a zone that a fail-over would act on stays one or comes to be none. -/
structure ZoneMoves (R : State → State → Prop) : Prop extends PostMoves (fun _ => True) R where
  setZone : ∀ s z x, (x.failsOver = true → s.pool.loopFail = true → (s.zone z).failsOver = true) → R s (s.setZone z x)
  boilerProven : ∀ (s : State) x, R s { s with boilerProven := x }

namespace ZoneMoves
variable (h : ZoneMoves R)
include h

theorem postZone (s : State) (p : Option Port) (k : RecordKind) (z : Fin 4) (x : Source) : R s (s.postZone p k z x) := by
  unfold State.postZone
  dsimp only
  split
  · exact h.post _ _ _ _ _ trivial
  · exact h.trans (h.post _ _ _ _ _ trivial) (h.postTo _ _ trivial _ _)

theorem completeSwitch (s : State) (z : Fin 4) : R s (s.completeSwitch z) := by
  unfold State.completeSwitch
  dsimp only
  split
  · exact h.refl s
  · next run hrun => exact h.trans (h.setZone _ _ _ (by simp [Zone.failsOver, hrun])) (h.postZone ..)
  · exact h.trans (h.setZone _ _ _ (by simp [Zone.failsOver, Zone.steadied])) (h.postZone ..)

theorem readProven (s : State) (z : Fin 4) : R s (s.readProven z) := by
  unfold State.readProven
  split
  · split
    · exact h.completeSwitch s z
    · exact h.refl s
  · exact h.refl s

theorem supersedeSwitch (s : State) (z : Fin 4) : R s (s.supersedeSwitch z) := by
  unfold State.supersedeSwitch
  dsimp only
  split
  · exact h.postTo _ _ trivial _ _
  · exact h.refl s

theorem startSwitch (s : State) (z : Fin 4) (toBoiler : Bool) (p : Option Port)
    (hb : toBoiler = true ∨ s.pool.loopFail = false) : R s (s.startSwitch z toBoiler p) := by
  unfold State.startSwitch
  refine h.trans (h.trans (h.supersedeSwitch s z) (h.setZone _ _ _ ?_)) (h.readProven ..)
  obtain rfl | hloop := hb
  · simp +contextual [Zone.failsOver]
  · simp [hloop]

theorem switchTimeout (s : State) (z : Fin 4) : R s (s.switchTimeout z) := by
  unfold State.switchTimeout
  refine h.trans (h.postZone ..) (h.setZone _ _ _ ?_)
  have hzone : ∀ (p : Option Port) k x, (s.postZone p k z x).zone z = s.zone z := by
    intro p k x
    unfold State.postZone
    dsimp only
    split <;> simp
  rw [hzone]
  simp +contextual [Zone.failsOver, Zone.steadied]

theorem tickZone (s : State) (z : Fin 4) : R s (s.tickZone z) := by
  unfold State.tickZone
  dsimp only
  split
  · exact h.refl s
  · next run hrun =>
    have hcounted := h.setZone s z { s.zone z with switch := .provingLoop (s.nextLoopRun z run) } (by simp [Zone.failsOver, hrun])
    split
    · exact h.trans hcounted (h.completeSwitch ..)
    · exact hcounted
  · next left hleft =>
    split
    · exact h.switchTimeout s z
    · exact h.setZone _ _ _ (by simp +contextual [Zone.failsOver])

theorem tickZones (s : State) : R s s.tickZones := h.foldl _ h.tickZone all4 s

/-- A record of the zone is replaced by one that stands and proves as the old one does. -/
theorem setZone_of_same (s : State) (z : Fin 4) (x : Zone) (hsource : x.source = (s.zone z).source)
    (hswitch : x.switch = (s.zone z).switch) : R s (s.setZone z x) :=
  h.setZone s z x fun hx _ => by rwa [Zone.failsOver, hsource, hswitch] at hx

theorem zoneRoundEnd (s : State) (z : Fin 4) (r : ZoneRound) : R s (s.zoneRoundEnd z r) := by
  unfold State.zoneRoundEnd
  have hcounted := h.setZone_of_same s z ((s.zone z).counted r) rfl rfl
  dsimp only
  split
  · split
    · next hgo => exact h.trans hcounted (h.startSwitch _ _ _ _ (by simp at hgo ⊢; exact hgo.2))
    · exact hcounted
  · split
    · exact h.trans (h.trans hcounted (h.setZone_of_same _ _ _ (by rfl) (by rfl))) (h.startSwitch _ _ _ _ (.inl rfl))
    · exact hcounted
  · split
    · next hgo =>
      exact h.trans (h.trans hcounted (h.setZone_of_same _ _ _ (by rfl) (by rfl)))
        (h.startSwitch _ _ _ _ (by simp at hgo ⊢; exact hgo.2))
    · exact hcounted

theorem failOver (s : State) : R s s.failOver := by
  refine h.foldl _ (fun t z => ?_) all4 s
  unfold State.failOverZone
  dsimp only
  split
  · next hfails => exact h.trans (h.trans (h.setZone _ _ _ (fun _ _ => hfails)) (h.postZone ..)) (h.readProven ..)
  · exact h.refl t

theorem provenRises (s : State) : R s s.provenRises := h.trans (h.boilerProven s true) (h.foldl _ h.readProven all4 _)

theorem loopProved (s : State) (z : Fin 4) : R s (s.loopProved z) := by
  unfold State.loopProved
  split
  · split
    · exact h.completeSwitch s z
    · exact h.refl s
  · exact h.refl s

theorem provingTimeout (s : State) (z : Fin 4) : R s (s.provingTimeout z) := by
  unfold State.provingTimeout
  split
  · split
    · exact h.switchTimeout s z
    · exact h.refl s
  · exact h.refl s

theorem zoneSet (s : State) (payload : List Byte) : R s (handleZoneSet s payload).1 := by
  unfold handleZoneSet
  split
  · exact h.setZone_of_same _ _ _ (by rfl) (by rfl)
  · exact h.refl s

theorem zoneLock (s : State) (payload : List Byte) : R s (handleZoneLock s payload).1 := by
  unfold handleZoneLock
  split
  · exact h.setZone_of_same _ _ _ (by rfl) (by rfl)
  · exact h.refl s

theorem zoneSource (s : State) (p : Port) (payload : List Byte) : R s (handleZoneSource s p payload).1 := by
  unfold handleZoneSource
  split
  · next z source _ hsource =>
    dsimp only
    split
    · exact h.refl s
    · split
      · exact h.refl s
      · split
        · exact h.refl s
        · next hloop =>
          split
          · split
            · exact h.refl s
            · refine h.trans (h.supersedeSwitch s z) (h.setZone _ _ _ ?_)
              simp +contextual [Zone.failsOver, Zone.steadied]
          · refine h.trans (h.setZone_of_same _ _ _ (by rfl) (by rfl)) (h.startSwitch _ _ _ _ ?_)
            cases source <;> simp_all [requestableSource]
            all_goals split at hsource <;> simp_all
  · exact h.refl s

theorem updateDemand (s : State) : R s s.updateDemand := by
  unfold State.updateDemand
  exact h.foldl _ (fun _ _ => h.setZone_of_same _ _ _ (by rfl) (by rfl)) _ _

end ZoneMoves

theorem zonesOnly_moves : ZoneMoves (fun s t => t = { s with zones := t.zones, ports := t.ports, boilerProven := t.boilerProven }) where
  refl _ := rfl
  trans h k := by rw [k, h]
  post s p k o v _ := by cases p <;> rfl
  setZone _ _ _ _ := rfl
  boilerProven _ _ := rfl

end Sys2Proof.Machine
end

