-- ==== Sys2Proof/Proofs/StepMoves.lean ====
section
/-! PROOFS. What a step is made of: every command but POWER_ON_RESET is a chain of the moves below, so that a relation closed under
them holds between a state and the one that a step makes of it. -/

namespace Sys2Proof.Machine

variable {R : State → State → Prop}

/-- The moves of a step, less those of an allocation round's evaluation, of power-on reset and of a millisecond without a command. -/
structure StepMoves (R : State → State → Prop) : Prop extends ZoneMoves R, LightingOperations R, PositionerOperations R where
  port : ∀ (s : State) p q, q.queue <:+ (s.port p).queue → R s (s.setPort p q)
  scanner : ∀ (s : State) x, R s { s with scanner := x }
  surface : ∀ (s : State) x, x.mode = s.surface.mode → R s { s with surface := x }
  mode : ∀ (s : State) new, new ≠ .start → R s { s with surface := { s.surface with mode := new, dwell := 0 } }
  plant : ∀ (s : State) x, R s { s with plant := x }
  building : ∀ (s : State) x, R s { s with building := x }
  fog : ∀ (s : State) x, R s { s with fog := x }
  pool : ∀ (s : State) x, (x.loopFail = true → s.pool.loopFail = true) → R s { s with pool := x }
  setLoopFail : ∀ s cause, R s (State.setLoopFail s cause)
  frame : ∀ (s : State) x y, R s { s with sent := x, fxFrame := y }
  deviceSeconds : ∀ (s : State) x, R s { s with deviceSeconds := x }
  setDomain : ∀ (s : State) d x, ((pick s.authority d).locked = true → x = pick s.authority d) → R s (s.setDomain d x)

/-- With nothing asked of the pool, LOOP_FAIL sets by moves of the pool, the zones and the fog unit. -/
theorem setLoopFail_of_moves (hz : ZoneMoves R) (hp : ∀ (s : State) x, R s { s with pool := x })
    (hf : ∀ (s : State) x, R s { s with fog := x }) (s : State) (cause : LoopCause) : R s (s.setLoopFail cause) := by
  unfold State.setLoopFail
  dsimp only
  refine hz.trans ?_ (hf _ _)
  exact hz.trans (hz.trans (hp s _) (hz.postAll _ _ (by trivial) _ _)) (hz.failOver _)

@[simp] theorem crossFlags_mode (q : Surface) (old new : Mode) (n : Nat) :
    (((q.crossPrep old new).crossPlay old new).crossResurface old new n).mode = q.mode := by
  have hprep : ∀ q : Surface, (q.crossPrep old new).mode = q.mode := by
    intro q; unfold Surface.crossPrep; split <;> rfl
  have hplay : ∀ q : Surface, (q.crossPlay old new).mode = q.mode := by
    intro q; unfold Surface.crossPlay; split <;> (try split) <;> rfl
  have hres : ∀ q : Surface, (q.crossResurface old new n).mode = q.mode := by
    intro q; unfold Surface.crossResurface; split <;> (try split) <;> rfl
  rw [hres, hplay, hprep]

/-! ### The stages of an allocation round -/

/-- A round after its demand update. -/
def State.demanded (s : State) : State :=
  { s.updateDemand with pool := { s.updateDemand.pool with subsoilDemand := s.updateDemand.nextSubsoilDemand } }

/-- A round with its claims fixed and its supply formed. -/
def State.supplied (s : State) : State × Nat := s.demanded.fixClaims.formSupply

/-- A round with the claims before the spill cap served, and what is left of the supply. -/
def State.tiered (s : State) : State × Nat :=
  State.serveTier (State.serveTier (State.serveTier s.supplied [subsoil]) [desiccant]) tier2

/-- A round with every claim served. -/
def State.stored (s : State) : State := State.chargeStorage (State.serveTier (State.applyCap s.tiered) [resurfWater])

theorem allocate_eq (s : State) : s.allocate = { s.stored.countShorts with pool :=
    { s.stored.countShorts.pool with roundTimer := some 5000, roundCount := s.stored.countShorts.pool.roundCount + 1 } } := by
  simp only [State.allocate, State.stored, State.tiered, State.supplied, State.demanded]

theorem roundTarget_le (s : State) (v : Fin 8) : s.roundTarget v ≤ 1023 := by
  have hvalve : ∀ amount cmax, valveTarget amount cmax ≤ 1023 := by
    intro amount cmax
    unfold valveTarget
    split <;> omega
  unfold State.roundTarget
  split <;> exact hvalve ..

/-! ### An allocation round -/

/-- The moves of a round up to its grants: the pool's, and zones that stand and prove as before. -/
structure AllocationMoves (R : State → State → Prop) : Prop where
  refl : ∀ s, R s s
  trans : ∀ {a b c}, R a b → R b c → R a c
  setZone : ∀ s z x, x.source = (s.zone z).source → x.switch = (s.zone z).switch → R s (s.setZone z x)
  pool : ∀ (s : State) x, x.loopFail = s.pool.loopFail → R s { s with pool := x }

namespace AllocationMoves
variable (h : AllocationMoves R)
include h

theorem foldl {α : Type} (f : State → α → State) (hf : ∀ s x, R s (f s x)) (l : List α) (s : State) : R s (l.foldl f s) :=
  foldl_related h.refl h.trans f hf l s

theorem updateDemand (s : State) : R s s.updateDemand := by
  unfold State.updateDemand
  exact h.foldl _ (fun _ _ => h.setZone _ _ _ (by rfl) (by rfl)) _ _

theorem setClaim (s : State) (c : Fin 8) (x : Claim) : R s (s.setClaim c x) := h.pool s _ rfl

theorem serveTier (acc : State × Nat) (tier : List (Fin 8)) : R acc.1 (State.serveTier acc tier).1 :=
  h.foldl _ (fun _ _ => h.setClaim ..) _ acc.1

theorem applyCap (acc : State × Nat) : R acc.1 (State.applyCap acc).1 := by
  unfold State.applyCap
  dsimp only
  refine h.trans (h.trans (h.foldl _ (fun t z => ?_) _ _) (h.foldl _ (fun t z => ?_) _ _)) (h.pool _ _ (by exact rfl))
  · split
    · exact h.setClaim ..
    · exact h.refl t
  · exact h.setZone _ _ _ (by rfl) (by rfl)

theorem chargeStorage (acc : State × Nat) : R acc.1 (State.chargeStorage acc) :=
  h.trans (h.pool acc.1 _ (by exact rfl)) (h.setClaim ..)

theorem countShorts (s : State) : R s s.countShorts := by
  unfold State.countShorts
  exact h.foldl _ (fun _ _ => h.setClaim ..) _ s

theorem fixClaims (s : State) : R s s.fixClaims := by
  unfold State.fixClaims
  exact h.foldl _ (fun _ _ => h.setClaim ..) _ s

theorem formSupply (s : State) : R s s.formSupply.1 := h.pool s _ rfl

theorem allocate (s : State) : R s s.allocate := by
  have hdemanded : R s s.demanded := by
    unfold State.demanded
    exact h.trans (h.updateDemand s) (h.pool _ _ (by exact rfl))
  have hsupplied : R s s.supplied.1 := by
    unfold State.supplied
    exact h.trans (h.trans hdemanded (h.fixClaims _)) (h.formSupply _)
  have htiered : R s s.tiered.1 := by
    unfold State.tiered
    exact h.trans (h.trans (h.trans hsupplied (h.serveTier _ _)) (h.serveTier _ _)) (h.serveTier _ _)
  have hstored : R s s.stored := by
    unfold State.stored
    exact h.trans (h.trans (h.trans htiered (h.applyCap _)) (h.serveTier _ _)) (h.chargeStorage _)
  have hcounted := h.trans hstored (h.countShorts s.stored)
  rw [allocate_eq]
  generalize s.stored.countShorts = counted at hcounted ⊢
  exact h.trans hcounted (h.pool _ _ rfl)

end AllocationMoves

/-- The moves of a round up to its evaluation. -/
structure RoundMoves (R : State → State → Prop) : Prop extends ZoneMoves R where
  fog : ∀ (s : State) x, R s { s with fog := x }
  pool : ∀ (s : State) x, (x.loopFail = true → s.pool.loopFail = true) → R s { s with pool := x }
  autoTarget : ∀ s v target, target ≤ 1023 → R s (State.autoTarget s v target)

/-- The state of a round that its evaluation finds: the fog unit, the zones and the positioners have been told. -/
def State.aimed (s : State) : State :=
  let fogged := s.fogRoundEnd (s.claim desiccant).grant
  let zoned := all4.foldl (fun t z => t.zoneRoundEnd z (s.zoneResult z)) fogged
  all8.foldl (fun t v => t.autoTarget v (s.roundTarget v)) zoned

theorem handOn_eq (s : State) : s.handOn = s.aimed.evaluateRound s.pool.roundSpill := by
  simp only [State.handOn, State.aimed]

namespace RoundMoves
variable (h : RoundMoves R)
include h

theorem allocationMoves : AllocationMoves R :=
  ⟨h.refl, h.trans, h.setZone_of_same, fun s x hx => h.pool s x fun hl => hx ▸ hl⟩

theorem aimed (s : State) : R s s.aimed := by
  unfold State.aimed
  dsimp only
  refine h.trans ?_ (h.foldl _ (fun t v => h.autoTarget t v _ (roundTarget_le s v)) all8 _)
  refine h.trans ?_ (h.foldl _ (fun t z => h.zoneRoundEnd t z _) all4 _)
  exact h.fog s _

end RoundMoves

/-! ### Requests that only read -/

theorem handleRead_state (s : State) (payload : List Byte) : (handleRead s payload).1 = s := by
  unfold handleRead
  dsimp only
  split
  · rfl
  · split <;> rfl

theorem handleSlabScan_state (s : State) (payload : List Byte) : (handleSlabScan s payload).1 = s := by
  unfold handleSlabScan
  dsimp only
  split
  · rfl
  · split <;> rfl

theorem handleCueProbe_state (s : State) (payload : List Byte) : (handleCueProbe s payload).1 = s := by
  unfold handleCueProbe
  dsimp only
  split <;> rfl

namespace StepMoves
variable (h : StepMoves R)
include h

/-! ### The surface controller -/

theorem autoHomeAll (s : State) : R s s.autoHomeAll := h.foldl _ h.autoHome all8 s

theorem crossFlags (s : State) (old new : Mode) : R s (s.crossFlags old new) := by
  unfold State.crossFlags
  dsimp only
  split
  · exact h.trans (h.surface s _ (by simp)) (h.post _ _ _ _ _ trivial)
  · exact h.surface s _ (by simp)

theorem announceLeaving (s : State) (old : Mode) : R s (s.announceLeaving old) := by
  unfold State.announceLeaving
  split
  · exact h.pool s _ (by exact id)
  · exact h.trans (h.pool s _ (by exact id)) (h.autoHomeAll _)
  · exact h.refl s

theorem transition (s : State) {new : Mode} (hn : new ≠ .start) (cause : Cause) : R s (s.transition new cause) := by
  unfold State.transition
  dsimp only
  refine h.trans ?_ (h.evaluate _)
  refine h.trans (h.trans (h.trans ?_ (h.freeForbidden _)) (h.crossFlags ..)) (h.announceLeaving ..)
  exact h.trans (h.mode s new hn) (h.postAll _ _ (by trivial) _ _)

theorem tryExitStart (s : State) : R s s.tryExitStart := by
  unfold State.tryExitStart
  dsimp only
  split
  · exact h.transition s (by decide) _
  · exact h.refl s

theorem surfaceMode (s : State) (payload : List Byte) : R s (handleSurfaceMode s payload).1 := by
  unfold handleSurfaceMode
  split
  · exact h.refl s
  · next new _ =>
    dsimp only
    split
    · exact h.refl s
    · split
      · exact h.refl s
      · next hgo =>
        have hn : new ≠ .start := by
          rintro rfl
          cases hm : s.surface.mode <;> simp [hm, Mode.mayGo] at hgo
        split
        · exact h.refl s
        · split
          · exact h.refl s
          · split
            · exact h.refl s
            · exact h.transition s hn _

theorem loadProfile (s : State) (p : Port) (payload : List Byte) : R s (handleLoadProfile s p payload).1 := by
  have hplant : R s (loadPlant s payload).1 := by
    unfold loadPlant
    dsimp only
    split
    · exact h.refl s
    · split
      · exact h.refl s
      · refine h.trans ?_ (h.tryExitStart _)
        exact h.trans (h.plant s (readPlant payload).clamped) (h.surface _ { s.surface with plantValid := true } rfl)
  have hbuilding : R s (loadBuilding s payload).1 := by
    unfold loadBuilding
    dsimp only
    split
    · exact h.refl s
    · refine h.trans ?_ (h.tryExitStart _)
      exact h.trans (h.building s (readBuilding payload).clamped) (h.surface _ { s.surface with buildingValid := true } rfl)
  have hlighting : R s (loadLighting s payload).1 := by
    unfold loadLighting
    dsimp only
    split
    · exact h.refl s
    · exact h.trans (h.trans (h.trans (h.surface s _ (by rfl)) (h.withLighting _ _)) (h.evaluate _)) (h.tryExitStart _)
  unfold handleLoadProfile
  split
  · exact hplant
  · exact hbuilding
  · exact hlighting
  all_goals exact h.refl s

theorem plantReport (s : State) (payload : List Byte) : R s (handlePlantReport s payload).1 := by
  unfold handlePlantReport
  dsimp only
  refine h.trans ?_ (h.evaluate _)
  split
  · exact h.trans (h.surface s _ (by rfl)) (h.postAll _ _ (by trivial) _ _)
  · exact h.surface s _ rfl

theorem judgeStale (s : State) : R s s.judgeStale := by
  unfold State.judgeStale
  split
  · exact h.trans (h.surface s _ (by rfl)) (h.postAll _ _ (by trivial) _ _)
  · exact h.refl s

theorem changeSoftIce (s : State) (on : Bool) : R s (s.changeSoftIce on) :=
  h.trans (h.trans (h.surface s _ (by rfl)) (h.post _ _ _ _ _ trivial)) (h.evaluate _)

theorem surveySlab (s : State) : R s s.surveySlab := by
  unfold State.surveySlab
  dsimp only
  split
  · exact h.surface s _ rfl
  · have hsurveyed := h.surface s { s.surface with slabBlind := false, stats := some (slabStats s.slabCells) } rfl
    split
    · refine h.trans hsurveyed ?_
      unfold State.judgeReady
      dsimp only
      split
      · split
        · exact h.trans (h.surface _ _ (by rfl)) (h.postAll _ _ (by trivial) _ _)
        · exact h.surface _ _ rfl
      · exact h.surface _ _ rfl
    · refine h.trans hsurveyed ?_
      unfold State.judgeSoftIce
      dsimp only
      generalize (if s.plant.softThreshold < (slabStats s.slabCells).max then countTo 3 s.surface.aboveRun else 0) = above
      generalize (if (slabStats s.slabCells).max ≤ s.plant.softThreshold - 5 then countTo 3 s.surface.belowRun else 0) = below
      have hcounted := h.surface { s with surface :=
          { s.surface with slabBlind := false, stats := some (slabStats s.slabCells) } }
        { s.surface with
          slabBlind := false, stats := some (slabStats s.slabCells), aboveRun := above, belowRun := below } rfl
      split
      · exact h.trans hcounted (h.changeSoftIce ..)
      · split
        · exact h.trans hcounted (h.changeSoftIce ..)
        · exact hcounted
    · exact hsurveyed

theorem tickResurface (s : State) : R s s.tickResurface := by
  unfold State.tickResurface
  split
  · exact h.refl s
  · split
    · exact h.refl s
    · split
      · exact h.transition s (by decide) _
      · exact h.surface s _ rfl

theorem resurfaceExpiry (s : State) : R s s.resurfaceExpiry := by
  unfold State.resurfaceExpiry
  split
  · exact h.transition s (by decide) _
  · exact h.refl s

/-! ### The fog unit -/

theorem changeFog (s : State) (next : FogState) (m : Int) : R s (s.changeFog next m) := by
  unfold State.changeFog
  dsimp only
  split
  · exact h.trans (h.fog s _) (h.postAll _ _ (by trivial) _ _)
  · exact h.fog s _

theorem updateFog (s : State) : R s s.updateFog.1 := by
  unfold State.updateFog
  split
  · split
    · exact h.refl s
    · dsimp only [State.goBlind]
      exact h.trans (h.fog s _) (h.post _ _ _ _ _ trivial)
  · dsimp only
    split
    · exact h.trans (h.fog s _) (h.changeFog ..)
    · split
      · exact h.changeFog ..
      · split
        · exact h.changeFog ..
        · exact h.refl s

theorem fogCycle (s : State) : R s s.fogCycle := by
  unfold State.fogCycle
  split
  · exact h.fog s _
  · have hacted : R s s.measureFog.updateFog.1.actOnFog := h.trans (h.trans (h.fog s _) (h.updateFog _)) (h.fog _ _)
    dsimp only
    split
    · exact h.trans hacted (h.evaluate _)
    · exact hacted

theorem endBlindHold (s : State) : R s s.endBlindHold := h.trans (h.fog s _) (h.fog _ _)

theorem tickBlindHold (s : State) : R s s.tickBlindHold := by
  unfold State.tickBlindHold
  split
  · exact h.refl s
  · split
    · exact h.refl s
    · split
      · exact h.endBlindHold s
      · exact h.fog s _

theorem holdEnd (s : State) : R s s.holdEnd := by
  unfold State.holdEnd
  split
  · split
    · exact h.endBlindHold s
    · exact h.refl s
  · exact h.refl s

/-! ### The probe scanner -/

theorem setProbe (s : State) (i : Fin 32) (r : Probe) : R s (s.setProbe i r) := h.scanner ..

theorem passEnd (s : State) : R s s.passEnd := by
  unfold State.passEnd
  dsimp only
  split
  · split
    · refine h.trans (h.trans (h.scanner s _) (h.surface _ _ ?_)) (h.tryExitStart _)
      rfl
    · exact h.scanner s _
  · exact h.trans (h.trans (h.scanner s _) (h.fogCycle _)) (h.surveySlab _)

theorem convertChannel (s : State) (c : Fin 32) (raw : Int) : R s (s.convertChannel c raw) := by
  unfold State.convertChannel
  dsimp only
  split
  · exact h.scanner s _
  · split
    · exact h.refl s
    · split
      · exact h.setProbe ..
      · exact h.setProbe ..

theorem convert (s : State) (raw : Int) : R s (s.convert raw) := by
  unfold State.convert
  dsimp only
  have hmoved := h.trans (h.convertChannel s s.scanner.channel (limitedRaw s.scanner.channel raw)) (h.scanner _
    { (s.convertChannel s.scanner.channel (limitedRaw s.scanner.channel raw)).scanner with channel := s.scanner.channel + 1 })
  split
  · exact h.trans hmoved (h.passEnd _)
  · exact hmoved

theorem overrideExpiry (s : State) (i : Fin 32) : R s (s.overrideExpiry i) := by
  unfold State.overrideExpiry
  split
  · split
    · exact h.setProbe ..
    · exact h.refl s
  · exact h.refl s

theorem calibrateShort (s : State) : R s (handleCalibrateShort s).1 := by
  unfold handleCalibrateShort
  split
  · exact h.refl s
  · exact h.scanner s _

theorem probeOverride (s : State) (payload : List Byte) : R s (handleProbeOverride s payload).1 := by
  unfold handleProbeOverride
  split
  · exact h.refl s
  · split
    · exact h.refl s
    · exact h.setProbe ..

theorem probeRelease (s : State) (payload : List Byte) : R s (handleProbeRelease s payload).1 := by
  unfold handleProbeRelease
  split
  · exact h.refl s
  · split
    · exact h.refl s
    · exact h.setProbe ..

/-! ### The heat pool -/

theorem roundMoves : RoundMoves R := ⟨h.toZoneMoves, h.fog, h.pool, h.autoTarget⟩

theorem setClaim (s : State) (c : Fin 8) (x : Claim) : R s (s.setClaim c x) := h.pool s _ id

theorem resurfPreheat (s : State) (payload : List Byte) : R s (handleResurfPreheat s payload).1 := by
  unfold handleResurfPreheat
  split
  · exact h.pool s _ id
  · exact h.refl s

theorem claimManual (s : State) (p : Port) (payload : List Byte) : R s (handleClaimManual s p payload).1 := by
  unfold handleClaimManual
  split
  · exact h.refl s
  · split
    · exact h.refl s
    · split
      · exact h.refl s
      · exact h.setClaim ..

theorem claimAuto (s : State) (payload : List Byte) : R s (handleClaimAuto s payload).1 := by
  unfold handleClaimAuto
  split
  · exact h.refl s
  · split
    · exact h.refl s
    · exact h.setClaim ..

theorem allocationRound (hr : ∀ (s : State) spill, R s (s.evaluateRound spill)) (s : State) : R s s.allocationRound := by
  unfold State.allocationRound
  split
  · exact h.refl s
  · rw [handOn_eq]
    exact h.trans (h.trans (h.roundMoves.allocationMoves.allocate s) (h.roundMoves.aimed _)) (hr _ _)

/-! ### The loop failure monitor -/

theorem countMonitor (s : State) : R s s.countMonitor := by
  unfold State.countMonitor
  split
  · exact h.pool s _ id
  · unfold State.countLoopRuns
    split <;> exact h.pool s _ id

theorem settleMonitor (s : State) : R s s.settleMonitor := by
  unfold State.settleMonitor
  split
  · split
    · exact h.trans (h.trans (h.pool s _ (by simp)) (h.postAll _ _ (by trivial) _ _)) (h.fog _ _)
    · exact h.refl s
  · split
    · exact h.setLoopFail ..
    · exact h.refl s

theorem tickMonitor (s : State) : R s s.tickMonitor := by
  unfold State.tickMonitor
  split
  · exact h.refl s
  · exact h.trans (h.countMonitor s) (h.settleMonitor _)

theorem monitorEvent (s : State) (failing : Bool) : R s (s.monitorEvent failing) := by
  unfold State.monitorEvent
  split
  · exact h.settleMonitor s
  · split
    · exact h.trans (h.countMonitor s) (h.settleMonitor _)
    · exact h.refl s

/-! ### The device second tick -/

theorem deviceTick (s : State) : R s s.deviceTick := by
  unfold State.deviceTick
  dsimp only
  refine h.trans (h.trans ?_ (h.tickZones _)) (h.tickMonitor _)
  refine h.trans (h.trans (h.trans ?_ (h.tickResurface _)) (h.fog _ _)) (h.tickBlindHold _)
  refine h.trans (h.trans (h.trans (h.deviceSeconds s _) (h.scanner _ _)) (h.surface _ _ ?_)) (h.judgeStale _)
  rfl

/-! ### The tenant ports -/

theorem authSet (s : State) (payload : List Byte) : R s (handleAuthSet s payload).1 := by
  unfold handleAuthSet
  split
  · split
    · exact h.refl s
    · next hlock => exact h.setDomain s _ _ fun hl => absurd hl hlock
  · exact h.refl s

theorem authLock (s : State) (payload : List Byte) : R s (handleAuthLock s payload).1 := by
  unfold handleAuthLock
  split
  · refine h.setDomain s _ _ fun hl => ?_
    rw [← hl]
  · exact h.refl s

theorem collect (s : State) (p : Port) : R s (handleCollect s p).1 := by
  unfold handleCollect
  dsimp only
  split
  · exact h.refl s
  · next hq => exact h.port _ _ _ (by simp [hq])

theorem handOver (s : State) (p : Port) (k : RequestKind) (payload : List Byte) : R s (s.handOver p k payload).1 := by
  cases k with
  | status => exact h.refl s
  | collect => exact h.collect s p
  | read => rw [State.handOver, handleRead_state]; exact h.refl s
  | authSet => exact h.authSet s payload
  | authLock => exact h.authLock s payload
  | calibrateShort => exact h.calibrateShort s
  | probeOverride => exact h.probeOverride s payload
  | probeRelease => exact h.probeRelease s payload
  | surfaceMode => exact h.surfaceMode s payload
  | loadProfile => exact h.loadProfile s p payload
  | plantReport => exact h.plantReport s payload
  | slabScan => rw [State.handOver, handleSlabScan_state]; exact h.refl s
  | resurfPreheat => exact h.resurfPreheat s payload
  | claimManual => exact h.claimManual s p payload
  | claimAuto => exact h.claimAuto s payload
  | zoneSet => exact h.zoneSet s payload
  | zoneSource => exact h.zoneSource s p payload
  | zoneLock => exact h.zoneLock s payload
  | move => exact h.move s p payload
  | home => exact h.home s p payload
  | posMode => exact h.posMode s payload
  | go => exact h.go s p payload
  | cueWrite => exact h.cueWrite s payload
  | cueInvalidate => exact h.cueInvalidate s payload
  | cueProbe => rw [State.handOver, handleCueProbe_state]; exact h.refl s
  | release => exact h.release s p payload

theorem judgeRequest (s : State) (p : Port) (code : Byte) (payload : List Byte) : R s (s.judgeRequest p code payload).1 := by
  unfold State.judgeRequest
  split
  · exact h.refl s
  · split
    · exact h.refl s
    · split
      · exact h.refl s
      · split
        · exact h.refl s
        · exact h.handOver ..
        · split
          · exact h.handOver ..
          · exact h.refl s

/-- The port's own state changes, and its completion queue stays. -/
theorem port_of_queue (s : State) (p : Port) (q : PortState) (hq : q.queue = (s.port p).queue) : R s (s.setPort p q) :=
  h.port s p q (hq ▸ List.suffix_refl _)

theorem takeRequest (s : State) (p : Port) (code : Byte) (payload : List Byte) : R s (s.takeRequest p code payload) :=
  h.trans (h.trans (h.port_of_queue s p _ (by rfl)) (h.judgeRequest _ p code payload)) (h.port_of_queue _ _ _ (by rfl))

theorem failLink (s : State) (p : Port) : R s (s.failLink p) :=
  h.trans (h.port_of_queue s p _ (by rfl)) (h.port_of_queue _ _ _ (by rfl))

theorem judgeFrame (s : State) (p : Port) : R s (s.judgeFrame p) := by
  unfold State.judgeFrame
  dsimp only
  split
  · exact h.failLink s p
  · exact h.takeRequest ..

theorem frameByte (s : State) (p : Port) (b : RxByte) : R s (s.frameByte p b) := by
  unfold State.frameByte
  dsimp only
  split
  · split
    · exact h.port_of_queue _ _ _ rfl
    · exact h.failLink s p
  · split
    · exact h.trans (h.port_of_queue _ _ _ (by rfl)) (h.judgeFrame _ p)
    · exact h.port_of_queue _ _ _ rfl

theorem receiveByte (p : Port) (s : State) (b : RxByte) : R s (s.receiveByte p b) := by
  unfold State.receiveByte
  dsimp only
  split
  · exact h.refl s
  · split
    · exact h.port_of_queue _ _ _ rfl
    · split
      · exact h.port_of_queue _ _ _ rfl
      · split
        · refine h.port_of_queue _ _ _ ?_
          unfold PortState.idleByte
          split <;> rfl
        · exact h.frameByte s p b
        all_goals
          refine h.port_of_queue _ _ _ ?_
          unfold PortState.busyByte
          split <;> rfl

theorem receive (s : State) (p : Port) (bytes : List RxByte) : R s (s.receive p bytes) :=
  h.foldl _ (h.receiveByte p) bytes s

theorem request (s : State) (p : Port) (code : Byte) (payload : List Byte) : R s (s.request p code payload) := h.receive ..

theorem gap (s : State) (p : Port) : R s (s.gap p) := by
  unfold State.gap
  split
  · exact h.failLink s p
  · exact h.port_of_queue _ _ _ rfl

theorem resultSent (s : State) (p : Port) : R s (s.setPort p (s.port p).resultSent) := by
  refine h.port_of_queue _ _ _ ?_
  unfold PortState.resultSent
  split <;> rfl

/-! ### Commands -/

/-- Every command but power-on reset is a chain of moves; an allocation round is one with the evaluation that ends it. -/
theorem exec {c : Instr} (hround : c = .allocationRound → ∀ s : State, R s s.allocationRound)
    (hreset : ∀ straps drvfault endstop proven, c ≠ .powerOnReset straps drvfault endstop proven) (s : State) :
    ∃ t, Machine.exec c s = .next t ∧ R s t := by
  cases c with
  | powerOnReset straps drvfault endstop proven => exact (hreset _ _ _ _ rfl).elim
  | probeConversion raw => exact ⟨_, rfl, h.convert s raw⟩
  | deviceSecondTick => exact ⟨_, rfl, h.deviceTick s⟩
  | overrideExpiry i => exact ⟨_, rfl, h.overrideExpiry s i⟩
  | resurfaceTimerExpiry => exact ⟨_, rfl, h.resurfaceExpiry s⟩
  | plantStale => exact ⟨_, rfl, h.judgeStale s⟩
  | blindHoldEnd => exact ⟨_, rfl, h.holdEnd s⟩
  | loopFail => exact ⟨_, rfl, h.monitorEvent s true⟩
  | loopRestored => exact ⟨_, rfl, h.monitorEvent s false⟩
  | loopProved z => exact ⟨_, rfl, h.loopProved s z⟩
  | switchTimeout z => exact ⟨_, rfl, h.provingTimeout s z⟩
  | boilerProvenActive level =>
    cases level with
    | true => exact ⟨_, rfl, h.provenRises s⟩
    | false => exact ⟨_, rfl, h.boilerProven s false⟩
  | allocationRound => exact ⟨_, rfl, hround rfl s⟩
  | positionerStep v => exact ⟨_, rfl, h.travelTimer s v⟩
  | travelEnd v => exact ⟨_, rfl, h.travelEnd s v⟩
  | homingStep v => exact ⟨_, rfl, h.homingTimer s v⟩
  | homeFail v => exact ⟨_, rfl, h.homingFailure s v⟩
  | endstopActive v level =>
    cases level with
    | true => exact ⟨_, rfl, h.endstopRises s v⟩
    | false => exact ⟨_, rfl, h.endstopFalls s v⟩
  | drvfaultActive v level =>
    cases level with
    | true => exact ⟨_, rfl, h.drvfaultRises s v⟩
    | false => exact ⟨_, rfl, h.drvfaultFalls s v⟩
  | delayEnd n => exact ⟨_, rfl, h.delayEnd s n⟩
  | holdExpiry n => exact ⟨_, rfl, h.holdExpiry s n⟩
  | fadeStep n => exact ⟨_, rfl, h.fadeStep s n⟩
  | cueDone n => exact ⟨_, rfl, h.fadeDone s n⟩
  | fillTimeout l w => exact ⟨_, rfl, h.fillTimeout s l w⟩
  | frameStart => exact ⟨_, rfl, h.frame s _ _⟩
  | interByteGap p bytes => exact ⟨_, rfl, h.trans (h.receive s p bytes) (h.gap _ p)⟩
  | linkError p bytes => exact ⟨_, rfl, h.receive s p bytes⟩
  | outOfTurnFrame p bytes => exact ⟨_, rfl, h.receive s p bytes⟩
  | breakLine p => exact ⟨_, rfl, h.port_of_queue s p _ rfl⟩
  | resultSent p => exact ⟨_, rfl, h.resultSent s p⟩
  | discardGap p => exact ⟨_, rfl, h.port_of_queue s p _ rfl⟩
  | rxReturnedHigh p => exact ⟨_, rfl, h.port_of_queue s p _ rfl⟩
  | unknownRequest p code payload => exact ⟨_, rfl, h.request s p code payload⟩
  | status p payload => exact ⟨_, rfl, h.request s p _ payload⟩
  | collect p payload => exact ⟨_, rfl, h.request s p _ payload⟩
  | read p payload => exact ⟨_, rfl, h.request s p _ payload⟩
  | authSet p payload => exact ⟨_, rfl, h.request s p _ payload⟩
  | authLock p payload => exact ⟨_, rfl, h.request s p _ payload⟩
  | calibrateShort p payload => exact ⟨_, rfl, h.request s p _ payload⟩
  | probeOverride p payload => exact ⟨_, rfl, h.request s p _ payload⟩
  | probeRelease p payload => exact ⟨_, rfl, h.request s p _ payload⟩
  | surfaceMode p payload => exact ⟨_, rfl, h.request s p _ payload⟩
  | loadProfile p payload => exact ⟨_, rfl, h.request s p _ payload⟩
  | plantReport p payload => exact ⟨_, rfl, h.request s p _ payload⟩
  | slabScan p payload => exact ⟨_, rfl, h.request s p _ payload⟩
  | resurfPreheat p payload => exact ⟨_, rfl, h.request s p _ payload⟩
  | claimManual p payload => exact ⟨_, rfl, h.request s p _ payload⟩
  | claimAuto p payload => exact ⟨_, rfl, h.request s p _ payload⟩
  | zoneSet p payload => exact ⟨_, rfl, h.request s p _ payload⟩
  | zoneSource p payload => exact ⟨_, rfl, h.request s p _ payload⟩
  | zoneLock p payload => exact ⟨_, rfl, h.request s p _ payload⟩
  | move p payload => exact ⟨_, rfl, h.request s p _ payload⟩
  | home p payload => exact ⟨_, rfl, h.request s p _ payload⟩
  | posMode p payload => exact ⟨_, rfl, h.request s p _ payload⟩
  | go p payload => exact ⟨_, rfl, h.request s p _ payload⟩
  | cueWrite p payload => exact ⟨_, rfl, h.request s p _ payload⟩
  | cueInvalidate p payload => exact ⟨_, rfl, h.request s p _ payload⟩
  | cueProbe p payload => exact ⟨_, rfl, h.request s p _ payload⟩
  | release p payload => exact ⟨_, rfl, h.request s p _ payload⟩

end StepMoves

/-- A step lets a millisecond pass, or takes the oldest command. -/
theorem step_cases {s t : State} (hs : step s = .next t) :
    (s.pending = [] ∧ t = s.idle) ∨
      ∃ c rest, s.pending = c :: rest ∧ exec c { s with pending := rest } = .next t := by
  unfold step at hs
  split at hs
  · next hp => exact .inl ⟨hp, by simpa using hs.symm⟩
  · next c rest hp => exact .inr ⟨c, rest, hp, hs⟩

/-- A relation that the moves keep, and a round and a millisecond too, holds between a state and the one that a step makes of it,
unless the step is a power-on reset. -/
theorem step_related (h : StepMoves R) {s t : State}
    (hround : s.pending.head? = some .allocationRound → ∀ s : State, R s s.allocationRound) (hidle : ∀ s : State, R s s.idle)
    (hpending : ∀ (s : State) rest, R s { s with pending := rest }) (ht : step s = .next t) :
    (∃ straps drvfault endstop proven, s.pending.head? = some (.powerOnReset straps drvfault endstop proven) ∧
      t = ({ s with pending := s.pending.tail }.released straps drvfault endstop proven).faultAtReset) ∨
    ((∀ straps drvfault endstop proven, s.pending.head? ≠ some (.powerOnReset straps drvfault endstop proven)) ∧ R s t) := by
  obtain ⟨hp, rfl⟩ | ⟨c, rest, hp, he⟩ := step_cases ht
  · exact .inr ⟨by simp [hp], hidle s⟩
  · by_cases hc : ∃ straps drvfault endstop proven, c = .powerOnReset straps drvfault endstop proven
    · obtain ⟨straps, drvfault, endstop, proven, rfl⟩ := hc
      refine .inl ⟨straps, drvfault, endstop, proven, by simp [hp], ?_⟩
      rw [hp, List.tail_cons]
      exact (Host.Outcome.next.inj he).symm
    · have hreset : ∀ straps drvfault endstop proven, c ≠ .powerOnReset straps drvfault endstop proven :=
        fun a b d e hcc => hc ⟨a, b, d, e, hcc⟩
      obtain ⟨t', ht', hR⟩ := h.exec (c := c) (fun hcc => hround (by simp [hp, hcc])) hreset { s with pending := rest }
      obtain rfl : t' = t := by simpa [ht'] using he
      exact .inr ⟨by simpa [hp] using hreset, h.trans (hpending s rest) hR⟩

/-- A property that the moves keep, and a round, a millisecond and power-on reset too, is kept by every step. -/
theorem kept_by_step {P : State → Prop} (h : StepMoves (fun s t => P s → P t)) (hround : ∀ s : State, P s → P s.allocationRound)
    (hidle : ∀ s : State, P s → P s.idle)
    (hreset : ∀ (s : State) straps drvfault endstop proven, P (s.released straps drvfault endstop proven).faultAtReset)
    (hpending : ∀ (s : State) rest, P s → P { s with pending := rest }) {s t : State} (hs : P s) (ht : step s = .next t) : P t := by
  have hstep := step_related (R := fun s t => P s → P t) h (fun _ => hround) hidle hpending ht
  rcases hstep with ⟨straps, drvfault, endstop, proven, -, ht⟩ | ⟨-, hR⟩
  · rw [ht]
    exact hreset _ straps drvfault endstop proven
  · exact hR hs

end Sys2Proof.Machine
end

