-- ==== Sys2Proof/Proofs/Posting.lean ====
section
/-! PROOFS. The completion queues: what the blocks' operations do at the ports is to post records, and a step keeps the queues
within their capacity (R164). -/

namespace Sys2Proof.Machine

/-! ### Entry into FADING and freeing touch no port -/

/-- Nothing but the channels, the slots and the headroom queue differs. -/
def FadingOnly (s t : State) : Prop :=
  t = { s with channels := t.channels, slots := t.slots, governor := { s.governor with queue := t.governor.queue } }

theorem FadingOnly.refl (s : State) : FadingOnly s s := rfl

theorem FadingOnly.trans {a b c : State} (h : FadingOnly a b) (k : FadingOnly b c) : FadingOnly a c := by
  unfold FadingOnly at *
  rw [k, h]

theorem fading_setChannel (s : State) (c : Fin 96) (x : Channel) : FadingOnly s (s.setChannel c x) := rfl

theorem fading_writeLevels (s : State) (n : Fin 8) : FadingOnly s (s.writeLevels n) :=
  foldl_related FadingOnly.refl FadingOnly.trans _ (fun _ _ => fading_setChannel ..) _ s

theorem fading_takeChannel (n : Fin 8) (s : State) (e : ListEntry) : FadingOnly s (State.takeChannel n s e) := by
  unfold State.takeChannel
  refine FadingOnly.trans ?_ (fading_setChannel ..)
  split
  · exact FadingOnly.refl s
  · split <;> rfl

theorem fading_startFading (s : State) (n : Fin 8) : FadingOnly s (s.startFading n) := by
  unfold State.startFading
  refine FadingOnly.trans ?_ (fading_writeLevels ..)
  exact (foldl_related FadingOnly.refl FadingOnly.trans _ (fading_takeChannel n) _ s).trans rfl

@[simp] theorem freeSlot_ports (s : State) (n : Fin 8) : (s.freeSlot n).ports = s.ports := rfl
@[simp] theorem writeLevels_ports (s : State) (n : Fin 8) : (s.writeLevels n).ports = s.ports :=
  (congrArg State.ports (fading_writeLevels s n) :)
@[simp] theorem startFading_ports (s : State) (n : Fin 8) : (s.startFading n).ports = s.ports :=
  (congrArg State.ports (fading_startFading s n) :)

/-- A port's state is a part of the ports. -/
theorem port_congr {s t : State} (h : t.ports = s.ports) (p : Port) : t.port p = s.port p := by
  cases p <;> simp [State.port, h]

/-! ### Posting only -/

/-- What happens at each port is that records of the kinds `K` are posted to it. -/
def PostedOnly (K : RecordKind → Prop) (s t : State) : Prop :=
  ∀ p, ∃ rs : List Record, (∀ r ∈ rs, K r.kind) ∧ t.port p = rs.foldl PortState.enqueue (s.port p)

theorem PostedOnly.of_ports {K : RecordKind → Prop} {s t : State} (h : t.ports = s.ports) : PostedOnly K s t :=
  fun p => ⟨[], by simp, port_congr h p⟩

theorem PostedOnly.refl {K : RecordKind → Prop} (s : State) : PostedOnly K s s := .of_ports rfl

theorem PostedOnly.trans {K : RecordKind → Prop} {a b c : State} (h : PostedOnly K a b) (k : PostedOnly K b c) :
    PostedOnly K a c := by
  intro p
  obtain ⟨rs, hrs, hb⟩ := h p
  obtain ⟨rs', hrs', hc⟩ := k p
  refine ⟨rs ++ rs', fun r hr => ?_, by rw [hc, hb, List.foldl_append]⟩
  exact (List.mem_append.mp hr).elim (hrs r) (hrs' r)

theorem postedOnly_post {K : RecordKind → Prop} (s : State) (p : Port) (k : RecordKind) (o : Nat) (v : Int) (hk : K k) :
    PostedOnly K s (s.post p k o v) := by
  intro p'
  by_cases hp : p' = p
  · subst hp
    exact ⟨[⟨k, o, v, s.deviceSeconds⟩], by simpa using hk, port_post_same ..⟩
  · exact ⟨[], by simp, port_post_other s k o v hp⟩

theorem PostedOnly.mono {K K' : RecordKind → Prop} (hK : ∀ k, K k → K' k) {s t : State} (h : PostedOnly K s t) :
    PostedOnly K' s t := fun p => by
  obtain ⟨rs, hrs, ht⟩ := h p
  exact ⟨rs, fun r hr => hK _ (hrs r hr), ht⟩

theorem postedOnly_postMoves (K : RecordKind → Prop) : PostMoves K (PostedOnly K) :=
  ⟨.refl, .trans, fun s p k o v => postedOnly_post s p k o v⟩

theorem postedOnly_lightingMoves : LightingMoves (PostedOnly RecordKind.ordinary) where
  toPostMoves := postedOnly_postMoves _
  freeSlot _ _ := .of_ports rfl
  startFading _ _ := .of_ports (by simp)
  setSlot _ _ _ := .of_ports rfl
  setEntry _ _ _ _ := .of_ports rfl
  setLru _ _ _ := .of_ports rfl
  writeLevels _ _ := .of_ports (by simp)
  waitHeadroom _ _ := .of_ports rfl

theorem postedOnly_evaluationMoves : EvaluationMoves (PostedOnly RecordKind.ordinary) :=
  ⟨postedOnly_lightingMoves, fun s => postedOnly_lightingMoves.evaluateOnce (fun _ _ => .of_ports rfl) s _ _⟩

theorem setChannel_foldl_ports {α : Type} (f : State → α → Fin 96 × Channel) (l : List α) (s : State) :
    (l.foldl (fun t x => t.setChannel (f t x).1 (f t x).2) s).ports = s.ports := by
  induction l generalizing s with
  | nil => rfl
  | cons x l ih => exact ih _

@[simp] theorem withLighting_ports (s : State) (payload : List Byte) : (s.withLighting payload).ports = s.ports := by
  unfold State.withLighting
  exact setChannel_foldl_ports (fun t c => (c, (t.channel c).withProfile payload c)) _ s

theorem postedOnly_lightingOperations : LightingOperations (PostedOnly RecordKind.ordinary) :=
  postedOnly_evaluationMoves.operations fun _ _ => .of_ports (by simp)

theorem postedOnly_positionerMoves : PositionerMoves (PostedOnly fun _ => True) where
  toPostMoves := postedOnly_postMoves _
  positioners _ _ := .of_ports rfl
  openChoices _ _ := .of_ports rfl

theorem postedOnly_zoneMoves : ZoneMoves (PostedOnly fun _ => True) where
  toPostMoves := postedOnly_postMoves _
  setZone _ _ _ _ := .of_ports rfl
  boilerProven _ _ := .of_ports rfl

/-! ### The capacity of the queues -/

theorem foldl_enqueue_length (rs : List Record) (q : PortState) (h : q.queue.length ≤ 8) :
    (rs.foldl PortState.enqueue q).queue.length ≤ 8 := by
  induction rs generalizing q with
  | nil => exact h
  | cons r rs ih => exact ih _ (enqueue_length q r h)

theorem PostedOnly.queuesBounded {K : RecordKind → Prop} {s t : State} (h : PostedOnly K s t) (hs : s.queuesBounded) :
    t.queuesBounded := by
  intro p
  obtain ⟨rs, -, hp⟩ := h p
  exact hp ▸ foldl_enqueue_length rs _ (hs p)

theorem queuesBounded_of_ports {s t : State} (h : t.ports = s.ports) (hs : s.queuesBounded) : t.queuesBounded :=
  PostedOnly.queuesBounded (K := fun _ => True) (.of_ports h) hs

theorem queuesBounded_setPort (s : State) (p : Port) (q : PortState) (hq : q.queue <:+ (s.port p).queue)
    (hs : s.queuesBounded) : (s.setPort p q).queuesBounded := by
  intro p'
  by_cases hp : p' = p
  · subst hp
    rw [port_setPort_same]
    exact hq.length_le.trans (hs p')
  · rw [port_setPort_other s q hp]
    exact hs p'

theorem queuesBounded_stepMoves : StepMoves (fun s t => s.queuesBounded → t.queuesBounded) where
  refl _ := id
  trans h k := k ∘ h
  post s p k o v _ := (postedOnly_post (K := fun _ => True) s p k o v trivial).queuesBounded
  setZone _ _ _ _ := queuesBounded_of_ports rfl
  boilerProven _ _ := queuesBounded_of_ports rfl
  toLightingOperations := postedOnly_lightingOperations.mono fun h => h.queuesBounded
  toPositionerOperations := postedOnly_positionerMoves.operations.mono fun h => h.queuesBounded
  port s p q hq := queuesBounded_setPort s p q hq
  scanner _ _ := queuesBounded_of_ports rfl
  surface _ _ _ := queuesBounded_of_ports rfl
  mode _ _ _ := queuesBounded_of_ports rfl
  plant _ _ := queuesBounded_of_ports rfl
  building _ _ := queuesBounded_of_ports rfl
  fog _ _ := queuesBounded_of_ports rfl
  pool _ _ _ := queuesBounded_of_ports rfl
  setLoopFail s cause := (setLoopFail_of_moves postedOnly_zoneMoves (fun _ _ => .of_ports rfl) (fun _ _ => .of_ports rfl) s
    cause).queuesBounded
  frame _ _ _ := queuesBounded_of_ports rfl
  deviceSeconds _ _ := queuesBounded_of_ports rfl
  setDomain _ _ _ _ := queuesBounded_of_ports rfl

theorem postedOnly_evaluateRound (s : State) (spill : Nat) : PostedOnly RecordKind.ordinary s (s.evaluateRound spill) :=
  postedOnly_evaluationMoves.evaluateRound
    (fun s _ => postedOnly_lightingMoves.evaluateOnce (fun _ _ => .of_ports rfl) s _ _) s spill

theorem postedOnly_faultAtReset (s : State) : PostedOnly (fun _ => True) s s.faultAtReset := by
  refine (postedOnly_postMoves _).foldl _ (fun t v => ?_) all8 s
  split
  · exact postedOnly_positionerMoves.enterFault t v _
  · exact .refl t

/-- Settles O56: only posting and COLLECT change a queue, and neither leaves more than 8 records. -/
theorem queuesStayWithinCapacity : Obligations.QueuesStayWithinCapacity := fun _ _ hs ht =>
  kept_by_step queuesBounded_stepMoves
    (fun s => queuesBounded_stepMoves.allocationRound (fun s spill => (postedOnly_evaluateRound s spill).queuesBounded) s)
    (fun _ => queuesBounded_of_ports rfl)
    (fun s straps _ _ _ => (postedOnly_faultAtReset _).queuesBounded (by intro p; cases p <;> exact Nat.zero_le 8))
    (fun _ _ => queuesBounded_of_ports rfl) hs ht

end Sys2Proof.Machine
end

