-- ==== Sys2Proof/Proofs/StepSafety.lean ====
section
/-! PROOFS. What every step keeps: mode and locked domains (R58, R171, R172), the zones under LOOP_FAIL (R94), and the governor's
figures (R118, R119). -/

namespace Sys2Proof.Machine

/-! ### The mode and the locked domains -/

/-- The part does not come back to START, and a locked domain stays as it is. -/
def KeepsModeAndLocks (s t : State) : Prop :=
  (s.surface.mode ≠ .start → t.surface.mode ≠ .start) ∧
    ∀ d, (pick s.authority d).locked = true → pick t.authority d = pick s.authority d

theorem KeepsModeAndLocks.of_same {s t : State} (hm : t.surface.mode = s.surface.mode) (ha : t.authority = s.authority) :
    KeepsModeAndLocks s t := ⟨by rw [hm]; exact id, fun d _ => by rw [ha]⟩

theorem KeepsModeAndLocks.trans {a b c : State} (h : KeepsModeAndLocks a b) (k : KeepsModeAndLocks b c) :
    KeepsModeAndLocks a c := by
  refine ⟨k.1 ∘ h.1, fun d hd => ?_⟩
  have hb := h.2 d hd
  rw [k.2 d (by rw [hb]; exact hd), hb]

theorem keepsModeAndLocks_zoneMoves : ZoneMoves KeepsModeAndLocks where
  refl _ := .of_same rfl rfl
  trans := .trans
  post _ _ _ _ _ _ := .of_same (by simp) (by simp)
  setZone _ _ _ _ := .of_same rfl rfl
  boilerProven _ _ := .of_same rfl rfl

theorem keepsModeAndLocks_stepMoves : StepMoves KeepsModeAndLocks where
  toZoneMoves := keepsModeAndLocks_zoneMoves
  toLightingOperations := lightingOnly_operations.mono fun h => by rw [h]; exact .of_same rfl rfl
  toPositionerOperations := positionersOnly_operations.mono fun h => by rw [h]; exact .of_same rfl rfl
  port _ _ _ _ := .of_same (by simp) (by simp)
  scanner _ _ := .of_same rfl rfl
  surface _ _ hm := .of_same hm rfl
  mode _ _ hn := ⟨fun _ => hn, fun _ _ => rfl⟩
  plant _ _ := .of_same rfl rfl
  building _ _ := .of_same rfl rfl
  fog _ _ := .of_same rfl rfl
  pool _ _ _ := .of_same rfl rfl
  setLoopFail := setLoopFail_of_moves keepsModeAndLocks_zoneMoves (fun _ _ => .of_same rfl rfl) (fun _ _ => .of_same rfl rfl)
  frame _ _ _ := .of_same rfl rfl
  deviceSeconds _ _ := .of_same rfl rfl
  setDomain s d x hx := by
    refine ⟨id, fun d' hl => ?_⟩
    by_cases hd : d' = d
    · subst hd; simpa [State.setDomain] using hx hl
    · exact pick_put_other _ x hd

/-- Settles O59: no move of a step but those of power-on reset enters START or touches a locked domain. -/
theorem onlyResetReentersStartOrUnlocks : Obligations.OnlyResetReentersStartOrUnlocks := by
  intro s t ht
  have hround : ∀ s : State, KeepsModeAndLocks s s.allocationRound := keepsModeAndLocks_stepMoves.allocationRound
    fun s spill => by rw [lighting_evaluateRound s spill]; exact .of_same rfl rfl
  obtain ⟨straps, drvfault, endstop, proven, hp, -⟩ | ⟨-, hkeeps⟩ :=
    step_related keepsModeAndLocks_stepMoves (fun _ => hround) (fun _ => .of_same rfl rfl) (fun _ _ => .of_same rfl rfl) ht
  · exact .inl ⟨straps, drvfault, endstop, proven, hp⟩
  · exact .inr hkeeps

/-! ### The zones under LOOP_FAIL -/

@[simp] theorem zone_postZone (s : State) (p : Option Port) (k : RecordKind) (z y : Fin 4) (x : Source) :
    (s.postZone p k z x).zone y = s.zone y := by
  unfold State.postZone
  dsimp only
  split <;> simp

@[simp] theorem boilerProven_postTo (s : State) (p : Option Port) (k : RecordKind) (o : Nat) (v : Int) :
    (s.postTo p k o v).boilerProven = s.boilerProven := by cases p <;> simp [State.postTo]

@[simp] theorem boilerProven_postZone (s : State) (p : Option Port) (k : RecordKind) (z : Fin 4) (x : Source) :
    (s.postZone p k z x).boilerProven = s.boilerProven := by
  unfold State.postZone
  dsimp only
  split <;> simp

/-- A zone that proves the boiler, after the input has been read: on it at once when it is proven (R87, R88). -/
def Zone.afterProven (zn : Zone) (proven : Bool) : Zone :=
  match zn.switch with
  | .provingBoiler _ => if proven then { zn with switch := .steady, port := none, source := .boiler, starved := 0 } else zn
  | _ => zn

theorem zone_setZone (s : State) (z y : Fin 4) (x : Zone) : (s.setZone z x).zone y = if y = z then x else s.zone y :=
  pick_put ..

theorem zone_readProven (s : State) (z y : Fin 4) :
    (s.readProven z).zone y = if y = z then (s.zone z).afterProven s.boilerProven else s.zone y := by
  unfold State.readProven Zone.afterProven
  split
  · next left hleft =>
    split
    · simp [State.completeSwitch, hleft, zone_setZone, Zone.steadied]
    · split <;> simp_all
  · split <;> simp_all

@[simp] theorem readProven_boilerProven (s : State) (z : Fin 4) : (s.readProven z).boilerProven = s.boilerProven :=
  (congrArg State.boilerProven (zones_readProven s z) :)

theorem zone_failOverZone (s : State) (z y : Fin 4) :
    (s.failOverZone z).zone y = if y = z then (s.zone z).failedOver s.boilerProven else s.zone y := by
  unfold State.failOverZone Zone.failedOver
  dsimp only
  split
  · next hfails =>
    rw [zone_readProven]
    simp only [zone_postZone, zone_setZone, boilerProven_postZone, setZone_boilerProven, hfails]
    cases hsw : (s.zone z).switch <;> cases hp : s.boilerProven <;> split <;> simp [Zone.afterProven]
  · next hfails => split <;> simp_all

theorem failOverZone_boilerProven (s : State) (z : Fin 4) : (s.failOverZone z).boilerProven = s.boilerProven := by
  unfold State.failOverZone
  dsimp only
  split <;> simp

/-- Four zones, each changed by an operation that touches it alone. -/
theorem zone_foldl_all4 (f : State → Fin 4 → State) (g : Bool → Zone → Zone)
    (hz : ∀ s z y, (f s z).zone y = if y = z then g s.boilerProven (s.zone z) else s.zone y)
    (hb : ∀ s z, (f s z).boilerProven = s.boilerProven) (s : State) (y : Fin 4) :
    (all4.foldl f s).zone y = g s.boilerProven (s.zone y) := by
  fin_cases y <;> simp [all4, hz, hb]

theorem zone_failOver (s : State) (y : Fin 4) : s.failOver.zone y = (s.zone y).failedOver s.boilerProven :=
  zone_foldl_all4 State.failOverZone (fun b z => z.failedOver b) zone_failOverZone failOverZone_boilerProven s y

theorem failsOver_failedOver (zn : Zone) (proven : Bool) : (zn.failedOver proven).failsOver = false := by
  unfold Zone.failedOver
  split
  · assumption
  · split
    · rfl
    · simp only [Zone.failsOver]
      cases zn.switch <;> rfl

theorem loopSound_of_same {s t : State} (hp : t.pool.loopFail = s.pool.loopFail) (hz : t.zones = s.zones) (hs : s.loopSound) :
    t.loopSound := by
  intro hl z
  rw [State.zone, hz]
  exact hs (hp ▸ hl) z

@[simp] theorem zone_judgeFogBackup (s : State) (z : Fin 4) : s.judgeFogBackup.zone z = s.zone z := rfl

theorem setLoopFail_zone (s : State) (cause : LoopCause) (z : Fin 4) :
    (s.setLoopFail cause).zone z = (s.zone z).failedOver s.boilerProven := by
  simp only [State.setLoopFail, zone_judgeFogBackup, zone_failOver]
  simp [State.postAll, State.zone]

theorem loopSound_stepMoves : StepMoves (fun s t => s.loopSound → t.loopSound) where
  refl _ := id
  trans h k := k ∘ h
  post _ _ _ _ _ _ := loopSound_of_same (by simp) (by simp)
  setZone s z x hx hs := by
    intro hl y
    rw [zone_setZone]
    split
    · by_contra hne
      have hold := hx (by simpa using hne) hl
      rw [hs hl z] at hold
      contradiction
    · exact hs hl y
  boilerProven _ _ := loopSound_of_same rfl rfl
  toLightingOperations := lightingOnly_operations.mono fun h => by rw [h]; exact loopSound_of_same rfl rfl
  toPositionerOperations := positionersOnly_operations.mono fun h => by rw [h]; exact loopSound_of_same rfl rfl
  port _ _ _ _ := loopSound_of_same (by simp) (by simp)
  scanner _ _ := loopSound_of_same rfl rfl
  surface _ _ _ := loopSound_of_same rfl rfl
  mode _ _ _ := loopSound_of_same rfl rfl
  plant _ _ := loopSound_of_same rfl rfl
  building _ _ := loopSound_of_same rfl rfl
  fog _ _ := loopSound_of_same rfl rfl
  pool _ _ hx hs := fun hl => hs (hx hl)
  setLoopFail s cause _ := fun _ z => by rw [setLoopFail_zone]; exact failsOver_failedOver ..
  frame _ _ _ := loopSound_of_same rfl rfl
  deviceSeconds _ _ := loopSound_of_same rfl rfl
  setDomain _ _ _ _ := loopSound_of_same rfl rfl

theorem positionersOnly_faultAtReset (s : State) : PositionersOnly s s.faultAtReset := by
  refine positioners_foldl _ (fun t v => ?_) all8 s
  split
  · exact positioners_enterFault ..
  · exact PositionersOnly.refl t

/-- Settles O20: a zone comes onto RECOVERED, or to prove toward it, only while LOOP_FAIL is clear, and LOOP_FAIL sets together with
the fail-over of every such zone. -/
theorem noZoneStandsOnAFailedLoop : Obligations.NoZoneStandsOnAFailedLoop := fun _ _ hs ht =>
  kept_by_step loopSound_stepMoves
    (loopSound_stepMoves.allocationRound
      fun s spill => by rw [lighting_evaluateRound s spill]; exact loopSound_of_same rfl rfl)
    (fun _ => loopSound_of_same rfl rfl)
    (fun s straps drvfault endstop proven => by
      rw [positionersOnly_faultAtReset]
      exact fun hl => by simp [State.released, State.reset, Pool.reset] at hl)
    (fun _ _ => loopSound_of_same rfl rfl) hs ht

end Sys2Proof.Machine
end

