-- ==== Sys2Proof/Proofs/Evaluations.lean ====
section
/-! PROOFS. What an evaluation leaves of the governor (R114 to R119), and what every step keeps of its figures. -/

namespace Sys2Proof.Machine

/-! ### The figures as statements name them -/

theorem handedHIce_eq (s : State) : s.handedHIce = s.hIceNow := rfl

theorem margin_eq (s : State) : s.plant.margin s.surface.mode = s.marginNow := by
  unfold PlantProfile.margin State.marginNow
  rfl

theorem derate_eq (s : State) : s.derate = s.derateNow := rfl

theorem formedCeiling_eq (s : State) : (s.formedCeiling : Int) = s.ceilingNow := by
  unfold State.formedCeiling State.ceilingNow
  rw [handedHIce_eq, margin_eq, derate_eq]
  exact Int.toNat_of_nonneg (le_max_left ..)

theorem committed_eq (s : State) (candidate : List ListEntry) (c : Fin 96) :
    s.committed candidate c = s.committedLevel candidate c := by
  unfold State.committed State.committedLevel targetIn
  dsimp only
  simp only [Bool.and_eq_true, hazeForcing_iff]
  split
  · rfl
  · cases candidate.find? (fun e => e.channel == c) with
    | some e => rfl
    | none =>
      cases (s.channel c).owner with
      | none => rfl
      | some n => cases hf : (s.slot n).list.find? (fun e => e.channel == c) <;> simp [hf]

theorem covered_loadSum_eq (s : State) (candidate : List ListEntry) (trimmable : Bool) :
    s.covered (s.loadSum candidate trimmable) = s.lightingLoad candidate trimmable := by
  unfold State.covered State.lightingLoad State.loadSum
  have hload : s.load candidate = fun c => s.committedLevel candidate c * (20 * (s.channel c).coefficient) / 255 :=
    funext fun c => by rw [State.load, committed_eq]
  simp only [hload]

/-! ### One evaluation -/

/-- What an evaluation reads is the same: the report and the mode, the margins, the fog state, the channels and the slots. -/
structure SameInputs (s t : State) : Prop where
  surface : t.surface = s.surface
  plant : t.plant = s.plant
  fog : t.fog = s.fog
  channels : t.channels = s.channels
  slots : t.slots = s.slots

theorem SameInputs.lightingLoad {s t : State} (h : SameInputs s t) (candidate : List ListEntry) (trimmable : Bool) :
    t.lightingLoad candidate trimmable = s.lightingLoad candidate trimmable := by
  obtain ⟨hsurface, hplant, hfog, hchannels, hslots⟩ := h
  cases s
  cases t
  cases hsurface
  cases hplant
  cases hfog
  cases hchannels
  cases hslots
  rfl

/-- What an evaluation makes of the governor does not depend on more than its inputs and the governor's figures. -/
theorem evaluated_of_same {s t : State} (h : SameInputs s t) (queue : List (Fin 8)) (count : BitVec 32) (last : Option EvalKind)
    (hg : t.governor = { s.governor with queue := queue, evalCount := count, lastEval := last }) (hs : s.evaluated) :
    t.evaluated := by
  unfold State.evaluated at *
  have hceiling : t.ceilingNow = s.ceilingNow := by
    simp only [State.ceilingNow, State.hIceNow, State.marginNow, State.derateNow, h.surface, h.plant]
  rw [hg]
  simp only [h.lightingLoad, hceiling, State.hIceNow, State.marginNow, State.derateNow, h.surface, h.plant] at hs ⊢
  exact hs

theorem nextF_le (kind : EvalKind) (f star : Nat) : nextF kind f star ≤ star := by
  unfold nextF
  split <;> (try split) <;> omega

/-- The terms of the ceiling that the first stage stores are those of now. -/
def State.opened (s : State) : Prop :=
  s.governor.ceiling = s.formedCeiling ∧ s.governor.hIceUsed = s.handedHIce ∧
    s.governor.marginUsed = s.plant.margin s.surface.mode ∧ s.governor.derateUsed = s.derate

theorem openEvaluation_opened (s : State) (spill : Option Nat) : (s.openEvaluation spill).opened := ⟨rfl, rfl, rfl, rfl⟩

/-- Entering FADING and freeing slots touch, beside the queue, no figure of the governor. -/
def KeepsFigures (s t : State) : Prop := t.governor = { s.governor with queue := t.governor.queue }

theorem keepsFigures_lightingMoves : LightingMoves KeepsFigures where
  refl _ := rfl
  trans h k := by unfold KeepsFigures at *; rw [k, h]
  post _ _ _ _ _ _ := by simp [KeepsFigures]
  freeSlot _ _ := rfl
  startFading s n := (congrArg State.governor (fading_startFading s n) :)
  setSlot _ _ _ := rfl
  setEntry _ _ _ _ := rfl
  setLru _ _ _ := rfl
  writeLevels s n := (congrArg State.governor (fading_writeLevels s n) :)
  waitHeadroom _ _ := rfl

theorem serveQueue_governor (s : State) :
    s.serveQueue.1.governor = { s.governor with queue := s.serveQueue.1.governor.queue } :=
  keepsFigures_lightingMoves.serveQueue s

theorem opened_of_lighting {s t : State} (h : LightingOnly s t) (hf : KeepsFigures s t) (ho : s.opened) : t.opened := by
  unfold State.opened at *
  rw [hf, h]
  exact ho

theorem judgeOverload_governor (s : State) :
    s.judgeOverload.governor = { s.governor with iceOverload := decide (s.governor.avail < 0) } := by
  unfold State.judgeOverload
  dsimp only
  split
  · rfl
  · simp [State.postAll]

theorem evaluateOnce_governor (s : State) (kind : EvalKind) (spill : Option Nat) :
    let served := (s.openEvaluation spill).serveQueue.1
    let g := (served.weigh kind).governor
    (s.evaluateOnce kind spill).1.governor =
      { g with iceOverload := decide (g.avail < 0), evalCount := g.evalCount + 1, lastEval := some kind } := by
  simp only [State.evaluateOnce, State.closeEvaluation, judgeOverload_governor]

theorem sameInputs_of_ports (s : State) (g : Governor) (p : Ports) : SameInputs s { s with governor := g, ports := p } :=
  ⟨rfl, rfl, rfl, rfl, rfl⟩

theorem judgeOverload_frame (s : State) : s.judgeOverload = { s with
    governor := s.judgeOverload.governor, ports := s.judgeOverload.ports } := by
  unfold State.judgeOverload
  dsimp only
  split
  · rfl
  · simp [State.postAll, State.post, State.setPort]

/-- An evaluation leaves the governor as the state left makes it, whatever its kind (R114 to R119). -/
theorem evaluateOnce_evaluated (s : State) (kind : EvalKind) (spill : Option Nat) :
    (s.evaluateOnce kind spill).1.evaluated := by
  have hopened : (s.openEvaluation spill).serveQueue.1.opened :=
    opened_of_lighting (lighting_serveQueue _) (keepsFigures_lightingMoves.serveQueue _) (openEvaluation_opened s spill)
  have hshape : (s.evaluateOnce kind spill).1 =
      (((s.openEvaluation spill).serveQueue.1.weigh kind).judgeOverload).closeEvaluation kind := rfl
  rw [hshape]
  generalize (s.openEvaluation spill).serveQueue.1 = served at hopened
  have hweighed : SameInputs served (((served.weigh kind).judgeOverload).closeEvaluation kind) := by
    rw [judgeOverload_frame]
    exact sameInputs_of_ports ..
  obtain ⟨hceiling, hice, hmargin, hderate⟩ := hopened
  generalize ht : ((served.weigh kind).judgeOverload).closeEvaluation kind = t at hweighed
  have hg : t.governor = { (served.weigh kind).governor with
      iceOverload := decide ((served.weigh kind).governor.avail < 0)
      evalCount := served.governor.evalCount + 1, lastEval := some kind } := by
    rw [← ht]
    simp only [State.closeEvaluation, judgeOverload_governor]
    rfl
  have hformed : t.ceilingNow = served.ceilingNow := by
    simp only [State.ceilingNow, State.hIceNow, State.marginNow, State.derateNow, hweighed.surface, hweighed.plant]
  unfold State.evaluated
  rw [hg]
  simp only [State.weigh, hweighed.lightingLoad, hformed, State.hIceNow, State.marginNow, State.derateNow, hweighed.surface,
    hweighed.plant, hceiling, hice, hmargin, hderate, ← formedCeiling_eq]
  refine ⟨rfl, margin_eq served, rfl, trivial, covered_loadSum_eq .., covered_loadSum_eq .., ?_, trivial, ?_, nextF_le .., trivial⟩
  · exact Bool.beq_eq_decide_eq _ _
  · rfl

/-- Within the figures of an evaluation, a clear ICE_OVERLOAD means that the loads fit: avail is not negative, and F F* of it (R118,
R119). -/
theorem withinCeiling_of_evaluated {t : State} (h : t.evaluated) : t.governor.withinCeiling := by
  obtain ⟨-, -, -, -, -, -, -, havail, hstar, hf, hover⟩ := h
  intro hclear
  rw [hover] at hclear
  generalize t.governor = g at *
  have hnonneg : 0 ≤ g.avail := by simpa using hclear
  have htrim : g.lTrim * g.f / 256 ≤ g.avail.toNat := by
    rw [hstar] at hf
    split at hf
    · next h0 => simp [h0]
    · next h0 =>
      split at hf
      · rw [Nat.le_zero.mp hf]; simp
      · have hle : g.f ≤ 256 * g.avail.toNat / g.lTrim := hf.trans (min_le_right ..)
        have hmul : g.lTrim * g.f ≤ 256 * g.avail.toNat :=
          (Nat.mul_le_mul_left _ hle).trans (Nat.mul_div_le ..)
        omega
  omega

theorem withinCeiling_of_figures {s t : State} (h : KeepsFigures s t) (hs : s.governor.withinCeiling) :
    t.governor.withinCeiling := by
  rw [h]
  exact hs

theorem withinCeiling_evaluationMoves :
    EvaluationMoves (fun s t => s.governor.withinCeiling → t.governor.withinCeiling) where
  refl _ := id
  trans h k := k ∘ h
  post s p k o v hk := withinCeiling_of_figures (keepsFigures_lightingMoves.post s p k o v hk)
  freeSlot s n := withinCeiling_of_figures (keepsFigures_lightingMoves.freeSlot s n)
  startFading s n := withinCeiling_of_figures (keepsFigures_lightingMoves.startFading s n)
  setSlot _ _ _ := id
  setEntry _ _ _ _ := id
  setLru _ _ _ := id
  writeLevels s n := withinCeiling_of_figures (keepsFigures_lightingMoves.writeLevels s n)
  waitHeadroom s n := withinCeiling_of_figures (keepsFigures_lightingMoves.waitHeadroom s n)
  evaluateOrdinary s _ := withinCeiling_of_evaluated (evaluateOnce_evaluated s ..)

@[simp] theorem withLighting_governor (s : State) (payload : List Byte) : (s.withLighting payload).governor = s.governor := by
  have h : ∀ (f : State → Fin 96 → Channel) (l : List (Fin 96)) (s : State),
      (l.foldl (fun t c => t.setChannel c (f t c)) s).governor = s.governor := by
    intro f l
    induction l with
    | nil => exact fun _ => rfl
    | cons c l ih => exact fun s => ih _
  unfold State.withLighting
  exact h (fun t c => (t.channel c).withProfile payload c) _ s

/-- A relation that speaks of the governor alone holds where the governor stays. -/
theorem stepMoves_of_governor {R : State → State → Prop} (h : EvaluationMoves R)
    (hsame : ∀ {s t : State}, t.governor = s.governor → R s t) : StepMoves R :=
  have hz : ZoneMoves R := { refl := h.refl, trans := h.trans, post := fun _ _ _ _ _ _ => hsame (by simp)
                             setZone := fun _ _ _ _ => hsame rfl, boilerProven := fun _ _ => hsame rfl }
  { toZoneMoves := hz
    toLightingOperations := h.operations fun _ _ => hsame (by simp)
    toPositionerOperations := positionersOnly_operations.mono fun h => hsame (congrArg State.governor h :)
    port := fun _ _ _ _ => hsame (by simp)
    scanner := fun _ _ => hsame rfl
    surface := fun _ _ _ => hsame rfl
    mode := fun _ _ _ => hsame rfl
    plant := fun _ _ => hsame rfl
    building := fun _ _ => hsame rfl
    fog := fun _ _ => hsame rfl
    pool := fun _ _ _ => hsame rfl
    setLoopFail := setLoopFail_of_moves hz (fun _ _ => hsame rfl) (fun _ _ => hsame rfl)
    frame := fun _ _ _ => hsame rfl
    deviceSeconds := fun _ _ => hsame rfl
    setDomain := fun _ _ _ _ => hsame rfl }

theorem released_governor (s : State) (straps : Straps) (drvfault endstop : BitVec 8) (proven : Bool) :
    (s.released straps drvfault endstop proven).faultAtReset.governor = Governor.reset :=
  (congrArg State.governor (positionersOnly_faultAtReset _) :)

/-- Settles O46: an evaluation leaves figures that fit the ceiling unless it sets ICE_OVERLOAD, and between evaluations only the
headroom queue changes. -/
theorem loadsStayWithinTheCeiling : Obligations.LoadsStayWithinTheCeiling := fun _ _ hs ht =>
  have hmoves := stepMoves_of_governor withinCeiling_evaluationMoves (fun h hs => h ▸ hs)
  kept_by_step (P := fun s => s.governor.withinCeiling) hmoves
    (hmoves.allocationRound fun s spill => withinCeiling_evaluationMoves.evaluateRound
      (fun s _ _ => withinCeiling_of_evaluated (evaluateOnce_evaluated s ..)) s spill)
    (fun _ => id) (fun s _ _ _ _ => by rw [released_governor]; exact fun _ => by decide) (fun _ _ => id) hs ht

/-! ### The trim factor -/

theorem evaluateOnce_f (s : State) (kind : EvalKind) (spill : Option Nat) :
    (s.evaluateOnce kind spill).1.governor.f =
      nextF kind s.governor.f (s.evaluateOnce kind spill).1.governor.fStar := by
  rw [evaluateOnce_governor]
  simp only [State.weigh]
  rw [serveQueue_governor]
  rfl

theorem f_evaluationMoves : EvaluationMoves (fun s t => t.governor.f ≤ s.governor.f) :=
  have hfigures : ∀ {s t : State}, KeepsFigures s t → t.governor.f ≤ s.governor.f := fun h => by rw [h]
  { refl := fun _ => le_rfl
    trans := fun h k => k.trans h
    post := fun s p k o v hk => hfigures (keepsFigures_lightingMoves.post s p k o v hk)
    freeSlot := fun _ _ => le_rfl
    startFading := fun s n => hfigures (keepsFigures_lightingMoves.startFading s n)
    setSlot := fun _ _ _ => le_rfl
    setEntry := fun _ _ _ _ => le_rfl
    setLru := fun _ _ _ => le_rfl
    writeLevels := fun s n => hfigures (keepsFigures_lightingMoves.writeLevels s n)
    waitHeadroom := fun _ _ => le_rfl
    evaluateOrdinary := fun s => by rw [evaluateOnce_f]; exact min_le_left .. }

theorem governor_roundMoves : RoundMoves (fun s t => t.governor = s.governor) where
  refl _ := rfl
  trans h k := k.trans h
  post _ _ _ _ _ _ := by simp
  setZone _ _ _ _ := rfl
  boilerProven _ _ := rfl
  fog _ _ := rfl
  pool _ _ _ := rfl
  autoTarget s v x hx := (congrArg State.governor (positionersOnly_operations.autoTarget s v x hx) :)

/-- Until a round's evaluation the governor stays. -/
theorem aimed_allocate_governor (s : State) : s.allocate.aimed.governor = s.governor :=
  (governor_roundMoves.aimed _).trans (governor_roundMoves.allocationMoves.allocate s)

theorem evaluateRound_f_le (s : State) (spill : Nat) : (s.evaluateRound spill).governor.f ≤ s.governor.f + 32 := by
  refine (f_evaluationMoves.evaluations _ _ _).trans ?_
  rw [evaluateOnce_f]
  simp only [nextF]
  split <;> omega

theorem allocationRound_f_le (s : State) : s.allocationRound.governor.f ≤ s.governor.f + 32 := by
  unfold State.allocationRound
  split
  · omega
  · rw [handOn_eq, ← aimed_allocate_governor s]
    exact evaluateRound_f_le ..

/-- Settles O47: an ordinary evaluation takes the smaller of F and F*, and a round's at most 32 more than F. -/
theorem trimFactorRisesOnlyAtRoundEnds : Obligations.TrimFactorRisesOnlyAtRoundEnds := by
  intro s t ht
  have hmoves := stepMoves_of_governor f_evaluationMoves fun h => h ▸ le_rfl
  by_cases hround : s.pending.head? = some .allocationRound
  · obtain ⟨hp, -⟩ | ⟨c, rest, hp, he⟩ := step_cases ht
    · simp [hp] at hround
    · obtain rfl : c = .allocationRound := by simpa [hp] using hround
      obtain rfl := Host.Outcome.next.inj he
      rw [hround]
      exact allocationRound_f_le _
  · have hstep := step_related (R := fun s t => t.governor.f ≤ s.governor.f) hmoves (fun h => absurd h hround)
      (fun _ => le_rfl) (fun _ _ => le_rfl) ht
    rcases hstep with ⟨straps, drvfault, endstop, proven, hp, hreset⟩ | ⟨hnot, hf⟩
    · have hg : t.governor = Governor.reset := by rw [hreset, released_governor]
      rw [hp]
      exact congrArg Governor.f hg
    · split
      · next hp => exact absurd hp (hnot _ _ _ _)
      · next hp => exact absurd hp hround
      · exact hf

end Sys2Proof.Machine
end

