-- ==== Sys2Proof/Proofs/TravelSlots.lean ====
section
/-! PROOFS. The travel slots, the travel queue and the positioners' records agree after every step (R96, R98, R99, R103 to R107). -/

namespace Sys2Proof.Machine

/-! ### Positioners as a function of their index -/

theorem pos_setPos (s : State) (v w : Fin 8) (x : Positioner) : (s.setPos v x).pos w = if w = v then x else s.pos w :=
  pick_put ..

theorem pos_setPos_eq_update (s : State) (v : Fin 8) (x : Positioner) : (s.setPos v x).pos = Function.update s.pos v x := by
  funext w
  rw [pos_setPos, Function.update_apply]

theorem pos_congr {s t : State} (h : t.positioners.records = s.positioners.records) : t.pos = s.pos := by
  funext v
  rw [State.pos, State.pos, h]

@[simp] theorem setPos_holders (s : State) (v : Fin 8) (x : Positioner) :
    (s.setPos v x).positioners.holders = s.positioners.holders := rfl
@[simp] theorem setPos_queue (s : State) (v : Fin 8) (x : Positioner) :
    (s.setPos v x).positioners.queue = s.positioners.queue := rfl

@[simp] theorem pos_post (s : State) (p : Port) (k : RecordKind) (o : Nat) (v : Int) : (s.post p k o v).pos = s.pos :=
  pos_congr (by simp)

@[simp] theorem postTo_positioners (s : State) (p : Option Port) (k : RecordKind) (o : Nat) (v : Int) :
    (s.postTo p k o v).positioners = s.positioners := by cases p <;> simp [State.postTo]

@[simp] theorem pos_postTo (s : State) (p : Option Port) (k : RecordKind) (o : Nat) (v : Int) : (s.postTo p k o v).pos = s.pos :=
  pos_congr (by simp)

@[simp] theorem postAll_positioners (s : State) (ps : List Port) (k : RecordKind) (o : Nat) (v : Int) :
    (s.postAll ps k o v).positioners = s.positioners := by
  induction ps generalizing s with
  | nil => rfl
  | cons p ps ih => exact (ih _).trans (by simp)

/-! ### Soundness of records, slots and queue -/

/-- The record's position and target are in range, and it has a position exactly in a state that has one. -/
structure Positioner.fits (r : Positioner) : Prop where
  placing : r.position.isSome = r.placed
  range : ∀ x, r.position = some x → x ≤ 1023
  target : r.target ≤ 1023

/-- The record is one of a positioner that may stand in the travel queue. -/
def Positioner.mayQueue (r : Positioner) : Prop :=
  r.state = .waiting ∨ ((r.state = .unhomed ∨ r.state = .fault) ∧ r.intent = some .home)

theorem Positioner.mayQueue.not_moving {r : Positioner} (h : r.mayQueue) : r.moving = false := by
  obtain h | ⟨h | h, -⟩ := h <;> simp [Positioner.moving, h]

/-- Soundness of travel slots, queue and records, over the records as a function. -/
structure TravelSound (f : Fin 8 → Positioner) (holders : List (Fin 4 × Fin 8)) (queue : List (Fin 8)) : Prop where
  slotsOnce : (holders.map Prod.fst).Nodup
  holdersOnce : (holders.map Prod.snd).Nodup
  queuedOnce : queue.Nodup
  holding : ∀ v, v ∈ holders.map Prod.snd ↔ (f v).moving = true
  fits : ∀ v, (f v).fits
  queued : ∀ v ∈ queue, (f v).mayQueue

theorem travelSound_iff (s : State) : s.travelSound ↔ TravelSound s.pos s.positioners.holders s.positioners.queue :=
  ⟨fun h => ⟨h.slotsOnce, h.holdersOnce, h.queuedOnce, h.holding, fun v => ⟨h.placing v, h.range v, h.targets v⟩, h.queued⟩,
    fun h => ⟨h.slotsOnce, h.holdersOnce, h.queuedOnce, h.holding, fun v => (h.fits v).placing, fun v => (h.fits v).range,
      fun v => (h.fits v).target, h.queued⟩⟩

namespace TravelSound
variable {f : Fin 8 → Positioner} {holders : List (Fin 4 × Fin 8)} {queue : List (Fin 8)} {v : Fin 8} {r : Positioner}

theorem fits_update (hr : r.fits) (h : ∀ w, (f w).fits) (w : Fin 8) : (Function.update f v r w).fits := by
  rw [Function.update_apply]
  split
  · exact hr
  · exact h w

/-- A record is replaced; the positioner moves if it did, and may queue if it stands in the queue. -/
theorem replace (h : TravelSound f holders queue) (hm : r.moving = (f v).moving) (hr : r.fits) (hq : v ∈ queue → r.mayQueue) :
    TravelSound (Function.update f v r) holders queue where
  slotsOnce := h.slotsOnce
  holdersOnce := h.holdersOnce
  queuedOnce := h.queuedOnce
  holding w := by
    rw [h.holding w, Function.update_apply]
    split
    · next hw => rw [hw, hm]
    · rfl
  fits := fits_update hr h.fits
  queued w hw := by
    rw [Function.update_apply]
    split
    · next hwv => exact hq (hwv ▸ hw)
    · exact h.queued w hw

/-- A positioner leaves the queue. -/
theorem leave (h : TravelSound f holders queue) (v : Fin 8) : TravelSound f holders (queue.filter (· != v)) where
  slotsOnce := h.slotsOnce
  holdersOnce := h.holdersOnce
  queuedOnce := h.queuedOnce.filter _
  holding := h.holding
  fits := h.fits
  queued w hw := h.queued w (List.mem_filter.mp hw).1

/-- The head of the queue leaves it. -/
theorem tail (h : TravelSound f holders (v :: queue)) : TravelSound f holders queue where
  slotsOnce := h.slotsOnce
  holdersOnce := h.holdersOnce
  queuedOnce := (List.nodup_cons.mp h.queuedOnce).2
  holding := h.holding
  fits := h.fits
  queued w hw := h.queued w (List.mem_cons_of_mem _ hw)

/-- A positioner joins the queue's tail, and does not move. -/
theorem join (h : TravelSound f holders queue) (hq : v ∉ queue) (hr : r.fits) (hm : (f v).moving = false) (hmq : r.mayQueue) :
    TravelSound (Function.update f v r) holders (queue ++ [v]) where
  slotsOnce := h.slotsOnce
  holdersOnce := h.holdersOnce
  queuedOnce := by simpa [List.nodup_append, h.queuedOnce] using fun w hw (e : w = v) => hq (e ▸ hw)
  holding := (h.replace (by rw [hmq.not_moving, hm]) hr fun _ => hmq).holding
  fits := fits_update hr h.fits
  queued w hw := by
    rw [Function.update_apply]
    split
    · exact hmq
    · next hwv => exact h.queued w (by simpa [hwv] using hw)

/-- A positioner that does not move and does not queue takes a free slot and moves. -/
theorem grant (h : TravelSound f holders queue) {k : Fin 4} (hk : k ∉ holders.map Prod.fst) (hq : v ∉ queue)
    (hm : (f v).moving = false) (hr : r.fits) (hrm : r.moving = true) :
    TravelSound (Function.update f v r) (holders ++ [(k, v)]) queue where
  slotsOnce := by simpa [List.nodup_append, h.slotsOnce] using fun a b hab (e : a = k) => hk (e ▸ List.mem_map_of_mem hab)
  holdersOnce := by
    have hv : v ∉ holders.map Prod.snd := fun hmem => by simp [(h.holding v).mp hmem] at hm
    simpa [List.nodup_append, h.holdersOnce] using
      fun b a hab (e : b = v) => hv (e ▸ List.mem_map.mpr ⟨(a, b), hab, rfl⟩)
  queuedOnce := h.queuedOnce
  holding w := by
    rw [Function.update_apply, List.map_append, List.mem_append, h.holding w]
    split
    · next hw => simp [hw, hrm]
    · next hw => simp [hw]
  fits := fits_update hr h.fits
  queued w hw := by
    rw [Function.update_apply]
    split
    · next hwv => exact absurd (hwv ▸ hw) hq
    · exact h.queued w hw

/-- A positioner that no longer moves gives up its slot. -/
theorem release (h : TravelSound f holders queue) (hq : v ∉ queue) (hr : r.fits) (hrm : r.moving = false) :
    TravelSound (Function.update f v r) (holders.filter (fun x => x.2 != v)) queue where
  slotsOnce := h.slotsOnce.sublist (List.filter_sublist.map _)
  holdersOnce := h.holdersOnce.sublist (List.filter_sublist.map _)
  queuedOnce := h.queuedOnce
  holding w := by
    rw [Function.update_apply]
    split
    · next hw => subst hw; simp [hrm]
    · next hw =>
      rw [← h.holding w]
      simp only [List.mem_map, List.mem_filter, bne_iff_ne]
      exact ⟨fun ⟨x, ⟨hx, _⟩, e⟩ => ⟨x, hx, e⟩, fun ⟨x, hx, e⟩ => ⟨x, ⟨hx, e ▸ hw⟩, e⟩⟩
  fits := fits_update hr h.fits
  queued w hw := by
    rw [Function.update_apply]
    split
    · next hwv => exact absurd (hwv ▸ hw) hq
    · exact h.queued w hw

/-- The slot that a positioner held is free without it. -/
theorem freed_slot_free (h : TravelSound f holders queue) {x : Fin 4 × Fin 8} (hx : x ∈ holders) :
    x.1 ∉ (holders.filter (fun y => y.2 != x.2)).map Prod.fst := by
  intro hmem
  obtain ⟨y, hy, hxy⟩ := List.mem_map.mp hmem
  obtain ⟨hyh, hne⟩ := List.mem_filter.mp hy
  have : y = x := List.inj_on_of_nodup_map h.slotsOnce hyh hx hxy
  simp [this] at hne

end TravelSound

/-! ### A slot that passes along the queue -/

theorem pos_tellRequester (s : State) (v w : Fin 8) (k : RecordKind) (x : Int) :
    (s.tellRequester v k x).pos w = if w = v then { s.pos v with port := none } else s.pos w := by
  rw [State.tellRequester, pos_setPos, pos_postTo]

@[simp] theorem tellRequester_holders (s : State) (v : Fin 8) (k : RecordKind) (x : Int) :
    (s.tellRequester v k x).positioners.holders = s.positioners.holders := by simp [State.tellRequester]
@[simp] theorem tellRequester_queue (s : State) (v : Fin 8) (k : RecordKind) (x : Int) :
    (s.tellRequester v k x).positioners.queue = s.positioners.queue := by simp [State.tellRequester]

@[simp] theorem stopHomed_holders (s : State) (v : Fin 8) : (s.stopHomed v).positioners.holders = s.positioners.holders := rfl

/-- The record of a positioner that stands homed at the closed end. -/
def Positioner.homed (r : Positioner) : Positioner :=
  { r with state := .idle, position := some 0, target := 0, cause := none, intent := none, stepTimer := none }

theorem Positioner.homed_fits (r : Positioner) : r.homed.fits := ⟨rfl, by simp [Positioner.homed], Nat.zero_le _⟩

/-- The record of a positioner that begins homing, with the step interval. -/
def Positioner.homing (r : Positioner) (interval : Nat) : Positioner :=
  { r with state := .homing, position := none, intent := none, homingCount := 0, dirOpen := false, stepTimer := some interval }

theorem Positioner.homing_fits {r : Positioner} (h : r.fits) (n : Nat) : (r.homing n).fits :=
  ⟨rfl, by simp [Positioner.homing], h.target⟩

/-- The record of a positioner that enters TRAVEL. -/
def Positioner.travelling (r : Positioner) (interval : Nat) : Positioner :=
  { r with state := .travel, intent := none, stepTimer := some interval }

theorem Positioner.travelling_fits {r : Positioner} (h : r.fits) (hp : r.placed = true) (n : Nat) : (r.travelling n).fits :=
  ⟨h.placing.trans hp, h.range, h.target⟩

theorem Positioner.fits_of_port {r : Positioner} (h : r.fits) (p : Option Port) : Positioner.fits { r with port := p } :=
  ⟨h.placing, h.range, h.target⟩

theorem passSlot_cons (k : Fin 4) (v : Fin 8) (rest : List (Fin 8)) (s : State) :
    let left := { s with positioners := { s.positioners with queue := rest } }
    State.passSlot k (v :: rest) s =
      if (s.pos v).intent = some .home ∧ (s.pos v).endstop = true then
        State.passSlot k rest ((left.stopHomed v).tellRequester v .homeDone 0)
      else
        ({ s with positioners := { s.positioners with holders := s.positioners.holders ++ [(k, v)], queue := rest } } : State).setPos
          v (if (s.pos v).intent = some .home then (s.pos v).homing (s.stepInterval v)
            else (s.pos v).travelling (s.stepInterval v)) := by
  dsimp only
  rw [State.passSlot]
  by_cases hhome : (s.pos v).intent = some .home <;> by_cases hend : (s.pos v).endstop = true <;>
    simp only [hhome, hend, decide_true, decide_false, Bool.and_true, Bool.and_false, if_true, if_false, and_true, and_false,
      Bool.false_eq_true] <;> rfl

theorem passSlot_travelSound (k : Fin 4) (queue : List (Fin 8)) (s : State)
    (h : TravelSound s.pos s.positioners.holders queue) (hk : k ∉ s.positioners.holders.map Prod.fst) :
    (State.passSlot k queue s).travelSound := by
  induction queue generalizing s with
  | nil => exact (travelSound_iff _).mpr h
  | cons v rest ih =>
    have hv : v ∉ rest := (List.nodup_cons.mp h.queuedOnce).1
    have hqueued := h.queued v List.mem_cons_self
    rw [passSlot_cons]
    split
    · have hk' : ∀ left : State, left.positioners.holders = s.positioners.holders →
          k ∉ ((left.stopHomed v).tellRequester v .homeDone 0).positioners.holders.map Prod.fst := by
        intro left hleft
        rw [tellRequester_holders, stopHomed_holders, hleft]
        exact hk
      have hpos : ∀ left : State, ((left.stopHomed v).tellRequester v .homeDone 0).pos =
          Function.update left.pos v { (left.pos v).homed with port := none } := by
        intro left
        funext w
        rw [pos_tellRequester, Function.update_apply, State.stopHomed, pos_setPos_same]
        split
        · rfl
        · next hw => exact pos_setPos_other _ _ hw
      refine ih _ ?_ (hk' _ rfl)
      rw [hpos, tellRequester_holders]
      exact h.tail.replace (by rw [hqueued.not_moving]; rfl)
        (Positioner.fits_of_port (Positioner.homed_fits _) none) (fun hmem => absurd hmem hv)
    · rw [travelSound_iff, pos_setPos_eq_update]
      refine h.tail.grant hk hv hqueued.not_moving ?_ ?_
      · split
        · exact Positioner.homing_fits (h.fits v) _
        · next hhome =>
          refine Positioner.travelling_fits (h.fits v) ?_ _
          obtain hw | ⟨-, hi⟩ := hqueued
          · simp [Positioner.placed, hw]
          · exact absurd hi hhome
      · split <;> rfl

/-- A positioner of a sound state has stopped, and stands no more in the queue: its slot, if it held one, passes on. -/
theorem freeTravelSlot_travelSound {s₀ s : State} {v : Fin 8} (h : s₀.travelSound) (hpos : ∀ w, w ≠ v → s.pos w = s₀.pos w)
    (hholders : s.positioners.holders = s₀.positioners.holders)
    (hqueue : s.positioners.queue = s₀.positioners.queue.filter (· != v)) (hfits : (s.pos v).fits)
    (hstopped : (s.pos v).moving = false) : (s.freeTravelSlot v).travelSound := by
  rw [travelSound_iff] at h
  have hupdate : s.pos = Function.update s₀.pos v (s.pos v) := by
    funext w
    rw [Function.update_apply]
    split
    · next hw => rw [hw]
    · next hw => exact hpos w hw
  have hnot : v ∉ s₀.positioners.queue.filter (· != v) := by simp
  unfold State.freeTravelSlot
  split
  · next hnone =>
    have hv : v ∉ s₀.positioners.holders.map Prod.snd := by
      rw [hholders] at hnone
      simp only [List.find?_eq_none, beq_iff_eq] at hnone
      rintro hmem
      obtain ⟨x, hx, hxv⟩ := List.mem_map.mp hmem
      exact hnone x hx hxv
    have hstill : (s₀.pos v).moving = false := by simpa using mt (h.holding v).mpr hv
    rw [travelSound_iff, hholders, hqueue, hupdate]
    exact (h.leave v).replace (by rw [hstopped, hstill]) hfits fun hmem => absurd hmem hnot
  · next x hx =>
    have hmem : x ∈ s₀.positioners.holders := hholders ▸ List.mem_of_find?_eq_some hx
    have hxv : x.2 = v := by simpa using List.find?_some hx
    have hsound := (h.leave v).release hnot hfits hstopped
    rw [← hupdate, ← hqueue, ← hholders] at hsound
    refine passSlot_travelSound x.1 _ _ hsound ?_
    rw [hholders, ← hxv]
    exact h.freed_slot_free hmem

/-! ### The operations of the positioner unit -/

theorem travelSound_of_same {s t : State} (hp : t.positioners = s.positioners) (h : s.travelSound) : t.travelSound := by
  rw [travelSound_iff] at *
  rw [pos_congr (congrArg Positioners.records hp), hp]
  exact h

theorem travelSound_setPos {s : State} {v : Fin 8} {r : Positioner} (h : s.travelSound) (hm : r.moving = (s.pos v).moving)
    (hr : r.fits) (hq : v ∈ s.positioners.queue → r.mayQueue) : (s.setPos v r).travelSound := by
  rw [travelSound_iff] at *
  rw [pos_setPos_eq_update]
  exact h.replace hm hr hq

/-- A record is replaced by one of the same state, position, target and intent. -/
theorem travelSound_setPos_of_same {s : State} {v : Fin 8} {r : Positioner} (h : s.travelSound)
    (hstate : r.state = (s.pos v).state) (hposition : r.position = (s.pos v).position) (htarget : r.target = (s.pos v).target)
    (hintent : r.intent = (s.pos v).intent) : (s.setPos v r).travelSound := by
  refine travelSound_setPos h (by rw [Positioner.moving, Positioner.moving, hstate]) ?_ ?_
  · have hfits := ((travelSound_iff s).mp h).fits v
    exact ⟨by rw [hposition, hfits.placing, Positioner.placed, Positioner.placed, hstate], by rw [hposition]; exact hfits.range,
      htarget ▸ hfits.target⟩
  · intro hmem
    have := ((travelSound_iff s).mp h).queued v hmem
    unfold Positioner.mayQueue at *
    rwa [hstate, hintent]

theorem travelSound_tellRequester {s : State} (h : s.travelSound) (v : Fin 8) (k : RecordKind) (x : Int) :
    (s.tellRequester v k x).travelSound := by
  unfold State.tellRequester
  refine travelSound_setPos_of_same (travelSound_of_same (by simp) h) ?_ ?_ ?_ ?_ <;> simp

/-- A positioner that moves does not stand in the queue. -/
theorem not_queued_of_moving {s : State} (h : s.travelSound) {v : Fin 8} (hm : (s.pos v).moving = true) :
    v ∉ s.positioners.queue := fun hmem => by
  have := Positioner.mayQueue.not_moving (((travelSound_iff s).mp h).queued v hmem)
  simp [this] at hm

theorem filter_ne_eq_self {l : List (Fin 8)} {v : Fin 8} (h : v ∉ l) : l.filter (· != v) = l := by
  rw [List.filter_eq_self]
  intro w hw
  simpa using fun e : w = v => h (e ▸ hw)

/-- A moving positioner of a sound state stops, and its slot passes on. -/
theorem travelSound_stop {s : State} (h : s.travelSound) {v : Fin 8} (hm : (s.pos v).moving = true) {r : Positioner}
    (hr : r.fits) (hrm : r.moving = false) : ((s.setPos v r).freeTravelSlot v).travelSound := by
  refine freeTravelSlot_travelSound h (fun w hw => pos_setPos_other s r hw) rfl ?_ (by simpa using hr) (by simpa using hrm)
  rw [filter_ne_eq_self (not_queued_of_moving h hm), setPos_queue]

/-- A positioner of a sound state stops, leaves the queue if it stands there, and its slot, if it holds one, passes on. -/
theorem travelSound_stop_leave {s : State} (h : s.travelSound) (v : Fin 8) {r : Positioner}
    (hr : r.fits) (hrm : r.moving = false) : (((s.setPos v r).leaveTravelQueue v).freeTravelSlot v).travelSound := by
  refine freeTravelSlot_travelSound h (fun w hw => pos_setPos_other s r hw) rfl rfl ?_ ?_
  · exact (pos_setPos_same s v r).symm ▸ hr
  · exact (congrArg Positioner.moving (pos_setPos_same s v r)).trans hrm

theorem travelSound_endTravel {s : State} (h : s.travelSound) {v : Fin 8} (hs : (s.pos v).state = .travel) :
    (s.endTravel v).travelSound := by
  unfold State.endTravel
  refine travelSound_tellRequester (travelSound_stop h (by simp [Positioner.moving, hs]) ?_ rfl) _ _ _
  have hfits := ((travelSound_iff s).mp h).fits v
  exact ⟨hfits.placing.trans (by simp [Positioner.placed, hs]), hfits.range, hfits.target⟩

theorem travelSound_endHoming {s : State} (h : s.travelSound) {v : Fin 8} (hm : (s.pos v).moving = true) :
    (s.endHoming v).travelSound :=
  travelSound_tellRequester (travelSound_stop h hm (Positioner.homed_fits (s.pos v)) rfl) _ _ _

theorem travelSound_enterFault {s : State} (h : s.travelSound) (v : Fin 8) (c : FaultCause) :
    (s.enterFault v c).travelSound := by
  have hstopped : ∀ r : Positioner, r.fits →
      Positioner.fits { r with state := .fault, position := none, intent := none, cause := some c, stepTimer := none } :=
    fun r hr => ⟨rfl, by simp, hr.target⟩
  have hfits := ((travelSound_iff s).mp h).fits v
  unfold State.enterFault
  dsimp only
  refine travelSound_setPos_of_same (travelSound_of_same (postAll_positioners ..)
    (travelSound_stop_leave h v (hstopped _ hfits) rfl)) rfl rfl rfl rfl

theorem Positioner.placed_of_travel {r : Positioner} (h : r.state = .travel) : r.placed = true := by simp [Positioner.placed, h]

theorem position_of_travel {s : State} (h : s.travelSound) {v : Fin 8} (hs : (s.pos v).state = .travel) :
    (s.pos v).position = some ((s.pos v).position.getD 0) ∧ (s.pos v).position.getD 0 ≤ 1023 := by
  have hsome := h.placing v
  rw [Positioner.placed_of_travel hs] at hsome
  obtain ⟨x, hx⟩ := Option.isSome_iff_exists.mp hsome
  exact ⟨by simp [hx], by simpa [hx] using h.range v x hx⟩

theorem travelSound_checkEndstop {s : State} (h : s.travelSound) {v : Fin 8} (hs : (s.pos v).state = .travel) (stepped : Bool) :
    (s.checkEndstop v stepped).travelSound := by
  have hle := (position_of_travel h hs).2
  unfold State.checkEndstop
  dsimp only
  split
  · exact travelSound_enterFault h v _
  · have hcorrected : (if (s.pos v).endstop && (s.pos v).target < (s.pos v).position.getD 0 then 0
        else (s.pos v).position.getD 0) ≤ 1023 := by split <;> omega
    generalize (if (s.pos v).endstop && (s.pos v).target < (s.pos v).position.getD 0 then 0
        else (s.pos v).position.getD 0) = corrected at hcorrected ⊢
    generalize (if stepped then some (s.stepInterval v) else (s.pos v).stepTimer) = timer
    have hplaced : (s.setPos v { s.pos v with position := some corrected, stepTimer := timer }).travelSound := by
      refine travelSound_setPos h rfl ⟨(Positioner.placed_of_travel hs).symm, by simpa using hcorrected, h.targets v⟩ ?_
      exact fun hmem => absurd hmem (not_queued_of_moving h (by simp [Positioner.moving, hs]))
    split
    · exact travelSound_endTravel hplaced (by simpa using hs)
    · exact hplaced

theorem stepToward_le {position target : Nat} (hp : position ≤ 1023) (ht : target ≤ 1023) : stepToward position target ≤ 1023 := by
  unfold stepToward
  split
  · omega
  · split <;> omega

theorem travelSound_travelStep {s : State} (h : s.travelSound) {v : Fin 8} (hs : (s.pos v).state = .travel) :
    (s.travelStep v).travelSound := by
  unfold State.travelStep
  refine travelSound_checkEndstop (travelSound_setPos h (by rfl) ?_ ?_) ?_ true
  · exact ⟨(Positioner.placed_of_travel hs).symm, by simpa using stepToward_le (position_of_travel h hs).2 (h.targets v),
      h.targets v⟩
  · exact fun hmem => absurd hmem (not_queued_of_moving h (by simp [Positioner.moving, hs]))
  · simpa using hs

theorem travelSound_homingStep {s : State} (h : s.travelSound) (v : Fin 8) : (s.homingStep v).travelSound := by
  unfold State.homingStep
  dsimp only
  have hmoved := travelSound_setPos_of_same (v := v) (r := { s.pos v with
    dirOpen := false, pulses := (s.pos v).pulses + 1, homingCount := countTo 1100 (s.pos v).homingCount
    stepTimer := some (s.stepInterval v) }) h rfl rfl rfl rfl
  split
  · exact travelSound_enterFault hmoved v _
  · exact hmoved

/-! ### Taking a slot or a place -/

theorem pick_free_slot {s : State} (h : s.travelSlotFree = true) :
    ∃ k, k ∉ s.positioners.holders.map Prod.fst ∧ ∀ v, s.takeTravelSlot v = { s with
      positioners := { s.positioners with holders := s.positioners.holders ++ [(k, v)] }, openChoices := s.openChoices + 1 } := by
  have hlen : s.positioners.holders.length < 4 := by simpa [State.travelSlotFree] using h
  have hfree : ∀ k, k ∈ s.freeTravelSlots ↔ k ∉ s.positioners.holders.map Prod.fst := by
    intro k
    have hall : k ∈ all4 := by fin_cases k <;> simp [all4]
    simp only [State.freeTravelSlots, List.mem_filter, hall, true_and, Bool.not_eq_true', List.any_eq_false, beq_iff_eq]
    exact ⟨fun hne hmem => by obtain ⟨x, hx, e⟩ := List.mem_map.mp hmem; exact hne x hx e,
      fun hne x hx e => hne (e ▸ List.mem_map_of_mem hx)⟩
  have hpos : 0 < s.freeTravelSlots.length := by
    by_contra hzero
    have hnil : s.freeTravelSlots = [] := List.eq_nil_of_length_eq_zero (by omega)
    have hcover : Finset.univ ⊆ (s.positioners.holders.map Prod.fst).toFinset := by
      intro k _
      rw [List.mem_toFinset]
      by_contra hk
      simpa [hnil] using (hfree k).mpr hk
    have hcard := Finset.card_le_card hcover
    have hle := List.toFinset_card_le (s.positioners.holders.map Prod.fst)
    simp at hcard hle
    omega
  have hidx : Config.travelSlotPick s.openChoices % s.freeTravelSlots.length < s.freeTravelSlots.length := Nat.mod_lt _ hpos
  refine ⟨s.freeTravelSlots.getD (Config.travelSlotPick s.openChoices % s.freeTravelSlots.length) 0, ?_, fun v => rfl⟩
  rw [← hfree, List.getD_eq_getElem _ _ hidx]
  exact List.getElem_mem hidx

theorem travelSound_seekTravel {s : State} (h : s.travelSound) {v : Fin 8} (hs : (s.pos v).placed = true)
    (hm : (s.pos v).moving = false) (hq : v ∉ s.positioners.queue) : (s.seekTravel v).travelSound := by
  have hsound := (travelSound_iff s).mp h
  unfold State.seekTravel
  split
  · next hfree =>
    obtain ⟨k, hk, htake⟩ := pick_free_slot hfree
    rw [htake, travelSound_iff]
    unfold State.enterTravel
    rw [pos_setPos_eq_update]
    exact hsound.grant hk hq hm (Positioner.travelling_fits (hsound.fits v) hs _) rfl
  · rw [travelSound_iff]
    have hjoin := hsound.join (v := v) (r := { s.pos v with state := .waiting, intent := some .move }) hq
      ⟨(hsound.fits v).placing.trans hs, (hsound.fits v).range, (hsound.fits v).target⟩ hm (.inl rfl)
    rwa [← pos_setPos_eq_update] at hjoin

theorem travelSound_seekHoming {s : State} (h : s.travelSound) {v : Fin 8} (hm : (s.pos v).moving = false)
    (hq : v ∉ s.positioners.queue) : (s.seekHoming v).travelSound := by
  have hsound := (travelSound_iff s).mp h
  unfold State.seekHoming
  split
  · next hfree =>
    obtain ⟨k, hk, htake⟩ := pick_free_slot hfree
    rw [htake, travelSound_iff]
    unfold State.beginHoming
    rw [pos_setPos_eq_update]
    exact hsound.grant hk hq hm (Positioner.homing_fits (hsound.fits v) _) rfl
  · rw [travelSound_iff]
    have hfits := hsound.fits v
    have hjoin := hsound.join (v := v)
      (r := { s.pos v with state := (if (s.pos v).state = .idle then .waiting else (s.pos v).state), intent := some .home }) hq
      ⟨hfits.placing.trans (by cases hst : (s.pos v).state <;> simp [Positioner.placed, hst]), hfits.range, hfits.target⟩ hm
      (by cases hst : (s.pos v).state <;> simp_all [Positioner.mayQueue, Positioner.moving])
    rwa [← pos_setPos_eq_update] at hjoin

/-! ### Requests and automatic targets -/

theorem travelSound_settleHere {s : State} (h : s.travelSound) {v : Fin 8} (hs : (s.pos v).placed = true) :
    (s.settleHere v).travelSound := by
  have hfits := ((travelSound_iff s).mp h).fits v
  exact travelSound_stop_leave h v ⟨hfits.placing.trans hs, hfits.range, hfits.target⟩ rfl

@[simp] theorem pos_supersede (s : State) (v : Fin 8) (x : Int) : (s.supersede v x).pos = s.pos := pos_postTo ..
@[simp] theorem supersede_positioners (s : State) (v : Fin 8) (x : Int) : (s.supersede v x).positioners = s.positioners :=
  postTo_positioners ..

/-- A positioner takes a target in range, and a port. -/
theorem travelSound_aim {s t : State} (h : s.travelSound) (hp : t.positioners = s.positioners) (v : Fin 8) {target : Nat}
    (ht : target ≤ 1023) (p : Option Port) : (t.setPos v { t.pos v with target := target, port := p }).travelSound := by
  have hsound := travelSound_of_same hp h
  refine travelSound_setPos hsound rfl ⟨hsound.placing v, hsound.range v, ht⟩ fun hmem => ?_
  exact ((travelSound_iff t).mp hsound).queued v hmem

theorem travelSound_retarget {s : State} (h : s.travelSound) (p : Port) {v : Fin 8} {target : Nat} (ht : target ≤ 1023)
    (hs : (s.pos v).placed = true) : (s.retarget p v target).1.travelSound := by
  unfold State.retarget
  have haimed := travelSound_aim h (supersede_positioners s v (s.pos v).target) v ht (some p)
  dsimp only
  split
  · exact travelSound_tellRequester (travelSound_settleHere haimed (by simpa [Positioner.placed] using hs)) _ _ _
  · exact haimed

/-- An IDLE positioner does not queue. -/
theorem not_queued_of_idle {s : State} (h : s.travelSound) {v : Fin 8} (hs : (s.pos v).state = .idle) :
    v ∉ s.positioners.queue := fun hmem => by
  have := h.queued v hmem
  simp [hs] at this

theorem clampNat_le (lo hi x : Nat) : clampNat lo hi x ≤ hi := min_le_left ..

theorem travelSound_move {s : State} (h : s.travelSound) (p : Port) (payload : List Byte) :
    (handleMove s p payload).1.travelSound := by
  unfold handleMove
  split
  · exact h
  · next v _ =>
    dsimp only
    have htarget := clampNat_le 0 1023 (readU16 payload 1)
    generalize clampNat 0 1023 (readU16 payload 1) = target at htarget ⊢
    split
    · exact h
    · split
      · exact h
      · exact h
      · exact h
      · next hst =>
        split
        · exact h
        · exact travelSound_retarget h p htarget (by simp [Positioner.placed, hst])
      · next hst => exact travelSound_retarget h p htarget (by simp [Positioner.placed, hst])
      · next hst =>
        have haimed : ∀ q, (s.setPos v { s.pos v with target := target, port := q }).travelSound :=
          travelSound_aim h rfl v htarget
        split
        · exact travelSound_of_same (by simp [okay]) (haimed (s.pos v).port)
        · refine travelSound_seekTravel (haimed _) ?_ ?_ (not_queued_of_idle h hst) <;>
            simp [Positioner.placed, Positioner.moving, hst]

theorem travelSound_home {s : State} (h : s.travelSound) (p : Port) (payload : List Byte) :
    (handleHome s p payload).1.travelSound := by
  unfold handleHome
  split
  · exact h
  · next v _ =>
    have htold : (s.supersede v (s.pos v).replacedValue).travelSound := travelSound_of_same (by simp) h
    have hasked : ∀ q, ((s.supersede v (s.pos v).replacedValue).setPos v { s.pos v with port := q }).travelSound := by
      intro q
      refine travelSound_setPos_of_same htold ?_ ?_ ?_ ?_ <;> simp
    split
    · exact h
    · split
      · have hnone := hasked none
        unfold okay State.homeAtEndstop
        dsimp only
        rw [pos_supersede]
        refine travelSound_of_same (post_positioners ..) ?_
        exact travelSound_stop_leave hnone v (Positioner.homed_fits _) rfl
      · have hsome := hasked (some p)
        unfold accepted State.startHome
        dsimp only
        rw [pos_supersede]
        have hqueue : ((s.supersede v (s.pos v).replacedValue).setPos v { s.pos v with port := some p }).positioners.queue =
          s.positioners.queue := by simp
        split
        · next hst =>
          refine travelSound_setPos hsome (by simp [Positioner.moving, hst]) ?_ ?_
          · exact Positioner.homing_fits (((travelSound_iff _).mp hsome).fits v) _
          · exact fun hmem => absurd (hqueue ▸ hmem) (not_queued_of_moving h (by simp [Positioner.moving, hst]))
        · exact hsome
        · next hst =>
          exact travelSound_seekHoming hsome (by simp [Positioner.moving, hst]) (hqueue ▸ not_queued_of_idle h hst)
        · next hst =>
          have hfits := ((travelSound_iff _).mp hsome).fits v
          refine travelSound_setPos hsome rfl ⟨hfits.placing, hfits.range, hfits.target⟩ fun _ => .inl ?_
          simpa using hst
        all_goals
          next hst =>
          split
          · exact hsome
          · next hnot =>
            refine travelSound_seekHoming hsome (by simp [Positioner.moving, hst]) (hqueue ▸ ?_)
            simpa [State.queued] using hnot

theorem travelSound_posMode {s : State} (h : s.travelSound) (payload : List Byte) :
    (handlePosMode s payload).1.travelSound := by
  unfold handlePosMode
  split
  · dsimp only
    split
    · exact h
    · exact travelSound_setPos_of_same h rfl rfl rfl rfl
  · exact h

theorem travelSound_autoTarget {s : State} (h : s.travelSound) (v : Fin 8) {target : Nat} (ht : target ≤ 1023) :
    (s.autoTarget v target).travelSound := by
  unfold State.autoTarget
  dsimp only
  refine travelSound_setPos_of_same ?_ rfl rfl rfl rfl
  split
  · next hgo =>
    unfold State.applyTarget
    dsimp only
    split
    · next hst =>
      have haimed := travelSound_aim h rfl v ht none
      split
      · exact haimed
      · refine travelSound_seekTravel haimed ?_ ?_ (not_queued_of_idle h hst) <;>
          simp [Positioner.placed, Positioner.moving, hst]
    · have haimed := travelSound_aim h (supersede_positioners s v (s.pos v).target) v ht none
      split
      · refine travelSound_settleHere haimed ?_
        simp only [Bool.and_eq_true, Positioner.followsPool] at hgo
        cases hst : (s.pos v).state <;> simp_all [Positioner.placed]
      · exact haimed
  · exact h

theorem travelSound_autoHome {s : State} (h : s.travelSound) (v : Fin 8) : (s.autoHome v).travelSound := by
  unfold State.autoHome
  split
  · next hgo =>
    simp only [Bool.and_eq_true, decide_eq_true_eq, Bool.not_eq_true', State.queued] at hgo
    obtain ⟨hst, hnot⟩ := hgo
    have hq : v ∉ s.positioners.queue := by simpa using hnot
    have hm : (s.pos v).moving = false := by simp [Positioner.moving, hst]
    split
    · exact travelSound_setPos h (by rw [hm]; rfl) (Positioner.homed_fits _) fun hmem => absurd hmem hq
    · exact travelSound_seekHoming h hm hq
  · exact h

theorem travelSound_operations : PositionerOperations (fun s t => s.travelSound → t.travelSound) where
  travelTimer s v h := by
    unfold State.travelTimer
    split
    · next hst => exact travelSound_travelStep h hst
    · exact h
  travelEnd s v h := by
    unfold State.travelEnd
    dsimp only
    split
    · exact h
    · next hst =>
      have hst : (s.pos v).state = .travel := by simpa using hst
      split
      · exact travelSound_endTravel h hst
      · split
        · exact travelSound_travelStep h hst
        · exact h
  homingTimer s v h := by
    unfold State.homingTimer
    split
    · exact travelSound_homingStep h v
    · exact h
  homingFailure s v h := by
    unfold State.homingFailure
    dsimp only
    split
    · exact h
    · split
      · exact travelSound_enterFault h v _
      · split
        · exact travelSound_homingStep h v
        · exact h
  endstopRises s v h := by
    have hseen : (s.setPos v { s.pos v with endstop := true }).travelSound := travelSound_setPos_of_same h rfl rfl rfl rfl
    unfold State.endstopRises
    dsimp only
    split
    · next hst => exact travelSound_endHoming hseen (by simp [Positioner.moving, hst])
    · next hst => exact travelSound_checkEndstop hseen (by simpa using hst) _
    · exact hseen
  endstopFalls s v h := travelSound_setPos_of_same h rfl rfl rfl rfl
  drvfaultRises s v h := by
    unfold State.drvfaultRises
    exact travelSound_enterFault (travelSound_setPos_of_same h (by rfl) (by rfl) (by rfl) (by rfl)) v _
  drvfaultFalls s v h := travelSound_setPos_of_same h rfl rfl rfl rfl
  move s p payload h := travelSound_move h p payload
  home s p payload h := travelSound_home h p payload
  posMode s payload h := travelSound_posMode h payload
  autoTarget s v x hx h := travelSound_autoTarget h v hx
  autoHome s v h := travelSound_autoHome h v

theorem travelSound_zoneMoves : ZoneMoves (fun s t => s.travelSound → t.travelSound) where
  refl _ := id
  trans h k := k ∘ h
  post _ _ _ _ _ _ := travelSound_of_same (by simp)
  setZone _ _ _ _ := travelSound_of_same rfl
  boilerProven _ _ := travelSound_of_same rfl

theorem travelSound_stepMoves : StepMoves (fun s t => s.travelSound → t.travelSound) where
  toZoneMoves := travelSound_zoneMoves
  toLightingOperations := lightingOnly_operations.mono fun h => travelSound_of_same (congrArg State.positioners h :)
  toPositionerOperations := travelSound_operations
  port _ _ _ _ := travelSound_of_same (by simp)
  scanner _ _ := travelSound_of_same rfl
  surface _ _ _ := travelSound_of_same rfl
  mode _ _ _ := travelSound_of_same rfl
  plant _ _ := travelSound_of_same rfl
  building _ _ := travelSound_of_same rfl
  fog _ _ := travelSound_of_same rfl
  pool _ _ _ := travelSound_of_same rfl
  setLoopFail := setLoopFail_of_moves travelSound_zoneMoves (fun _ _ => travelSound_of_same rfl)
    (fun _ _ => travelSound_of_same rfl)
  frame _ _ _ := travelSound_of_same rfl
  deviceSeconds _ _ := travelSound_of_same rfl
  setDomain _ _ _ _ := travelSound_of_same rfl

theorem pos_idle (s : State) (v : Fin 8) : s.idle.pos v = { s.pos v with stepTimer := timerIdle (s.pos v).stepTimer } :=
  pick_mapAll ..

theorem travelSound_idle {s : State} (h : s.travelSound) : s.idle.travelSound where
  slotsOnce := h.slotsOnce
  holdersOnce := h.holdersOnce
  queuedOnce := h.queuedOnce
  holding v := by rw [pos_idle]; exact h.holding v
  placing v := by rw [pos_idle]; exact h.placing v
  range v := by rw [pos_idle]; exact h.range v
  targets v := by rw [pos_idle]; exact h.targets v
  queued v hv := by rw [pos_idle]; exact h.queued v hv

theorem pos_released (s : State) (straps : Straps) (drvfault endstop : BitVec 8) (proven : Bool) (v : Fin 8) :
    (s.released straps drvfault endstop proven).pos v = resetPositioner drvfault endstop v := by
  fin_cases v <;> rfl

theorem travelSound_released (s : State) (straps : Straps) (drvfault endstop : BitVec 8) (proven : Bool) :
    (s.released straps drvfault endstop proven).travelSound where
  slotsOnce := List.nodup_nil
  holdersOnce := List.nodup_nil
  queuedOnce := List.nodup_nil
  holding v := by rw [pos_released]; simp [State.released, resetPositioner, Positioner.reset, Positioner.moving]
  placing v := by rw [pos_released]; rfl
  range v := by rw [pos_released]; simp [resetPositioner, Positioner.reset]
  targets v := by rw [pos_released]; exact Nat.zero_le _
  queued v hv := absurd hv List.not_mem_nil

theorem travelSound_faultAtReset {s : State} (h : s.travelSound) : s.faultAtReset.travelSound :=
  foldl_related (R := fun s t => s.travelSound → t.travelSound) (fun _ => id) (fun h k => k ∘ h) _ (fun t v ht => by
    split
    · exact travelSound_enterFault ht v _
    · exact ht) all8 s h

/-- Settles O57: each operation of the positioner unit replaces a record, takes or gives up a slot, joins or leaves the queue, or
passes a slot on, and each of these keeps records, slots and queue in agreement. -/
theorem travelSlotsStaySound : Obligations.TravelSlotsStaySound := fun _ _ hs ht =>
  kept_by_step travelSound_stepMoves
    (travelSound_stepMoves.allocationRound
      fun s spill => travelSound_of_same (congrArg State.positioners (lighting_evaluateRound s spill) :))
    (fun _ => travelSound_idle) (fun _ _ _ _ _ => travelSound_faultAtReset (travelSound_released ..))
    (fun _ _ => travelSound_of_same rfl) hs ht

end Sys2Proof.Machine
end

