-- ==== Sys2Proof/Proofs/LightingLaws.lean ====
section
/-! PROOFS. What the lighting's shared operations leave of slots, channels, entries and queues: freeing a slot (R144), and entry into
FADING (R146, R147). -/

namespace Sys2Proof.Machine

/-! ### Reading a block back -/

theorem slot_congr {s t : State} (h : t.slots = s.slots) (n : Fin 8) : t.slot n = s.slot n := by rw [State.slot, State.slot, h]
theorem channel_congr {s t : State} (h : t.channels = s.channels) (c : Fin 96) : t.channel c = s.channel c := by
  rw [State.channel, State.channel, h]
theorem entry_congr {s t : State} (h : t.store = s.store) (l : Fin 64) (w : Fin 2) : t.entry l w = s.entry l w := by
  rw [State.entry, State.entry, h]

theorem slot_setSlot (s : State) (n m : Fin 8) (x : Slot) : (s.setSlot n x).slot m = if m = n then x else s.slot m := pick_put ..
theorem channel_setChannel (s : State) (c d : Fin 96) (x : Channel) :
    (s.setChannel c x).channel d = if d = c then x else s.channel d := pick_put ..

theorem entry_setEntry (s : State) (l k : Fin 64) (w v : Fin 2) (e : Entry) :
    (s.setEntry l w e).entry k v = if k = l ∧ v = w then e else s.entry k v := by
  simp only [State.setEntry, State.entry, pick_put]
  by_cases hk : k = l
  · subst hk
    simp [pick_put]
  · simp [hk]

theorem lru_setEntry (s : State) (l k : Fin 64) (w : Fin 2) (e : Entry) :
    (pick (s.setEntry l w e).store k).lru = (pick s.store k).lru := by
  simp only [State.setEntry, pick_put]
  split
  · next hk => rw [hk]
  · rfl

@[simp] theorem entry_setLru (s : State) (l k : Fin 64) (w v : Fin 2) : (s.setLru l w).entry k v = s.entry k v := by
  simp only [State.setLru, State.entry, pick_put]
  split
  · next hk => rw [hk]
  · rfl

theorem lru_setLru (s : State) (l k : Fin 64) (w : Fin 2) :
    (pick (s.setLru l w).store k).lru = if k = l then w else (pick s.store k).lru := by
  simp only [State.setLru, pick_put]
  split <;> rfl

@[simp] theorem postTo_slots (s : State) (p : Option Port) (k : RecordKind) (o : Nat) (v : Int) :
    (s.postTo p k o v).slots = s.slots := by cases p <;> simp [State.postTo]
@[simp] theorem postTo_channels (s : State) (p : Option Port) (k : RecordKind) (o : Nat) (v : Int) :
    (s.postTo p k o v).channels = s.channels := by cases p <;> simp [State.postTo]
@[simp] theorem postTo_store (s : State) (p : Option Port) (k : RecordKind) (o : Nat) (v : Int) :
    (s.postTo p k o v).store = s.store := by cases p <;> simp [State.postTo]
@[simp] theorem postTo_governor (s : State) (p : Option Port) (k : RecordKind) (o : Nat) (v : Int) :
    (s.postTo p k o v).governor = s.governor := by cases p <;> simp [State.postTo]
@[simp] theorem postTo_deviceSeconds (s : State) (p : Option Port) (k : RecordKind) (o : Nat) (v : Int) :
    (s.postTo p k o v).deviceSeconds = s.deviceSeconds := by cases p <;> simp [State.postTo]

/-! ### Freeing a slot (R144) -/

/-- A channel that a set of slots gives up. -/
def Channel.disowned (ch : Channel) (n : Fin 8) : Channel := { ch with owner := if ch.owner = some n then none else ch.owner }

/-- An entry whose waiter list a slot leaves. -/
def Entry.without (e : Entry) (n : Fin 8) : Entry := { e with waiters := e.waiters.filter (· != n) }

theorem slot_freeSlot (s : State) (n m : Fin 8) : (s.freeSlot n).slot m = if m = n then Slot.reset else s.slot m := by
  simp only [State.freeSlot, slot_setSlot]
  rfl

theorem channel_freeSlot (s : State) (n : Fin 8) (c : Fin 96) : (s.freeSlot n).channel c = (s.channel c).disowned n := by
  have h : (s.freeSlot n).channel c = pick (mapAll (fun ch => if ch.owner = some n then { ch with owner := none } else ch)
    s.channels) c := rfl
  rw [h, pick_mapAll]
  change (if (s.channel c).owner = some n then _ else s.channel c) = _
  unfold Channel.disowned
  split <;> rfl

theorem entry_freeSlot (s : State) (n : Fin 8) (l : Fin 64) (w : Fin 2) :
    (s.freeSlot n).entry l w = if l = cueLine (s.slot n).cue then (s.entry l w).without n else s.entry l w := by
  have h : (s.freeSlot n).entry l w = (s.leaveWaiters n (s.slot n).cue).entry l w := rfl
  rw [h]
  simp only [State.leaveWaiters, State.entry, pick_put]
  split
  · next hl => rw [pick_mapAll, hl]; rfl
  · rfl

theorem lru_freeSlot (s : State) (n : Fin 8) (l : Fin 64) : (pick (s.freeSlot n).store l).lru = (pick s.store l).lru := by
  have h : (s.freeSlot n).store = (s.leaveWaiters n (s.slot n).cue).store := rfl
  rw [h]
  simp only [State.leaveWaiters, pick_put]
  split
  · next hl => rw [hl]
  · rfl

theorem freeSlot_governor (s : State) (n : Fin 8) :
    (s.freeSlot n).governor = { s.governor with queue := s.governor.queue.filter (· != n) } := rfl

theorem slot_endSlot (s : State) (n m : Fin 8) (k : RecordKind) :
    (s.endSlot n k).slot m = if m = n then Slot.reset else s.slot m :=
  (slot_congr (by simp [State.endSlot]) m).trans (slot_freeSlot s n m)

theorem channel_endSlot (s : State) (n : Fin 8) (k : RecordKind) (c : Fin 96) :
    (s.endSlot n k).channel c = (s.channel c).disowned n :=
  (channel_congr (by simp [State.endSlot]) c).trans (channel_freeSlot s n c)

theorem entry_endSlot (s : State) (n : Fin 8) (k : RecordKind) (l : Fin 64) (w : Fin 2) :
    (s.endSlot n k).entry l w = if l = cueLine (s.slot n).cue then (s.entry l w).without n else s.entry l w :=
  (entry_congr (by simp [State.endSlot]) l w).trans (entry_freeSlot s n l w)

theorem lru_endSlot (s : State) (n : Fin 8) (k : RecordKind) (l : Fin 64) :
    (pick (s.endSlot n k).store l).lru = (pick s.store l).lru := by
  rw [State.endSlot, postTo_store, lru_freeSlot]

theorem endSlot_governor (s : State) (n : Fin 8) (k : RecordKind) :
    (s.endSlot n k).governor = { s.governor with queue := s.governor.queue.filter (· != n) } := by
  rw [State.endSlot, postTo_governor, freeSlot_governor]

/-! ### Writing levels (R148) -/

/-- The level that a channel list gives a channel, at an elapsed time of a fade of some duration. -/
def listedLevel (list : List ListEntry) (duration elapsed : Nat) (c : Fin 96) (old : Nat) : Nat :=
  match list.find? (fun e => e.channel == c) with
  | some e => fadeLevel duration e.start e.target e.offset elapsed
  | none => old

theorem listedLevel_cons (e : ListEntry) (list : List ListEntry) (duration elapsed : Nat) (c : Fin 96) (old : Nat) :
    listedLevel (e :: list) duration elapsed c old =
      if e.channel = c then fadeLevel duration e.start e.target e.offset elapsed else listedLevel list duration elapsed c old := by
  unfold listedLevel
  by_cases h : e.channel = c <;> simp [h]

theorem listedLevel_of_not_mem {list : List ListEntry} {c : Fin 96} (h : c ∉ list.map ListEntry.channel) (duration elapsed : Nat)
    (old : Nat) : listedLevel list duration elapsed c old = old := by
  have hnone : list.find? (fun e => e.channel == c) = none := by
    simpa [List.find?_eq_none] using fun (e : ListEntry) he (hc : e.channel = c) => h (hc ▸ List.mem_map_of_mem he)
  simp [listedLevel, hnone]

/-- Writing the levels of a list that names each channel once. -/
theorem channel_foldl_levels (list : List ListEntry) (hl : (list.map ListEntry.channel).Nodup) (duration elapsed : Nat)
    (s : State) (c : Fin 96) :
    (list.foldl (fun s e => s.setChannel e.channel
      { s.channel e.channel with level := fadeLevel duration e.start e.target e.offset elapsed }) s).channel c =
    { s.channel c with level := listedLevel list duration elapsed c (s.channel c).level } := by
  induction list generalizing s with
  | nil => rfl
  | cons e list ih =>
    rw [List.map_cons, List.nodup_cons] at hl
    rw [List.foldl_cons, ih hl.2, channel_setChannel, listedLevel_cons]
    by_cases hc : c = e.channel
    · rw [if_pos hc, if_pos hc.symm, listedLevel_of_not_mem (by rw [hc]; exact hl.1), hc]
    · rw [if_neg hc, if_neg (Ne.symm hc)]

theorem channel_writeLevels (s : State) (n : Fin 8) (hl : ((s.slot n).list.map ListEntry.channel).Nodup) (c : Fin 96) :
    (s.writeLevels n).channel c = { s.channel c with
      level := listedLevel (s.slot n).list (s.slot n).duration (s.slot n).elapsed c (s.channel c).level } :=
  channel_foldl_levels _ hl _ _ s c

/-- Levels change nothing but the channel table. -/
theorem writeLevels_frame (s : State) (n : Fin 8) : s.writeLevels n = { s with channels := (s.writeLevels n).channels } :=
  foldl_related (R := fun s t => t = { s with channels := t.channels }) (fun _ => rfl) (fun h k => by rw [k, h]) _
    (fun _ _ => rfl) _ s

theorem owner_writeLevels (s : State) (n : Fin 8) (c : Fin 96) : ((s.writeLevels n).channel c).owner = (s.channel c).owner := by
  refine foldl_related (R := fun s t => (t.channel c).owner = (s.channel c).owner) (fun _ => rfl) (fun h k => k.trans h) _
    (fun t e => ?_) _ s
  rw [channel_setChannel]
  split
  · next hc => rw [hc]
  · rfl

/-! ### Entry into FADING (R146, R147) -/

/-- The channels that a list names. -/
def named (list : List ListEntry) (c : Fin 96) : Bool := list.any (fun e => e.channel == c)

theorem named_iff (list : List ListEntry) (c : Fin 96) : named list c = true ↔ c ∈ list.map ListEntry.channel := by
  simp [named]

theorem channel_takeChannel (n : Fin 8) (s : State) (e : ListEntry) (c : Fin 96) : (State.takeChannel n s e).channel c =
    if c = e.channel then { s.channel c with owner := some n } else s.channel c := by
  unfold State.takeChannel
  dsimp only
  rw [channel_setChannel]
  split
  · next hc => rw [hc]
  · split
    · rfl
    · split <;> rfl

/-- The list of a slot that the entering slot takes one channel from. -/
theorem slot_takeChannel (n : Fin 8) (s : State) (e : ListEntry) (m : Fin 8) : (State.takeChannel n s e).slot m =
    if m ≠ n ∧ (s.channel e.channel).owner = some m then
      { s.slot m with list := (s.slot m).list.filter (fun x => x.channel != e.channel) } else s.slot m := by
  unfold State.takeChannel
  dsimp only
  have hset : ∀ (t : State) x, (t.setChannel e.channel x).slot m = t.slot m := fun _ _ => rfl
  rw [hset]
  split
  · next ho => simp [ho]
  · next k ho =>
    rw [ho]
    split
    · next hk =>
      rw [if_neg]
      rintro ⟨hm, heq⟩
      exact hm (by rw [← Option.some.inj heq, hk])
    · next hk =>
      rw [slot_setSlot]
      by_cases hm : m = k
      · rw [if_pos hm, if_pos ⟨hm ▸ hk, by rw [hm]⟩, hm]
      · rw [if_neg hm, if_neg fun h => hm (Option.some.inj h.2).symm]

theorem channel_taken (n : Fin 8) (list : List ListEntry) (s : State) (c : Fin 96) :
    (list.foldl (State.takeChannel n) s).channel c =
      if named list c = true then { s.channel c with owner := some n } else s.channel c := by
  induction list generalizing s with
  | nil => rfl
  | cons e list ih =>
    rw [List.foldl_cons, ih, channel_takeChannel]
    have hnamed : named (e :: list) c = (e.channel == c || named list c) := rfl
    rw [hnamed]
    by_cases hc : c = e.channel
    · simp [hc]
    · simp [hc, Ne.symm hc]

/-- The list of another slot, less the entries of the channels that the entering slot has taken from it. -/
theorem slot_taken (n : Fin 8) (list : List ListEntry) (s : State) {m : Fin 8} (hm : m ≠ n) :
    (list.foldl (State.takeChannel n) s).slot m = { s.slot m with
      list := (s.slot m).list.filter (fun x => !(named list x.channel && (s.channel x.channel).owner == some m)) } := by
  induction list generalizing s with
  | nil => simp [named]
  | cons e list ih =>
    have hnamed : ∀ c, named (e :: list) c = (e.channel == c || named list c) := fun _ => rfl
    rw [List.foldl_cons, ih, slot_takeChannel]
    have hnm : (some n == some m) = false := by simpa using Ne.symm hm
    by_cases ho : (s.channel e.channel).owner = some m
    · rw [if_pos ⟨hm, ho⟩]
      simp only [List.filter_filter, Slot.mk.injEq, true_and, and_true]
      refine List.filter_congr fun x _ => ?_
      rw [channel_takeChannel, hnamed]
      by_cases hx : x.channel = e.channel
      · simp [hx, ho]
      · have hex : (e.channel == x.channel) = false := by simpa using Ne.symm hx
        have hxe : (x.channel != e.channel) = true := by simpa using hx
        rw [if_neg hx, hex, hxe, Bool.and_true, Bool.false_or]
    · rw [if_neg fun h => ho h.2]
      simp only [Slot.mk.injEq, true_and, and_true]
      refine List.filter_congr fun x _ => ?_
      rw [channel_takeChannel, hnamed]
      by_cases hx : x.channel = e.channel
      · have hom : ((s.channel e.channel).owner == some m) = false := by simpa using ho
        rw [if_pos hx, hx, hom, hnm, Bool.and_false, Bool.and_false]
      · have hex : (e.channel == x.channel) = false := by simpa using Ne.symm hx
        rw [if_neg hx, hex, Bool.false_or]

theorem slot_taken_self (n : Fin 8) (list : List ListEntry) (s : State) :
    (list.foldl (State.takeChannel n) s).slot n = s.slot n := by
  induction list generalizing s with
  | nil => rfl
  | cons e list ih => rw [List.foldl_cons, ih, slot_takeChannel, if_neg fun h => h.1 rfl]

/-- A slot that has just entered FADING, before its levels are written. -/
def Slot.started (sl : Slot) (s : State) : Slot :=
  { sl with state := .fading, elapsed := 0, timer := some 20
            list := sl.list.map (fun e => { e with start := (s.channel e.channel).level }) }

theorem started_channels (sl : Slot) (s : State) : (sl.started s).list.map ListEntry.channel = sl.list.map ListEntry.channel := by
  simp [Slot.started, Function.comp_def]

theorem startFading_eq (s : State) (n : Fin 8) : s.startFading n =
    ((((s.slot n).list.foldl (State.takeChannel n) s).setSlot n ((s.slot n).started s)).leaveHeadroom n).writeLevels n := rfl

theorem slot_writeLevels (s : State) (n m : Fin 8) : (s.writeLevels n).slot m = s.slot m := by
  rw [writeLevels_frame]; rfl

theorem slot_startFading (s : State) (n m : Fin 8) : (s.startFading n).slot m =
    if m = n then (s.slot n).started s else { s.slot m with
      list := (s.slot m).list.filter (fun x => !(named (s.slot n).list x.channel && (s.channel x.channel).owner == some m)) } := by
  rw [startFading_eq, slot_writeLevels]
  have hlh : ∀ (t : State) k, (t.leaveHeadroom k).slot m = t.slot m := fun _ _ => rfl
  rw [hlh, slot_setSlot]
  split
  · rfl
  · next hm => exact slot_taken n _ s hm

theorem owner_startFading (s : State) (n : Fin 8) (c : Fin 96) : ((s.startFading n).channel c).owner =
    if named (s.slot n).list c = true then some n else (s.channel c).owner := by
  rw [startFading_eq, owner_writeLevels]
  have hch : ∀ (t : State) x, ((t.setSlot n x).leaveHeadroom n).channel c = t.channel c := fun _ _ => rfl
  rw [hch, channel_taken]
  split <;> rfl

theorem channel_startFading (s : State) (n : Fin 8) (hl : ((s.slot n).list.map ListEntry.channel).Nodup) (c : Fin 96) :
    (s.startFading n).channel c = { s.channel c with
      owner := if named (s.slot n).list c = true then some n else (s.channel c).owner
      level := listedLevel ((s.slot n).started s).list (s.slot n).duration 0 c (s.channel c).level } := by
  rw [startFading_eq]
  have hslot : ∀ (t : State) (x : Slot), ((t.setSlot n x).leaveHeadroom n).slot n = x := fun t x => slot_setSlot_same t n x
  have hch : ∀ (t : State) (x : Slot), ((t.setSlot n x).leaveHeadroom n).channel c = t.channel c := fun _ _ => rfl
  rw [channel_writeLevels _ _ (by rw [hslot, started_channels]; exact hl), hslot, hch, channel_taken]
  split <;> rfl

theorem startFading_store (s : State) (n : Fin 8) : (s.startFading n).store = s.store :=
  (congrArg State.store (fading_startFading s n) :)

theorem taken_governor (n : Fin 8) (list : List ListEntry) (s : State) :
    (list.foldl (State.takeChannel n) s).governor = s.governor :=
  foldl_related (R := fun s t => t.governor = s.governor) (fun _ => rfl) (fun h k => k.trans h) _ (fun t e => by
    unfold State.takeChannel
    dsimp only
    rw [setChannel_governor]
    split
    · rfl
    · split <;> rfl) list s

theorem startFading_governor (s : State) (n : Fin 8) :
    (s.startFading n).governor = { s.governor with queue := s.governor.queue.filter (· != n) } := by
  rw [startFading_eq, writeLevels_frame, State.leaveHeadroom]
  simp only [setSlot_governor, taken_governor]

end Sys2Proof.Machine
end

