-- ==== Sys2Proof/Proofs/LightingSoundness.lean ====
section
/-! PROOFS. Slots, channels, headroom queue and cue store stay in agreement (O58). While a fill completes or an entry is dropped, its
waiters stand in no list for a while: the agreement is stated but for such a set of slots. -/

namespace Sys2Proof.Machine

/-! ### The agreement in two halves -/

/-- What slots, channels and headroom queue say of each other. -/
structure FadesSound (s : State) : Prop where
  freeReset    : ∀ n, (s.slot n).state = .free → s.slot n = Slot.reset
  owners       : ∀ c n, (s.channel c).owner = some n ↔
    (s.slot n).state = .fading ∧ c ∈ (s.slot n).list.map ListEntry.channel
  lists        : ∀ n, ((s.slot n).list.map ListEntry.channel).Nodup
  headroom     : ∀ n, n ∈ s.governor.queue ↔ (s.slot n).state = .waitingHeadroom
  headroomOnce : s.governor.queue.Nodup

/-- The cue that a slot awaits the fill of. -/
def Slot.awaits (sl : Slot) : Option Nat := if sl.state = .waitingFill then some sl.cue else none

theorem awaits_eq_none {sl : Slot} : sl.awaits = none ↔ sl.state ≠ .waitingFill := by simp [Slot.awaits]
theorem awaits_eq_some {sl : Slot} {cue : Nat} : sl.awaits = some cue ↔ sl.state = .waitingFill ∧ sl.cue = cue := by
  simp [Slot.awaits]

/-- What slots and cue store say of each other, but for the slots `W`: they await a fill and stand in no list. -/
structure StoreSound (W : List (Fin 8)) (s : State) : Prop where
  tags         : ∀ l, (s.entry l 0).state ≠ .invalid → (s.entry l 1).state ≠ .invalid → (s.entry l 0).tag ≠ (s.entry l 1).tag
  present      : ∀ l w, (s.entry l w).state = .present → (s.entry l w).complete = true
  waitersOnce  : ∀ l w, (s.entry l w).waiters.Nodup
  waiters      : ∀ l w n, n ∈ (s.entry l w).waiters →
    (s.entry l w).state = .filling ∧ ∃ cue, (s.slot n).awaits = some cue ∧ cueLine cue = l ∧ cueTag cue = (s.entry l w).tag
  waiting      : ∀ n cue, (s.slot n).awaits = some cue → n ∈ W ∨ ∃ w, n ∈ (s.entry (cueLine cue) w).waiters
  pending      : ∀ n ∈ W, (s.slot n).awaits ≠ none ∧ ∀ l w, n ∉ (s.entry l w).waiters

theorem lightingSound_iff (s : State) : s.lightingSound ↔ FadesSound s ∧ StoreSound [] s := by
  constructor
  · intro h
    refine ⟨⟨h.freeReset, h.owners, h.lists, h.headroom, h.headroomOnce⟩, h.tags, h.present, h.waitersOnce, ?_, ?_, by simp⟩
    · intro l w n hn
      obtain ⟨hf, hw, hl, ht⟩ := h.waiters l w n hn
      exact ⟨hf, _, awaits_eq_some.2 ⟨hw, rfl⟩, hl, ht⟩
    · intro n cue hc
      obtain ⟨hw, rfl⟩ := awaits_eq_some.1 hc
      exact .inr (h.waiting n hw)
  · rintro ⟨hf, hs⟩
    refine ⟨hf.freeReset, hf.owners, hf.lists, hf.headroom, hf.headroomOnce, hs.tags, hs.present, hs.waitersOnce, ?_, ?_⟩
    · intro l w n hn
      obtain ⟨hfill, cue, hc, hl, ht⟩ := hs.waiters l w n hn
      obtain ⟨hw, rfl⟩ := awaits_eq_some.1 hc
      exact ⟨hfill, hw, hl, ht⟩
    · intro n hn
      exact (hs.waiting n _ (awaits_eq_some.2 ⟨hn, rfl⟩)).resolve_left List.not_mem_nil

/-! ### States that agree in what the halves speak of -/

theorem fadesSound_of_same {s t : State} (hslots : ∀ n, t.slot n = s.slot n)
    (howners : ∀ c, (t.channel c).owner = (s.channel c).owner) (hqueue : t.governor.queue = s.governor.queue)
    (h : FadesSound s) : FadesSound t where
  freeReset n := by rw [hslots]; exact h.freeReset n
  owners c n := by rw [hslots, howners]; exact h.owners c n
  lists n := by rw [hslots]; exact h.lists n
  headroom n := by rw [hslots, hqueue]; exact h.headroom n
  headroomOnce := by rw [hqueue]; exact h.headroomOnce

theorem storeSound_of_same {W : List (Fin 8)} {s t : State} (hslots : ∀ n, (t.slot n).awaits = (s.slot n).awaits)
    (hentries : ∀ l w, t.entry l w = s.entry l w) (h : StoreSound W s) : StoreSound W t where
  tags l := by rw [hentries, hentries]; exact h.tags l
  present l w := by rw [hentries]; exact h.present l w
  waitersOnce l w := by rw [hentries]; exact h.waitersOnce l w
  waiters l w n := by rw [hentries, hslots]; exact h.waiters l w n
  waiting n cue hc := by
    rw [hslots] at hc
    simpa only [hentries] using h.waiting n cue hc
  pending n hn := by
    rw [hslots]
    simpa only [hentries] using h.pending n hn

/-- A slot stands in one waiter list at most. -/
theorem StoreSound.listed_once {W : List (Fin 8)} {s : State} (h : StoreSound W s) {n : Fin 8} {l k : Fin 64} {w v : Fin 2}
    (hl : n ∈ (s.entry l w).waiters) (hk : n ∈ (s.entry k v).waiters) : k = l ∧ v = w := by
  obtain ⟨hfl, cue, hc, rfl, htl⟩ := h.waiters l w n hl
  obtain ⟨hfk, cue', hc', rfl, htk⟩ := h.waiters k v n hk
  obtain rfl : cue = cue' := by simpa [hc] using hc'
  have htags := h.tags (cueLine cue)
  refine ⟨rfl, ?_⟩
  have live : ∀ {u}, (s.entry (cueLine cue) u).state = .filling → (s.entry (cueLine cue) u).state ≠ .invalid :=
    fun hu => by rw [hu]; decide
  fin_cases v <;> fin_cases w
  · rfl
  · exact absurd (htk.symm.trans htl) (htags (live hfk) (live hfl))
  · exact absurd (htl.symm.trans htk) (htags (live hfl) (live hfk))
  · rfl

/-! ### Freeing a slot -/

theorem owner_disowned (ch : Channel) (n m : Fin 8) : (ch.disowned n).owner = some m ↔ m ≠ n ∧ ch.owner = some m := by
  unfold Channel.disowned
  dsimp only
  split
  · next h =>
    rw [h]
    constructor
    · intro hm; exact absurd hm (by simp)
    · rintro ⟨hm, he⟩; exact absurd (Option.some.inj he).symm hm
  · next h =>
    constructor
    · intro hm; exact ⟨fun he => h (he ▸ hm), hm⟩
    · exact fun hm => hm.2

theorem fadesSound_freed {s t : State} {n : Fin 8} (hslots : ∀ m, t.slot m = if m = n then Slot.reset else s.slot m)
    (hchannels : ∀ c, t.channel c = (s.channel c).disowned n) (hqueue : t.governor.queue = s.governor.queue.filter (· != n))
    (h : FadesSound s) : FadesSound t where
  freeReset m := by
    rw [hslots]
    split
    · exact fun _ => rfl
    · exact h.freeReset m
  owners c m := by
    rw [hslots, hchannels, owner_disowned]
    split
    · next hm => simp [hm, Slot.reset]
    · next hm => rw [h.owners c m]; simp [hm]
  lists m := by
    rw [hslots]
    split
    · exact List.nodup_nil
    · exact h.lists m
  headroom m := by
    rw [hslots, hqueue]
    split
    · next hm => simp [hm, Slot.reset]
    · next hm => simpa [hm] using h.headroom m
  headroomOnce := by rw [hqueue]; exact h.headroomOnce.filter _

/-- A slot that stands in a waiter list of a line awaits a cue of that line, so that it leaves every list it stands in. -/
theorem StoreSound.without_of_line {W : List (Fin 8)} {s : State} (h : StoreSound W s) (n : Fin 8) (l : Fin 64) (w : Fin 2) :
    (if l = cueLine (s.slot n).cue then (s.entry l w).without n else s.entry l w) = (s.entry l w).without n := by
  split
  · rfl
  · next hl =>
    have hn : n ∉ (s.entry l w).waiters := by
      intro hn
      obtain ⟨-, cue, hc, hline, -⟩ := h.waiters l w n hn
      exact hl (by rw [(awaits_eq_some.1 hc).2, hline])
    simp only [Entry.without, filter_ne_eq_self hn]

theorem storeSound_freed {W : List (Fin 8)} {s t : State} {n : Fin 8}
    (hslots : ∀ m, t.slot m = if m = n then Slot.reset else s.slot m)
    (hentries : ∀ l w, t.entry l w = (s.entry l w).without n) (h : StoreSound W s) : StoreSound (W.filter (· != n)) t where
  tags l := by rw [hentries, hentries]; exact h.tags l
  present l w := by rw [hentries]; exact h.present l w
  waitersOnce l w := by rw [hentries]; exact (h.waitersOnce l w).filter _
  waiters l w m hm := by
    rw [hentries] at hm ⊢
    have hm : m ∈ (s.entry l w).waiters ∧ m ≠ n := by simpa [Entry.without] using hm
    rw [hslots, if_neg hm.2]
    exact h.waiters l w m hm.1
  waiting m cue hc := by
    rw [hslots] at hc
    split at hc
    · simp [Slot.awaits, Slot.reset] at hc
    · next hm =>
      refine (h.waiting m cue hc).imp (fun hW => by simpa [hm] using hW) fun ⟨w, hw⟩ => ⟨w, ?_⟩
      rw [hentries]
      simpa [Entry.without, hm] using hw
  pending m hm := by
    have hm : m ∈ W ∧ m ≠ n := by simpa using hm
    rw [hslots, if_neg hm.2]
    refine ⟨(h.pending m hm.1).1, fun l w hw => (h.pending m hm.1).2 l w ?_⟩
    rw [hentries] at hw
    exact (List.mem_filter.1 hw).1

/-- Both halves. -/
def SoundBut (W : List (Fin 8)) (s : State) : Prop := FadesSound s ∧ StoreSound W s

theorem soundBut_endSlot {W : List (Fin 8)} {s : State} (h : SoundBut W s) (n : Fin 8) (k : RecordKind) :
    SoundBut (W.filter (· != n)) (s.endSlot n k) :=
  ⟨fadesSound_freed (fun m => slot_endSlot s n m k) (channel_endSlot s n k) (by rw [endSlot_governor]) h.1,
    storeSound_freed (fun m => slot_endSlot s n m k)
      (fun l w => (entry_endSlot s n k l w).trans (h.2.without_of_line n l w)) h.2⟩

/-! ### Operations that leave the waiting slots alone -/

/-- One state follows from another soundly, and with no slot newly awaiting a fill. -/
def StaysSound (W : List (Fin 8)) (s t : State) : Prop :=
  SoundBut W s → SoundBut W t ∧ ∀ m, (s.slot m).awaits = none → (t.slot m).awaits = none

namespace StaysSound
variable {W : List (Fin 8)} {s t u : State}

theorem refl (s : State) : StaysSound W s s := fun h => ⟨h, fun _ => id⟩

theorem trans (h : StaysSound W s t) (k : StaysSound W t u) : StaysSound W s u := fun hs =>
  have ⟨ht, hst⟩ := h hs
  have ⟨hu, htu⟩ := k ht
  ⟨hu, fun m hm => htu m (hst m hm)⟩

theorem foldl {α : Type} (f : State → α → State) (ok : State → α → Prop) (hok : ∀ s t x, StaysSound W s t → ok s x → SoundBut W s → ok t x)
    (hf : ∀ s x, ok s x → StaysSound W s (f s x)) (l : List α) (s : State) (hl : ∀ x ∈ l, ok s x) :
    StaysSound W s (l.foldl f s) := by
  induction l generalizing s with
  | nil => exact refl s
  | cons x l ih =>
    intro hs
    have hx := hf s x (hl x (by simp))
    exact hx.trans (ih _ fun y hy => hok s _ y hx (hl y (by simp [hy])) hs) hs

end StaysSound

variable {W : List (Fin 8)} {s t : State}

/-- A state with the lighting of another, but for levels and coefficients. -/
theorem staysSound_of_same (hslots : t.slots = s.slots) (howners : ∀ c, (t.channel c).owner = (s.channel c).owner)
    (hqueue : t.governor.queue = s.governor.queue) (hstore : t.store = s.store) : StaysSound W s t := fun h =>
  ⟨⟨fadesSound_of_same (slot_congr hslots) howners hqueue h.1,
    storeSound_of_same (fun n => by rw [slot_congr hslots]) (entry_congr hstore) h.2⟩,
   fun m hm => by rw [slot_congr hslots]; exact hm⟩

theorem staysSound_endSlot {n : Fin 8} (hn : (s.slot n).awaits = none) (k : RecordKind) : StaysSound W s (s.endSlot n k) := by
  intro h
  have hW : W.filter (· != n) = W := filter_ne_eq_self fun hmem => (h.2.pending n hmem).1 hn
  refine ⟨hW ▸ soundBut_endSlot h n k, fun m hm => ?_⟩
  rw [slot_endSlot]
  split
  · rfl
  · exact hm

/-- The slot takes its channels from their owners, whose lists lose them. -/
theorem fadesSound_startFading (h : FadesSound s) (n : Fin 8) : FadesSound (s.startFading n) where
  freeReset m := by
    rw [slot_startFading]
    split
    · exact fun hfree => nomatch hfree
    · intro hfree
      rw [h.freeReset m hfree]
      rfl
  owners c m := by
    rw [slot_startFading, owner_startFading]
    by_cases hm : m = n
    · subst hm
      rw [if_pos rfl, started_channels, ← named_iff]
      by_cases hc : named (s.slot m).list c = true
      · simp [hc, Slot.started]
      · rw [if_neg hc, h.owners, ← named_iff]
        simp [hc]
    · rw [if_neg hm]
      have hmem : c ∈ (((s.slot m).list.filter (fun x =>
          !(named (s.slot n).list x.channel && (s.channel x.channel).owner == some m))).map ListEntry.channel) ↔
          c ∈ (s.slot m).list.map ListEntry.channel ∧ ¬(named (s.slot n).list c = true ∧ (s.channel c).owner = some m) := by
        simp only [List.mem_map, List.mem_filter, Bool.not_eq_true', Bool.and_eq_false_imp, beq_eq_false_iff_ne]
        constructor
        · rintro ⟨x, ⟨hx, hnot⟩, rfl⟩
          exact ⟨⟨x, hx, rfl⟩, fun hboth => hnot hboth.1 hboth.2⟩
        · rintro ⟨⟨x, hx, rfl⟩, hnot⟩
          exact ⟨x, ⟨hx, fun hnamed howner => hnot ⟨hnamed, howner⟩⟩, rfl⟩
      rw [hmem]
      by_cases hc : named (s.slot n).list c = true
      · have hnm : ¬n = m := Ne.symm hm
        have hown := h.owners c m
        simp only [hc, if_true, Option.some.injEq, hnm, false_iff, true_and, hown]
        tauto
      · rw [if_neg hc, h.owners c m]
        tauto
  lists m := by
    rw [slot_startFading]
    split
    · rw [started_channels]
      exact h.lists n
    · exact (h.lists m).sublist ((List.filter_sublist).map _)
  headroom m := by
    rw [slot_startFading, startFading_governor]
    split
    · next hm => simp [hm, Slot.started]
    · next hm => simpa [hm] using h.headroom m
  headroomOnce := by
    rw [startFading_governor]
    exact h.headroomOnce.filter _

theorem awaits_startFading (s : State) (n m : Fin 8) :
    ((s.startFading n).slot m).awaits = if m = n then none else (s.slot m).awaits := by
  rw [slot_startFading]
  split <;> rfl

theorem staysSound_startFading {n : Fin 8} (hn : (s.slot n).awaits = none) : StaysSound W s (s.startFading n) := by
  have hawaits : ∀ m, ((s.startFading n).slot m).awaits = (s.slot m).awaits := by
    intro m
    rw [awaits_startFading]
    split
    · next hm => rw [hm, hn]
    · rfl
  exact fun h => ⟨⟨fadesSound_startFading h.1 n, storeSound_of_same hawaits (entry_congr (startFading_store s n)) h.2⟩,
    fun m hm => (hawaits m).trans hm⟩

theorem staysSound_endSlots (f : State → Fin 8 → State) (hf : ∀ s n, (s.slot n).awaits = none → StaysSound W s (f s n))
    (l : List (Fin 8)) (s : State) (hl : ∀ n ∈ l, (s.slot n).awaits = none) : StaysSound W s (l.foldl f s) :=
  StaysSound.foldl f (fun s n => (s.slot n).awaits = none) (fun _ _ n h hn hs => (h hs).2 n hn) hf l s hl

theorem staysSound_judgePreempted {m : Fin 8} (hm : (s.slot m).awaits = none) : StaysSound W s (s.judgePreempted m) := by
  unfold State.judgePreempted
  split
  · exact staysSound_endSlot hm _
  · exact .refl s

/-- The slots that the entering slot robs are FADING, and so wait for nothing. -/
theorem formerOwners_fading (h : FadesSound s) {n m : Fin 8} (hm : m ∈ s.formerOwners n) :
    m ≠ n ∧ (s.slot m).state = .fading := by
  simp only [State.formerOwners, List.mem_filter, Bool.and_eq_true, bne_iff_ne, List.any_eq_true, beq_iff_eq] at hm
  obtain ⟨-, hne, e, -, howner⟩ := hm
  exact ⟨hne, ((h.owners _ m).1 howner).1⟩

theorem staysSound_enterFading {n : Fin 8} (hn : (s.slot n).awaits = none) : StaysSound W s (s.enterFading n).1 := by
  intro hs
  have hentered : StaysSound W s (s.startFading n) := staysSound_startFading hn
  have hsettled : StaysSound W s
      (if ((s.startFading n).slot n).allReached then (s.startFading n).endSlot n .cueDone else s.startFading n) := by
    split
    · exact hentered.trans (staysSound_endSlot ((hentered hs).2 n hn) _)
    · exact hentered
  have hrobbed : ∀ m ∈ s.formerOwners n, (s.slot m).awaits = none := fun m hm =>
    awaits_eq_none.2 (by rw [(formerOwners_fading hs.1 hm).2]; decide)
  exact hsettled.trans (staysSound_endSlots _ (fun _ _ => staysSound_judgePreempted) _ _
    fun m hm => (hsettled hs).2 m (hrobbed m hm)) hs

/-! ### Evaluations -/

theorem staysSound_serveSlots (l : List (Fin 8)) (acc : State × Nat) (hl : ∀ n ∈ l, (acc.1.slot n).awaits = none) :
    StaysSound W acc.1 (l.foldl serveSlot acc).1 := by
  induction l generalizing acc with
  | nil => exact .refl _
  | cons n l ih =>
    have hhead : StaysSound W acc.1 (serveSlot acc n).1 := by
      unfold serveSlot
      split
      · exact staysSound_enterFading (hl n (by simp))
      · exact .refl _
    intro hs
    exact hhead.trans (ih _ fun m hm => (hhead hs).2 m (hl m (by simp [hm]))) hs

theorem staysSound_serveQueue (s : State) : StaysSound W s s.serveQueue.1 := fun hs =>
  staysSound_serveSlots s.governor.queue (s, 0) (fun n hn =>
    awaits_eq_none.2 (by rw [(hs.1.headroom n).1 hn]; decide)) hs

/-- Opening, weighing, judging and closing an evaluation change figures and post records. -/
theorem staysSound_judgeOverload (s : State) : StaysSound W s s.judgeOverload :=
  staysSound_of_same (by rw [judgeOverload_frame]) (fun c => by rw [judgeOverload_frame]; rfl)
    (by rw [judgeOverload_governor]) (by rw [judgeOverload_frame])

theorem staysSound_evaluateOnce (s : State) (kind : EvalKind) (spill : Option Nat) :
    StaysSound W s (s.evaluateOnce kind spill).1 := by
  have hopen : StaysSound W s (s.openEvaluation spill) := staysSound_of_same rfl (fun _ => rfl) rfl rfl
  have hweigh : ∀ t : State, StaysSound W t (t.weigh kind) := fun t => staysSound_of_same rfl (fun _ => rfl) rfl rfl
  have hclose : ∀ t : State, StaysSound W t (t.closeEvaluation kind) := fun t =>
    staysSound_of_same rfl (fun _ => rfl) rfl rfl
  exact hopen.trans ((staysSound_serveQueue _).trans ((hweigh _).trans ((staysSound_judgeOverload _).trans (hclose _))))

theorem staysSound_evaluations (fuel asked : Nat) (s : State) : StaysSound W s (evaluations fuel asked s) := by
  induction fuel generalizing asked s with
  | zero => exact .refl s
  | succ fuel ih =>
    cases asked with
    | zero => exact .refl s
    | succ asked => exact (staysSound_evaluateOnce s _ _).trans (ih _ _)

theorem staysSound_evaluate (s : State) : StaysSound W s s.evaluate := staysSound_evaluations _ _ s

theorem staysSound_evaluateRound (s : State) (spill : Nat) : StaysSound W s (s.evaluateRound spill) :=
  (staysSound_evaluateOnce s _ _).trans (staysSound_evaluations _ _ _)

/-! ### Replacing a slot -/

/-- A slot that keeps its state, what it awaits and the channels it lists. -/
theorem staysSound_setSlot_of_same {n : Fin 8} {x : Slot} (hstate : x.state = (s.slot n).state) (hfree : x.state ≠ .free)
    (hcue : x.cue = (s.slot n).cue) (hlist : x.list.map ListEntry.channel = (s.slot n).list.map ListEntry.channel) :
    StaysSound W s (s.setSlot n x) := by
  have hst : ∀ m, ((s.setSlot n x).slot m).state = (s.slot m).state := by
    intro m
    rw [slot_setSlot]
    split
    · next hm => rw [hm, hstate]
    · rfl
  have hli : ∀ m, ((s.setSlot n x).slot m).list.map ListEntry.channel = (s.slot m).list.map ListEntry.channel := by
    intro m
    rw [slot_setSlot]
    split
    · next hm => rw [hm, hlist]
    · rfl
  have haw : ∀ m, ((s.setSlot n x).slot m).awaits = (s.slot m).awaits := by
    intro m
    rw [slot_setSlot]
    split
    · next hm => rw [hm, Slot.awaits, Slot.awaits, hstate, hcue]
    · rfl
  refine fun h => ⟨⟨⟨fun m => ?_, fun c m => ?_, fun m => ?_, fun m => ?_, h.1.headroomOnce⟩,
    storeSound_of_same haw (fun _ _ => rfl) h.2⟩, fun m hm => (haw m).trans hm⟩
  · rw [slot_setSlot]
    split
    · exact fun hf => absurd hf hfree
    · exact h.1.freeReset m
  · rw [hst, hli]; exact h.1.owners c m
  · rw [hli]; exact h.1.lists m
  · rw [hst]; exact h.1.headroom m

/-- A slot that does not fade and does not wait for headroom, before and after. -/
theorem fadesSound_setSlot {n : Fin 8} {x : Slot} (h : FadesSound s) (hold : (s.slot n).state ≠ .fading)
    (holdw : (s.slot n).state ≠ .waitingHeadroom) (hnew : x.state ≠ .fading) (hneww : x.state ≠ .waitingHeadroom)
    (hfree : x.state ≠ .free) (hlist : (x.list.map ListEntry.channel).Nodup) : FadesSound (s.setSlot n x) where
  freeReset m := by
    rw [slot_setSlot]
    split
    · exact fun hf => absurd hf hfree
    · exact h.freeReset m
  owners c m := by
    rw [slot_setSlot]
    split
    · next hm =>
      subst hm
      exact iff_of_false (fun ho => hold ((h.owners c m).1 ho).1) fun hf => hnew hf.1
    · exact h.owners c m
  lists m := by
    rw [slot_setSlot]
    split
    · exact hlist
    · exact h.lists m
  headroom m := by
    rw [slot_setSlot]
    split
    · next hm =>
      subst hm
      exact iff_of_false (fun hq => holdw ((h.headroom m).1 hq)) hneww
    · exact h.headroom m
  headroomOnce := h.headroomOnce

/-- A slot enters the headroom queue's tail. -/
theorem fadesSound_waitHeadroom (h : FadesSound s) {n : Fin 8} (hn : (s.slot n).state = .delay) :
    FadesSound (s.waitHeadroom n) := by
  have hslot : ∀ m, (s.waitHeadroom n).slot m =
      if m = n then { s.slot n with state := .waitingHeadroom, delay := 0, timer := some 100 } else s.slot m :=
    fun m => slot_setSlot s n m _
  have hqueued : n ∉ s.governor.queue := fun hq => by simpa [hn] using (h.headroom n).1 hq
  refine ⟨fun m => ?_, fun c m => ?_, fun m => ?_, fun m => ?_, ?_⟩
  · rw [hslot]
    split
    · exact fun hf => nomatch hf
    · exact h.freeReset m
  · rw [hslot]
    split
    · next hm =>
      subst hm
      exact iff_of_false (fun ho => by simpa [hn] using ((h.owners c m).1 ho).1) (by simp)
    · exact h.owners c m
  · rw [hslot]
    split
    · exact h.lists n
    · exact h.lists m
  · rw [hslot]
    change m ∈ s.governor.queue ++ [n] ↔ _
    split
    · next hm => simp [hm]
    · next hm => simpa [hm] using h.headroom m
  · change (s.governor.queue ++ [n]).Nodup
    simpa [List.nodup_append] using ⟨h.headroomOnce, fun a ha he => hqueued (he ▸ ha)⟩

/-! ### Admission -/

theorem staysSound_waitHeadroom {n : Fin 8} (hn : (s.slot n).state = .delay) : StaysSound W s (s.waitHeadroom n) := by
  have haw : ∀ m, ((s.waitHeadroom n).slot m).awaits = (s.slot m).awaits := by
    intro m
    refine (congrArg Slot.awaits (slot_setSlot s n m _)).trans ?_
    split
    · next hm => exact (awaits_eq_none.2 (by rw [hm, hn]; decide)).symm
    · rfl
  exact fun h => ⟨⟨fadesSound_waitHeadroom h.1 hn, storeSound_of_same haw (fun _ _ => rfl) h.2⟩, fun m hm => (haw m).trans hm⟩

theorem staysSound_judgeAdmission {n : Fin 8} (hn : (s.slot n).state = .delay) : StaysSound W s (s.judgeAdmission n) := by
  have hended : StaysSound W s (s.setSlot n { s.slot n with delay := 0 }) :=
    staysSound_setSlot_of_same rfl (by rw [hn]; decide) rfl rfl
  have hstate : ((s.setSlot n { s.slot n with delay := 0 }).slot n).state = .delay := by rw [slot_setSlot_same]; exact hn
  have hawaits : ((s.setSlot n { s.slot n with delay := 0 }).slot n).awaits = none :=
    awaits_eq_none.2 (by rw [hstate]; decide)
  unfold State.judgeAdmission
  refine hended.trans ?_
  dsimp only
  split
  · split
    · exact staysSound_endSlot hawaits _
    · exact staysSound_waitHeadroom hstate
  · exact (staysSound_enterFading hawaits).trans (staysSound_evaluations _ _ _)

/-- A slot that stands in no list enters DELAY with a copy: one that was FREE, or one of those that the agreement leaves out. -/
theorem soundBut_enterDelay {n : Fin 8} {sl : Slot} (hf : FadesSound s) (hs : StoreSound W (s.setSlot n sl))
    (hold : (s.slot n).state = .free ∨ (s.slot n).state = .waitingFill) (hsl : sl.state = .delay)
    (hlist : (sl.list.map ListEntry.channel).Nodup) :
    SoundBut W (s.enterDelay n sl) ∧ ∀ m, m ≠ n → (s.slot m).awaits = none → ((s.enterDelay n sl).slot m).awaits = none := by
  have hentered : SoundBut W (s.setSlot n sl) :=
    ⟨fadesSound_setSlot hf (by rcases hold with h | h <;> simp [h]) (by rcases hold with h | h <;> simp [h])
      (by simp [hsl]) (by simp [hsl]) (by simp [hsl]) hlist, hs⟩
  have hother : ∀ m, m ≠ n → (s.slot m).awaits = none → ((s.setSlot n sl).slot m).awaits = none := fun m hm h => by
    rw [slot_setSlot, if_neg hm]; exact h
  unfold State.enterDelay
  dsimp only
  split
  · obtain ⟨hjudged, hkept⟩ := staysSound_judgeAdmission (W := W) (n := n) (by rw [slot_setSlot_same]; exact hsl) hentered
    exact ⟨hjudged, fun m hm h => hkept m (hother m hm h)⟩
  · exact ⟨hentered, hother⟩

/-! ### The copy of a cue -/

theorem addPair_channels (list : List ListEntry) (q : Pair) : (addPair list q).map ListEntry.channel =
    if q.channel ∈ list.map ListEntry.channel then list.map ListEntry.channel
    else list.map ListEntry.channel ++ [q.channel] := by
  unfold addPair
  have hiff : (list.any (fun e => e.channel == q.channel) = true) ↔ q.channel ∈ list.map ListEntry.channel :=
    named_iff list q.channel
  by_cases h : q.channel ∈ list.map ListEntry.channel
  · rw [if_pos (hiff.2 h), if_pos h, List.map_map]
    refine List.map_congr_left fun e _ => ?_
    simp only [Function.comp]
    split <;> rfl
  · rw [if_neg fun k => h (hiff.1 k), if_neg h, List.map_append]
    rfl

theorem addPairs_nodup (ps : List Pair) (list : List ListEntry) (h : (list.map ListEntry.channel).Nodup) :
    ((ps.foldl addPair list).map ListEntry.channel).Nodup := by
  induction ps generalizing list with
  | nil => exact h
  | cons q ps ih =>
    refine ih _ ?_
    rw [addPair_channels]
    split
    · exact h
    · next hq => simpa [List.nodup_append, h] using fun a ha hc => hq (List.mem_map.2 ⟨a, ha, hc⟩)

theorem channelList_nodup (e : Entry) (hd : Header) : ((channelList e hd).map ListEntry.channel).Nodup := by
  have h := addPairs_nodup (e.pairs hd.segCount) [] List.nodup_nil
  simpa [channelList, Function.comp_def] using h

/-! ### Slots and waiter lists -/

/-- A slot that no list names begins to await a fill. -/
theorem storeSound_await (h : StoreSound [] s) {n : Fin 8} {x : Slot} {cue : Nat} (hn : (s.slot n).awaits = none)
    (hx : x.awaits = some cue) : StoreSound [n] (s.setSlot n x) := by
  have hne : ∀ l w m, m ∈ (s.entry l w).waiters → m ≠ n := by
    rintro l w m hm rfl
    obtain ⟨-, cue, hc, -⟩ := h.waiters l w m hm
    simp [hn] at hc
  refine ⟨h.tags, h.present, h.waitersOnce, fun l w m hm => ?_, fun m c hc => ?_, fun m hm => ?_⟩
  · rw [slot_setSlot, if_neg (hne l w m hm)]
    exact h.waiters l w m hm
  · rw [slot_setSlot] at hc
    split at hc
    · next hm => exact .inl (by simp [hm])
    · exact .inr ((h.waiting m c hc).resolve_left List.not_mem_nil)
  · obtain rfl : m = n := by simpa using hm
    rw [slot_setSlot_same, hx]
    exact ⟨by simp, fun l w hm => hne l w m hm rfl⟩

/-- A slot that no list names is replaced by one that awaits nothing. -/
theorem storeSound_unawait {n : Fin 8} {x : Slot} (h : StoreSound W s) (hn : (s.slot n).awaits = none ∨ n ∈ W)
    (hx : x.awaits = none) : StoreSound (W.filter (· != n)) (s.setSlot n x) := by
  have hne : ∀ l w m, m ∈ (s.entry l w).waiters → m ≠ n := by
    rintro l w m hm rfl
    obtain ⟨-, cue, hc, -⟩ := h.waiters l w m hm
    rcases hn with hn | hn
    · simp [hn] at hc
    · exact (h.pending m hn).2 l w hm
  refine ⟨h.tags, h.present, h.waitersOnce, fun l w m hm => ?_, fun m c hc => ?_, fun m hm => ?_⟩
  · rw [slot_setSlot, if_neg (hne l w m hm)]
    exact h.waiters l w m hm
  · rw [slot_setSlot] at hc
    split at hc
    · simp [hx] at hc
    · next hm => exact (h.waiting m c hc).imp_left fun hW => by simpa [hm] using hW
  · have hm : m ∈ W ∧ m ≠ n := by simpa using hm
    rw [slot_setSlot, if_neg hm.2]
    exact h.pending m hm.1

/-- An entry is replaced. The slots that its old list named, and those left out, stand in its new list or are left out. -/
theorem storeSound_setEntry {W' : List (Fin 8)} (h : StoreSound W s) {l : Fin 64} {w : Fin 2} {e : Entry}
    (htag : e.state ≠ .invalid → (s.entry l (otherWay w)).state ≠ .invalid → e.tag ≠ (s.entry l (otherWay w)).tag)
    (hpresent : e.state = .present → e.complete = true) (honce : e.waiters.Nodup)
    (hwaiters : ∀ n ∈ e.waiters, (n ∈ W ∨ n ∈ (s.entry l w).waiters) ∧ e.state = .filling ∧
      ∃ cue, (s.slot n).awaits = some cue ∧ cueLine cue = l ∧ cueTag cue = e.tag)
    (hW' : ∀ n, n ∈ W' ↔ (n ∈ W ∨ n ∈ (s.entry l w).waiters) ∧ n ∉ e.waiters) : StoreSound W' (s.setEntry l w e) := by
  have hslot : ∀ n, (s.setEntry l w e).slot n = s.slot n := fun _ => rfl
  /- No other entry lists a slot that was left out, or that this one listed. -/
  have hlone : ∀ n, n ∈ W ∨ n ∈ (s.entry l w).waiters → ∀ k v, ¬(k = l ∧ v = w) → n ∉ (s.entry k v).waiters := by
    rintro n (hn | hn) k v hkv hk
    · exact (h.pending n hn).2 k v hk
    · exact hkv (h.listed_once hn hk)
  refine ⟨fun k => ?_, fun k v => ?_, fun k v => ?_, fun k v n hn => ?_, fun n cue hc => ?_, fun n hn => ?_⟩
  · by_cases hk : k = l
    · subst hk
      rw [entry_setEntry, entry_setEntry]
      fin_cases w
      · simpa [otherWay] using htag
      · simpa [otherWay] using fun h0 h1 h2 => htag h1 h0 h2.symm
    · rw [entry_setEntry, entry_setEntry, if_neg fun hh => hk hh.1, if_neg fun hh => hk hh.1]
      exact h.tags k
  · rw [entry_setEntry]
    split
    · exact hpresent
    · exact h.present k v
  · rw [entry_setEntry]
    split
    · exact honce
    · exact h.waitersOnce k v
  · rw [entry_setEntry] at hn ⊢
    rw [hslot]
    split at hn
    · next hkv =>
      rw [if_pos hkv, hkv.1]
      exact (hwaiters n hn).2
    · next hkv =>
      rw [if_neg hkv]
      exact h.waiters k v n hn
  · rw [hslot] at hc
    by_cases hold : n ∈ W ∨ n ∈ (s.entry l w).waiters
    · by_cases hnew : n ∈ e.waiters
      · obtain ⟨-, -, cue', hc', rfl, -⟩ := hwaiters n hnew
        obtain rfl : cue = cue' := by simpa [hc] using hc'
        exact .inr ⟨w, by rw [entry_setEntry_same]; exact hnew⟩
      · exact .inl ((hW' n).2 ⟨hold, hnew⟩)
    · obtain hn | ⟨v, hv⟩ := h.waiting n cue hc
      · exact absurd (.inl hn) hold
      · refine .inr ⟨v, ?_⟩
        rw [entry_setEntry, if_neg]
        · exact hv
        · rintro ⟨rfl, rfl⟩
          exact hold (.inr hv)
  · obtain ⟨hold, hnew⟩ := (hW' n).1 hn
    refine ⟨?_, fun k v hk => ?_⟩
    · rw [hslot]
      rcases hold with hn | hn
      · exact (h.pending n hn).1
      · obtain ⟨-, cue, hc, -⟩ := h.waiters l w n hn
        simp [hc]
    · rw [entry_setEntry] at hk
      split at hk
      · exact hnew hk
      · next hkv => exact hlone n hold k v hkv hk

theorem fadesSound_setEntry (h : FadesSound s) (l : Fin 64) (w : Fin 2) (e : Entry) : FadesSound (s.setEntry l w e) :=
  fadesSound_of_same (s := s) (fun _ => rfl) (fun _ => rfl) rfl h

/-! ### Looking up a cue -/

/-- A way that holds a cue holds its tag, in an entry that is not INVALID. -/
theorem wayOf_matches {cue : Nat} {w : Fin 2} (hw : s.wayOf cue = some w) :
    (s.entry (cueLine cue) w).state ≠ .invalid ∧ (s.entry (cueLine cue) w).tag = cueTag cue := by
  have hm : (s.entry (cueLine cue) w).matches (cueTag cue) = true := by
    unfold State.wayOf at hw
    split at hw
    · next h => rw [← Option.some.inj hw]; exact h
    · split at hw
      · next h => rw [← Option.some.inj hw]; exact h
      · cases hw
  simpa [Entry.matches] using hm

theorem wayOf_none {cue : Nat} (h : s.wayOf cue = none) (w : Fin 2) :
    (s.entry (cueLine cue) w).state ≠ .invalid → (s.entry (cueLine cue) w).tag ≠ cueTag cue := by
  unfold State.wayOf at h
  split at h
  · cases h
  · next h0 =>
    split at h
    · cases h
    · next h1 =>
      have hm : (s.entry (cueLine cue) w).matches (cueTag cue) ≠ true := by
        fin_cases w
        · exact h0
        · exact h1
      simpa [Entry.matches] using hm

theorem allocatable_not_filling {l : Fin 64} {w : Fin 2} (h : s.allocatable l = some w) : (s.entry l w).state ≠ .filling := by
  unfold State.allocatable at h
  dsimp only at h
  split at h
  · next h0 => rw [← Option.some.inj h, h0]; decide
  · split at h
    · next h1 => rw [← Option.some.inj h, h1]; decide
    · split at h
      · next h2 => rw [← Option.some.inj h]; exact h2
      · split at h
        · next h3 => rw [← Option.some.inj h]; exact h3
        · cases h

/-- An entry that is not FILLING has no waiters. -/
theorem StoreSound.waiters_nil (h : StoreSound W s) {l : Fin 64} {w : Fin 2} (he : (s.entry l w).state ≠ .filling) :
    (s.entry l w).waiters = [] :=
  List.eq_nil_iff_forall_not_mem.2 fun n hn => he (h.waiters l w n hn).1

/-- The other way of a line holds another tag than a way that holds a cue. -/
theorem StoreSound.other_tag (h : StoreSound W s) {l : Fin 64} {w : Fin 2} (hw : (s.entry l w).state ≠ .invalid)
    (ho : (s.entry l (otherWay w)).state ≠ .invalid) : (s.entry l w).tag ≠ (s.entry l (otherWay w)).tag := by
  fin_cases w
  · exact h.tags l hw ho
  · exact (h.tags l ho hw).symm

/-! ### Dropping an entry -/

/-- The slots that a dropped entry leaves waiting are freed, one after the other. -/
theorem soundBut_endSlots (l : List (Fin 8)) (hl : l.Nodup) (k : RecordKind) {s : State} (h : SoundBut l s) :
    SoundBut [] (l.foldl (fun s n => s.endSlot n k) s) := by
  induction l generalizing s with
  | nil => exact h
  | cons n l ih =>
    rw [List.nodup_cons] at hl
    refine ih hl.2 ?_
    have hfilter : (n :: l).filter (· != n) = l := by simpa using filter_ne_eq_self hl.1
    exact hfilter ▸ soundBut_endSlot h n k

theorem soundBut_dropEntry (h : SoundBut [] s) (l : Fin 64) (w : Fin 2) (k : RecordKind) : SoundBut [] (s.dropEntry l w k) := by
  refine soundBut_endSlots _ (h.2.waitersOnce l w) k ⟨fadesSound_setEntry h.1 .., ?_⟩
  exact storeSound_setEntry h.2 (fun hi => absurd rfl hi) (fun hp => nomatch hp) List.nodup_nil
    (fun n hn => absurd hn List.not_mem_nil) fun n => by simp [Entry.invalidated, Entry.reset]

/-! ### Completing a fill -/

theorem soundBut_judgeWaiter {n : Fin 8} {l : List (Fin 8)} (hl : (n :: l).Nodup) (e : Entry) (hd : Header)
    (h : SoundBut (n :: l) s) : SoundBut l (State.judgeWaiter e hd s n) := by
  have hfilter : (n :: l).filter (· != n) = l := by simpa using filter_ne_eq_self (List.nodup_cons.1 hl).1
  have hend : ∀ k, SoundBut l (s.endSlot n k) := fun k => hfilter ▸ soundBut_endSlot h n k
  have hwaits : (s.slot n).state = .waitingFill := by simpa [Slot.awaits] using (h.2.pending n (by simp)).1
  have hcopied : SoundBut l (s.enterDelay n (copiedSlot e hd (s.slot n).cue (s.slot n).port)) := by
    have hstore := storeSound_unawait (n := n) (x := copiedSlot e hd (s.slot n).cue (s.slot n).port) h.2 (.inr (by simp)) rfl
    rw [hfilter] at hstore
    exact (soundBut_enterDelay h.1 hstore (.inr hwaits) rfl (channelList_nodup e hd)).1
  unfold State.judgeWaiter
  dsimp only
  repeat' split
  all_goals first | exact hcopied | exact hend _

theorem soundBut_judgeWaiters (l : List (Fin 8)) (hl : l.Nodup) (e : Entry) (hd : Header) {s : State} (h : SoundBut l s) :
    SoundBut [] (l.foldl (State.judgeWaiter e hd) s) := by
  induction l generalizing s with
  | nil => exact h
  | cons n l ih => exact ih (List.nodup_cons.1 hl).2 (soundBut_judgeWaiter hl e hd h)

@[simp] theorem written_state (e : Entry) (w : CueWrite) : (e.written w).state = e.state := rfl
@[simp] theorem written_tag (e : Entry) (w : CueWrite) : (e.written w).tag = e.tag := rfl
@[simp] theorem written_waiters (e : Entry) (w : CueWrite) : (e.written w).waiters = e.waiters := rfl
@[simp] theorem settled_tag (e : Entry) : e.settled.tag = e.tag := by
  unfold Entry.settled
  split
  · rfl
  · split <;> rfl

theorem settled_of_complete {e : Entry} (h : e.complete = true) :
    e.settled = { e with state := .present, fillTimer := none, waiters := [] } := if_pos h

theorem settled_of_incomplete {e : Entry} (h : e.complete = false) :
    e.settled = if e.state = .present then { e with state := .filling, fillTimer := some 2000 } else e := if_neg (by simp [h])

/-- CUE_WRITE on an entry that holds the cue, or on one newly allocated for it. -/
theorem soundBut_writeCue (h : SoundBut [] s) {l : Fin 64} {w : Fin 2} {base : Entry} (cw : CueWrite)
    (hwaiters : base.waiters = (s.entry l w).waiters)
    (htag : (s.entry l (otherWay w)).state ≠ .invalid → base.tag ≠ (s.entry l (otherWay w)).tag)
    (hbase : ∀ n ∈ base.waiters, base.state = .filling ∧
      ∃ cue, (s.slot n).awaits = some cue ∧ cueLine cue = l ∧ cueTag cue = base.tag)
    (hlive : base.state ≠ .invalid) : SoundBut [] (s.writeCue l w base cw) := by
  have honce : base.waiters.Nodup := hwaiters ▸ h.2.waitersOnce l w
  have hlru : ∀ {W : List (Fin 8)} {t : State}, SoundBut W t → SoundBut W (t.setLru l (otherWay w)) := fun {W t} ht =>
    ⟨fadesSound_of_same (s := t) (fun _ => rfl) (fun _ => rfl) rfl ht.1,
      storeSound_of_same (s := t) (fun _ => rfl) (fun k v => entry_setLru ..) ht.2⟩
  unfold State.writeCue
  dsimp only
  split
  · next hc =>
    refine soundBut_judgeWaiters _ honce _ _ (hlru ⟨fadesSound_setEntry h.1 .., ?_⟩)
    have hset := settled_of_complete hc
    refine storeSound_setEntry h.2 (fun _ => by rw [settled_tag]; exact htag) (fun _ => by rw [hset]; exact hc) ?_ ?_ ?_
    · rw [hset]; exact List.nodup_nil
    · rw [hset]; exact fun n hn => absurd hn List.not_mem_nil
    · rw [hset]
      exact fun n => by simp [hwaiters]
  · next hc =>
    have hc : (base.written cw).complete = false := by simpa using hc
    have hset := settled_of_incomplete hc
    have hstate : (base.written cw).settled.state = .filling := by
      rw [hset]
      split
      · rfl
      · next hp =>
        rw [written_state] at hp ⊢
        cases hb : base.state
        · exact absurd hb hlive
        · rfl
        · exact absurd hb hp
    have hsetw : (base.written cw).settled.waiters = base.waiters := by
      rw [hset]; split <;> rfl
    refine hlru ⟨fadesSound_setEntry h.1 .., ?_⟩
    refine storeSound_setEntry h.2 (fun _ => by rw [settled_tag]; exact htag) (fun hp => by simp [hstate] at hp) ?_ ?_ ?_
    · rw [hsetw]; exact honce
    · rw [hsetw, settled_tag]
      exact fun n hn => ⟨.inr (hwaiters ▸ hn), hstate, (hbase n hn).2⟩
    · rw [hsetw, hwaiters]
      exact fun n => by simp

/-! ### The operations of the lighting -/

/-- The whole agreement is kept where nothing is left out. -/
theorem lightingSound_of_staysSound (h : StaysSound [] s t) (hs : s.lightingSound) : t.lightingSound :=
  (lightingSound_iff t).2 (h ((lightingSound_iff s).1 hs)).1

theorem lightingSound_of_same (hslots : t.slots = s.slots) (hchannels : t.channels = s.channels)
    (hgovernor : t.governor = s.governor) (hstore : t.store = s.store) (hs : s.lightingSound) : t.lightingSound :=
  lightingSound_of_staysSound (staysSound_of_same hslots (fun c => by rw [channel_congr hchannels]) (by rw [hgovernor]) hstore) hs

theorem lightingSound_endSlot (h : s.lightingSound) (n : Fin 8) (k : RecordKind) : (s.endSlot n k).lightingSound :=
  (lightingSound_iff _).2 (soundBut_endSlot ((lightingSound_iff s).1 h) n k)

theorem lightingSound_evaluate (h : s.lightingSound) : s.evaluate.lightingSound :=
  lightingSound_of_staysSound (staysSound_evaluate s) h

theorem lightingSound_fadeStep (h : s.lightingSound) (n : Fin 8) : (s.fadeStep n).lightingSound := by
  unfold State.fadeStep
  dsimp only
  split
  · next hn =>
    have hstepped : (s.setSlot n (s.slot n).advanced).lightingSound :=
      lightingSound_of_staysSound (staysSound_setSlot_of_same rfl (by rw [Slot.advanced, hn]; decide) rfl rfl) h
    have hwritten : ((s.setSlot n (s.slot n).advanced).writeLevels n).lightingSound :=
      lightingSound_of_staysSound (staysSound_of_same (by rw [writeLevels_frame]) (owner_writeLevels _ n)
        (by rw [writeLevels_frame]) (by rw [writeLevels_frame])) hstepped
    split
    · exact lightingSound_evaluate (lightingSound_endSlot hwritten n _)
    · exact hwritten
  · exact h

theorem lightingSound_dropEntry (h : s.lightingSound) (l : Fin 64) (w : Fin 2) (k : RecordKind) :
    (s.dropEntry l w k).lightingSound :=
  (lightingSound_iff _).2 (soundBut_dropEntry ((lightingSound_iff s).1 h) l w k)

theorem lightingSound_invalidateWay (h : s.lightingSound) (l : Fin 64) (w : Fin 2) : (s.invalidateWay l w).lightingSound := by
  unfold State.invalidateWay
  split
  · exact h
  · exact lightingSound_dropEntry h l w _

theorem lightingSound_invalidateLine (h : s.lightingSound) (l : Fin 64) : (s.invalidateLine l).lightingSound :=
  lightingSound_invalidateWay (lightingSound_invalidateWay h l 0) l 1

theorem freeSlotIndex_free {n : Fin 8} (h : s.freeSlotIndex = some n) : (s.slot n).state = .free := by
  simpa using List.find?_some h

theorem lightingSound_goHit (h : s.lightingSound) (p : Port) (cue : Nat) {n : Fin 8} (hn : (s.slot n).state = .free) (w : Fin 2)
    (hd : Header) : (s.goHit p cue n w hd).1.lightingSound := by
  unfold State.goHit
  split
  · exact h
  · split
    · exact h
    · obtain ⟨hfades, hstore⟩ := (lightingSound_iff s).1 h
      have hmarked : StoreSound [] (s.setLru (cueLine cue) (otherWay w)) :=
        storeSound_of_same (s := s) (fun _ => rfl) (fun l v => entry_setLru ..) hstore
      have hunlisted := storeSound_unawait (n := n) (x := copiedSlot (s.entry (cueLine cue) w) hd cue (some p)) hmarked
        (.inl (awaits_eq_none.2 (by change (s.slot n).state ≠ _; rw [hn]; decide))) rfl
      have hfaded : FadesSound (s.setLru (cueLine cue) (otherWay w)) :=
        fadesSound_of_same (s := s) (fun _ => rfl) (fun _ => rfl) rfl hfades
      exact (lightingSound_iff _).2 (soundBut_enterDelay hfaded hunlisted (.inl hn) rfl (channelList_nodup ..)).1

/-- A FREE slot begins to await the fill of a cue. -/
theorem soundBut_waitingSlot (h : s.lightingSound) (p : Port) (cue : Nat) {n : Fin 8} (hn : (s.slot n).state = .free) :
    SoundBut [n] (s.setSlot n (waitingSlot cue p)) := by
  have hsound := (lightingSound_iff s).1 h
  exact ⟨fadesSound_setSlot hsound.1 (by simp [hn]) (by simp [hn]) (by simp [waitingSlot]) (by simp [waitingSlot])
      (by simp [waitingSlot]) List.nodup_nil,
    storeSound_await hsound.2 (awaits_eq_none.2 (by simp [hn])) (cue := cue) rfl⟩

theorem lightingSound_goJoin (h : s.lightingSound) (p : Port) {cue : Nat} {n : Fin 8} (hn : (s.slot n).state = .free) {w : Fin 2}
    (hw : s.wayOf cue = some w) (hfill : (s.entry (cueLine cue) w).state = .filling) : (s.goJoin p cue n w).1.lightingSound := by
  obtain ⟨hfades, hstore⟩ := soundBut_waitingSlot h p cue hn
  obtain ⟨hlive, htag⟩ := wayOf_matches hw
  have hnot : n ∉ (s.entry (cueLine cue) w).waiters := (hstore.pending n (by simp)).2 _ w
  refine (lightingSound_iff _).2 ⟨fadesSound_setEntry hfades .., storeSound_setEntry hstore
    (fun hi ho => hstore.other_tag hlive ho) (h.present (cueLine cue) w) ?_ ?_ ?_⟩
  · simpa [List.nodup_append] using ⟨h.waitersOnce (cueLine cue) w, fun a ha he => hnot (he ▸ ha)⟩
  · intro m hm
    obtain hm | rfl : m ∈ (s.entry (cueLine cue) w).waiters ∨ m = n := by simpa using hm
    · exact ⟨.inr hm, hstore.waiters _ w m hm⟩
    · exact ⟨.inl (by simp), hfill, cue, by rw [slot_setSlot_same]; rfl, rfl, htag.symm⟩
  · intro m
    change m ∈ [] ↔ (m ∈ [n] ∨ m ∈ (s.entry (cueLine cue) w).waiters) ∧ m ∉ (s.entry (cueLine cue) w).waiters ++ [n]
    simp
    tauto

theorem lightingSound_goMiss (h : s.lightingSound) (p : Port) {cue : Nat} {n : Fin 8} (hn : (s.slot n).state = .free)
    (hw : s.wayOf cue = none) : (s.goMiss p cue n).1.lightingSound := by
  unfold State.goMiss
  split
  · exact h
  · next w halloc =>
    obtain ⟨hfades, hstore⟩ := soundBut_waitingSlot h p cue hn
    have hnil : ((s.setSlot n (waitingSlot cue p)).entry (cueLine cue) w).waiters = [] :=
      hstore.waiters_nil (allocatable_not_filling halloc)
    refine lightingSound_of_same (s := (s.setSlot n (waitingSlot cue p)).setEntry (cueLine cue) w
      { Entry.allocated (cueTag cue) with waiters := [n] }) (by simp [accepted]) (by simp [accepted]) (by simp [accepted])
      (by simp [accepted]) ((lightingSound_iff _).2 ⟨fadesSound_setEntry hfades .., storeSound_setEntry hstore ?_ ?_ ?_ ?_ ?_⟩)
    · exact fun _ ho he => wayOf_none hw (otherWay w) ho he.symm
    · exact fun hp => nomatch hp
    · simp
    · intro m hm
      obtain rfl : m = n := by simpa using hm
      exact ⟨.inl (by simp), rfl, cue, by rw [slot_setSlot_same]; rfl, rfl, rfl⟩
    · intro m
      rw [hnil]
      simp

theorem lightingSound_go (h : s.lightingSound) (p : Port) (payload : List Byte) : (handleGo s p payload).1.lightingSound := by
  unfold handleGo
  dsimp only
  split
  · exact h
  · split
    · exact h
    · split
      · exact h
      · next n hfree =>
        have hn := freeSlotIndex_free hfree
        split
        · next hw => exact lightingSound_goMiss h p hn hw
        · next w hw =>
          split
          · exact lightingSound_goHit h p _ hn w _
          · next hnot =>
            /- A PRESENT entry is complete, and so has a header. -/
            refine lightingSound_goJoin h p hn hw ?_
            cases hst : (s.entry (cueLine (readU16 payload 0)) w).state with
            | invalid => exact absurd hst (wayOf_matches hw).1
            | filling => rfl
            | present =>
              have hc := h.present _ w hst
              cases hhd : (s.entry (cueLine (readU16 payload 0)) w).header with
              | none => simp [Entry.complete, hhd] at hc
              | some hd => exact (hnot hd hst hhd).elim

theorem lightingSound_cueWrite (h : s.lightingSound) (payload : List Byte) : (handleCueWrite s payload).1.lightingSound := by
  have hsound := (lightingSound_iff s).1 h
  unfold handleCueWrite
  split
  · exact h
  · next cw _ =>
    dsimp only
    split
    · next w hw =>
      obtain ⟨hlive, htag⟩ := wayOf_matches hw
      exact (lightingSound_iff _).2 (soundBut_writeCue hsound cw rfl (fun ho => hsound.2.other_tag hlive ho)
        (hsound.2.waiters _ w) hlive)
    · next hw =>
      split
      · next w halloc =>
        refine (lightingSound_iff _).2 (soundBut_writeCue hsound cw ?_ (fun ho he => wayOf_none hw _ ho he.symm) ?_ ?_)
        · exact (hsound.2.waiters_nil (allocatable_not_filling halloc)).symm
        · exact fun n hn => absurd hn List.not_mem_nil
        · exact fun hi => nomatch hi
      · exact h

theorem lightingSound_cueInvalidate (h : s.lightingSound) (payload : List Byte) :
    (handleCueInvalidate s payload).1.lightingSound := by
  unfold handleCueInvalidate
  split
  · dsimp only
    split
    · exact h
    · split
      · exact lightingSound_invalidateWay h ..
      · exact h
  · split
    · exact lightingSound_invalidateLine h _
    · exact h
  · simp only [okay]
    exact foldl_related (R := fun s t => s.lightingSound → t.lightingSound) (fun _ => id) (fun h k => k ∘ h) _
      (fun _ l ht => lightingSound_invalidateLine ht l) _ s h
  · exact h

theorem lightingSound_releaseSlots (h : s.lightingSound) (ns : List (Fin 8)) : (s.releaseSlots ns).lightingSound :=
  lightingSound_evaluate (foldl_related (R := fun s t => s.lightingSound → t.lightingSound) (fun _ => id) (fun h k => k ∘ h) _
    (fun _ n ht => lightingSound_endSlot ht n _) ns s h)

theorem lightingSound_release (h : s.lightingSound) (p : Port) (payload : List Byte) :
    (handleRelease s p payload).1.lightingSound := by
  unfold handleRelease
  split
  · split
    · exact h
    · split
      · exact h
      · split
        · exact lightingSound_releaseSlots h _
        · exact h
  · dsimp only
    split
    · exact h
    · split
      · exact h
      · split
        · exact h
        · exact lightingSound_releaseSlots h _
  · exact h

/-- A lighting record gives channels their coefficients and flags; owners and levels stay. -/
theorem owner_withLighting (s : State) (payload : List Byte) (c : Fin 96) :
    ((s.withLighting payload).channel c).owner = (s.channel c).owner := by
  refine foldl_related (R := fun s t => (t.channel c).owner = (s.channel c).owner) (fun _ => rfl) (fun h k => k.trans h) _
    (fun t d => ?_) _ s
  rw [channel_setChannel]
  split
  · next hc => rw [hc]; rfl
  · rfl

theorem withLighting_frame (s : State) (payload : List Byte) :
    s.withLighting payload = { s with channels := (s.withLighting payload).channels } := by
  unfold State.withLighting
  exact foldl_related (R := fun s t => t = { s with channels := t.channels }) (fun _ => rfl) (fun h k => by rw [k, h]) _
    (fun _ _ => rfl) _ s

theorem lightingSound_operations : LightingOperations (fun s t => s.lightingSound → t.lightingSound) where
  evaluate _ := lightingSound_evaluate
  freeForbidden s h := foldl_related (R := fun s t => s.lightingSound → t.lightingSound) (fun _ => id) (fun h k => k ∘ h) _
    (fun t n ht => by
      split
      · exact lightingSound_endSlot ht n _
      · exact ht) all8 s h
  delayEnd s n h := by
    unfold State.delayEnd
    split
    · next hn => exact lightingSound_of_staysSound (staysSound_judgeAdmission hn) h
    · exact h
  holdExpiry s n h := by
    unfold State.holdExpiry
    split
    · exact lightingSound_endSlot h n _
    · exact h
  fadeStep _ n h := lightingSound_fadeStep h n
  fadeDone s n h := by
    unfold State.fadeDone
    dsimp only
    split
    · exact h
    · split
      · exact lightingSound_evaluate (lightingSound_endSlot h n _)
      · split
        · exact lightingSound_fadeStep h n
        · exact h
  fillTimeout s l w h := by
    unfold State.fillTimeout
    split
    · exact lightingSound_dropEntry h l w _
    · exact h
  go _ p payload h := lightingSound_go h p payload
  cueWrite _ payload h := lightingSound_cueWrite h payload
  cueInvalidate _ payload h := lightingSound_cueInvalidate h payload
  release _ p payload h := lightingSound_release h p payload
  withLighting s payload h := lightingSound_of_staysSound (staysSound_of_same (by rw [withLighting_frame])
    (owner_withLighting s payload) (by rw [withLighting_frame]) (by rw [withLighting_frame])) h

/-! ### Every step -/

theorem lightingSound_zoneMoves : ZoneMoves (fun s t => s.lightingSound → t.lightingSound) where
  refl _ := id
  trans h k := k ∘ h
  post _ _ _ _ _ _ := lightingSound_of_same (by simp) (by simp) (by simp) (by simp)
  setZone _ _ _ _ := lightingSound_of_same rfl rfl rfl rfl
  boilerProven _ _ := lightingSound_of_same rfl rfl rfl rfl

theorem lightingSound_positionersOnly {s t : State} (h : PositionersOnly s t) : s.lightingSound → t.lightingSound :=
  lightingSound_of_same (congrArg State.slots h :) (congrArg State.channels h :) (congrArg State.governor h :)
    (congrArg State.store h :)

theorem lightingSound_stepMoves : StepMoves (fun s t => s.lightingSound → t.lightingSound) where
  toZoneMoves := lightingSound_zoneMoves
  toLightingOperations := lightingSound_operations
  toPositionerOperations := positionersOnly_operations.mono lightingSound_positionersOnly
  port _ _ _ _ := lightingSound_of_same (by simp) (by simp) (by simp) (by simp)
  scanner _ _ := lightingSound_of_same rfl rfl rfl rfl
  surface _ _ _ := lightingSound_of_same rfl rfl rfl rfl
  mode _ _ _ := lightingSound_of_same rfl rfl rfl rfl
  plant _ _ := lightingSound_of_same rfl rfl rfl rfl
  building _ _ := lightingSound_of_same rfl rfl rfl rfl
  fog _ _ := lightingSound_of_same rfl rfl rfl rfl
  pool _ _ _ := lightingSound_of_same rfl rfl rfl rfl
  setLoopFail := setLoopFail_of_moves lightingSound_zoneMoves (fun _ _ => lightingSound_of_same rfl rfl rfl rfl)
    (fun _ _ => lightingSound_of_same rfl rfl rfl rfl)
  frame _ _ _ := lightingSound_of_same rfl rfl rfl rfl
  deviceSeconds _ _ := lightingSound_of_same rfl rfl rfl rfl
  setDomain _ _ _ _ := lightingSound_of_same rfl rfl rfl rfl

theorem slot_idle (s : State) (n : Fin 8) : s.idle.slot n = (s.slot n).idle := pick_mapAll ..

/-- An entry one millisecond further. -/
def Entry.idle (e : Entry) : Entry := { e with fillTimer := timerIdle e.fillTimer }

theorem entry_idle (s : State) (l : Fin 64) (w : Fin 2) : s.idle.entry l w = (s.entry l w).idle := by
  have h : s.idle.entry l w = pick (pick (mapAll Line.idle s.store) l).ways w := rfl
  rw [h, pick_mapAll, Line.idle, pick_mapAll]
  rfl

/-- Only timers of a slot move. -/
theorem slot_idle_eq (sl : Slot) : sl.idle = { sl with timer := sl.idle.timer, delay := sl.idle.delay, hold := sl.idle.hold } := by
  unfold Slot.idle
  repeat' split
  all_goals rfl

theorem slot_idle_reset : Slot.reset.idle = Slot.reset := rfl

theorem lightingSound_idle (h : s.lightingSound) : s.idle.lightingSound where
  freeReset n := by
    rw [slot_idle, slot_idle_eq]
    intro hf
    rw [h.freeReset n hf]
    rfl
  owners c n := by
    rw [slot_idle, slot_idle_eq]
    exact h.owners c n
  lists n := by
    rw [slot_idle, slot_idle_eq]
    exact h.lists n
  headroom n := by
    rw [slot_idle, slot_idle_eq]
    exact h.headroom n
  headroomOnce := h.headroomOnce
  tags l := by rw [entry_idle, entry_idle]; exact h.tags l
  present l w := by rw [entry_idle]; exact h.present l w
  waitersOnce l w := by rw [entry_idle]; exact h.waitersOnce l w
  waiters l w n := by
    rw [entry_idle, slot_idle, slot_idle_eq]
    exact h.waiters l w n
  waiting n := by
    rw [slot_idle, slot_idle_eq]
    simp only [entry_idle]
    exact h.waiting n

theorem lightingSound_reset : State.reset.lightingSound := by
  have hslot : ∀ n, State.reset.slot n = Slot.reset := fun n => pick_replicate ..
  have hchannel : ∀ c, State.reset.channel c = Channel.reset := fun c => pick_replicate ..
  have hentry : ∀ l w, State.reset.entry l w = Entry.reset := fun l w => by
    have hline : pick State.reset.store l = ⟨Vector.replicate 2 Entry.reset, 0⟩ := pick_replicate ..
    rw [State.entry, hline, pick_replicate]
  refine ⟨fun n _ => hslot n, fun c n => ?_, fun n => ?_, fun n => ?_, List.nodup_nil, fun l => ?_, fun l w => ?_, fun l w => ?_,
    fun l w n => ?_, fun n => ?_⟩
  · rw [hslot, hchannel]; simp [Slot.reset, Channel.reset]
  · rw [hslot]; exact List.nodup_nil
  · rw [hslot]; simp [State.reset, Governor.reset, Slot.reset]
  · rw [hentry]; exact fun hi => absurd rfl hi
  · rw [hentry]; exact fun hp => nomatch hp
  · rw [hentry]; exact List.nodup_nil
  · rw [hentry]; exact fun hm => absurd hm List.not_mem_nil
  · rw [hslot]; exact fun hm => nomatch hm

theorem lightingSound_releasedState (s : State) (straps : Straps) (drvfault endstop : BitVec 8) (proven : Bool) :
    (s.released straps drvfault endstop proven).faultAtReset.lightingSound :=
  lightingSound_positionersOnly (positionersOnly_faultAtReset _)
    (lightingSound_of_same (s := State.reset) rfl rfl rfl rfl lightingSound_reset)

/-- Settles O58: freeing a slot, entry into FADING, an evaluation's service of the queue and the completion of a fill each keep
slots, channels, queue and store in agreement, but for the waiters that the completion has not yet judged. -/
theorem lightingStaysSound : Obligations.LightingStaysSound := fun _ _ hs ht =>
  kept_by_step lightingSound_stepMoves
    (lightingSound_stepMoves.allocationRound fun s spill => lightingSound_of_staysSound (staysSound_evaluateRound s spill))
    (fun _ => lightingSound_idle) (fun _ _ _ _ _ => lightingSound_releasedState ..)
    (fun _ _ => lightingSound_of_same rfl rfl rfl rfl) hs ht

end Sys2Proof.Machine
end

