-- ==== Sys2Proof/Proofs/RequestLaws.lean ====
section
/-! PROOFS. How fields of a payload read back, one after the other, and what a request leaves that its block carries out or
refuses. -/

namespace Sys2Proof

/-! ### Fields read back (R174) -/

@[simp] theorem length_encU8 (n : Nat) : (encU8 n).length = 1 := rfl
@[simp] theorem length_encU16 (n : Nat) : (encU16 n).length = 2 := rfl
@[simp] theorem length_encS16 (i : Int) : (encS16 i).length = 2 := rfl
@[simp] theorem length_encU32 (n : Nat) : (encU32 n).length = 4 := rfl
@[simp] theorem length_encS32 (i : Int) : (encS32 i).length = 4 := rfl

theorem readU8_encU8 {n : Nat} (h : n < 256) (bs : List Byte) : readU8 (encU8 n ++ bs) 0 = n := readU8_byte h bs
theorem readU8_encU8_last {n : Nat} (h : n < 256) : readU8 (encU8 n) 0 = n := readU8_byte h []
theorem readU16_encU16_last {n : Nat} (h : n < 65536) : readU16 (encU16 n) 0 = n := readU16_encU16 h []
theorem readS16_encS16_last {i : Int} (lo : -32768 ≤ i) (hi : i < 32768) : readS16 (encS16 i) 0 = i := by
  simpa using readS16_encS16 lo hi []

@[simp] theorem readU8_skipU8 (n : Nat) (bs : List Byte) (k : Nat) : readU8 (encU8 n ++ bs) (k + 1) = readU8 bs k := rfl
@[simp] theorem readU8_skipU16 (n : Nat) (bs : List Byte) (k : Nat) : readU8 (encU16 n ++ bs) (k + 2) = readU8 bs k := rfl
@[simp] theorem readU8_skipS16 (i : Int) (bs : List Byte) (k : Nat) : readU8 (encS16 i ++ bs) (k + 2) = readU8 bs k := rfl
@[simp] theorem readU16_skipU8 (n : Nat) (bs : List Byte) (k : Nat) : readU16 (encU8 n ++ bs) (k + 1) = readU16 bs k := rfl
@[simp] theorem readU16_skipU16 (n : Nat) (bs : List Byte) (k : Nat) : readU16 (encU16 n ++ bs) (k + 2) = readU16 bs k := rfl
@[simp] theorem readU16_skipS16 (i : Int) (bs : List Byte) (k : Nat) : readU16 (encS16 i ++ bs) (k + 2) = readU16 bs k := rfl
@[simp] theorem readS16_skipU8 (n : Nat) (bs : List Byte) (k : Nat) : readS16 (encU8 n ++ bs) (k + 1) = readS16 bs k := rfl
@[simp] theorem readS16_skipU16 (n : Nat) (bs : List Byte) (k : Nat) : readS16 (encU16 n ++ bs) (k + 2) = readS16 bs k := rfl
@[simp] theorem readS16_skipS16 (i : Int) (bs : List Byte) (k : Nat) : readS16 (encS16 i ++ bs) (k + 2) = readS16 bs k := rfl

end Sys2Proof

namespace Sys2Proof.Machine

/-! ### Operands -/

theorem indexBelow_val {n : Nat} (i : Fin n) : indexBelow n i.val = some i := by simp [indexBelow]
theorem indexBelow_of_le {n k : Nat} (h : n ≤ k) : indexBelow n k = none := by simp [indexBelow]; omega

theorem twoValued_bool (b : Bool) : twoValued (if b then 1 else 0) = some b := by cases b <;> rfl

theorem twoValued_of_gt {k : Nat} (h : 1 < k) : twoValued k = none := by
  unfold twoValued
  split
  · omega
  · omega
  · rfl

theorem bool_lt (b : Bool) : (if b then 1 else 0 : Nat) < 256 := by cases b <;> decide

/-! ### A port that executes -/

section
variable (s : State) (p : Port)

@[simp] theorem enterExecuting_inDomain (d : Fin 13) (q : Port) : (s.enterExecuting p).inDomain d q = s.inDomain d q := by
  simp [State.inDomain]
@[simp] theorem enterExecuting_zone (z : Fin 4) : (s.enterExecuting p).zone z = s.zone z := by simp [State.zone]
@[simp] theorem enterExecuting_pos (v : Fin 8) : (s.enterExecuting p).pos v = s.pos v := by simp [State.pos]
@[simp] theorem enterExecuting_slot (n : Fin 8) : (s.enterExecuting p).slot n = s.slot n := slot_congr (by simp) n
@[simp] theorem enterExecuting_channel (c : Fin 96) : (s.enterExecuting p).channel c = s.channel c := channel_congr (by simp) c
@[simp] theorem enterExecuting_entry (l : Fin 64) (w : Fin 2) : (s.enterExecuting p).entry l w = s.entry l w :=
  entry_congr (by simp) l w
@[simp] theorem enterExecuting_queue (q : Port) : ((s.enterExecuting p).port q).queue = (s.port q).queue := by
  by_cases h : q = p
  · rw [h, port_enterExecuting_same, executing_queue]
  · rw [port_enterExecuting_other s h]

end

/-! ### A request -/

/-- The command of a request brings its frame (log entry 15). -/
theorem exec_command (k : RequestKind) (p : Port) (payload : List Byte) (s : State) :
    exec (k.command p payload) s = .next (s.request p k.code payload) := by cases k <;> rfl

section
variable {s : State} {p : Port} {payload : List Byte}

/-- A request comes to its block: what the block makes of it, and its answer, are what the command leaves. -/
def State.takes (s : State) (p : Port) (k : RequestKind) (payload : List Byte) : Prop :=
  ∀ h, (s.enterExecuting p).handOver p k payload = h → exec (k.command p payload) s = .next (h.1.answer p k.code h.2)

/-- A request that passes the port's checks comes to its block (R162). -/
theorem takes_of_checks (k : RequestKind) (hr : (s.port p).clearToSend = true) (hn : payload.length ≤ 247)
    (hl : k.lengthAllowed payload = true)
    (hd : (s.enterExecuting p).requestDomain k payload = some none ∨
      ∃ d, (s.enterExecuting p).requestDomain k payload = some (some d) ∧ s.inDomain d p = true) : s.takes p k payload := by
  obtain ⟨hready, hmust⟩ := (clearToSend_iff _).1 hr
  rintro h rfl
  rw [exec_command, request_handed s p k payload hready (.inl hmust) hn hl hd]

/-- A request of which no domain is checked. -/
theorem takes_of_clearToSend (k : RequestKind) (hr : (s.port p).clearToSend = true) (hn : payload.length ≤ 247)
    (hl : k.lengthAllowed payload = true) (hd : (s.enterExecuting p).requestDomain k payload = some none) :
    s.takes p k payload := takes_of_checks k hr hn hl (.inl hd)

/-- A request of a port that may command in its domain. -/
theorem takes_of_mayCommand (k : RequestKind) {d : Fin 13} (hs : s.mayCommand p d = true) (hn : payload.length ≤ 247)
    (hl : k.lengthAllowed payload = true) (hd : (s.enterExecuting p).requestDomain k payload = some (some d)) :
    s.takes p k payload := by
  simp only [State.mayCommand, Bool.and_eq_true] at hs
  exact takes_of_checks k hs.1 hn hl (.inr ⟨d, hd, hs.2⟩)

/-- What its block refuses leaves only the port's turn. -/
theorem State.takes.refused {k : RequestKind} (ht : s.takes p k payload) {r : Result}
    (hh : (s.enterExecuting p).handOver p k payload = refuse (s.enterExecuting p) r) :
    exec (k.command p payload) s = .next (s.refused p k.code r) := ht _ hh

/-- What its block carries out. -/
theorem State.takes.served {k : RequestKind} (ht : s.takes p k payload) {effect : State → State}
    (hh : (s.enterExecuting p).handOver p k payload = okay (effect (s.enterExecuting p))) :
    exec (k.command p payload) s = .next (s.served p k .ok effect) := ht _ hh

/-- What its block begins, and will end with a record. -/
theorem State.takes.begun {k : RequestKind} (ht : s.takes p k payload) {effect : State → State}
    (hh : (s.enterExecuting p).handOver p k payload = accepted (effect (s.enterExecuting p))) :
    exec (k.command p payload) s = .next (s.served p k .accepted effect) := ht _ hh

end

end Sys2Proof.Machine
end

