-- ==== Sys2Proof/Proofs/PlainCommands.lean ====
section
/-! PROOFS. Commands that change one record: line events, timers, posting, and the requests that store a value. -/

namespace Sys2Proof.Machine

/-! ### The step and an idle millisecond -/

/-- Settles O1: the step's equation on a queue that is not empty. -/
theorem stepTakesTheOldestCommand : Obligations.StepTakesTheOldestCommand := by
  intro c rest s h
  simp only [step, h]

/-- In DELAY and in WAITING_HEADROOM one of the tenths counts down, and no other. -/
theorem slot_idle_tenths (sl : Slot) :
    (sl.idle.delay = sl.delay ∨ (sl.state = .delay ∧ 1 < sl.delay ∧ sl.idle.delay = sl.delay - 1)) ∧
    (sl.idle.hold = sl.hold ∨ (sl.state = .waitingHeadroom ∧ 1 < sl.hold ∧ sl.idle.hold = sl.hold - 1)) := by
  unfold Slot.idle
  split
  · exact ⟨.inl rfl, .inl rfl⟩
  · split
    · exact ⟨.inl rfl, .inl rfl⟩
    · split
      · next hst =>
        split
        · next hd => exact ⟨.inr ⟨hst, hd, rfl⟩, .inl rfl⟩
        · exact ⟨.inl rfl, .inl rfl⟩
      · next hst =>
        split
        · next hh => exact ⟨.inl rfl, .inr ⟨hst, hh, rfl⟩⟩
        · exact ⟨.inl rfl, .inl rfl⟩
      · exact ⟨.inl rfl, .inl rfl⟩

/-- Settles O2. -/
theorem idleMillisecondMovesOnlyTimers : Obligations.IdleMillisecondMovesOnlyTimers := by
  intro s hp
  refine ⟨s.idle, by simp only [step, hp], rfl, pos_idle s, entry_idle s, fun l => ?_, fun n => ?_⟩
  · have h : pick s.idle.store l = (pick s.store l).idle := pick_mapAll ..
    rw [h]
    rfl
  · rw [slot_idle]
    exact ⟨slot_idle_eq _, slot_idle_tenths _⟩

/-! ### Line events -/

/-- Settles O48: each event is one replacement of the port's record. -/
theorem lineEventsTouchOnlyTheirPort : Obligations.LineEventsTouchOnlyTheirPort := by
  intro p s
  refine ⟨rfl, rfl, rfl, ?_⟩
  have hexec : exec (.resultSent p) s = .next (s.setPort p (s.port p).resultSent) := rfl
  rw [hexec]
  unfold PortState.resultSent
  by_cases h : (s.port p).phase = .answering
  · simp [h]
  · rw [if_neg h]
    cases hp : (s.port p).phase <;> simp_all [setPort_port]

/-! ### Events of a tick on their own -/

/-- Settles O9: both events test their condition and change one record. -/
theorem overridesExpireAndReportsGrowStale : Obligations.OverridesExpireAndReportsGrowStale := by
  refine ⟨fun i s => congrArg Host.Outcome.next ?_, fun s => congrArg Host.Outcome.next ?_⟩
  · unfold State.overrideExpiry
    split
    · next o ho => simp [ho]
    · next ho => simp [ho]
  · unfold State.judgeStale
    split <;> rfl

/-! ### After reset -/

/-- Settles O60. -/
theorem resetMeetsTheInvariants : Obligations.ResetMeetsTheInvariants := by
  have hpos : ∀ v, State.reset.pos v = Positioner.reset := fun v => pick_replicate ..
  refine ⟨fun p => ?_, ?_, lightingSound_reset, fun h => absurd h (by decide), fun _ => by decide⟩
  · cases p <;> exact Nat.zero_le 8
  · refine ⟨List.nodup_nil, List.nodup_nil, List.nodup_nil, fun v => ?_, fun v => ?_, fun v x hx => ?_, fun v => ?_,
      fun v hv => absurd hv List.not_mem_nil⟩
    · rw [hpos]
      exact iff_of_false List.not_mem_nil (by decide)
    · rw [hpos]
      rfl
    · rw [hpos] at hx
      exact nomatch hx
    · rw [hpos]
      exact Nat.zero_le _

/-! ### Posting -/

theorem eraseP_append_cons {α : Type} {f : α → Bool} (xs ys : List α) {x : α} (hx : f x = true) (hxs : ∀ y ∈ xs, f y = false) :
    (xs ++ x :: ys).eraseP f = xs ++ ys := by
  rw [List.eraseP_append_right _ (by simpa using hxs), List.eraseP_cons_of_pos hx]

/-- The newest ordinary record is the one with only must-collect records behind it. -/
theorem withoutNewestOrdinary_eq (front back : List Record) {x : Record} (hx : x.mustCollect = false)
    (hback : ∀ y ∈ back, y.mustCollect = true) : withoutNewestOrdinary (front ++ x :: back) = front ++ back := by
  unfold withoutNewestOrdinary
  have h : (front ++ x :: back).reverse = back.reverse ++ x :: front.reverse := by simp
  rw [h, eraseP_append_cons _ _ (by simp [hx]) (by simpa using hback)]
  simp

/-- Settles O54: the four cases of joining a queue. -/
theorem postedRecordsJoinTheQueue : Obligations.PostedRecordsJoinTheQueue := by
  intro p kind object value s q r
  have hpost : s.post p kind object value = s.setPort p (q.enqueue r) := rfl
  have hfull : 8 ≤ q.queue.length → ¬q.queue.length < Config.queueCapacity := fun h => by
    change ¬_ < 8
    omega
  refine ⟨?_, fun h => ?_, fun h hk => ?_, fun h hk hall => ?_, fun h hk front x back hq hx hback => ?_⟩
  · rw [port_post_same]
    change PortState.attn (q.enqueue r) = true
    unfold PortState.enqueue PortState.attn
    split
    · simp
    · next hlen =>
      have hlen : 8 ≤ q.queue.length := by change ¬_ < 8 at hlen; omega
      split
      · simp
      · cases hq : q.queue with
        | nil => simp [hq] at hlen
        | cons => rfl
  · rw [hpost, PortState.enqueue, if_pos (by exact h)]
  · rw [hpost, PortState.enqueue, if_neg (hfull h), if_neg]
    simp [r, Record.mustCollect, hk]
  · rw [hpost, PortState.enqueue, if_neg (hfull h), if_neg]
    simpa [r, Record.mustCollect] using fun _ => hall
  · rw [hpost, PortState.enqueue, if_neg (hfull h), if_pos, hq, withoutNewestOrdinary_eq front back hx hback]
    simp [r, Record.mustCollect, hk, hq]
    simpa [Record.mustCollect] using .inr (.inl hx)

/-! ### The authority map -/

theorem ofMask_bits (set : PortSet) :
    PortSet.ofMask ((if set.p then 1 else 0) + (if set.b then 2 else 0) + (if set.l then 4 else 0)) = some set := by
  obtain ⟨p, b, l⟩ := set
  cases p <;> cases b <;> cases l <;> rfl

theorem ofMask_of_gt {mask : Nat} (h : 7 < mask) : PortSet.ofMask mask = none := if_neg (by omega)

/-- Settles O53. -/
theorem authorityRequestsChangeTheMap : Obligations.AuthorityRequestsChangeTheMap := by
  intro p s hs
  have hset : ∀ d mask : Nat, s.takes p .authSet (payloadAuthSet d mask) := fun d mask =>
    takes_of_mayCommand .authSet hs (by simp [payloadAuthSet]) rfl rfl
  have hlock : ∀ d : Nat, s.takes p .authLock (payloadAuthLock d) := fun d =>
    takes_of_mayCommand .authLock hs (by simp [payloadAuthLock]) rfl rfl
  refine ⟨fun d set => ?_, fun d => ?_, fun d mask hd hmask hbad => ?_, fun d hbad hd => ?_⟩
  · have hset' := ofMask_bits set
    have hmask : (if set.p then 1 else 0) + (if set.b then 2 else 0) + (if set.l then 4 else 0) < 256 := by
      split <;> split <;> split <;> decide
    generalize (if set.p then 1 else 0) + (if set.b then 2 else 0) + (if set.l then 4 else 0) = mask at hset' hmask
    by_cases hl : (pick s.authority d).locked = true
    · rw [if_pos hl]
      refine (hset d mask).refused ?_
      simp (disch := omega) [State.handOver, handleAuthSet, payloadAuthSet, readU8_encU8, readU8_encU8_last, indexBelow_val,
        hset', hl]
    · rw [if_neg hl]
      refine (hset d mask).served ?_
      simp (disch := omega) [State.handOver, handleAuthSet, payloadAuthSet, readU8_encU8, readU8_encU8_last, indexBelow_val,
        hset', hl, State.setDomain]
  · refine (hlock d).served ?_
    simp (disch := omega) [State.handOver, handleAuthLock, payloadAuthLock, readU8_encU8_last, indexBelow_val, State.setDomain]
  · refine (hset d mask).refused ?_
    simp (disch := omega) only [State.handOver, handleAuthSet, payloadAuthSet, readU8_encU8, readU8_encU8_last, readU8_skipU8]
    rcases hbad with h | h
    · rw [indexBelow_of_le h]
    · rw [ofMask_of_gt h]
      cases indexBelow 13 d <;> rfl
  · refine (hlock d).refused ?_
    simp (disch := omega) [State.handOver, handleAuthLock, payloadAuthLock, readU8_encU8_last, indexBelow_of_le]

end Sys2Proof.Machine
end

