-- ==== Sys2Proof/Proofs/StoredValues.lean ====
section
/-! PROOFS. The requests that store a value in a record: probes, zones and claims. -/

namespace Sys2Proof.Machine

/-! ### Probes -/

theorem clampNat_zero (hi x : Nat) : clampNat 0 hi x = min hi x := by simp [clampNat]

theorem overridable_val {i : Fin 32} (h : i ≠ probeRef) : overridable i.val = some i := by
  simp [overridable, indexBelow_val, h]

theorem overridable_none {i : Nat} (h : 31 < i ∨ i = 25) : overridable i = none := by
  unfold overridable
  rcases h with h | rfl
  · rw [indexBelow_of_le h]
  · rfl

theorem probe_enterExecuting (s : State) (p : Port) (i : Fin 32) : (s.enterExecuting p).probe i = s.probe i := by
  simp [State.probe]

/-- Settles O8. -/
theorem probeRequestsAreCarriedOut : Obligations.ProbeRequestsAreCarriedOut := by
  intro p s hs
  have hshort : s.takes p .calibrateShort [] := takes_of_mayCommand .calibrateShort hs (by simp) rfl rfl
  have hover : ∀ i value duration, s.takes p .probeOverride (payloadProbeOverride i value duration) := fun _ _ _ =>
    takes_of_mayCommand .probeOverride hs (by simp [payloadProbeOverride]) rfl rfl
  have hrel : ∀ i, s.takes p .probeRelease (payloadProbeRelease i) := fun _ =>
    takes_of_mayCommand .probeRelease hs (by simp [payloadProbeRelease]) rfl rfl
  refine ⟨?_, fun i value duration hi hlo hhi hd => ?_, fun i hi => ?_, fun i value duration hi hbad => ⟨?_, ?_⟩⟩
  · by_cases hl : s.scanner.longCal = true
    · rw [if_pos hl]
      exact hshort.refused (by simp [State.handOver, handleCalibrateShort, hl])
    · rw [if_neg hl]
      exact hshort.served (by simp [State.handOver, handleCalibrateShort, hl])
  · have hindex : i.val < 256 := by omega
    have hsec : readU16 (payloadProbeOverride i.val value duration) 3 = duration := by
      simp [payloadProbeOverride, readU16_encU16_last hd]
    by_cases hl : s.scanner.longCal = true
    · rw [if_pos hl]
      exact (hover i.val value duration).refused (by
        simp [State.handOver, handleProbeOverride, payloadProbeOverride, readU8_encU8 hindex, overridable_val hi, hl])
    · rw [if_neg hl]
      refine (hover i.val value duration).served ?_
      simp only [State.handOver, handleProbeOverride, hsec, enterExecuting_scanner, hl, clampNat_zero]
      simp [payloadProbeOverride, readU8_encU8 hindex, readS16_encS16 hlo hhi, overridable_val hi, overrideValue,
        Probe.overridden]
  · have hindex : i.val < 256 := by omega
    by_cases hl : s.scanner.longCal = true
    · rw [if_pos hl]
      exact (hrel i.val).refused (by
        simp [State.handOver, handleProbeRelease, payloadProbeRelease, readU8_encU8_last hindex, overridable_val hi, hl])
    · rw [if_neg hl]
      exact (hrel i.val).served (by
        simp [State.handOver, handleProbeRelease, payloadProbeRelease, readU8_encU8_last hindex, overridable_val hi, hl])
  · exact (hover i value duration).refused (by
      simp [State.handOver, handleProbeOverride, payloadProbeOverride, readU8_encU8 hi, overridable_none hbad])
  · exact (hrel i).refused (by
      simp [State.handOver, handleProbeRelease, payloadProbeRelease, readU8_encU8_last hi, overridable_none hbad])

/-! ### Zones -/

/-- Settles O23. -/
theorem zoneSetAndZoneLockStoreTheirValues : Obligations.ZoneSetAndZoneLockStoreTheirValues := by
  intro p s hs
  have hset : ∀ z occupied setback k, s.takes p .zoneSet (payloadZoneSet z occupied setback k) := fun _ _ _ _ =>
    takes_of_mayCommand .zoneSet hs (by simp [payloadZoneSet]) rfl rfl
  have hlock : ∀ z k, s.takes p .zoneLock (payloadZoneLock z k) := fun _ _ =>
    takes_of_mayCommand .zoneLock hs (by simp [payloadZoneLock]) rfl rfl
  refine ⟨fun z occupied setback present ho ho' hb hb' => ?_, fun z on => ?_, fun z k occupied setback hz hk hbad => ⟨?_, ?_⟩⟩
  · have hindex : z.val < 256 := by omega
    refine (hset z.val occupied setback (if present then 1 else 0)).served ?_
    simp [State.handOver, handleZoneSet, payloadZoneSet, readU8_encU8 hindex, readU8_encU8_last (bool_lt present),
      readS16_encS16 ho ho', readS16_encS16 hb hb', indexBelow_val, twoValued_bool]
  · have hindex : z.val < 256 := by omega
    refine (hlock z.val (if on then 1 else 0)).served ?_
    simp [State.handOver, handleZoneLock, payloadZoneLock, readU8_encU8 hindex, readU8_encU8_last (bool_lt on), indexBelow_val,
      twoValued_bool]
  · refine (hset z occupied setback k).refused ?_
    simp only [State.handOver, handleZoneSet, payloadZoneSet, List.append_assoc, readU8_encU8 hz, readU8_skipU8, readU8_skipS16,
      readU8_encU8_last hk]
    rcases hbad with h | h
    · rw [indexBelow_of_le h]
    · rw [twoValued_of_gt h]
      cases indexBelow 4 z <;> rfl
  · refine (hlock z k).refused ?_
    simp only [State.handOver, handleZoneLock, payloadZoneLock, readU8_encU8 hz, readU8_skipU8, readU8_encU8_last hk]
    rcases hbad with h | h
    · rw [indexBelow_of_le h]
    · rw [twoValued_of_gt h]
      cases indexBelow 4 z <;> rfl

/-! ### Claims -/

theorem claim_enterExecuting (s : State) (p : Port) (c : Fin 8) : (s.enterExecuting p).claim c = s.claim c := by
  simp [State.claim]

theorem consumerMax_enterExecuting (s : State) (p : Port) (c : Fin 8) :
    (s.enterExecuting p).consumerMax c = s.consumerMax c := by
  simp [State.consumerMax, State.zoneProfile]

theorem consumer_refused {c : Nat} (h : 7 ≤ c) : indexBelow 8 c = none ∨ indexBelow 8 c = some storage := by
  rcases Nat.eq_or_lt_of_le h with rfl | h
  · exact .inr rfl
  · exact .inl (indexBelow_of_le h)

/-- Settles O27. -/
theorem claimRequestsSetTheOrigin : Obligations.ClaimRequestsSetTheOrigin := by
  refine ⟨fun p s hs => ?_, fun p s hs => ?_⟩
  · have hmanual : ∀ c request minimum, s.takes p .claimManual (payloadClaimManual c request minimum) := fun _ _ _ =>
      takes_of_mayCommand .claimManual hs (by simp [payloadClaimManual]) rfl rfl
    have hauto : ∀ c, s.takes p .claimAuto (payloadClaimAuto c) := fun _ =>
      takes_of_mayCommand .claimAuto hs (by simp [payloadClaimAuto]) rfl rfl
    refine ⟨fun c request minimum hc hreq hmin => ?_, fun c hc => ?_, fun c request minimum hge hlt => ⟨?_, ?_⟩⟩
    · have hindex : c.val < 256 := by omega
      have hknown : (s.enterExecuting p).maximumKnown c =
          if c = subsoil ∨ c = resurfWater then s.surface.plantValid else s.surface.buildingValid := by
        simp [State.maximumKnown]
      rw [← hknown]
      by_cases hk : (s.enterExecuting p).maximumKnown c = false
      · rw [if_pos hk]
        exact (hmanual c.val request minimum).refused (by
          simp [State.handOver, handleClaimManual, payloadClaimManual, readU8_encU8 hindex, indexBelow_val, hc, hk])
      · rw [if_neg hk]
        refine (hmanual c.val request minimum).served ?_
        simp [State.handOver, handleClaimManual, payloadClaimManual, readU8_encU8 hindex, indexBelow_val, hc, hk,
          readU16_encU16 hreq, readU16_encU16_last hmin, consumerMax_enterExecuting]
    · have hindex : c.val < 256 := by omega
      exact (hauto c.val).served (by
        simp [State.handOver, handleClaimAuto, payloadClaimAuto, readU8_encU8_last hindex, indexBelow_val, hc])
    · refine (hmanual c request minimum).refused ?_
      rcases consumer_refused hge with h | h <;>
        simp [State.handOver, handleClaimManual, payloadClaimManual, readU8_encU8 hlt, h]
    · refine (hauto c).refused ?_
      rcases consumer_refused hge with h | h <;>
        simp [State.handOver, handleClaimAuto, payloadClaimAuto, readU8_encU8_last hlt, h]
  · have hpre : ∀ k, s.takes p .resurfPreheat (payloadResurfPreheat k) := fun _ =>
      takes_of_mayCommand .resurfPreheat hs (by simp [payloadResurfPreheat]) rfl rfl
    refine ⟨fun on => ?_, fun k hk hlt => ?_⟩
    · exact (hpre (if on then 1 else 0)).served (by
        simp [State.handOver, handleResurfPreheat, payloadResurfPreheat, readU8_encU8_last (bool_lt on), twoValued_bool])
    · exact (hpre k).refused (by
        simp [State.handOver, handleResurfPreheat, payloadResurfPreheat, readU8_encU8_last hlt, twoValued_of_gt hk])

end Sys2Proof.Machine
end

