-- ==== Sys2Proof/Proofs/PostingLaws.lean ====
section
/-! PROOFS. Which records an operation posts to a port, and what the posted records make of its queue (R164). -/

namespace Sys2Proof.Machine

/-! ### Posting records to a port -/

section
variable {s t u : State} {p : Port}

theorem posts_of_ports (h : t.ports = s.ports) (p : Port) : s.posts t p [] := port_congr h p

theorem posts_refl (s : State) (p : Port) : s.posts s p [] := rfl

theorem posts_trans {as bs : List Record} (h : s.posts t p as) (k : t.posts u p bs) : s.posts u p (as ++ bs) := by
  unfold State.posts at *
  rw [k, h, List.foldl_append]

theorem posts_then {as : List Record} (h : s.posts t p as) (k : u.ports = t.ports) : s.posts u p as :=
  (port_congr k p).trans h

theorem posts_after {as : List Record} (h : t.ports = s.ports) (k : t.posts u p as) : s.posts u p as := by
  unfold State.posts at *
  rw [k, port_congr h]

/-- A record posted to a port. -/
theorem posts_post (s : State) (q : Port) (k : RecordKind) (o : Nat) (v : Int) (p : Port) :
    s.posts (s.post q k o v) p (if p = q then [⟨k, o, v, s.deviceSeconds⟩] else []) := by
  split
  · next h => rw [h]; exact port_post_same ..
  · next h => exact port_post_other s k o v h

theorem posts_postTo (s : State) (q : Option Port) (k : RecordKind) (o : Nat) (v : Int) (p : Port) :
    s.posts (s.postTo q k o v) p (if q = some p then [⟨k, o, v, s.deviceSeconds⟩] else []) := by
  cases q with
  | none => exact rfl
  | some q =>
    have h := posts_post s q k o v p
    simp only [Option.some.injEq, eq_comm (a := q)]
    exact h

@[simp] theorem postAll_deviceSeconds (s : State) (ps : List Port) (k : RecordKind) (o : Nat) (v : Int) :
    (s.postAll ps k o v).deviceSeconds = s.deviceSeconds :=
  foldl_related (R := fun s t => t.deviceSeconds = s.deviceSeconds) (fun _ => rfl) (fun h k => k.trans h) _
    (fun _ _ => by simp) ps s

theorem posts_postAll (ps : List Port) (hps : ps.Nodup) (s : State) (k : RecordKind) (o : Nat) (v : Int) (p : Port) :
    s.posts (s.postAll ps k o v) p (if p ∈ ps then [⟨k, o, v, s.deviceSeconds⟩] else []) := by
  induction ps generalizing s with
  | nil => exact rfl
  | cons q ps ih =>
    rw [List.nodup_cons] at hps
    have h := posts_trans (posts_post s q k o v p) (ih hps.2 (s.post q k o v))
    have heq : (if p = q then [(⟨k, o, v, s.deviceSeconds⟩ : Record)] else []) ++
        (if p ∈ ps then [⟨k, o, v, (s.post q k o v).deviceSeconds⟩] else []) =
        if p ∈ q :: ps then [⟨k, o, v, s.deviceSeconds⟩] else [] := by
      by_cases hq : p = q
      · subst hq; simp [hps.1]
      · simp [hq]
    rw [heq] at h
    exact h

theorem posts_postZone (s : State) (q : Option Port) (k : RecordKind) (z : Fin 4) (x : Source) (p : Port) :
    s.posts (s.postZone q k z x) p (if p = .portB ∨ q = some p then [⟨k, z.val, x.code, s.deviceSeconds⟩] else []) := by
  have hB := posts_post s .portB k z.val x.code p
  unfold State.postZone
  dsimp only
  split
  · next hq =>
    have hor : (p = .portB ∨ q = some p) ↔ p = .portB := by
      rw [hq, Option.some.injEq]
      tauto
    simpa only [hor] using hB
  · next hq =>
    have hboth := posts_trans hB (posts_postTo (s.post .portB k z.val x.code) q k z.val x.code p)
    have heq : (if p = .portB then [(⟨k, z.val, x.code, s.deviceSeconds⟩ : Record)] else []) ++
        (if q = some p then [⟨k, z.val, x.code, (s.post .portB k z.val x.code).deviceSeconds⟩] else []) =
        if p = .portB ∨ q = some p then [⟨k, z.val, x.code, s.deviceSeconds⟩] else [] := by
      by_cases hp : p = .portB
      · subst hp; simp [hq]
      · simp [hp]
    rw [heq] at hboth
    exact hboth

/-- Operations on different objects, one after the other: what each posts depends on its own object, which the others leave alone. -/
theorem posts_foldl {α β : Type} (f : State → α → State) (get : State → α → β) (g : α → β → List Record) (Q : State → Prop)
    (hget : ∀ t x y, y ≠ x → get (f t x) y = get t y) (hQ : ∀ t x, Q t → Q (f t x))
    (hposts : ∀ t x, Q t → t.posts (f t x) p (g x (get t x))) (l : List α) (hl : l.Nodup) (s : State) (hs : Q s) :
    s.posts (l.foldl f s) p (l.flatMap fun x => g x (get s x)) := by
  induction l generalizing s with
  | nil => exact rfl
  | cons x l ih =>
    rw [List.nodup_cons] at hl
    have h := posts_trans (hposts s x hs) (ih hl.2 (f s x) (hQ s x hs))
    have heq : (l.flatMap fun y => g y (get (f s x) y)) = l.flatMap fun y => g y (get s y) :=
      List.flatMap_congr fun y hy => by rw [hget s x y fun he => hl.1 (he ▸ hy)]
    rw [heq] at h
    exact h

/-- Records that some of the objects give rise to, one each. -/
theorem flatMap_singleton_if {α : Type} (l : List α) (b : α → Bool) (r : α → Record) :
    (l.flatMap fun x => if b x = true then [r x] else []) = (l.filter b).map r := by
  induction l with
  | nil => rfl
  | cons x l ih =>
    rw [List.flatMap_cons, ih, List.filter_cons]
    split <;> simp

/-! ### The queue after posting -/

theorem enqueue_of_room {q : PortState} {r : Record} (h : q.queue.length < 8) :
    q.enqueue r = { q with queue := q.queue ++ [r] } := if_pos h

theorem foldl_enqueue_of_room (rs : List Record) (q : PortState) (h : q.queue.length + rs.length ≤ 8) :
    (rs.foldl PortState.enqueue q).queue = q.queue ++ rs := by
  induction rs generalizing q with
  | nil => simp
  | cons r rs ih =>
    simp only [List.length_cons] at h
    rw [List.foldl_cons, ih, enqueue_of_room (by omega)]
    · simp
    · rw [enqueue_of_room (by omega)]
      simp
      omega

/-- The posted records stand next in the queue where there is room for all of them. -/
theorem tells_of_posts {rs : List Record} (h : s.posts t p rs) : s.tells t p rs := fun hroom => by
  rw [State.posts] at h
  rw [h, foldl_enqueue_of_room rs _ hroom]

/-- An ordinary record displaces none. -/
theorem enqueue_prefix (q : PortState) {r : Record} (hr : r.mustCollect = false) : q.queue <+: (q.enqueue r).queue := by
  unfold PortState.enqueue
  split
  · exact List.prefix_append ..
  · simp [hr]

theorem foldl_enqueue_prefix (rs : List Record) (q : PortState) (hrs : ∀ r ∈ rs, r.mustCollect = false) :
    q.queue <+: (rs.foldl PortState.enqueue q).queue := by
  induction rs generalizing q with
  | nil => exact List.prefix_rfl
  | cons r rs ih => exact (enqueue_prefix q (hrs r (by simp))).trans (ih _ fun x hx => hrs x (by simp [hx]))

/-- Ordinary records that follow leave told ones where they stand. -/
theorem tells_then_ordinary {rs : List Record} (h : s.tells t p rs) (k : PostedOnly RecordKind.ordinary t u) :
    s.tells u p rs := fun hroom => by
  obtain ⟨xs, hxs, hu⟩ := k p
  rw [hu]
  exact (h hroom).trans (foldl_enqueue_prefix xs _ fun r hr => hxs r hr)

theorem lost_enqueue {q : PortState} {r : Record} (h : (q.enqueue r).lost = false) :
    q.lost = false ∧ (q.enqueue r).queue = q.queue ++ [r] := by
  unfold PortState.enqueue at h ⊢
  split at h
  · next hroom => exact ⟨h, by rw [if_pos hroom]⟩
  · split at h <;> cases h

theorem queue_of_not_lost (rs : List Record) (q : PortState) (h : (rs.foldl PortState.enqueue q).lost = false) :
    q.lost = false ∧ (rs.foldl PortState.enqueue q).queue = q.queue ++ rs := by
  induction rs generalizing q with
  | nil => exact ⟨h, by simp⟩
  | cons r rs ih =>
    obtain ⟨hlost, hqueue⟩ := ih _ h
    obtain ⟨hq, hr⟩ := lost_enqueue hlost
    exact ⟨hq, by rw [List.foldl_cons, hqueue, hr, List.append_assoc]; rfl⟩

/-- Where no record is lost, all the posted ones stand behind those of before, those of each kind too. -/
theorem adds_of_posts {rs : List Record} (h : s.posts t p rs) (kind : RecordKind) :
    s.adds t p kind (rs.filter fun x => x.kind == kind) := fun hlost => by
  rw [State.posts] at h
  rw [h] at hlost ⊢
  rw [(queue_of_not_lost rs _ hlost).2, List.filter_append]

/-- Additions of one kind, one after the other. -/
theorem adds_trans {kind : RecordKind} {as bs : List Record} (h : s.adds t p kind as) (k : t.adds u p kind bs)
    (hlost : (u.port p).lost = false → (t.port p).lost = false) : s.adds u p kind (as ++ bs) := fun hu => by
  rw [k hu, h (hlost hu), List.append_assoc]

theorem PostedOnly.lost {K : RecordKind → Prop} (h : PostedOnly K s t) (p : Port) (ht : (t.port p).lost = false) :
    (s.port p).lost = false := by
  obtain ⟨rs, -, hp⟩ := h p
  rw [hp] at ht
  exact (queue_of_not_lost rs _ ht).1

/-- Where only records of other kinds are posted, none of a kind is added. -/
theorem PostedOnly.adds {K : RecordKind → Prop} (h : PostedOnly K s t) (p : Port) {kind : RecordKind} (hk : ¬K kind) :
    s.adds t p kind [] := fun ht => by
  obtain ⟨rs, hrs, hp⟩ := h p
  rw [hp] at ht ⊢
  have hnone : rs.filter (fun x => x.kind == kind) = [] := by
    simpa [List.filter_eq_nil_iff] using fun r hr (he : r.kind = kind) => hk (he ▸ hrs r hr)
  rw [(queue_of_not_lost rs _ ht).2, List.filter_append, hnone]

/-- A must-collect record at the head of a queue stays there. -/
theorem head_enqueue {q : PortState} {r x : Record} (hr : r.mustCollect = true) (hq : q.queue.head? = some r) :
    (q.enqueue x).queue.head? = some r := by
  obtain ⟨rest, hrest⟩ : ∃ rest, q.queue = r :: rest := by
    cases h : q.queue with
    | nil => simp [h] at hq
    | cons y rest => exact ⟨rest, by simpa [h] using hq⟩
  unfold PortState.enqueue
  split
  · simp [hrest]
  · split
    · have hkept : ∃ rest', withoutNewestOrdinary (r :: rest) = r :: rest' := by
        unfold withoutNewestOrdinary
        rw [List.reverse_cons]
        by_cases hany : ∃ y ∈ rest.reverse, (!y.mustCollect) = true
        · obtain ⟨y, hy, hyp⟩ := hany
          rw [List.eraseP_append_left (p := fun r : Record => !r.mustCollect) hyp _ hy]
          exact ⟨_, by rw [List.reverse_append]; rfl⟩
        · have hnone : ∀ y ∈ rest.reverse ++ [r], ¬(!y.mustCollect) = true := by
            intro y hy
            rcases List.mem_append.1 hy with hy | hy
            · exact fun hyp => hany ⟨y, hy, hyp⟩
            · simp [List.mem_singleton.1 hy, hr]
          rw [List.eraseP_of_forall_not hnone]
          exact ⟨rest, by simp⟩
      obtain ⟨rest', h⟩ := hkept
      rw [hrest, h]
      rfl
    · exact hq

theorem head_foldl_enqueue {r : Record} (hr : r.mustCollect = true) (rs : List Record) {q : PortState}
    (hq : q.queue.head? = some r) : (rs.foldl PortState.enqueue q).queue.head? = some r := by
  induction rs generalizing q with
  | nil => exact hq
  | cons x rs ih => exact ih (head_enqueue hr hq)

end

end Sys2Proof.Machine
end

