-- ==== Sys2Proof/Proofs/ZoneEvents.lean ====
section
/-! PROOFS. The switching of the zones: completions, timeouts, ZONE_SOURCE, the fail-over and the loop monitor (R74 to R76, R84 to
R94). -/

namespace Sys2Proof.Machine

/-! ### A switch that completes, or ends -/

theorem completeSwitch_loop (s : State) (z : Fin 4) {run : Nat} (h : (s.zone z).switch = .provingLoop run) :
    s.completeSwitch z = (s.setZone z { (s.zone z).steadied with source := .recovered, fallback := false, surplus := 0 }).postZone
      (s.zone z).port .sourceSwitched z .recovered := by
  unfold State.completeSwitch
  dsimp only
  rw [h]

theorem completeSwitch_boiler (s : State) (z : Fin 4) {left : Nat} (h : (s.zone z).switch = .provingBoiler left) :
    s.completeSwitch z = (s.setZone z { (s.zone z).steadied with source := .boiler, starved := 0 }).postZone
      (s.zone z).port .sourceSwitched z .boiler := by
  unfold State.completeSwitch
  dsimp only
  rw [h]

@[simp] theorem postZone_zones (s : State) (q : Option Port) (k : RecordKind) (z : Fin 4) (x : Source) :
    (s.postZone q k z x).zones = s.zones := by
  unfold State.postZone
  dsimp only
  split
  · simp
  · cases q <;> simp [State.postTo]

theorem foldl_if_singleton {q : PortState} {b : Prop} [Decidable b] {r : Record} :
    (if b then [r] else []).foldl PortState.enqueue q = if b then q.enqueue r else q := by
  split <;> rfl

/-- Settles O21. -/
theorem provingEndsInASwitchOrATimeout : Obligations.ProvingEndsInASwitchOrATimeout := by
  intro z s zn
  have hproved : ∀ s : State, exec (.loopProved z) s = .next (s.loopProved z) := fun _ => rfl
  have htimeout : ∀ s : State, exec (.switchTimeout z) s = .next (s.provingTimeout z) := fun _ => rfl
  rw [hproved, htimeout]
  unfold State.loopProved State.provingTimeout
  cases hsw : zn.switch with
  | steady => simp
  | provingLoop run =>
    have hsw' : (s.zone z).switch = .provingLoop run := hsw
    dsimp only
    refine ⟨rfl, fun hrun => ?_⟩
    have hcarries : s.loopCarries z = true ↔ s.pool.loopFail = false ∧
        (s.published probeW0).any (fun w => decide ((pick s.building.zones z).minSupply ≤ w)) = true := by
      unfold State.loopCarries State.zoneProfile
      cases s.published probeW0 <;> simp
    have hdue : (decide (run = 30) || s.nextLoopRun z run == 30) = true ↔ run = 29 ∧ s.loopCarries z = true := by
      unfold State.nextLoopRun countTo
      simp only [Bool.or_eq_true, decide_eq_true_eq, beq_iff_eq]
      split
      · next hc => simp only [hc, and_true]; omega
      · next hc => simp [hc]; omega
    by_cases hb : run = 29 ∧ s.loopCarries z = true
    · rw [if_pos (by rw [← hcarries]; exact hb), if_pos (hdue.2 hb)]
      refine ⟨_, rfl, ?_, fun p => ?_, zones_completeSwitch s z⟩
      · rw [completeSwitch_loop s z hsw', postZone_zones]
        rfl
      · have h := posts_postZone (s.setZone z { (s.zone z).steadied with source := .recovered, fallback := false, surplus := 0 })
          (s.zone z).port .sourceSwitched z .recovered p
        rw [completeSwitch_loop s z hsw']
        exact h.trans foldl_if_singleton
    · rw [if_neg (by rw [← hcarries]; exact hb), if_neg fun h => hb (hdue.1 h)]
  | provingBoiler left =>
    have hsw' : (s.zone z).switch = .provingBoiler left := hsw
    dsimp only
    refine ⟨rfl, ?_⟩
    by_cases hl : left ≤ 1
    · rw [if_pos hl, if_pos hl]
      refine ⟨_, rfl, ?_, fun p => ?_, ?_⟩
      · simp only [State.switchTimeout, State.setZone, postZone_zones, Zone.steadied, Zone.fallingBack]
        simp [zn]
      · exact (posts_postZone s (s.zone z).port .switchTimeout z (s.zone z).source p).trans foldl_if_singleton
      · exact ZonesOnly.trans (zones_postZone s _ _ z _) rfl
    · rw [if_neg hl, if_neg hl]

/-! ### The boiler is proven -/

/-- The zone proves toward the boiler. -/
def Zone.provesBoiler (zn : Zone) : Bool := match zn.switch with | .provingBoiler _ => true | _ => false

theorem afterProven_true (zn : Zone) : zn.afterProven true =
    if zn.provesBoiler then { zn with source := .boiler, switch := .steady, port := none, starved := 0 } else zn := by
  unfold Zone.afterProven Zone.provesBoiler
  cases zn.switch <;> simp

theorem boilerEn_iff (s : State) : s.boilerEn = true ↔
    ∃ z, (s.zone z).provesBoiler = true ∨ ((s.zone z).source = .boiler ∧ 0 < (s.zone z).request) := by
  have hall : ∀ z : Fin 4, z ∈ all4 := by decide
  have hwants : ∀ z, (pick s.zones z).wantsBoiler = true ↔
      (s.zone z).provesBoiler = true ∨ ((s.zone z).source = .boiler ∧ 0 < (s.zone z).request) := by
    intro z
    unfold Zone.wantsBoiler Zone.provesBoiler State.zone
    cases (pick s.zones z).switch <;> simp
  simp only [State.boilerEn, List.any_eq_true, hwants]
  exact ⟨fun ⟨z, _, h⟩ => ⟨z, h⟩, fun ⟨z, h⟩ => ⟨z, hall z, h⟩⟩

/-- The records of a zone at a port when the boiler is proven. -/
def switchedRecords (seconds : BitVec 32) (p : Port) (z : Fin 4) (zn : Zone) : List Record :=
  if zn.provesBoiler && (p == .portB || zn.port == some p) then [⟨.sourceSwitched, z.val, 2, seconds⟩] else []

theorem posts_readProven {s : State} (hb : s.boilerProven = true) (z : Fin 4) (p : Port) :
    s.posts (s.readProven z) p (switchedRecords s.deviceSeconds p z (s.zone z)) := by
  unfold State.readProven
  split
  · next left hsw =>
    rw [if_pos hb, completeSwitch_boiler s z hsw]
    have h := posts_postZone (s.setZone z { (s.zone z).steadied with source := .boiler, starved := 0 })
      (s.zone z).port .sourceSwitched z .boiler p
    have heq : switchedRecords s.deviceSeconds p z (s.zone z) =
        if p = .portB ∨ (s.zone z).port = some p then [⟨.sourceSwitched, z.val, 2, s.deviceSeconds⟩] else [] := by
      simp [switchedRecords, Zone.provesBoiler, hsw]
    rw [heq]
    exact h
  · next hsw =>
    have heq : switchedRecords s.deviceSeconds p z (s.zone z) = [] := by
      unfold switchedRecords Zone.provesBoiler
      split
      · next h =>
        exfalso
        cases hs : (s.zone z).switch with
        | provingBoiler left => exact hsw left hs
        | _ => simp [hs] at h
      · rfl
    rw [heq]
    exact posts_refl s p

theorem nodup_all4 : all4.Nodup := by decide

theorem zone_provenRises (s : State) (z : Fin 4) : s.provenRises.zone z = (s.zone z).afterProven true := by
  have h := zone_foldl_all4 State.readProven (fun b zn => zn.afterProven b) zone_readProven readProven_boilerProven
    { s with boilerProven := true } z
  exact h

theorem posts_provenRises (s : State) (p : Port) :
    s.posts s.provenRises p (all4.flatMap fun z => switchedRecords s.deviceSeconds p z (s.zone z)) := by
  have h := posts_foldl (p := p) State.readProven State.zone (switchedRecords s.deviceSeconds p)
    (fun t => t.boilerProven = true ∧ t.deviceSeconds = s.deviceSeconds)
    (fun t x y hne => by rw [zone_readProven, if_neg hne])
    (fun t x ht => ⟨(readProven_boilerProven t x).trans ht.1, (congrArg State.deviceSeconds (zones_readProven t x) :).trans ht.2⟩)
    (fun t x ht => by rw [← ht.2]; exact posts_readProven ht.1 x p)
    all4 nodup_all4 { s with boilerProven := true } ⟨rfl, rfl⟩
  exact h

/-- Settles O22. -/
theorem boilerProvenCompletesEverySwitchToIt : Obligations.BoilerProvenCompletesEverySwitchToIt := by
  intro s proves
  have hproves : ∀ z, proves z = (s.zone z).provesBoiler := fun _ => rfl
  have hzone : ∀ z, s.provenRises.zone z =
      if proves z then { s.zone z with source := .boiler, switch := .steady, port := none, starved := 0 } else s.zone z :=
    fun z => (zone_provenRises s z).trans (afterProven_true _)
  have hzsrc : ∀ (t : State) z, t.zsrc z = true ↔ (t.zone z).source = .boiler := fun t z => by
    simp [State.zsrc, State.zone]
  have hafter : ∀ z, (s.provenRises.zone z).provesBoiler = false ∧
      ((s.provenRises.zone z).source = .boiler ↔ proves z = true ∨ (s.zone z).source = .boiler) ∧
      (s.provenRises.zone z).request = (s.zone z).request := by
    intro z
    rw [hzone]
    by_cases h : proves z = true
    · simp [h, Zone.provesBoiler]
    · have hf : (s.zone z).provesBoiler = false := by simpa [hproves] using h
      simp [h, hf]
  refine ⟨rfl, boilerEn_iff s, hzsrc s, s.provenRises, rfl, hzone, fun p => ?_, fun z => ?_, ?_, ?_⟩
  · have h := posts_provenRises s p
    unfold switchedRecords at h
    rw [flatMap_singleton_if] at h
    exact h
  · rw [hzsrc]
    exact (hafter z).2.1
  · rw [boilerEn_iff]
    refine exists_congr fun z => ?_
    obtain ⟨hp, hs, hr⟩ := hafter z
    rw [hp, hs, hr]
    simp
  · exact zones_foldl _ zones_readProven all4 { s with boilerProven := true }

/-! ### ZONE_SOURCE -/

/-- Who is told that a pending switch is superseded. -/
theorem posts_supersedeSwitch (s : State) (z : Fin 4) (q : Port) : s.posts (s.supersedeSwitch z) q
    (match (s.zone z).requested with
      | some source => if (s.zone z).port = some q then [⟨.switchSuperseded, z.val, source.code, s.deviceSeconds⟩] else []
      | none => []) := by
  unfold State.supersedeSwitch
  dsimp only
  cases (s.zone z).requested with
  | some source => exact posts_postTo ..
  | none => exact posts_refl s q

theorem zone_startSwitch (s : State) (z y : Fin 4) (toBoiler : Bool) (port : Option Port) :
    (s.startSwitch z toBoiler port).zone y = if y = z then
      ({ s.zone z with switch := if toBoiler then .provingBoiler 120 else .provingLoop 0, port := port } : Zone).afterProven
        s.boilerProven else s.zone y := by
  have hproven : (s.supersedeSwitch z).boilerProven = s.boilerProven := by
    unfold State.supersedeSwitch
    dsimp only
    split <;> simp
  unfold State.startSwitch
  dsimp only
  rw [zone_readProven]
  simp only [zone_setZone, zone_supersedeSwitch, setZone_boilerProven, hproven]
  split <;> simp

/-- The zones of a state of which one zone is replaced. -/
theorem zones_eq_put {s t : State} {z : Fin 4} {x : Zone} (h : ∀ y, t.zone y = if y = z then x else s.zone y) :
    t.zones = put s.zones z x := by
  refine Vector.ext fun i hi => ?_
  have hy := h ⟨i, hi⟩
  rw [State.zone] at hy
  have hput : pick (put s.zones z x) ⟨i, hi⟩ = if (⟨i, hi⟩ : Fin 4) = z then x else s.zone ⟨i, hi⟩ := pick_put ..
  exact hy.trans hput.symm

@[simp] theorem zone_answer (s : State) (p : Port) (code : Byte) (a : Answer) (z : Fin 4) :
    (s.answer p code a).zone z = s.zone z := by simp [State.zone]

theorem zones_setZone (s : State) (z : Fin 4) (x : Zone) : ZonesOnly s (s.setZone z x) := rfl
theorem zones_setPort (s : State) (p : Port) (q : PortState) : ZonesOnly s (s.setPort p q) := by cases p <;> rfl
theorem zones_supersedeSwitch (s : State) (z : Fin 4) : ZonesOnly s (s.supersedeSwitch z) := by
  unfold State.supersedeSwitch
  dsimp only
  split
  · exact zones_postTo ..
  · exact ZonesOnly.refl s

theorem answers_answer (s : State) (p : Port) (k : RequestKind) (r : Result) :
    ((s.answer p k.code { result := r }).port p).answers k r := by
  rw [port_answer_same]
  exact ⟨rfl, _, rfl⟩

/-- What a switch that is started posts to a port other than B and the asking one: that the earlier one is superseded. -/
theorem port_startSwitch_other (s : State) (z : Fin 4) (toBoiler : Bool) {p q : Port} (hp : q ≠ p) (hB : q ≠ .portB) :
    (s.startSwitch z toBoiler (some p)).port q = (s.supersedeSwitch z).port q := by
  unfold State.startSwitch
  dsimp only
  generalize hx : (s.supersedeSwitch z).setZone z _ = told
  have htold : told.port q = (s.supersedeSwitch z).port q := by rw [← hx]; rfl
  have hport : (told.zone z).port = some p := by rw [← hx, zone_setZone_same]
  unfold State.readProven
  split
  · next left hsw =>
    split
    · rw [completeSwitch_boiler told z hsw]
      have h := posts_postZone (told.setZone z { (told.zone z).steadied with source := .boiler, starved := 0 })
        (told.zone z).port .sourceSwitched z .boiler q
      have hne : ¬(q = .portB ∨ some p = some q) := fun h => h.elim hB fun h => hp (Option.some.inj h).symm
      rw [hport, if_neg hne] at h
      rw [hport]
      exact h.trans htold
    · exact htold
  · exact htold

theorem port_supersedeSwitch {s : State} {z : Fin 4} {q : Port} (hport : (s.zone z).port = some q)
    (hsw : (s.zone z).switch ≠ .steady) : (s.supersedeSwitch z).port q = (s.port q).enqueue
      ⟨.switchSuperseded, z.val, match (s.zone z).switch with | .provingBoiler _ => 2 | _ => 1, s.deviceSeconds⟩ := by
  have h := posts_supersedeSwitch s z q
  unfold Zone.requested at h
  cases hs : (s.zone z).switch with
  | steady => exact absurd hs hsw
  | provingLoop run =>
    simp only [hs, hport, if_true] at h
    exact h
  | provingBoiler left =>
    simp only [hs, hport, if_true] at h
    exact h

theorem requestableSource_none {source : Nat} (h : source = 0 ∨ 2 < source) : requestableSource source = none := by
  unfold requestableSource
  split
  · omega
  · omega
  · rfl

theorem requestableSource_bool (b : Bool) :
    requestableSource (if b then 2 else 1) = some (if b then .boiler else .recovered) := by cases b <;> rfl

/-- ZONE_SOURCE of a zone and a source that may be requested. -/
theorem handleZoneSource_of_operands {s : State} (p : Port) {payload : List Byte} {z : Fin 4} {source : Source}
    (hz : indexBelow 4 (readU8 payload 0) = some z) (hs : requestableSource (readU8 payload 1) = some source) :
    handleZoneSource s p payload =
      if s.surface.mode = .start then refuse s .wrongMode
      else if (s.zone z).locked then refuse s .lockedResult
      else if source = .recovered && s.pool.loopFail then refuse s .notReady
      else if (s.zone z).source = source then
        if (s.zone z).switch = .steady then okay s
        else okay ((s.supersedeSwitch z).setZone z (s.zone z).steadied)
      else accepted ((s.setZone z { s.zone z with fallback := (s.zone z).fallback && source != .boiler }).startSwitch z
        (source == .boiler) (some p)) := by
  unfold handleZoneSource
  rw [hz, hs]

/-- Settles O24. -/
theorem zoneSourceStartsASwitch : Obligations.ZoneSourceStartsASwitch := by
  have htakes : ∀ {p : Port} {s : State}, s.mayCommand p domZones = true → ∀ z source,
      s.takes p .zoneSource (payloadZoneSource z source) := fun hs z source =>
    takes_of_mayCommand .zoneSource hs (by simp [payloadZoneSource]) rfl rfl
  refine ⟨fun p z source s hs hz hsrc hbad => ?_, fun p z toBoiler s hs => ?_⟩
  · refine (htakes hs z source).refused ?_
    simp only [State.handOver, handleZoneSource, payloadZoneSource, readU8_encU8 hz, readU8_skipU8, readU8_encU8_last hsrc]
    rcases hbad with h | h
    · rw [indexBelow_of_le h]
    · rw [requestableSource_none h]
      cases indexBelow 4 z <;> rfl
  · intro c zn
    have ht := htakes hs z.val (if toBoiler then 2 else 1)
    have hcode : (if toBoiler then 2 else 1 : Nat) < 256 := by cases toBoiler <;> decide
    have hhandle := handleZoneSource_of_operands (s := s.enterExecuting p) p
      (payload := payloadZoneSource z.val (if toBoiler then 2 else 1)) (z := z)
      (source := if toBoiler then .boiler else .recovered)
      (by rw [payloadZoneSource, readU8_encU8 (by omega), indexBelow_val])
      (by rw [payloadZoneSource, readU8_skipU8, readU8_encU8_last hcode, requestableSource_bool])
    have hboiler : ((if toBoiler then Source.boiler else .recovered) == .boiler) = toBoiler := by cases toBoiler <;> rfl
    have hnot : ((if toBoiler then Source.boiler else .recovered) != .boiler) = !toBoiler := by cases toBoiler <;> rfl
    have hfail : (decide ((if toBoiler then Source.boiler else .recovered) = .recovered) && s.pool.loopFail) =
        decide (toBoiler = false ∧ s.pool.loopFail = true) := by cases toBoiler <;> simp
    simp only [enterExecuting_surface, enterExecuting_zone, enterExecuting_pool, hfail, hboiler, hnot] at hhandle
    clear hboiler hnot hfail hcode
    have hexec : c = RequestKind.zoneSource.command p (payloadZoneSource z.val (if toBoiler then 2 else 1)) := rfl
    clear_value c
    generalize (if toBoiler = true then Source.boiler else .recovered) = source at hhandle ⊢
    generalize (if toBoiler = true then 2 else 1 : Nat) = code at hhandle ht hexec
    subst hexec
    by_cases hmode : s.surface.mode = .start
    · rw [if_pos hmode] at hhandle ⊢
      exact ht.refused hhandle
    rw [if_neg hmode] at hhandle ⊢
    by_cases hlock : zn.locked = true
    · rw [if_pos hlock] at hhandle ⊢
      exact ht.refused hhandle
    rw [if_neg hlock] at hhandle ⊢
    by_cases hloop : toBoiler = false ∧ s.pool.loopFail = true
    · rw [if_pos (decide_eq_true hloop)] at hhandle
      rw [if_pos hloop]
      exact ht.refused hhandle
    rw [if_neg (by simpa using hloop)] at hhandle
    rw [if_neg hloop]
    have hexecuting : ∀ {q}, q ≠ p → (s.enterExecuting p).port q = s.port q := fun hq => port_enterExecuting_other s hq
    by_cases hsame : zn.source = source
    · rw [if_pos hsame] at hhandle
      by_cases hsteady : zn.switch = .steady
      · rw [if_pos hsteady] at hhandle
        rw [if_pos ⟨hsame, hsteady⟩]
        exact ht.served (effect := id) hhandle
      · rw [if_neg hsteady] at hhandle
        rw [if_neg fun h => hsteady h.2]
        refine ⟨_, ht _ hhandle, ?_, fun q hq _ hport hsw => ?_, ?_⟩
        · rw [if_pos hsame]
          refine ⟨answers_answer .., zones_eq_put fun y => ?_⟩
          simp only [okay, zone_answer, zone_setZone, zone_supersedeSwitch, enterExecuting_zone]
          rfl
        · rw [port_answer_other _ _ _ hq]
          have h := port_supersedeSwitch (s := s.enterExecuting p) (z := z) (q := q) (by simpa using hport) (by simpa using hsw)
          rw [hexecuting hq, enterExecuting_zone, enterExecuting_deviceSeconds] at h
          exact h
        · exact (zones_setPort s p _).trans ((zones_supersedeSwitch _ z).trans
            (ZonesOnly.trans (zones_setZone _ z _) (zones_setPort _ p _)))
    · rw [if_neg hsame] at hhandle
      rw [if_neg fun h => hsame h.1]
      refine ⟨_, ht _ hhandle, ?_, fun q hq hB hport hsw => ?_, ?_⟩
      · rw [if_neg hsame]
        refine ⟨answers_answer .., zones_eq_put fun y => ?_⟩
        simp only [accepted, zone_answer, zone_startSwitch, zone_setZone, enterExecuting_zone, setZone_boilerProven,
          enterExecuting_boilerProven, if_true]
        by_cases hy : y = z
        · rw [if_pos hy, if_pos hy]
          cases toBoiler <;> cases s.boilerProven <;> simp [Zone.afterProven, zn]
        · rw [if_neg hy, if_neg hy, if_neg hy]
      · rw [port_answer_other _ _ _ hq]
        have hasked : ∀ x : Zone, x.port = zn.port → x.switch = zn.switch →
            (((s.enterExecuting p).setZone z x).startSwitch z toBoiler (some p)).port q = (s.port q).enqueue
              ⟨.switchSuperseded, z.val, match zn.switch with | .provingBoiler _ => 2 | _ => 1, s.deviceSeconds⟩ := by
          intro x hxp hxs
          rw [port_startSwitch_other _ z toBoiler hq hB,
            port_supersedeSwitch (q := q) (by rw [zone_setZone_same, hxp]; exact hport) (by rw [zone_setZone_same, hxs]; exact hsw),
            zone_setZone_same, hxs, setZone_deviceSeconds, enterExecuting_deviceSeconds]
          exact congrArg (PortState.enqueue · _) (hexecuting hq)
        exact hasked _ rfl rfl
      · exact (zones_setPort s p _).trans ((zones_setZone _ z _).trans
          (ZonesOnly.trans (zones_startSwitch _ z _ _) (zones_setPort _ p _)))

end Sys2Proof.Machine
end

