-- ==== Sys2Proof/Proofs/FogAndMonitor.lean ====
section
/-! PROOFS. The fog unit's backup (R52 to R55), the end of the BLIND hold (R49), and the loop monitor's events (R74 to R76). -/

namespace Sys2Proof.Machine

/-! ### The backup -/

theorem acute_iff (f : Fog) : f.acute = true ↔ f.acting = .act ∨ f.acting = .severe := by simp [Fog.acute]

/-- The backup's judgement, as R53 and R55 give it. -/
theorem judgeBackup_eq (f : Fog) (enable loopFail : Bool) :
    f.judgeBackup enable loopFail = f.judged f.acting enable loopFail := by
  have hacute := acute_iff f
  unfold Fog.judgeBackup Fog.judged Fog.setWheel
  by_cases ha : f.acting = .act ∨ f.acting = .severe
  · have hf : f.acute = true := hacute.2 ha
    cases f.backup <;> cases enable <;> simp [ha, hf]
  · have hf : f.acute = false := by simpa [Fog.acute] using ha
    cases f.backup <;> cases enable <;> simp [ha, hf]

/-- The judgement for the acting state ACT. -/
theorem judged_act (f : Fog) (enable loopFail : Bool) :
    let turnsOn := f.backup = false ∧ enable = true ∧ (f.zeroRun = 3 ∨ loopFail = true)
    let turnsOff := f.backup = true ∧ (enable = false ∨ f.adequateRun = 3)
    f.judged .act enable loopFail = { f with
      backup := if turnsOn then true else if turnsOff then false else f.backup
      adequateRun := if turnsOn then 0 else f.adequateRun
      wheel := if turnsOn then true else if turnsOff then decide (0 < f.lastGrant) else f.wheel } := by
  intro turnsOn turnsOff
  unfold Fog.judged
  by_cases hon : turnsOn
  · simp only [turnsOn] at hon
    simp [turnsOn, hon]
  · by_cases hoff : turnsOff
    · simp only [turnsOff] at hoff
      simp [turnsOn, turnsOff, hoff]
    · simp only [turnsOn] at hon
      simp only [turnsOff] at hoff
      simp [turnsOn, turnsOff, hon, hoff]

/-- With the wheel as R55 has it, the judgement leaves it so. -/
theorem judgeBackup_setWheel (f : Fog) (enable loopFail : Bool) :
    let acute := f.acting = .act ∨ f.acting = .severe
    let turnsOn := f.backup = false ∧ enable = true ∧ acute ∧ (f.zeroRun = 3 ∨ loopFail = true)
    let turnsOff := f.backup = true ∧ (enable = false ∨ ¬acute ∨ f.adequateRun = 3)
    let backup := if turnsOn then true else if turnsOff then false else f.backup
    f.setWheel.judgeBackup enable loopFail = { f with
      adequateRun := if turnsOn then 0 else f.adequateRun, backup := backup, wheel := decide (0 < f.lastGrant) || backup } := by
  intro acute turnsOn turnsOff backup
  have hacting : f.setWheel.acting = f.acting := rfl
  rw [judgeBackup_eq, hacting]
  unfold Fog.judged Fog.setWheel
  dsimp only
  by_cases hon : turnsOn
  · rw [if_pos hon]
    simp [backup, hon]
  · rw [if_neg hon]
    by_cases hoff : turnsOff
    · rw [if_pos hoff]
      simp [backup, hon, hoff]
    · rw [if_neg hoff]
      simp [backup, hon, hoff]

/-! ### The fog unit in a round -/

/-- Two states that differ in the pool and the zones alone. -/
def PoolAndZonesOnly (s t : State) : Prop := t = { s with pool := t.pool, zones := t.zones }

theorem poolAndZonesOnly_moves : AllocationMoves PoolAndZonesOnly where
  refl _ := rfl
  trans h k := by unfold PoolAndZonesOnly at *; rw [k, h]
  setZone _ _ _ _ _ := rfl
  pool _ _ _ := rfl

theorem allocate_frame (s : State) : PoolAndZonesOnly s s.allocate := poolAndZonesOnly_moves.allocate s

theorem zones_zoneRoundEnd (s : State) (z : Fin 4) (r : ZoneRound) : ZonesOnly s (s.zoneRoundEnd z r) := by
  unfold State.zoneRoundEnd
  refine ZonesOnly.trans (zones_setZone s z ((s.zone z).counted r)) ?_
  generalize s.setZone z ((s.zone z).counted r) = counted
  dsimp only
  cases (counted.zone z).source
  all_goals dsimp only; split
  case off.isTrue => exact zones_startSwitch ..
  case recovered.isTrue => exact ZonesOnly.trans (zones_setZone ..) (zones_startSwitch ..)
  case boiler.isTrue => exact ZonesOnly.trans (zones_setZone ..) (zones_startSwitch ..)
  all_goals exact ZonesOnly.refl counted

/-- The zones at a round's end. -/
def State.zonesEnded (s : State) (rounds : Fin 4 → ZoneRound) : State := all4.foldl (fun t z => t.zoneRoundEnd z (rounds z)) s

theorem zones_zonesEnded (s : State) (rounds : Fin 4 → ZoneRound) : ZonesOnly s (s.zonesEnded rounds) :=
  zones_foldl _ (fun t z => zones_zoneRoundEnd t z _) all4 s

theorem aimed_eq (s : State) : s.aimed = all8.foldl (fun t v => t.autoTarget v (s.roundTarget v))
    ((s.fogRoundEnd (s.claim desiccant).grant).zonesEnded s.zoneResult) := by
  simp only [State.aimed, State.zonesEnded]

theorem positioners_aimed (s : State) :
    PositionersOnly ((s.fogRoundEnd (s.claim desiccant).grant).zonesEnded s.zoneResult) s.aimed := by
  rw [aimed_eq]
  exact positioners_foldl _ (fun t v => positionersOnly_operations.autoTarget t v _ (roundTarget_le s v)) all8 _

theorem positionersOnly_fog {s t : State} (h : PositionersOnly s t) : t.fog = s.fog := by rw [h]
theorem positionersOnly_pool {s t : State} (h : PositionersOnly s t) : t.pool = s.pool := by rw [h]
theorem zonesOnly_fog {s t : State} (h : ZonesOnly s t) : t.fog = s.fog := by rw [h]
theorem zonesOnly_pool {s t : State} (h : ZonesOnly s t) : t.pool = s.pool := by rw [h]
theorem lightingOnly_fog {s t : State} (h : LightingOnly s t) : t.fog = s.fog := by rw [h]
theorem lightingOnly_pool {s t : State} (h : LightingOnly s t) : t.pool = s.pool := by rw [h]

theorem handOn_fog (s : State) : s.handOn.fog = (s.fogRoundEnd (s.claim desiccant).grant).fog := by
  rw [handOn_eq, lightingOnly_fog (lighting_evaluateRound _ _), positionersOnly_fog (positioners_aimed s),
    zonesOnly_fog (zones_zonesEnded _ _)]

theorem fogRoundEnd_pool (s : State) (grant : Nat) : (s.fogRoundEnd grant).pool = s.pool := rfl

theorem handOn_pool (s : State) : s.handOn.pool = s.pool := by
  rw [handOn_eq, lightingOnly_pool (lighting_evaluateRound _ _), positionersOnly_pool (positioners_aimed s),
    zonesOnly_pool (zones_zonesEnded _ _), fogRoundEnd_pool]

theorem allocationRound_eq {s : State} (h : s.pool.roundTimer ≠ none) : s.allocationRound = s.allocate.handOn := by
  unfold State.allocationRound
  split
  · next hn => exact absurd hn h
  · rfl

/-- A round's runs (R52): zero and adequate rounds are counted, or start again. -/
theorem fogRoundEnd_fog (s : State) (grant : Nat) :
    let zeros := if grant = 0 then min 3 (s.fog.zeroRun + 1) else 0
    let adequate := if grant ≠ 0 ∧ s.building.regenMin ≤ grant then min 3 (s.fog.adequateRun + 1) else 0
    (s.fogRoundEnd grant).fog = ({ s.fog with lastGrant := grant, zeroRun := zeros, adequateRun := adequate } : Fog).setWheel.judgeBackup
      s.building.backupEnable s.pool.loopFail := by
  intro zeros adequate
  unfold State.fogRoundEnd
  dsimp only
  have hruns : (if grant = 0 then { s.fog with lastGrant := grant, zeroRun := countTo 3 s.fog.zeroRun, adequateRun := 0 }
      else if s.building.regenMin ≤ grant then
        { s.fog with lastGrant := grant, zeroRun := 0, adequateRun := countTo 3 s.fog.adequateRun }
      else { s.fog with lastGrant := grant, zeroRun := 0, adequateRun := 0 } : Fog) =
      { s.fog with lastGrant := grant, zeroRun := zeros, adequateRun := adequate } := by
    by_cases hg : grant = 0
    · simp [hg, zeros, adequate, countTo]
    · by_cases hr : s.building.regenMin ≤ grant <;> simp [hg, hr, zeros, adequate, countTo]
  rw [hruns]

theorem loopFail_moves : AllocationMoves (fun s t => t.pool.loopFail = s.pool.loopFail) where
  refl _ := rfl
  trans h k := k.trans h
  setZone _ _ _ _ _ := rfl
  pool _ _ hx := hx

theorem allocate_building (s : State) : s.allocate.building = s.building := by rw [allocate_frame s]
theorem allocate_fog (s : State) : s.allocate.fog = s.fog := by rw [allocate_frame s]

/-- The hold's end leaves the fog unit acting as ACT. -/
theorem acting_blind_ended (f : Fog) (h : f.state = .blind) :
    ({ f with held := none, holdTimer := none } : Fog).acting = .act := by
  unfold Fog.acting
  simp [h]

/-- Settles O18. -/
theorem blindHoldEndActsAsAct : Obligations.BlindHoldEndActsAsAct := by
  refine ⟨fun s hs => congrArg Host.Outcome.next ?_, fun s hs => ⟨s.allocationRound, rfl, ?_⟩⟩
  · unfold State.holdEnd
    have hdue : (∃ n, s.fog.holdTimer = some n ∧ n ≤ 1 ∧ s.surface.mode ≠ .start) ↔
        (s.surface.mode ≠ .start ∧ (s.fog.holdTimer = some 0 ∨ s.fog.holdTimer = some 1)) := by
      constructor
      · rintro ⟨n, hn, hle, hm⟩
        refine ⟨hm, ?_⟩
        rw [hn, Option.some.injEq, Option.some.injEq]
        omega
      · rintro ⟨hm, h | h⟩
        · exact ⟨0, h, by omega, hm⟩
        · exact ⟨1, h, by omega, hm⟩
    by_cases hb : s.surface.mode ≠ .start ∧ (s.fog.holdTimer = some 0 ∨ s.fog.holdTimer = some 1)
    · rw [if_pos hb]
      obtain ⟨n, hn, hcond⟩ := hdue.2 hb
      rw [hn]
      dsimp only
      rw [if_pos hcond]
      unfold State.endBlindHold State.actOnFog
      dsimp only
      rw [acting_blind_ended s.fog hs, judgeBackup_eq]
      have hacting : ∀ (request fans : Nat), ({ s.fog with
          held := none, holdTimer := none, request := request, fanStage := fans } : Fog).acting = .act := fun _ _ =>
        acting_blind_ended s.fog hs
      rw [hacting, judged_act]
      rfl
    · rw [if_neg hb]
      split
      · next n hn => rw [if_neg fun h => hb (hdue.1 ⟨n, hn, h⟩)]
      · rfl
  · intro grant zeros adequate acute turnsOn turnsOff backup
    have hclaim : s.allocationRound.claim desiccant = s.allocate.claim desiccant := by
      rw [allocationRound_eq hs, State.claim, handOn_pool]
      rfl
    have hfog : s.allocationRound.fog = { s.fog with
        lastGrant := grant, zeroRun := zeros, adequateRun := if turnsOn then 0 else adequate, backup := backup
        wheel := decide (0 < grant) || backup } := by
      rw [allocationRound_eq hs, handOn_fog, fogRoundEnd_fog, judgeBackup_setWheel, allocate_fog, allocate_building,
        loopFail_moves.allocate s, ← hclaim]
      rfl
    refine ⟨hfog, ?_, ?_⟩
    · rw [State.eregen, hfog]
    · rw [State.wheelOut, hfog]

end Sys2Proof.Machine
end

