-- ==== Sys2Proof/Proofs/LoopMonitor.lean ====
section
/-! PROOFS. LOOP_FAIL sets and clears (R74 to R76), with the zones' fail-over (R94). -/

namespace Sys2Proof.Machine

/-! ### The fail-over's records -/

/-- The records of one zone's fail-over at a port: SOURCE_FAIL, and SOURCE_SWITCHED when the boiler is proven. -/
def failOverRecords (proven : Bool) (seconds : BitVec 32) (p : Port) (z : Fin 4) (zn : Zone) : List Record :=
  (if zn.failsOver = true ∧ (p = .portB ∨ zn.port = some p) then [⟨.sourceFail, z.val, zn.source.code, seconds⟩] else []) ++
  (if zn.failsOver = true ∧ proven = true ∧ (p = .portB ∨ (zn.provesBoiler = true ∧ zn.port = some p)) then
    [⟨.sourceSwitched, z.val, 2, seconds⟩] else [])

theorem posts_readProven_any (s : State) (z : Fin 4) (p : Port) : s.posts (s.readProven z) p
    (if s.boilerProven = true then switchedRecords s.deviceSeconds p z (s.zone z) else []) := by
  by_cases hb : s.boilerProven = true
  · rw [if_pos hb]
    exact posts_readProven hb z p
  · rw [if_neg hb]
    have hsame : s.readProven z = s := by
      unfold State.readProven
      split
      · rw [if_neg hb]
      · rfl
    rw [hsame]
    exact posts_refl s p

@[simp] theorem postZone_deviceSeconds (s : State) (q : Option Port) (k : RecordKind) (z : Fin 4) (x : Source) :
    (s.postZone q k z x).deviceSeconds = s.deviceSeconds := by rw [zones_postZone]

theorem posts_failOverZone (s : State) (z : Fin 4) (p : Port) :
    s.posts (s.failOverZone z) p (failOverRecords s.boilerProven s.deviceSeconds p z (s.zone z)) := by
  unfold State.failOverZone failOverRecords
  by_cases hf : (s.zone z).failsOver = true
  · dsimp only
    rw [if_pos hf]
    generalize hoff : ({ s.zone z with source := .off, fallback := true, starved := 0, surplus := 0, switch := _, port := _ } : Zone) = off
    have hfail := posts_postZone (s.setZone z off) (s.zone z).port .sourceFail z (s.zone z).source p
    have hread := posts_readProven_any ((s.setZone z off).postZone (s.zone z).port .sourceFail z (s.zone z).source) z p
    have hboth := posts_trans (posts_after (s := s) rfl hfail) hread
    have hproves : off.provesBoiler = true := by
      rw [← hoff]
      unfold Zone.provesBoiler
      cases (s.zone z).switch <;> rfl
    have hport : off.port = if (s.zone z).provesBoiler then (s.zone z).port else none := by
      rw [← hoff]
      unfold Zone.provesBoiler
      cases (s.zone z).switch <;> rfl
    have hrecords : (if ((s.setZone z off).postZone (s.zone z).port .sourceFail z (s.zone z).source).boilerProven = true then
        switchedRecords ((s.setZone z off).postZone (s.zone z).port .sourceFail z (s.zone z).source).deviceSeconds p z
          (((s.setZone z off).postZone (s.zone z).port .sourceFail z (s.zone z).source).zone z) else []) =
        if (s.zone z).failsOver = true ∧ s.boilerProven = true ∧
          (p = .portB ∨ ((s.zone z).provesBoiler = true ∧ (s.zone z).port = some p)) then
          [⟨.sourceSwitched, z.val, 2, s.deviceSeconds⟩] else [] := by
      simp only [boilerProven_postZone, setZone_boilerProven, postZone_deviceSeconds, setZone_deviceSeconds, zone_postZone,
        zone_setZone_same, switchedRecords, hproves, hport, hf, true_and, Bool.true_and, Bool.or_eq_true, beq_iff_eq]
      by_cases hb : s.boilerProven = true <;> by_cases hpb : (s.zone z).provesBoiler = true <;> simp [hb, hpb]
    rw [hrecords] at hboth
    simpa only [hf, true_and, setZone_deviceSeconds] using hboth
  · dsimp only
    rw [if_neg hf]
    simpa [hf] using posts_refl s p

theorem zonesOnly_boilerProven {s t : State} (h : ZonesOnly s t) : t.boilerProven = s.boilerProven := by rw [h]
theorem zonesOnly_deviceSeconds {s t : State} (h : ZonesOnly s t) : t.deviceSeconds = s.deviceSeconds := by rw [h]

theorem zones_failOverZone (s : State) (z : Fin 4) : ZonesOnly s (s.failOverZone z) := by
  unfold State.failOverZone
  dsimp only
  split
  · exact ZonesOnly.trans (ZonesOnly.trans (zones_setZone ..) (zones_postZone ..)) (zones_readProven ..)
  · exact ZonesOnly.refl s

theorem posts_failOver (s : State) (p : Port) : s.posts s.failOver p
    (all4.flatMap fun z => failOverRecords s.boilerProven s.deviceSeconds p z (s.zone z)) :=
  posts_foldl (p := p) State.failOverZone State.zone (failOverRecords s.boilerProven s.deviceSeconds p)
    (fun t => t.boilerProven = s.boilerProven ∧ t.deviceSeconds = s.deviceSeconds)
    (fun t x y hne => by rw [zone_failOverZone, if_neg hne])
    (fun t x ht => ⟨(failOverZone_boilerProven t x).trans ht.1, (by rw [zones_failOverZone]; exact ht.2)⟩)
    (fun t x ht => by rw [← ht.1, ← ht.2]; exact posts_failOverZone t x p)
    all4 nodup_all4 s ⟨rfl, rfl⟩

/-! ### LOOP_FAIL sets -/

/-- The code of a cause in LOOP_FAIL's record. -/
def LoopCause.code : LoopCause → Nat
  | .unusable => 0
  | .low => 1

/-- The flag is set, and the runs are cleared (log entry 13). -/
def State.loopFailSet (s : State) : State :=
  { s with pool := { s.pool with loopFail := true, restoreRun := 0, unusableRun := 0, lowRun := 0 } }

theorem setLoopFail_eq (s : State) (cause : LoopCause) : s.setLoopFail cause =
    ((s.loopFailSet.postAll [.portP, .portB] .loopFail cause.code s.loopSupply).failOver).judgeFogBackup := by
  cases cause <;> rfl

theorem zones_postAll (s : State) (ps : List Port) (k : RecordKind) (o : Nat) (v : Int) : ZonesOnly s (s.postAll ps k o v) :=
  zones_foldl _ (fun t p => zones_post t p k o v) ps s

@[simp] theorem zone_postAll (s : State) (ps : List Port) (k : RecordKind) (o : Nat) (v : Int) (z : Fin 4) :
    (s.postAll ps k o v).zone z = s.zone z :=
  foldl_related (R := fun s t => t.zone z = s.zone z) (fun _ => rfl) (fun h k => k.trans h) _ (fun _ _ => by simp) ps s

/-- The backup judged at the end of a change of zones and ports alone. -/
theorem judgeFogBackup_of_zonesOnly {s t : State} (h : ZonesOnly s t) : t.judgeFogBackup = { s with
    zones := t.judgeFogBackup.zones, fog := s.fog.judged s.fog.acting s.building.backupEnable s.pool.loopFail
    ports := t.judgeFogBackup.ports } := by
  have hb : t.judgeFogBackup = { t with fog := t.fog.judged t.fog.acting t.building.backupEnable t.pool.loopFail } := by
    rw [State.judgeFogBackup, judgeBackup_eq]
  have hz : t.judgeFogBackup.zones = t.zones := rfl
  have hp : t.judgeFogBackup.ports = t.ports := rfl
  rw [hz, hp, hb]
  unfold ZonesOnly at h
  rw [h]

/-- What LOOP_FAIL's setting leaves, block by block. -/
theorem setLoopFail_frame (s : State) (cause : LoopCause) : s.setLoopFail cause = { s with
    pool := { s.pool with loopFail := true, restoreRun := 0, unusableRun := 0, lowRun := 0 }
    zones := (s.setLoopFail cause).zones
    fog := s.fog.judged s.fog.acting s.building.backupEnable true
    ports := (s.setLoopFail cause).ports } := by
  rw [setLoopFail_eq]
  exact judgeFogBackup_of_zonesOnly ((zones_postAll s.loopFailSet _ _ _ _).trans (zones_failOver _))

theorem judgeFogBackup_ports (s : State) : s.judgeFogBackup.ports = s.ports := rfl

theorem posts_setLoopFail (s : State) (cause : LoopCause) (p : Port) : s.posts (s.setLoopFail cause) p
    ((if p ≠ .portL then [⟨.loopFail, cause.code, s.loopSupply, s.deviceSeconds⟩] else []) ++
      all4.flatMap fun z => failOverRecords s.boilerProven s.deviceSeconds p z (s.zone z)) := by
  have hpost := posts_postAll [.portP, .portB] (by decide) s.loopFailSet .loopFail cause.code s.loopSupply p
  have hzones := zones_postAll s.loopFailSet [.portP, .portB] .loopFail cause.code s.loopSupply
  have hzone : ∀ z, (s.loopFailSet.postAll [.portP, .portB] .loopFail cause.code s.loopSupply).zone z = s.zone z := fun z => by
    rw [zone_postAll]
    rfl
  rw [setLoopFail_eq]
  generalize s.loopFailSet.postAll [.portP, .portB] .loopFail cause.code s.loopSupply = told at hpost hzones hzone
  have hover := posts_failOver told p
  have hproven : told.boilerProven = s.boilerProven := (zonesOnly_boilerProven hzones).trans rfl
  have hseconds : told.deviceSeconds = s.deviceSeconds := (zonesOnly_deviceSeconds hzones).trans rfl
  simp only [hproven, hseconds, hzone] at hover
  have hL : (p ∈ [Port.portP, .portB]) ↔ p ≠ .portL := by cases p <;> decide
  have hset : s.loopFailSet.deviceSeconds = s.deviceSeconds := rfl
  simp only [hL, hset] at hpost
  have htold := posts_after (s := s) (t := s.loopFailSet) rfl hpost
  exact posts_then (posts_trans htold hover) (judgeFogBackup_ports _)

/-- Counting the runs does not show after LOOP_FAIL sets. -/
theorem setLoopFail_runs (s : State) (a b : Nat) (cause : LoopCause) :
    ({ s with pool := { s.pool with unusableRun := a, lowRun := b } } : State).setLoopFail cause = s.setLoopFail cause := rfl

theorem clearLoopFail_runs (s : State) (a : Nat) :
    ({ s with pool := { s.pool with restoreRun := a } } : State).clearLoopFail = s.clearLoopFail := rfl

/-- The flag is clear, and the restore run too (log entry 13). -/
def State.loopFailCleared (s : State) : State := { s with pool := { s.pool with loopFail := false, restoreRun := 0 } }

theorem clearLoopFail_eq (s : State) : s.clearLoopFail =
    (s.loopFailCleared.postAll [.portP, .portB] .loopRestored 0 s.loopSupply).judgeFogBackup := rfl

/-- What LOOP_RESTORED leaves. -/
theorem clearLoopFail_frame (s : State) : s.clearLoopFail = { s with
    pool := { s.pool with loopFail := false, restoreRun := 0 }
    fog := s.fog.judged s.fog.acting s.building.backupEnable false
    ports := s.clearLoopFail.ports } := by
  have h := judgeFogBackup_of_zonesOnly
    (zones_postAll s.loopFailCleared [.portP, .portB] .loopRestored 0 s.loopSupply)
  have hz : (s.loopFailCleared.postAll [.portP, .portB] .loopRestored 0 s.loopSupply).judgeFogBackup.zones = s.zones :=
    foldl_related (R := fun s t => t.zones = s.zones) (fun _ => rfl) (fun h k => k.trans h) _ (fun _ _ => by simp) _ _
  rw [hz, ← clearLoopFail_eq] at h
  exact h

theorem posts_clearLoopFail (s : State) (p : Port) : s.posts s.clearLoopFail p
    (if p = .portL then [] else [⟨.loopRestored, 0, s.loopSupply, s.deviceSeconds⟩]) := by
  have hpost := posts_postAll [.portP, .portB] (by decide) s.loopFailCleared .loopRestored 0 s.loopSupply p
  have hL : (if p ∈ [Port.portP, .portB] then
        [(⟨.loopRestored, 0, s.loopSupply, s.loopFailCleared.deviceSeconds⟩ : Record)] else []) =
      if p = .portL then [] else [⟨.loopRestored, 0, s.loopSupply, s.deviceSeconds⟩] := by cases p <;> rfl
  rw [hL] at hpost
  exact posts_then (posts_after (s := s) rfl hpost) rfl

/-! ### The next count -/

/-- The cause for which the next count sets LOOP_FAIL, if it does (R74, R75). -/
def State.failsNext (s : State) : Option LoopCause :=
  if s.pool.loopFail then none
  else match s.published probeW0 with
    | none => if s.pool.unusableRun = 9 then some .unusable else none
    | some w => if w < s.building.loopFailThreshold ∧ s.pool.lowRun = 9 then some .low else none

/-- The next count clears LOOP_FAIL (R76). -/
def State.restoresNext (s : State) : Bool :=
  s.pool.loopFail && match s.published probeW0 with
    | none => false
    | some w => decide (s.building.loopFailThreshold + 30 ≤ w) && decide (s.pool.restoreRun = 29)

/-- The monitor's runs are below their limits. -/
structure State.RunsBelow (s : State) : Prop where
  unusable : s.pool.unusableRun < 10
  low      : s.pool.lowRun < 10
  restore  : s.pool.restoreRun < 30

theorem failureDue_counted {s : State} (h : s.RunsBelow) (hl : s.pool.loopFail = false) :
    s.countMonitor.pool.failureDue = s.failsNext := by
  obtain ⟨hu, hlow, -⟩ := h
  unfold State.countMonitor State.countLoopRuns State.failsNext Pool.failureDue
  cases hw : s.published probeW0 with
  | none =>
    by_cases h9 : s.pool.unusableRun = 9
    · simp [hl, h9, countTo]
    · have hne : min 10 (s.pool.unusableRun + 1) ≠ 10 := by omega
      simp [hl, h9, countTo, hne]
  | some w =>
    by_cases hb : w < s.building.loopFailThreshold
    · by_cases h9 : s.pool.lowRun = 9
      · simp [hl, hb, h9, countTo]
      · have hne : min 10 (s.pool.lowRun + 1) ≠ 10 := by omega
        simp [hl, hb, h9, countTo, hne]
    · simp [hl, hb]

theorem countMonitor_clear {s : State} (hl : s.pool.loopFail = false) :
    ∃ a b, s.countMonitor = { s with pool := { s.pool with unusableRun := a, lowRun := b } } := by
  unfold State.countMonitor State.countLoopRuns
  rw [hl]
  cases s.published probeW0 with
  | none => exact ⟨_, _, rfl⟩
  | some w => exact ⟨_, _, rfl⟩

theorem countMonitor_set {s : State} (hl : s.pool.loopFail = true) :
    ∃ a, s.countMonitor = { s with pool := { s.pool with restoreRun := a } } := by
  unfold State.countMonitor State.countRestoreRun
  rw [hl]
  exact ⟨_, rfl⟩

theorem restoreRun_counted {s : State} (h : s.RunsBelow) (hl : s.pool.loopFail = true) :
    s.countMonitor.pool.restoreRun = 30 ↔ s.restoresNext = true := by
  have hr := h.restore
  unfold State.countMonitor State.countRestoreRun State.restoresNext
  cases hw : s.published probeW0 with
  | none => simp [hl]
  | some w =>
    by_cases hb : s.building.loopFailThreshold + 30 ≤ w
    · simp only [hl, hb, if_true, countTo, decide_true, Bool.true_and, decide_eq_true_eq]
      omega
    · simp [hl, hb]

/-- The event LOOP_FAIL, and LOOP_RESTORED, by what the next count brings. -/
theorem monitorEvent_eq {s : State} (hm : s.surface.mode ≠ .start) (h : s.RunsBelow) :
    s.monitorEvent true = (match s.failsNext with | some cause => s.setLoopFail cause | none => s) ∧
    s.monitorEvent false = if s.restoresNext = true then s.clearLoopFail else s := by
  obtain ⟨hu, hlow, hr⟩ := h
  have hnow : s.pool.failureDue = none := by
    unfold Pool.failureDue
    rw [if_neg (by omega), if_neg (by omega)]
  have hbelow : s.RunsBelow := ⟨hu, hlow, hr⟩
  cases hl : s.pool.loopFail with
  | false =>
    obtain ⟨a, b, hcount⟩ := countMonitor_clear hl
    have hdue := failureDue_counted hbelow hl
    have hrest : s.restoresNext = false := by simp [State.restoresNext, hl]
    constructor
    · unfold State.monitorEvent State.monitorDue
      rw [hdue, hnow]
      have hflag : s.countMonitor.pool.loopFail = false := by rw [hcount]; exact hl
      have hmode : s.countMonitor.surface.mode ≠ .start := by rw [hcount]; exact hm
      cases hf : s.failsNext with
      | none => simp [hl]
      | some cause =>
        have hsettle : s.countMonitor.settleMonitor = s.setLoopFail cause := by
          unfold State.settleMonitor
          rw [hflag, hdue, hf, hcount]
          exact setLoopFail_runs s a b cause
        simp [hl, hflag, hmode, hsettle]
    · unfold State.monitorEvent State.monitorDue
      have hflag : s.countMonitor.pool.loopFail = false := by rw [hcount]; exact hl
      simp [hl, hflag, hrest]
  | true =>
    obtain ⟨a, hcount⟩ := countMonitor_set hl
    have hdue := restoreRun_counted hbelow hl
    have hfails : s.failsNext = none := by simp [State.failsNext, hl]
    have hflag : s.countMonitor.pool.loopFail = true := by rw [hcount]; exact hl
    have hmode : s.countMonitor.surface.mode ≠ .start := by rw [hcount]; exact hm
    constructor
    · unfold State.monitorEvent State.monitorDue
      simp [hl, hflag, hfails]
    · unfold State.monitorEvent State.monitorDue
      have hnot : ¬s.pool.restoreRun = 30 := by omega
      by_cases hres : s.restoresNext = true
      · have hsettle : s.countMonitor.settleMonitor = s.clearLoopFail := by
          unfold State.settleMonitor
          rw [hflag, if_pos rfl, if_pos (hdue.2 hres), hcount]
          exact clearLoopFail_runs s a
        simp [hl, hflag, hmode, hsettle, hres, hdue.2 hres, hnot]
      · have hne : ¬s.countMonitor.pool.restoreRun = 30 := fun h => hres (hdue.1 h)
        simp [hl, hflag, hres, hne, hnot]

/-- Settles O19. -/
theorem loopMonitorSetsAndClearsLoopFail : Obligations.LoopMonitorSetsAndClearsLoopFail := by
  intro s hmode hunusable hlow hrestore supply shown failing restoring
  obtain ⟨hfail, hrest⟩ := monitorEvent_eq hmode ⟨hunusable, hlow, hrestore⟩
  have hexec : exec .loopFail s = .next (s.monitorEvent true) := rfl
  have hexec' : exec .loopRestored s = .next (s.monitorEvent false) := rfl
  rw [hexec, hexec', hfail, hrest]
  constructor
  · have hcause : failing = true ↔ ∃ cause, s.failsNext = some cause := by
      simp only [failing, supply]
      unfold State.failsNext
      rcases hw : s.published probeW0 with _ | w <;> cases s.pool.loopFail <;> simp [ite_eq_iff]
    have hcode : ∀ cause, s.failsNext = some cause → cause.code = if supply = none then 0 else 1 := by
      intro cause hc
      unfold State.failsNext at hc
      by_cases hw : supply = none
      · rw [if_pos hw]
        have hw : s.published probeW0 = none := hw
        rw [hw] at hc
        split at hc <;> simp [ite_eq_iff] at hc
        rw [← hc.2]
        rfl
      · rw [if_neg hw]
        obtain ⟨w, hw⟩ : ∃ w, s.published probeW0 = some w := Option.ne_none_iff_exists'.1 hw
        rw [hw] at hc
        split at hc <;> simp [ite_eq_iff] at hc
        rw [← hc.2]
        rfl
    by_cases hf : failing = true
    · rw [if_pos hf]
      obtain ⟨cause, hc⟩ := hcause.1 hf
      rw [hc]
      dsimp only
      have hframe := setLoopFail_frame s cause
      have hposts := posts_setLoopFail s cause
      rw [hcode cause hc] at hposts
      refine ⟨_, rfl, (congrArg State.pool hframe :), setLoopFail_zone s cause, (congrArg State.fog hframe :), fun p hp hq => ?_,
        fun p => tells_of_posts (hposts p), ?_⟩
      · have h := hposts p
        rw [if_pos hp] at h
        rw [h, List.singleton_append, List.foldl_cons]
        refine head_foldl_enqueue rfl _ ?_
        rw [enqueue_of_room (by rw [hq]; decide), hq]
        rfl
      · rw [hframe]
    · rw [if_neg hf]
      have hnone : s.failsNext = none := by
        cases hn : s.failsNext with
        | none => rfl
        | some cause => exact absurd (hcause.2 ⟨cause, hn⟩) hf
      rw [hnone]
  · have hsame : s.restoresNext = restoring := rfl
    rw [hsame]
    split
    · have hframe := clearLoopFail_frame s
      refine ⟨_, rfl, (congrArg State.pool hframe :), fun p => ?_, ?_⟩
      · refine (posts_clearLoopFail s p).trans ?_
        split <;> rfl
      · rw [hframe]
    · rfl

end Sys2Proof.Machine
end

