-- ==== Sys2Proof/Proofs/ProfilesAndCues.lean ====
section
/-! PROOFS. The records that LOAD_PROFILE and CUE_WRITE carry read back as they are written (R178, Table 11-6). -/

namespace Sys2Proof.Machine

/-! ### Ranges -/

theorem clampNat_eq_self {lo hi x : Nat} (h : clampNat lo hi x = x) : x ≤ hi := by
  unfold clampNat at h
  omega

theorem clampInt_eq_self {lo hi x : Int} (hlh : lo ≤ hi) (h : clampInt lo hi x = x) : lo ≤ x ∧ x ≤ hi := by
  unfold clampInt at h
  omega

theorem readU8_clamped {lo hi x : Nat} (h : clampNat lo hi x = x) (hhi : hi < 256) (bs : List Byte) :
    readU8 (encU8 x ++ bs) 0 = x := readU8_encU8 (lt_of_le_of_lt (clampNat_eq_self h) hhi) bs
theorem readU8_clamped_last {lo hi x : Nat} (h : clampNat lo hi x = x) (hhi : hi < 256) :
    readU8 (encU8 x) 0 = x := readU8_encU8_last (lt_of_le_of_lt (clampNat_eq_self h) hhi)
theorem readU16_clamped {lo hi x : Nat} (h : clampNat lo hi x = x) (hhi : hi < 65536) (bs : List Byte) :
    readU16 (encU16 x ++ bs) 0 = x := readU16_encU16 (lt_of_le_of_lt (clampNat_eq_self h) hhi) bs
theorem readS16_clamped {lo hi x : Int} (h : clampInt lo hi x = x) (hlo : -32768 ≤ lo) (hlh : lo ≤ hi) (hhi : hi < 32768)
    (bs : List Byte) : readS16 (encS16 x ++ bs) 0 = x :=
  have ⟨hl, hh⟩ := clampInt_eq_self hlh h
  readS16_encS16 (by omega) (by omega) bs
theorem readS16_clamped_last {lo hi x : Int} (h : clampInt lo hi x = x) (hlo : -32768 ≤ lo) (hlh : lo ≤ hi) (hhi : hi < 32768) :
    readS16 (encS16 x) 0 = x := by simpa using readS16_clamped h hlo hlh hhi []

/-! ### The plant profile -/

theorem readPlant_payload {q : PlantProfile} (h : q.clamped = q) : readPlant q.payload = q := by
  obtain ⟨bandLow, bandHigh, softThreshold, resurfaceMax, marginHold, marginPrep, marginPlay, marginResurf, marginCovered,
    softDerate, cover, spillShare, subsoilSet, subsoilKW, resurfKW, dischargeLimit, tankUsable, tankKW, step0, step1, step3⟩ := q
  simp only [PlantProfile.clamped, PlantProfile.mk.injEq] at h
  obtain ⟨h1, h2, h3, h4, h5, h6, h7, h8, h9, h10, h11, h12, h13, h14, h15, h16, h17, h18, h19, h20, h21⟩ := h
  simp [readPlant, PlantProfile.payload, readS16_clamped h1, readS16_clamped h2, readS16_clamped h3, readU8_clamped h4,
    readU16_clamped h5, readU16_clamped h6, readU16_clamped h7, readU16_clamped h8, readU16_clamped h9, readU16_clamped h10,
    readU16_clamped h11, readU16_clamped h12, readS16_clamped h13, readU16_clamped h14, readU16_clamped h15,
    readU16_clamped h16, readS16_clamped h17, readU16_clamped h18, readU8_clamped h19, readU8_clamped h20,
    readU8_clamped_last h21]

/-! ### The building profile -/

theorem readZoneProfile_bytes {q : ZoneProfile} (h : q.clamped = q) (bs : List Byte) :
    readZoneProfile (q.bytes ++ bs) 0 = q := by
  obtain ⟨gain, max, min, spill, minSupply⟩ := q
  simp only [ZoneProfile.clamped, ZoneProfile.mk.injEq] at h
  obtain ⟨h1, h2, h3, h4, h5⟩ := h
  simp [readZoneProfile, ZoneProfile.bytes, readU8_clamped h1, readU16_clamped h2, readU16_clamped h3, readU16_clamped h4,
    readS16_clamped h5]

theorem length_zoneBytes (q : ZoneProfile) : q.bytes.length = 9 := rfl

theorem readZoneProfile_bytes_last {q : ZoneProfile} (h : q.clamped = q) : readZoneProfile q.bytes 0 = q := by
  simpa using readZoneProfile_bytes h []

/-- A zone's nine bytes, and the fields before the zones, only move what follows. -/
theorem readZoneProfile_skipZone (q : ZoneProfile) (bs : List Byte) (k : Nat) :
    readZoneProfile (q.bytes ++ bs) (k + 9) = readZoneProfile bs k := rfl
theorem readZoneProfile_skipU8 (n : Nat) (bs : List Byte) (k : Nat) :
    readZoneProfile (encU8 n ++ bs) (k + 1) = readZoneProfile bs k := rfl
theorem readZoneProfile_skipU16 (n : Nat) (bs : List Byte) (k : Nat) :
    readZoneProfile (encU16 n ++ bs) (k + 2) = readZoneProfile bs k := rfl
theorem readZoneProfile_skipS16 (i : Int) (bs : List Byte) (k : Nat) :
    readZoneProfile (encS16 i ++ bs) (k + 2) = readZoneProfile bs k := rfl

theorem vector4_eq {α : Type} (v : Vector α 4) : #v[pick v 0, pick v 1, pick v 2, pick v 3] = v := by
  refine Vector.ext fun i hi => ?_
  obtain rfl | rfl | rfl | rfl : i = 0 ∨ i = 1 ∨ i = 2 ∨ i = 3 := by omega
  all_goals rfl

theorem readU8_bool (b : Bool) (bs : List Byte) : (readU8 (encU8 (if b then 1 else 0) ++ bs) 0 != 0) = b := by
  cases b <;> rfl

theorem readBuilding_payload {q : BuildingProfile} (h : q.clamped = q) : readBuilding q.payload = q := by
  obtain ⟨watchIn, actIn, severeIn, hys, resurfBias, regenMin, regenWatch, regenAct, regenMax, backupEnable, loopFailThreshold,
    step2, step4, step5, step6, step7, zones⟩ := q
  simp only [BuildingProfile.clamped, BuildingProfile.mk.injEq] at h
  obtain ⟨h1, h2, h3, h4, h5, h6, h7, h8, h9, -, h11, h12, h13, h14, h15, h16, hz⟩ := h
  have hzone : ∀ z : Fin 4, (pick zones z).clamped = pick zones z := fun z => by
    have hp := congrArg (fun v => pick v z) hz
    simpa using hp
  simp [readBuilding, BuildingProfile.payload, readU8_clamped h1, readU8_clamped h2, readU8_clamped h3, readU8_clamped h4,
    readU8_clamped h5, readU16_clamped h6, readU16_clamped h7, readU16_clamped h8, readU16_clamped h9, readS16_clamped h11,
    readU8_clamped h12, readU8_clamped h13, readU8_clamped h14, readU8_clamped h15, readU8_clamped h16,
    readZoneProfile_skipZone, readZoneProfile_skipU8, readZoneProfile_skipU16, readZoneProfile_skipS16,
    readZoneProfile_bytes (hzone 0), readZoneProfile_bytes (hzone 1), readZoneProfile_bytes (hzone 2),
    readZoneProfile_bytes_last (hzone 3), vector4_eq]
  exact readU8_bool backupEnable _

/-- Settles O13. -/
theorem profileRecordsReadBack : Obligations.ProfileRecordsReadBack :=
  ⟨fun _ h => ⟨rfl, rfl, readPlant_payload h⟩, fun _ h => ⟨rfl, rfl, readBuilding_payload h⟩⟩

/-! ### CUE_WRITE -/

theorem cueClass_ofCode (c : CueClass) : CueClass.ofCode c.code = some c := by cases c <;> rfl
theorem trimPolicy_ofCode (c : TrimPolicy) : TrimPolicy.ofCode c.code = some c := by cases c <;> rfl
theorem sweepOrder_ofCode (c : SweepOrder) : SweepOrder.ofCode c.code = some c := by cases c <;> rfl
theorem sweepLength_ofCode (c : SweepLength) : SweepLength.ofCode c.code = some c := by cases c <;> rfl

theorem cueClass_code_lt (c : CueClass) : c.code < 256 := by cases c <;> decide
theorem trimPolicy_code_lt (c : TrimPolicy) : c.code < 256 := by cases c <;> decide
theorem sweepOrder_code_lt (c : SweepOrder) : c.code < 256 := by cases c <;> decide
theorem sweepLength_code_lt (c : SweepLength) : c.code < 256 := by cases c <;> decide

theorem length_pairBytes (ps : List Pair) : (pairBytes ps).length = 2 * ps.length := by
  induction ps with
  | nil => rfl
  | cons q ps ih =>
    have h : pairBytes (q :: ps) = encU8 q.channel.val ++ encU8 q.level ++ pairBytes ps := rfl
    rw [h, List.length_append, ih]
    simp
    omega

theorem length_sweepBytes (w : Option Sweep) : (sweepBytes w).length = 5 := by cases w <;> rfl

/-- The pairs read back from where they begin. -/
theorem readPairs_pairBytes (ps : List Pair) (hps : ∀ q ∈ ps, q.level < 256) (pre : List Byte) :
    readPairs (pre ++ pairBytes ps) pre.length ps.length = some ps := by
  induction ps generalizing pre with
  | nil => rfl
  | cons q ps ih =>
    have hbytes : pre ++ pairBytes (q :: ps) = pre ++ (encU8 q.channel.val ++ (encU8 q.level ++ pairBytes ps)) := rfl
    have hchannel : readU8 (pre ++ pairBytes (q :: ps)) pre.length = q.channel.val := by
      rw [hbytes]
      have h := readU8_append pre (encU8 q.channel.val ++ (encU8 q.level ++ pairBytes ps)) 0
      rw [Nat.add_zero] at h
      rw [h, readU8_encU8 (by omega)]
    have hlevel : readU8 (pre ++ pairBytes (q :: ps)) (pre.length + 1) = q.level := by
      rw [hbytes, readU8_append]
      exact readU8_encU8 (n := q.level) (hps q (by simp)) (pairBytes ps)
    have hrest := ih (fun x hx => hps x (by simp [hx])) (pre ++ (encU8 q.channel.val ++ encU8 q.level))
    have happ : pre ++ (encU8 q.channel.val ++ encU8 q.level) ++ pairBytes ps = pre ++ pairBytes (q :: ps) := by
      rw [hbytes, List.append_assoc, List.append_assoc]
    have hlen : (pre ++ (encU8 q.channel.val ++ encU8 q.level)).length = pre.length + 2 := by simp
    rw [happ, hlen] at hrest
    simp only [List.length_cons, readPairs, hchannel, hlevel, hrest, indexBelow_val]
    rfl

/-- The bytes of a sweep read back, with ten bytes before them. -/
theorem readSweep_bytes (sweep : Option Sweep) (hs : ∀ x, sweep = some x → x.group < 12 ∧ x.startAt < 8 ∧ x.memberStep ≤ 100)
    (pre bs : List Byte) (hpre : pre.length = 10) : readSweep (pre ++ (sweepBytes sweep ++ bs)) = some sweep := by
  have hread : ∀ k, readU8 (pre ++ (sweepBytes sweep ++ bs)) (10 + k) = readU8 (sweepBytes sweep ++ bs) k := fun k => by
    rw [← hpre, readU8_append]
  have h0 := hread 0
  have h1 := hread 1
  have h2 := hread 2
  have h3 := hread 3
  have h4 := hread 4
  simp only [Nat.reduceAdd] at h0 h1 h2 h3 h4
  cases sweep with
  | none =>
    unfold readSweep
    rw [h0]
    rfl
  | some x =>
    obtain ⟨hgroup, hstart, hstep⟩ := hs x rfl
    have hb : sweepBytes (some x) ++ bs = encU8 x.group ++ (encU8 x.order.code ++ (encU8 x.length.code ++
        (encU8 x.startAt ++ (encU8 x.memberStep ++ bs)))) := rfl
    rw [hb] at h0 h1 h2 h3 h4
    simp (disch := omega) only [readU8_skipU8, readU8_encU8, readU8_encU8 (sweepOrder_code_lt _),
      readU8_encU8 (sweepLength_code_lt _)] at h0 h1 h2 h3 h4
    unfold readSweep
    simp only [hb, h0, h1, h2, h3, h4, sweepOrder_ofCode, sweepLength_ofCode, clampNat_zero]
    rw [if_neg (by omega), if_neg (by omega)]
    simp only [Option.bind_eq_bind, Option.bind_some]
    rw [if_neg (by omega), Nat.min_eq_right hstep]
    rfl

/-- Settles O37. -/
theorem cueWriteReadsBack : Obligations.CueWriteReadsBack := by
  intro w hcue hfade hdelay hhold hsweep hseg hcount hpos hlen hlevels
  obtain ⟨cue, ⟨cls, fadeTime, delay, holdTime, policy, sweep, segCount⟩, segment, pairs⟩ := w
  dsimp only at *
  have hcue' : cue < 65536 := by simp [validCue] at hcue; omega
  constructor
  · simp only [CueWrite.payload, List.length_append, length_encU8, length_encU16, length_sweepBytes, length_pairBytes]
    omega
  · generalize hp : CueWrite.payload ⟨cue, ⟨cls, fadeTime, delay, holdTime, policy, sweep, segCount⟩, segment, pairs⟩ = payload
    have hshape : payload = encU16 cue ++ (encU8 cls.code ++ (encU16 fadeTime ++ (encU16 delay ++ (encU16 holdTime ++
        (encU8 policy.code ++ (sweepBytes sweep ++ (encU8 segCount ++ (encU8 segment.val ++ (encU8 pairs.length ++
          pairBytes pairs))))))))) := hp.symm
    have hsweepRead : readSweep payload = some sweep := by
      have h := readSweep_bytes sweep hsweep (encU16 cue ++ (encU8 cls.code ++ (encU16 fadeTime ++ (encU16 delay ++
        (encU16 holdTime ++ encU8 policy.code))))) (encU8 segCount ++ (encU8 segment.val ++ (encU8 pairs.length ++ pairBytes pairs)))
        rfl
      simpa only [hshape, List.append_assoc] using h
    have hpairsRead : readPairs payload 18 pairs.length = some pairs := by
      have h := readPairs_pairBytes pairs hlevels (encU16 cue ++ (encU8 cls.code ++ (encU16 fadeTime ++ (encU16 delay ++
        (encU16 holdTime ++ (encU8 policy.code ++ (sweepBytes sweep ++ (encU8 segCount ++ (encU8 segment.val ++
          encU8 pairs.length)))))))))
      simpa only [hshape, List.append_assoc, List.length_append, length_encU8, length_encU16, length_sweepBytes] using h
    have htail : ∀ k, readU8 payload (15 + k) = readU8 (encU8 segCount ++ (encU8 segment.val ++ (encU8 pairs.length ++
        pairBytes pairs))) k := fun k => by
      have h := readU8_append (encU16 cue ++ (encU8 cls.code ++ (encU16 fadeTime ++ (encU16 delay ++
        (encU16 holdTime ++ (encU8 policy.code ++ sweepBytes sweep)))))) (encU8 segCount ++ (encU8 segment.val ++
          (encU8 pairs.length ++ pairBytes pairs))) k
      simpa only [hshape, List.append_assoc, List.length_append, length_encU8, length_encU16, length_sweepBytes] using h
    have h15 := htail 0
    have h16 := htail 1
    have h17 := htail 2
    simp (disch := omega) only [Nat.reduceAdd, readU8_skipU8, readU8_encU8] at h15 h16 h17
    have h0 : readU16 payload 0 = cue := by rw [hshape, readU16_encU16 hcue']
    have h2 : readU8 payload 2 = cls.code := by
      rw [hshape]
      simp [readU8_encU8 (cueClass_code_lt cls)]
    have h3 : readU16 payload 3 = fadeTime := by
      rw [hshape]
      simp (disch := omega) [readU16_encU16]
    have h5 : readU16 payload 5 = delay := by
      rw [hshape]
      simp (disch := omega) [readU16_encU16]
    have h7 : readU16 payload 7 = holdTime := by
      rw [hshape]
      simp (disch := omega) [readU16_encU16]
    have h9 : readU8 payload 9 = policy.code := by
      rw [hshape]
      simp [readU8_encU8 (trimPolicy_code_lt policy)]
    have hclamp : clampNat 1 8 segCount = segCount := by
      unfold clampNat
      omega
    unfold readCueWrite
    simp only [h0, h2, h3, h5, h7, h9, h15, h16, h17, hsweepRead, hpairsRead, hcue, cueClass_ofCode, trimPolicy_ofCode,
      indexBelow_val, hclamp, clampNat_zero, Nat.min_eq_right hfade, Nat.min_eq_right hdelay, Nat.min_eq_right hhold]
    have hnot : (decide (segCount ≤ segment.val) || decide (pairs.length < 1) || decide (12 < pairs.length)) = false := by
      rw [decide_eq_false (by omega), decide_eq_false (by omega), decide_eq_false (by omega)]
      rfl
    simp only [hnot, Bool.not_true, Bool.false_eq_true, if_false, Option.bind_eq_bind, Option.bind_some]
    rfl

/-! ### The copy of a cue (R142, R151) -/

/-- The pairs of an entry are those of its held segments below the segment count. -/
theorem pairs_eq (e : Entry) (count : Nat) : e.pairs count = ((e.segments.toList.take count).filterMap id).flatten := by
  unfold Entry.pairs
  generalize e.segments.toList.take count = segments
  induction segments with
  | nil => rfl
  | cons x xs ih => cases x <;> simp [ih]

/-- The entries of a channel list: which channels they name, from which levels, and to which targets. -/
structure ListsPairs (list : List ListEntry) (ps : List Pair) : Prop where
  nodup    : (list.map ListEntry.channel).Nodup
  channels : ∀ c, c ∈ list.map ListEntry.channel ↔ c ∈ ps.map Pair.channel
  start    : ∀ x ∈ list, x.start = 0
  target   : ∀ x ∈ list, (ps.reverse.find? (fun q => q.channel == x.channel)).map Pair.level = some x.target

/-- Reading one more pair. -/
theorem listsPairs_addPair {list : List ListEntry} {ps : List Pair} (h : ListsPairs list ps) (q : Pair) :
    ListsPairs (addPair list q) (ps ++ [q]) := by
  have hmem : list.any (fun e => e.channel == q.channel) = true ↔ q.channel ∈ list.map ListEntry.channel :=
    named_iff list q.channel
  have hfound : ∀ c, (ps ++ [q]).reverse.find? (fun x => x.channel == c) =
      if q.channel = c then some q else ps.reverse.find? (fun x => x.channel == c) := by
    intro c
    rw [List.reverse_append, List.reverse_singleton, List.singleton_append, List.find?_cons]
    by_cases hc : q.channel = c
    · simp [hc]
    · rw [beq_eq_false_iff_ne.2 hc, if_neg hc]
  have hentries : ∀ x ∈ addPair list q, (x.channel = q.channel ∧ x.start = 0 ∧ x.target = q.level) ∨
      (x.channel ≠ q.channel ∧ x ∈ list) := by
    intro x hx
    unfold addPair at hx
    split at hx
    · obtain ⟨y, hy, rfl⟩ := List.mem_map.1 hx
      by_cases hc : y.channel = q.channel
      · exact .inl (by simp [hc, h.start y hy])
      · exact .inr (by simp [hc, hy])
    · next hnot =>
      rcases List.mem_append.1 hx with hx | hx
      · exact .inr ⟨fun hc => hnot (hmem.2 (hc ▸ List.mem_map_of_mem hx)), hx⟩
      · obtain rfl := List.mem_singleton.1 hx
        exact .inl ⟨rfl, rfl, rfl⟩
  refine ⟨?_, fun c => ?_, fun x hx => ?_, fun x hx => ?_⟩
  · rw [addPair_channels]
    split
    · exact h.nodup
    · next hq => simpa [List.nodup_append, h.nodup] using fun a ha hc => hq (List.mem_map.2 ⟨a, ha, hc⟩)
  · have hc := h.channels c
    rw [addPair_channels, List.map_append, List.mem_append, ← hc]
    split
    · next hq =>
      refine ⟨.inl, fun hor => hor.elim id fun hs => ?_⟩
      rw [List.mem_singleton.1 hs]
      exact hq
    · rw [List.mem_append]
      rfl
  · obtain ⟨-, hs, -⟩ | ⟨-, hl⟩ := hentries x hx
    · exact hs
    · exact h.start x hl
  · rw [hfound]
    obtain ⟨hc, -, ht⟩ | ⟨hc, hl⟩ := hentries x hx
    · rw [if_pos hc.symm, ht]
      rfl
    · rw [if_neg (Ne.symm hc)]
      exact h.target x hl

theorem listsPairs_foldl (qs : List Pair) {list : List ListEntry} {ps : List Pair} (h : ListsPairs list ps) :
    ListsPairs (qs.foldl addPair list) (ps ++ qs) := by
  induction qs generalizing list ps with
  | nil => simpa using h
  | cons q qs ih => simpa using ih (listsPairs_addPair h q)

/-- The place of a member in the order of a sweep, where it has one. -/
theorem findIdx_memberOrder (w : Sweep) (hw : w.startAt < 8) {m : Nat} (hm : m < 8) :
    w.memberOrder.findIdx? (· == m) = match w.order, w.length with
      | .rotate, .full => some ((m + 8 - w.startAt) % 8)
      | .rotate, .half => if m / 4 = w.startAt / 4 then some ((m + 8 - w.startAt) % 4) else none
      | .mirror, .full => some (m ^^^ w.startAt)
      | .mirror, .half => if m / 4 = w.startAt / 4 then some (m ^^^ w.startAt) else none := by
  have hrot8 : ∀ a < 8, ∀ m < 8, ((List.range 8).map (fun k => (a + k) % 8)).findIdx? (· == m) = some ((m + 8 - a) % 8) := by
    decide
  have hrot4 : ∀ a < 8, ∀ m < 8, ((List.range 4).map (fun k => 4 * (a / 4) + (a + k) % 4)).findIdx? (· == m) =
      if m / 4 = a / 4 then some ((m + 8 - a) % 4) else none := by decide
  have hxor8 : ∀ a < 8, ∀ m < 8, ((List.range 8).map (fun k => a ^^^ k)).findIdx? (· == m) = some (m ^^^ a) := by decide
  have hxor4 : ∀ a < 8, ∀ m < 8, ((List.range 4).map (fun k => a ^^^ k)).findIdx? (· == m) =
      if m / 4 = a / 4 then some (m ^^^ a) else none := by decide
  unfold Sweep.memberOrder
  cases w.order <;> cases w.length
  · exact hrot8 _ hw _ hm
  · exact hrot4 _ hw _ hm
  · exact hxor8 _ hw _ hm
  · exact hxor4 _ hw _ hm

/-- Settles O36. -/
theorem copyListsEachChannelOnce : Obligations.CopyListsEachChannelOnce := by
  intro e h hsweep pairs list place
  have hlists : ListsPairs ((e.pairs h.segCount).foldl addPair []) (e.pairs h.segCount) := by
    simpa using listsPairs_foldl (e.pairs h.segCount) (list := []) (ps := [])
      ⟨List.nodup_nil, fun c => by simp, fun x hx => absurd hx List.not_mem_nil, fun x hx => absurd hx List.not_mem_nil⟩
  have hchannels : list.map ListEntry.channel = ((e.pairs h.segCount).foldl addPair []).map ListEntry.channel := by
    simp [list, channelList, Function.comp_def]
  have hpairs : e.pairs h.segCount = pairs := pairs_eq e h.segCount
  refine ⟨by rw [hchannels]; exact hlists.nodup, fun c => by rw [hchannels, ← hpairs]; exact hlists.channels c, fun x hx => ?_⟩
  obtain ⟨y, hy, rfl⟩ := List.mem_map.1 hx
  refine ⟨hlists.start y hy, ?_, by rw [← hpairs]; exact hlists.target y hy⟩
  dsimp only
  cases hs : h.sweep with
  | none => rfl
  | some w =>
    have hplace := findIdx_memberOrder w (hsweep w hs) (m := y.channel.val % 8) (by omega)
    simp only [memberOffset, Sweep.offset, hplace, place]
    split
    · by_cases hhalf : y.channel.val % 8 / 4 = w.startAt / 4 <;> cases w.order <;> cases w.length <;> simp [hhalf]
    · rfl

end Sys2Proof.Machine
end

