-- ==== Sys2Proof/Proofs/ScannerOperations.lean ====
section
/-! PROOFS. The probe scanner: a conversion of a probe and of the reference, and the slab scan (O4, O5, O15). -/

namespace Sys2Proof.Machine

/-! ### Conversions -/

/-- A conversion works on its channel's record, and the scan goes on. -/
theorem convert_eq (s : State) (raw : Int)
    (h : (s.convertChannel s.scanner.channel (limitedRaw s.scanner.channel raw)).scanner.channel = s.scanner.channel) :
    s.convert raw = (s.convertChannel s.scanner.channel (limitedRaw s.scanner.channel raw)).scanOn := by
  rw [State.scanOn, h]
  rfl

theorem override_isSome (r : Probe) : r.override.isSome = true ↔ r.override ≠ none := by
  cases r.override <;> simp

/-- A reading of a temperature probe by its limits, with the spike filter spelled out. -/
theorem temperature_eq (r : Probe) (offset raw : Int) :
    r.temperature offset (clampInt (-600) 1100 raw) =
      (let reading := clampInt (-600) 1100 raw
       let corrected := clampInt (-500) 1000 (reading - offset)
       if r.override ≠ none then r
       else if reading = 1100 then { r with quality := .opened, spikeRun := 0 }
       else if reading = -600 then { r with quality := .shorted, spikeRun := 0 }
       else if (r.quality = .good ∨ r.quality = .spike) ∧ 50 < (corrected - r.value).natAbs ∧ r.spikeRun < 2 then
         { r with quality := .spike, spikeRun := r.spikeRun + 1 }
       else { r with value := corrected, quality := .good, spikeRun := 0 }) := by
  have hhigh : 1100 ≤ clampInt (-600) 1100 raw ↔ clampInt (-600) 1100 raw = 1100 := by
    unfold clampInt
    omega
  have hlow : clampInt (-600) 1100 raw ≤ -600 ↔ clampInt (-600) 1100 raw = -600 := by
    unfold clampInt
    omega
  have hfiltered : r.quality.filtered = true ↔ r.quality = .good ∨ r.quality = .spike := by
    cases r.quality <;> simp [Quality.filtered]
  dsimp only
  simp only [Probe.temperature, override_isSome, hhigh, hlow, hfiltered, Probe.filter, Probe.accept]
  generalize clampInt (-500) 1000 (clampInt (-600) 1100 raw - offset) = corrected
  congr 3
  by_cases hq : r.quality = .good ∨ r.quality = .spike
  · by_cases hjump : 50 < (corrected - r.value).natAbs
    · rw [if_pos hq, if_neg (by omega)]
      simp [hq, hjump]
    · rw [if_pos hq, if_pos (by omega), if_neg (fun h => hjump h.2.1)]
  · rw [if_neg hq, if_neg (fun h => hq h.1)]

/-- A reading of the humidity probe. -/
theorem humidity_eq (r : Probe) (raw : Int) :
    r.humidity (clampInt 0 1100 raw) =
      if r.override ≠ none then r
      else if 1050 ≤ raw then { r with quality := .opened }
      else { r with value := clampInt 0 1000 raw, quality := .good } := by
  have hopen : 1050 ≤ clampInt 0 1100 raw ↔ 1050 ≤ raw := by
    unfold clampInt
    omega
  have hvalue : min 1000 (clampInt 0 1100 raw) = clampInt 0 1000 raw := by
    unfold clampInt
    omega
  simp only [Probe.humidity, override_isSome, hopen, hvalue]

/-- Settles O4. -/
theorem probeConversionUpdatesItsRecord : Obligations.ProbeConversionUpdatesItsRecord := by
  intro raw s hcal href
  have hconverted : s.convertChannel s.scanner.channel (limitedRaw s.scanner.channel raw) =
      s.setProbe s.scanner.channel
        (if s.scanner.channel = probeH0 then (s.probe s.scanner.channel).humidity (clampInt 0 1100 raw)
         else (s.probe s.scanner.channel).temperature s.scanner.offset (clampInt (-600) 1100 raw)) := by
    simp only [State.convertChannel, if_neg href, hcal, limitedRaw]
    by_cases hh : s.scanner.channel = probeH0
    · simp [hh]
    · simp [hh]
  refine congrArg Host.Outcome.next ((convert_eq s raw (by rw [hconverted]; rfl)).trans ?_)
  rw [hconverted, humidity_eq, temperature_eq]
  by_cases hh : s.scanner.channel = probeH0
  · simp only [if_pos hh]
  · simp only [if_neg hh]

/-! ### The reference -/

theorem reference_eq (r : Probe) (raw : Int) :
    r.reference (clampInt (-600) 1100 raw) =
      if clampInt (-600) 1100 raw = 1100 then { r with quality := .opened }
      else if clampInt (-600) 1100 raw = -600 then { r with quality := .shorted }
      else { r with value := clampInt (-600) 1100 raw, quality := .good } := by
  have hhigh : 1100 ≤ clampInt (-600) 1100 raw ↔ clampInt (-600) 1100 raw = 1100 := by
    unfold clampInt
    omega
  have hlow : clampInt (-600) 1100 raw ≤ -600 ↔ clampInt (-600) 1100 raw = -600 := by
    unfold clampInt
    omega
  simp only [Probe.reference, hhigh, hlow]

theorem refInRange_iff (raw : Int) : refInRange raw = true ↔ -600 < raw ∧ raw < 1100 := by simp [refInRange]

/-- Long calibration takes a reading. -/
theorem calibrate_long {q : Scanner} (h : q.longCal = true) (raw : Int) :
    q.calibrate raw = { q with
      calSum := if -600 < raw ∧ raw < 1100 then q.calSum + raw else q.calSum
      calCount := if -600 < raw ∧ raw < 1100 then q.calCount + 1 else q.calCount
      offset := if (-600 < raw ∧ raw < 1100) ∧ q.calCount = 31 then (q.calSum + raw + 16) / 32 else q.offset } := by
  obtain ⟨probes, channel, passNumber, offset, longCal, calCount, calSum, pending⟩ := q
  obtain rfl : longCal = true := h
  simp only [Scanner.calibrate, if_true, refInRange_iff, Scanner.longReading]
  by_cases hgood : -600 < raw ∧ raw < 1100
  · by_cases hlast : calCount = 31
    · simp [hgood, hlast]
    · simp [hgood, hlast]
  · simp [hgood]

/-- Short calibration at a reading. -/
theorem calibrate_short {q : Scanner} (h : q.longCal = false) (raw : Int) :
    q.calibrate raw = { q with
      shortPending := false
      offset := if (-600 < raw ∧ raw < 1100) ∧ (q.shortPending = true ∨ (q.passNumber.toNat + 1) % 64 = 0) then
          (if q.offset < raw then q.offset + 1 else if raw < q.offset then q.offset - 1 else q.offset)
        else q.offset } := by
  have hdue : q.shortDue = true ↔ q.shortPending = true ∨ (q.passNumber.toNat + 1) % 64 = 0 := by
    simp [Scanner.shortDue]
  have hmoves : (q.shortDue && refInRange raw) = true ↔
      (-600 < raw ∧ raw < 1100) ∧ (q.shortPending = true ∨ (q.passNumber.toNat + 1) % 64 = 0) := by
    rw [Bool.and_eq_true, hdue, refInRange_iff, and_comm]
  simp only [Scanner.calibrate, h, Bool.false_eq_true, if_false, hmoves, offsetToward]

/-- Settles O5. -/
theorem referenceConversionCalibrates : Obligations.ReferenceConversionCalibrates := by
  intro raw s hc q x seen good
  have hlimited : limitedRaw s.scanner.channel raw = x := by
    rw [hc]
    rfl
  have hseen : s.setProbe probeRef ((s.probe probeRef).reference x) = seen := by rw [show x = clampInt (-600) 1100 raw from rfl, reference_eq]
  have hconverted : s.convertChannel s.scanner.channel x = { seen with scanner := seen.scanner.calibrate x } := by
    simp only [State.convertChannel, hc, if_true, hseen]
  have hnext : exec (.probeConversion raw) s =
      .next { seen with scanner := { seen.scanner.calibrate x with channel := 26 } } := by
    have hconvert : s.convert raw = { seen with scanner := { seen.scanner.calibrate x with channel := 26 } } := by
      unfold State.convert
      dsimp only
      rw [hlimited, hconverted, hc]
      rfl
    exact congrArg Host.Outcome.next hconvert
  refine ⟨fun hl => ?_, fun hl => ?_⟩
  · rw [hnext, calibrate_long (q := seen.scanner) hl]
    rfl
  · rw [hnext, calibrate_short (q := seen.scanner) hl]
    rfl

/-! ### The slab scan -/

/-- The cells that a scan examines: up to the first that meets the condition. -/
def examinedCells (met : Fin 20 → Bool) (cells : List (Fin 20)) : List (Fin 20) :=
  match cells.findIdx? met with
  | some k => cells.take (k + 1)
  | none => cells

theorem examinedCells_hit {met : Fin 20 → Bool} {c : Fin 20} (h : met c = true) (cells : List (Fin 20)) :
    examinedCells met (c :: cells) = [c] := by
  simp [examinedCells, List.findIdx?_cons, h]

theorem examinedCells_miss {met : Fin 20 → Bool} {c : Fin 20} (h : met c = false) (cells : List (Fin 20)) :
    examinedCells met (c :: cells) = c :: examinedCells met cells := by
  simp only [examinedCells, List.findIdx?_cons, h, Bool.false_eq_true, if_false]
  cases cells.findIdx? met <;> simp

/-- The cell has a usable value that meets the condition. -/
def State.meets (s : State) (cond : ScanCondition) (reference : Int) (c : Fin 20) : Bool :=
  match s.published ⟨c.val, by omega⟩ with
  | none => false
  | some v => cond.met v reference

theorem getLast?_cons_getD {c : Fin 20} (cells : List (Fin 20)) (n : Nat) :
    ((c :: cells).getLast?.map Fin.val).getD n = (cells.getLast?.map Fin.val).getD c.val := by
  cases cells with
  | nil => rfl
  | cons d rest =>
    rw [List.getLast?_cons_cons, List.getLast?_eq_some_getLast (List.cons_ne_nil d rest)]
    rfl

/-- What a scan returns, that has found nothing so far. -/
theorem scanCells_eq (s : State) (cond : ScanCondition) (reference : Int) (cells : List (Fin 20))
    (last examined skipped : Nat) :
    s.scanCells cond reference cells ⟨none, last, examined, skipped⟩ =
      (let seen := examinedCells (s.meets cond reference) cells
       { hit := (cells.find? (s.meets cond reference)).map Fin.val
         last := (seen.getLast?.map Fin.val).getD last
         examined := examined + seen.length
         skipped := skipped + seen.countP (fun c => (s.published ⟨c.val, by omega⟩).isNone) }) := by
  induction cells generalizing last examined skipped with
  | nil => simp [State.scanCells, examinedCells]
  | cons c cells ih =>
    cases hv : s.published ⟨c.val, by omega⟩ with
    | none =>
      have hmiss : s.meets cond reference c = false := by simp [State.meets, hv]
      simp [State.scanCells, hv, ih, examinedCells_miss hmiss, hmiss, getLast?_cons_getD, Nat.add_assoc, Nat.add_comm 1]
    | some v =>
      cases hm : cond.met v reference with
      | true =>
        have hhit : s.meets cond reference c = true := by simp [State.meets, hv, hm]
        simp [State.scanCells, hv, hm, examinedCells_hit hhit, hhit]
      | false =>
        have hmiss : s.meets cond reference c = false := by simp [State.meets, hv, hm]
        simp [State.scanCells, hv, hm, ih, examinedCells_miss hmiss, hmiss, getLast?_cons_getD, Nat.add_assoc, Nat.add_comm 1]

/-- The codes of Table 11-3 for a scan's condition. -/
theorem scanCondition_ofCode {condition : Nat} (h : condition ≤ 2) :
    ∃ cond, ScanCondition.ofCode condition = some cond ∧ ∀ v x, cond.met v x =
      if condition = 0 then v == x else if condition = 1 then decide (v ≤ x) else decide (x ≤ v) := by
  interval_cases condition
  · exact ⟨.equal, rfl, fun _ _ => rfl⟩
  · exact ⟨.notAbove, rfl, fun _ _ => rfl⟩
  · exact ⟨.notBelow, rfl, fun _ _ => rfl⟩

theorem scanCondition_ofCode_none {condition : Nat} (h : 2 < condition) : ScanCondition.ofCode condition = none := by
  obtain ⟨k, rfl⟩ := Nat.exists_eq_add_of_le' h
  rfl

theorem published_enterExecuting (s : State) (p : Port) (i : Fin 32) :
    (s.enterExecuting p).published i = s.published i := by
  simp [State.published]

/-- Settles O15. -/
theorem slabScanReportsTheFirstHit : Obligations.SlabScanReportsTheFirstHit := by
  intro p first last step condition reference s hs hf hl hstep hc hlo hhi cells value x met examined
  have ht : s.takes p .slabScan (payloadSlabScan first last step condition reference) :=
    takes_of_clearToSend .slabScan hs (by simp [payloadSlabScan]) rfl rfl
  by_cases hbad : 19 < first ∨ 19 < last ∨ last < first
  · rw [if_pos (by tauto)]
    exact ht.refused (by
      simp only [State.handOver, handleSlabScan, payloadSlabScan, List.append_assoc, readU8_encU8 hf, readU8_skipU8,
        readU8_encU8 hl]
      rw [if_pos (by simpa [or_assoc, and_assoc] using hbad)])
  by_cases hcond : 2 < condition
  · rw [if_pos (by tauto)]
    exact ht.refused (by
      simp only [State.handOver, handleSlabScan, payloadSlabScan, List.append_assoc, readU8_encU8 hf, readU8_skipU8,
        readU8_encU8 hl, readU8_encU8 hc, scanCondition_ofCode_none hcond]
      rw [if_neg (by simpa [or_assoc, and_assoc] using hbad)])
  rw [if_neg (by tauto)]
  obtain ⟨cond, hcode, hmet⟩ := scanCondition_ofCode (Nat.le_of_not_lt hcond)
  have hmeets : (s.enterExecuting p).meets cond x = met := by
    funext c
    cases hv : s.published ⟨c.val, by omega⟩ <;> simp [State.meets, published_enterExecuting, hmet, met, value, hv]
  have hstep' : clampNat 1 2 step = if step < 2 then 1 else 2 := by
    unfold clampNat
    split <;> omega
  have horder : scanOrder first last (clampNat 1 2 step) = cells := by
    simp [scanOrder, cells, hstep', Bool.beq_eq_decide_eq]
  have hhandle : (s.enterExecuting p).handOver p .slabScan (payloadSlabScan first last step condition reference) =
      (s.enterExecuting p, { result := .ok
                             payload := encU8 (((cells.find? met).map Fin.val).getD 255) ++
                               encU8 ((examined.getLast?.map Fin.val).getD 0) ++
                               (encU8 examined.length ++ encU8 (examined.countP (fun c => (value c).isNone))) }) := by
    simp only [State.handOver, handleSlabScan, payloadSlabScan, List.append_assoc, readU8_encU8 hf, readU8_skipU8,
      readU8_encU8 hl, readU8_encU8 hstep, readU8_encU8 hc, readS16_skipU8, readS16_encS16_last hlo hhi, hcode, horder]
    rw [if_neg (by simpa [or_assoc, and_assoc] using hbad)]
    simp only [scanCells_eq, published_enterExecuting]
    rw [show (s.enterExecuting p).meets cond (clampInt (-500) 1000 reference) = met from hmeets]
    simp only [Nat.zero_add]
    rfl
  exact ht _ hhandle

end Sys2Proof.Machine
end

