-- ==== Sys2Proof/Proofs/PositionerLaws.lean ====
section
/-! PROOFS. What becomes of the positioners, the slots, the queue and the ports when a positioner gives up its slot or its place
(R98, R99, R103, R104, R106, R108). -/

namespace Sys2Proof.Machine

/-! ### Records, and the frame of the positioner unit -/

theorem setPos_setPos (s : State) (v : Fin 8) (x y : Positioner) : (s.setPos v x).setPos v y = s.setPos v y := by
  simp [State.setPos]

theorem setPos_pos (s : State) (v : Fin 8) : s.setPos v (s.pos v) = s := by simp [State.setPos, State.pos]

/-- Only the positioners and the ports differ. -/
def PositionersAndPortsOnly (s t : State) : Prop := t = { s with positioners := t.positioners, ports := t.ports }

namespace PositionersAndPortsOnly
variable {s t u : State}

theorem refl (s : State) : PositionersAndPortsOnly s s := rfl

theorem trans (h : PositionersAndPortsOnly s t) (k : PositionersAndPortsOnly t u) : PositionersAndPortsOnly s u := by
  unfold PositionersAndPortsOnly at *
  rw [k, h]

theorem deviceSeconds (h : PositionersAndPortsOnly s t) : t.deviceSeconds = s.deviceSeconds := by rw [h]
theorem authority (h : PositionersAndPortsOnly s t) : t.authority = s.authority := by rw [h]

theorem setPos (s : State) (v : Fin 8) (x : Positioner) : PositionersAndPortsOnly s (s.setPos v x) := rfl

theorem post (s : State) (p : Port) (k : RecordKind) (o : Nat) (x : Int) : PositionersAndPortsOnly s (s.post p k o x) := by
  cases p <;> rfl

theorem postTo (s : State) (p : Option Port) (k : RecordKind) (o : Nat) (x : Int) :
    PositionersAndPortsOnly s (s.postTo p k o x) := by
  cases p with
  | none => exact refl s
  | some p => exact post ..

theorem postAll (s : State) (ps : List Port) (k : RecordKind) (o : Nat) (x : Int) :
    PositionersAndPortsOnly s (s.postAll ps k o x) :=
  foldl_related refl trans _ (fun s p => post s p k o x) ps s

theorem tellRequester (s : State) (v : Fin 8) (k : RecordKind) (x : Int) :
    PositionersAndPortsOnly s (s.tellRequester v k x) :=
  (postTo s _ k v.val x).trans (setPos ..)

end PositionersAndPortsOnly

theorem posts_tellRequester (s : State) (v : Fin 8) (k : RecordKind) (x : Int) (p : Port) :
    s.posts (s.tellRequester v k x) p (if (s.pos v).port = some p then [⟨k, v.val, x, s.deviceSeconds⟩] else []) :=
  posts_then (posts_postTo s (s.pos v).port k v.val x p) rfl

/-! ### A slot that passes along the queue -/

/-- A queued positioner completes at the grant: it is to home and has ENDSTOP active (R104). -/
def State.completesAtGrant (s : State) (w : Fin 8) : Bool := (s.pos w).intent == some .home && (s.pos w).endstop

/-- A positioner that takes a granted slot, by its intent. -/
def State.grantedRecord (s : State) (w : Fin 8) : Positioner :=
  if (s.pos w).intent = some .home then (s.pos w).homing (s.stepInterval w) else (s.pos w).travelling (s.stepInterval w)

/-- What becomes of positioners, slots and queue, and what is posted, when slot `k` passes along the queue `queue`. -/
structure PassesOn (k : Fin 4) (queue : List (Fin 8)) (s t : State) : Prop where
  left    : t.positioners.queue = (queue.dropWhile s.completesAtGrant).drop 1
  holders : t.positioners.holders =
    s.positioners.holders ++ ((queue.dropWhile s.completesAtGrant).take 1).map (fun w => (k, w))
  pos     : ∀ w, t.pos w =
    if w ∈ queue.takeWhile s.completesAtGrant then { (s.pos w).homed with port := none }
    else if w ∈ (queue.dropWhile s.completesAtGrant).take 1 then s.grantedRecord w
    else s.pos w
  records : ∀ p, s.posts t p (((queue.takeWhile s.completesAtGrant).filter (fun w => (s.pos w).port == some p)).map
    (fun w => ⟨.homeDone, w.val, 0, s.deviceSeconds⟩))
  frame   : PositionersAndPortsOnly s t

theorem takeWhile_eq_of_agree {α : Type} {f g : α → Bool} : ∀ {l : List α}, (∀ x ∈ l, f x = g x) → l.takeWhile f = l.takeWhile g
  | [], _ => rfl
  | x :: l, h => by
    rw [List.takeWhile_cons, List.takeWhile_cons, h x List.mem_cons_self,
      takeWhile_eq_of_agree fun y hy => h y (List.mem_cons_of_mem x hy)]

theorem dropWhile_eq_of_agree {α : Type} {f g : α → Bool} : ∀ {l : List α}, (∀ x ∈ l, f x = g x) → l.dropWhile f = l.dropWhile g
  | [], _ => rfl
  | x :: l, h => by
    rw [List.dropWhile_cons, List.dropWhile_cons, h x List.mem_cons_self,
      dropWhile_eq_of_agree fun y hy => h y (List.mem_cons_of_mem x hy)]

theorem passSlot_passesOn (k : Fin 4) (queue : List (Fin 8)) (hn : queue.Nodup) (s : State) :
    PassesOn k queue s (State.passSlot k queue s) := by
  induction queue generalizing s with
  | nil =>
    exact { left := rfl, holders := (List.append_nil _).symm, pos := fun w => by simp [State.passSlot, State.pos]
            records := fun p => posts_refl s p, frame := rfl }
  | cons v rest ih =>
    obtain ⟨hv, hrest⟩ := List.nodup_cons.1 hn
    rw [passSlot_cons]
    by_cases hdone : (s.pos v).intent = some .home ∧ (s.pos v).endstop = true
    · rw [if_pos hdone]
      have hc : s.completesAtGrant v = true := by simp [State.completesAtGrant, hdone]
      let left := { s with positioners := { s.positioners with queue := rest } }
      let told := (left.stopHomed v).tellRequester v .homeDone 0
      have hpos : ∀ w, told.pos w = if w = v then { (s.pos v).homed with port := none } else s.pos w := by
        intro w
        rw [pos_tellRequester, State.stopHomed, pos_setPos_same]
        split
        · rfl
        · next hw => exact pos_setPos_other _ _ hw
      have hother : ∀ w ∈ rest, told.pos w = s.pos w := fun w hw => by rw [hpos, if_neg fun he : w = v => hv (he ▸ hw)]
      have hagree : ∀ w ∈ rest, told.completesAtGrant w = s.completesAtGrant w := fun w hw => by
        rw [State.completesAtGrant, hother w hw]; rfl
      have hframe : PositionersAndPortsOnly s told :=
        PositionersAndPortsOnly.trans (t := left.stopHomed v) rfl (.tellRequester ..)
      have hrecords : ∀ p, s.posts told p (if (s.pos v).port = some p then [⟨.homeDone, v.val, 0, s.deviceSeconds⟩] else []) := by
        intro p
        have hposts := posts_tellRequester (left.stopHomed v) v .homeDone 0 p
        rw [show ((left.stopHomed v).pos v).port = (s.pos v).port by rw [State.stopHomed, pos_setPos_same]; rfl] at hposts
        exact hposts
      have hgranted : ∀ w, told.pos w = s.pos w → told.grantedRecord w = s.grantedRecord w := fun w hw => by
        have hinterval : told.stepInterval w = s.stepInterval w := by rw [hframe]; rfl
        rw [State.grantedRecord, hw, hinterval]; rfl
      have h := ih hrest told
      have htake := takeWhile_eq_of_agree hagree
      have hdrop := dropWhile_eq_of_agree hagree
      refine { left := ?_, holders := ?_, pos := fun w => ?_, records := fun p => ?_, frame := hframe.trans h.frame }
      · rw [List.dropWhile_cons_of_pos hc, ← hdrop]
        exact h.left
      · rw [List.dropWhile_cons_of_pos hc, ← hdrop]
        refine h.holders.trans (congrArg (· ++ _) ?_)
        exact tellRequester_holders ..
      · rw [List.dropWhile_cons_of_pos hc, List.takeWhile_cons_of_pos hc, ← hdrop, ← htake]
        refine (h.pos w).trans ?_
        by_cases hw : w = v
        · have htaken : v ∉ rest.takeWhile told.completesAtGrant := fun hm => hv ((List.takeWhile_sublist _).subset hm)
          have hdropped : v ∉ (rest.dropWhile told.completesAtGrant).take 1 := fun hm =>
            hv ((List.dropWhile_sublist _).subset (List.mem_of_mem_take hm))
          rw [hw, if_neg htaken, if_neg hdropped, if_pos List.mem_cons_self, hpos, if_pos rfl]
        · have hsame : told.pos w = s.pos w := by rw [hpos, if_neg hw]
          rw [hsame, hgranted w hsame]
          simp only [List.mem_cons, hw, false_or]
      · have hposts := posts_trans (hrecords p) (h.records p)
        rw [htake, hframe.deviceSeconds] at hposts
        rw [List.takeWhile_cons_of_pos hc, List.filter_cons]
        have hfilter : (rest.takeWhile s.completesAtGrant).filter (fun w => (told.pos w).port == some p) =
            (rest.takeWhile s.completesAtGrant).filter (fun w => (s.pos w).port == some p) :=
          List.filter_congr fun w hw => by rw [hother w ((List.takeWhile_sublist _).subset hw)]
        rw [hfilter] at hposts
        by_cases hp : (s.pos v).port = some p
        · simpa [hp] using hposts
        · simpa [hp] using hposts
    · rw [if_neg hdone]
      have hc : ¬s.completesAtGrant v = true := by simpa [State.completesAtGrant] using hdone
      refine { left := ?_, holders := ?_, pos := fun w => ?_, records := fun p => ?_, frame := ?_ }
      · rw [List.dropWhile_cons_of_neg hc]; rfl
      · rw [List.dropWhile_cons_of_neg hc]; rfl
      · rw [List.dropWhile_cons_of_neg hc, List.takeWhile_cons_of_neg hc, if_neg List.not_mem_nil, pos_setPos]
        by_cases hw : w = v
        · subst hw
          rw [if_pos rfl]
          exact (if_pos (show w ∈ (w :: rest).take 1 from List.mem_cons_self)).symm
        · rw [if_neg hw, if_neg (show w ∉ (v :: rest).take 1 from fun hm => hw (List.mem_singleton.1 hm))]
          rfl
      · rw [List.takeWhile_cons_of_neg hc]
        exact posts_of_ports rfl p
      · rfl

/-! ### A positioner that gives up its slot or its place -/

/-- The queue is without repetition, and does not hold the positioner while that holds a slot. -/
def State.standsApart (s : State) (v : Fin 8) : Prop :=
  s.positioners.queue.Nodup ∧ (v ∈ s.positioners.holders.map Prod.snd → v ∉ s.positioners.queue)

theorem standsApart_of_sound {s : State} (h : s.travelSound) (v : Fin 8) : s.standsApart v :=
  ⟨h.queuedOnce, fun hv => not_queued_of_moving h ((h.holding v).1 hv)⟩

/-- The work of positioner `v` ends with the record `r`: its slot or its place is handed on, and after the records of that the ports
are told `own`. -/
structure Ends (s t : State) (v : Fin 8) (r : Positioner) (own : Port → List Record) : Prop where
  record  : t.pos v = r
  hands   : s.handsOn t v
  records : ∀ p, s.posts t p (s.grantRecords v p ++ own p)
  frame   : PositionersAndPortsOnly s t

theorem holds_slot_iff (s : State) (v : Fin 8) :
    v ∈ s.positioners.holders.map Prod.snd ↔ (s.positioners.holders.find? (fun h => h.2 == v)).isSome = true := by
  simp [List.find?_isSome]

theorem dropWhile_eq_drop {α : Type} (f : α → Bool) (l : List α) : l.dropWhile f = l.drop (l.takeWhile f).length := by
  conv_rhs => rw [← List.takeWhile_append_dropWhile (p := f) (l := l), List.takeWhile_append_dropWhile]
  induction l with
  | nil => rfl
  | cons x l ih =>
    by_cases h : f x = true
    · rw [List.dropWhile_cons_of_pos h, List.takeWhile_cons_of_pos h, List.length_cons, List.drop_succ_cons, ih]
    · rw [List.dropWhile_cons_of_neg h, List.takeWhile_cons_of_neg h]; rfl

/-- A positioner whose record has become `r` gives up its place and its slot. -/
theorem ends_given_up {s : State} {v : Fin 8} (h : s.standsApart v) (r : Positioner) :
    Ends s (((s.setPos v r).leaveTravelQueue v).freeTravelSlot v) v r (fun _ => []) := by
  obtain ⟨hn, hapart⟩ := h
  have hleft : ((s.setPos v r).leaveTravelQueue v).pos = (s.setPos v r).pos := rfl
  unfold State.freeTravelSlot
  split
  · next hnone =>
    have hnone' : s.positioners.holders.find? (fun h => h.2 == v) = none := hnone
    have hgrant : ∀ p, s.grantRecords v p = [] := fun p => if_neg (by rw [holds_slot_iff, hnone']; simp)
    refine { record := ?_, hands := ?_, records := fun p => ?_, frame := rfl }
    · rw [hleft, pos_setPos_same]
    · rw [State.handsOn, hnone']
      exact ⟨rfl, rfl, fun w hw => by rw [hleft, pos_setPos_other _ _ hw]⟩
    · rw [hgrant]
      exact posts_of_ports rfl p
  · next held hheld =>
    have hheld' : s.positioners.holders.find? (fun h => h.2 == v) = some held := hheld
    have hholds : v ∈ s.positioners.holders.map Prod.snd := by rw [holds_slot_iff, hheld']; rfl
    have hv : v ∉ s.positioners.queue := hapart hholds
    let freed := { (s.setPos v r).leaveTravelQueue v with positioners :=
      { ((s.setPos v r).leaveTravelQueue v).positioners with
        holders := ((s.setPos v r).leaveTravelQueue v).positioners.holders.filter (fun x => x.2 != v) } }
    have hqueue : freed.positioners.queue = s.positioners.queue := filter_ne_eq_self hv
    have hpos : ∀ w, w ≠ v → freed.pos w = s.pos w := fun w hw => pos_setPos_other s r hw
    have hself : freed.pos v = r := pos_setPos_same ..
    have hagree : ∀ w ∈ s.positioners.queue, freed.completesAtGrant w = s.completesAtGrant w := fun w hw => by
      rw [State.completesAtGrant, hpos w fun he => hv (he ▸ hw)]; rfl
    have hp : PassesOn held.1 s.positioners.queue freed (State.passSlot held.1 freed.positioners.queue freed) := by
      rw [hqueue]
      exact passSlot_passesOn held.1 s.positioners.queue hn freed
    have htake : s.positioners.queue.takeWhile freed.completesAtGrant = s.homedAtGrant := takeWhile_eq_of_agree hagree
    have hdrop : s.positioners.queue.dropWhile freed.completesAtGrant = s.positioners.queue.drop s.homedAtGrant.length := by
      rw [dropWhile_eq_of_agree hagree, dropWhile_eq_drop]; rfl
    have htaken : v ∉ s.homedAtGrant := fun hm => hv ((List.takeWhile_sublist _).subset hm)
    have hdropped : v ∉ (s.positioners.queue.drop s.homedAtGrant.length).take 1 := fun hm =>
      hv (List.mem_of_mem_drop (List.mem_of_mem_take hm))
    refine { record := ?_, hands := ?_, records := fun p => ?_, frame := ?_ }
    · refine (hp.pos v).trans ?_
      rw [htake, hdrop, if_neg htaken, if_neg hdropped, hself]
    · rw [State.handsOn, hheld']
      refine ⟨hp.left.trans (by rw [hdrop]), hp.holders.trans (by rw [hdrop]; rfl), fun w hw => (hp.pos w).trans ?_⟩
      dsimp only
      rw [htake, hdrop, hpos w hw, State.grantedRecord, hpos w hw]
      by_cases hhomed : w ∈ s.homedAtGrant
      · rw [if_pos hhomed, if_pos hhomed]
        rfl
      · rw [if_neg hhomed, if_neg hhomed]
        by_cases hnext : w ∈ (s.positioners.queue.drop s.homedAtGrant.length).take 1
        · rw [if_pos hnext, if_neg (not_not.2 hnext)]
          rfl
        · rw [if_neg hnext, if_pos hnext]
    · have hgrant : s.grantRecords v p = (s.homedAtGrant.filter (fun w => (freed.pos w).port == some p)).map
          (fun w => ⟨.homeDone, w.val, 0, s.deviceSeconds⟩) := by
        rw [State.grantRecords, if_pos hholds]
        congr 1
        exact List.filter_congr fun w hw => by rw [hpos w fun he => htaken (he ▸ hw)]
      rw [hgrant, List.append_nil, ← htake]
      exact posts_after (t := freed) rfl (hp.records p)
    · exact PositionersAndPortsOnly.trans (t := freed) rfl hp.frame

/-- What is done after it to the positioner's own record, with records of its own. -/
theorem Ends.andThen {s t u : State} {v : Fin 8} {r r' : Positioner} {own : Port → List Record}
    (h : Ends s t v r (fun _ => [])) (hpos : u.pos = (t.setPos v r').pos) (hholders : u.positioners.holders = t.positioners.holders)
    (hqueue : u.positioners.queue = t.positioners.queue) (hposts : ∀ p, t.posts u p (own p))
    (hframe : PositionersAndPortsOnly t u) : Ends s u v r' own where
  record := by rw [hpos, pos_setPos_same]
  hands := by
    have hhands := h.hands
    have hothers : ∀ w, w ≠ v → u.pos w = t.pos w := fun w hw => by rw [hpos, pos_setPos_other _ _ hw]
    unfold State.handsOn at hhands ⊢
    rw [hholders, hqueue]
    split at hhands
    · obtain ⟨hleft, hkept, hsame⟩ := hhands
      exact ⟨hleft, hkept, fun w hw => (hothers w hw).trans (hsame w hw)⟩
    · obtain ⟨hleft, hkept, hsame⟩ := hhands
      exact ⟨hleft, hkept, fun w hw => (hothers w hw).trans (hsame w hw)⟩
  records p := by
    have hgrant := h.records p
    rw [List.append_nil] at hgrant
    exact posts_trans hgrant (hposts p)
  frame := h.frame.trans hframe

/-- The requesting port is told, after the records of the queue. -/
theorem Ends.tellRequester {s t : State} {v : Fin 8} {r : Positioner} (h : Ends s t v r (fun _ => [])) (k : RecordKind) (x : Int) :
    Ends s (t.tellRequester v k x) v { r with port := none }
      (fun p => if r.port = some p then [⟨k, v.val, x, s.deviceSeconds⟩] else []) := by
  refine h.andThen ?_ (tellRequester_holders ..) (tellRequester_queue ..) (fun p => ?_) (.tellRequester ..)
  · funext w
    rw [pos_tellRequester, pos_setPos, h.record]
  · have hown := posts_tellRequester t v k x p
    rw [h.record, h.frame.deviceSeconds] at hown
    exact hown

/-- A positioner outside the queue has no place to leave. -/
theorem leaveTravelQueue_eq {s : State} {v : Fin 8} (h : v ∉ s.positioners.queue) : s.leaveTravelQueue v = s := by
  rw [State.leaveTravelQueue, filter_ne_eq_self h]

/-- A positioner that stands in no queue gives up its slot. -/
theorem ends_slot_given_up {s : State} {v : Fin 8} (h : s.standsApart v) (hv : v ∉ s.positioners.queue) (r : Positioner) :
    Ends s ((s.setPos v r).freeTravelSlot v) v r (fun _ => []) := by
  have hleft : (s.setPos v r).leaveTravelQueue v = s.setPos v r := leaveTravelQueue_eq hv
  have hends := ends_given_up h r
  rwa [hleft] at hends

/-! ### Faults -/

/-- The record of a positioner that enters FAULT, with no requesting port. -/
def Positioner.faulted (r : Positioner) (c : FaultCause) : Positioner :=
  { r with state := .fault, position := none, intent := none, cause := some c, stepTimer := none, port := none }

theorem mem_faultPorts (s : State) (v : Fin 8) (p : Port) :
    p ∈ s.faultPorts v ↔ s.inDomain (posDomain v) p = true ∨ (s.pos v).port = some p := by
  have hall : p ∈ allPorts := by cases p <;> decide
  unfold State.faultPorts
  dsimp only
  split
  · next q hq =>
    rw [hq]
    split
    · next hin =>
      have hset : s.inDomain (posDomain v) q = true := (List.mem_filter.1 (List.contains_iff_mem.1 hin)).2
      simp only [List.mem_filter, hall, true_and, Option.some.injEq]
      exact ⟨.inl, fun h => h.elim id fun he => he ▸ hset⟩
    · simp [hall, eq_comm (a := p)]
  · next hq => simp [hq, hall]

theorem nodup_faultPorts (s : State) (v : Fin 8) : (s.faultPorts v).Nodup := by
  have hset : (allPorts.filter (s.inDomain (posDomain v))).Nodup := List.Nodup.filter _ (by decide)
  unfold State.faultPorts
  dsimp only
  split
  · split
    · exact hset
    · next q _ hin =>
      refine List.nodup_append.2 ⟨hset, List.nodup_singleton q, fun a ha b hb he => hin ?_⟩
      rw [List.contains_iff_mem, ← List.mem_singleton.1 hb, ← he]
      exact ha
  · exact hset

/-- A positioner whose record has become `a` enters FAULT. -/
theorem ends_enterFault {s : State} {v : Fin 8} (h : s.standsApart v) (a : Positioner) (c : FaultCause) :
    Ends s ((s.setPos v a).enterFault v c) v (a.faulted c)
      (fun p => if s.inDomain (posDomain v) p = true ∨ a.port = some p then [⟨.posFault, v.val, c.code, s.deviceSeconds⟩] else []) := by
  unfold State.enterFault
  simp only [pos_setPos_same, setPos_setPos]
  have hfreed := ends_given_up h
    { a with state := .fault, position := none, intent := none, cause := some c, stepTimer := none }
  generalize ((s.setPos v _).leaveTravelQueue v).freeTravelSlot v = freed at hfreed ⊢
  have hposAll : (freed.postAll (freed.faultPorts v) .posFault v.val c.code).pos = freed.pos := pos_congr (by rw [postAll_positioners])
  refine hfreed.andThen ?_ (by simp) (by simp) (fun p => ?_) ((PositionersAndPortsOnly.postAll ..).trans (.setPos ..))
  · funext w
    rw [pos_setPos, pos_setPos, hposAll, hfreed.record]
    rfl
  · have hown := posts_postAll (freed.faultPorts v) (nodup_faultPorts freed v) freed .posFault v.val c.code p
    have hdomain : freed.inDomain (posDomain v) p = s.inDomain (posDomain v) p := by
      rw [State.inDomain, hfreed.frame.authority]
      rfl
    simp only [mem_faultPorts, hfreed.record, hdomain, hfreed.frame.deviceSeconds] at hown
    exact posts_then hown rfl

end Sys2Proof.Machine
end

