-- ==== Sys2Proof/Proofs/PositionerEvents.lean ====
section
/-! PROOFS. The events of the positioners: steps, ends, failures and the inputs (O28 to O31). -/

namespace Sys2Proof.Machine

/-! ### Ends of travel and homing, and the ENDSTOP checks -/

section
variable {s : State} {v : Fin 8} (h : s.standsApart v) (hv : v ∉ s.positioners.queue) (a : Positioner)
include h hv

theorem ends_endTravel :
    Ends s ((s.setPos v a).endTravel v) v { a with state := .idle, stepTimer := none, port := none }
      (fun p => if a.port = some p then [⟨.moveDone, v.val, (a.position.getD 0 : Nat), s.deviceSeconds⟩] else []) := by
  unfold State.endTravel
  simp only [pos_setPos_same, setPos_setPos]
  exact (ends_slot_given_up h hv { a with state := .idle, stepTimer := none }).tellRequester .moveDone _

theorem ends_endHoming :
    Ends s ((s.setPos v a).endHoming v) v { a.homed with port := none }
      (fun p => if a.port = some p then [⟨.homeDone, v.val, 0, s.deviceSeconds⟩] else []) := by
  unfold State.endHoming State.stopHomed
  simp only [pos_setPos_same, setPos_setPos]
  exact (ends_slot_given_up h hv a.homed).tellRequester .homeDone 0

end

/-- The ENDSTOP checks on a positioner of which the record has become `a`. -/
theorem checkEndstop_eq (s : State) (v : Fin 8) (a : Positioner) (stepped : Bool) :
    (s.setPos v a).checkEndstop v stepped =
      (let x := a.position.getD 0
       let c := if a.endstop = true ∧ a.target < x then 0 else x
       let placed := { a with
        position := some c, stepTimer := if stepped then some (s.stepInterval v) else a.stepTimer }
       if a.endstop = true ∧ 20 < x then (s.setPos v a).enterFault v .slip
       else if c = a.target ∧ (stepped = true ∨ c ≠ x) then (s.setPos v placed).endTravel v
       else s.setPos v placed) := by
  unfold State.checkEndstop
  simp only [pos_setPos_same, setPos_setPos, Bool.and_eq_true, decide_eq_true_eq, Bool.or_eq_true, bne_iff_ne]
  rfl

/-- The checks when ENDSTOP has become active. -/
theorem checkEndstop_risen (s : State) (v : Fin 8) {a : Positioner} (he : a.endstop = true) {x : Nat} (hx : a.position = some x) :
    (s.setPos v a).checkEndstop v false =
      if 20 < x then (s.setPos v a).enterFault v .slip
      else if a.target < x then
        (if a.target = 0 then (s.setPos v { a with position := some 0 }).endTravel v else s.setPos v { a with position := some 0 })
      else s.setPos v a := by
  rw [checkEndstop_eq]
  simp only [hx, Option.getD_some, he, true_and, Bool.false_eq_true, false_or, if_false]
  by_cases hslip : 20 < x
  · rw [if_pos hslip, if_pos hslip]
  rw [if_neg hslip, if_neg hslip]
  by_cases hlower : a.target < x
  · have hne : (0 : Nat) ≠ x := by omega
    simp only [hlower, if_true, ne_eq, hne, not_false_eq_true, and_true, eq_comm (a := 0)]
  · simp only [hlower, if_false, ne_eq, not_true_eq_false, and_false]
    rw [← hx, ← he]

/-! ### DRVFAULT and ENDSTOP -/

/-- Settles O31. -/
theorem driverFaultStopsAPositioner : Obligations.DriverFaultStopsAPositioner := by
  intro v s hs r
  have hends := ends_enterFault (standsApart_of_sound hs v) { r with drvfault := true } .driver
  exact ⟨rfl, _, rfl, hends.record, hends.hands, hends.records, hends.frame⟩

/-- Settles O30, by the state of the positioner. -/
theorem endstopActsByTheState : Obligations.EndstopActsByTheState := by
  intro v s hs r x seen ends asked
  have hapart := standsApart_of_sound hs v
  have hasked : ∀ p, asked p = true ↔ r.port = some p := fun p => beq_iff_eq
  have hexec : exec (.endstopActive v true) s = .next (s.endstopRises v) := rfl
  have hqueue : (s.pos v).moving = true → v ∉ s.positioners.queue := not_queued_of_moving hs
  refine ⟨rfl, ?_⟩
  by_cases hhoming : r.state = .homing
  · rw [if_pos hhoming]
    have hends := ends_endHoming hapart (hqueue (by rw [Positioner.moving, show (s.pos v).state = _ from hhoming]; rfl)) seen
    refine ⟨_, hexec, ?_⟩
    have hrises : s.endstopRises v = (s.setPos v seen).endHoming v := by
      rw [State.endstopRises, show (s.pos v).state = _ from hhoming]
    rw [hrises]
    exact ⟨hends.record, hends.hands, fun p => by simpa only [hasked] using hends.records p, hends.frame⟩
  rw [if_neg hhoming]
  by_cases htravel : r.state = .travel
  swap
  · rw [if_neg (fun hc => htravel hc.1), if_neg (fun hc => htravel hc.1), if_neg (fun hc => htravel hc.1), hexec]
    have hrises : s.endstopRises v = s.setPos v seen := by
      unfold State.endstopRises
      dsimp only
      split
      · next hst => exact absurd hst hhoming
      · next hst => exact absurd hst htravel
      · rfl
    rw [hrises]
  have hv := hqueue (by rw [Positioner.moving, show (s.pos v).state = _ from htravel]; rfl)
  have hchecked : s.endstopRises v = (s.setPos v seen).checkEndstop v false := by
    rw [State.endstopRises, show (s.pos v).state = _ from htravel]
  rw [checkEndstop_risen s v (a := seen) rfl (x := x) (position_of_travel hs htravel).1] at hchecked
  simp only [htravel, true_and]
  by_cases hslip : 20 < x
  · rw [if_pos hslip]
    have hends := ends_enterFault hapart seen .slip
    refine ⟨_, hexec.trans (congrArg Host.Outcome.next (hchecked.trans (if_pos hslip))), hends.record, hends.hands,
      fun p => ?_, hends.frame⟩
    simp only [Bool.or_eq_true, hasked]
    exact hends.records p
  rw [if_neg hslip] at hchecked ⊢
  by_cases hlower : r.target < x
  · rw [if_pos hlower] at hchecked
    by_cases hzero : r.target = 0
    · rw [if_pos ⟨hlower, hzero⟩]
      have hends := ends_endTravel hapart hv { seen with position := some 0 }
      refine ⟨_, hexec.trans (congrArg Host.Outcome.next (hchecked.trans (if_pos hzero))), hends.record, hends.hands,
        fun p => ?_, hends.frame⟩
      simp only [hasked]
      exact hends.records p
    · rw [if_neg (fun hc => hzero hc.2), if_pos hlower, hexec, hchecked, if_neg hzero]
  · rw [if_neg (fun hc => hlower hc.1), if_neg hlower, hexec, hchecked, if_neg hlower]

/-! ### Travel steps -/

/-- A travel step, on the record that the step makes. -/
theorem travelStep_eq (s : State) (v : Fin 8) :
    s.travelStep v =
      (let r := s.pos v
       let x := r.position.getD 0
       let y := if x < r.target then x + 1 else if r.target < x then x - 1 else x
       let a := { r with dirOpen := decide (x < r.target), pulses := r.pulses + 1, position := some y }
       let c := if r.endstop = true ∧ r.target < y then 0 else y
       let stepped := { a with position := some c, stepTimer := some (s.stepInterval v) }
       if r.endstop = true ∧ 20 < y then (s.setPos v a).enterFault v .slip
       else if c = r.target then (s.setPos v stepped).endTravel v
       else s.setPos v stepped) := by
  unfold State.travelStep
  dsimp only
  rw [checkEndstop_eq]
  simp only [stepToward, Option.getD_some, true_or, and_true, if_true]
  rfl

/-- Settles O28. -/
theorem travelStepsMoveOneStepAndEnd : Obligations.TravelStepsMoveOneStepAndEnd := by
  intro v s hs r x y c stepped givesUp told alarmed
  have hapart := standsApart_of_sound hs v
  have hstep : exec (.positionerStep v) s = .next (s.travelTimer v) := rfl
  have hend : exec (.travelEnd v) s = .next (s.travelEnd v) := rfl
  refine ⟨fun hother => ⟨?_, ?_⟩, fun htravel => ?_⟩
  · rw [hstep, State.travelTimer, if_neg hother]
  · rw [hend, State.travelEnd]
    exact congrArg _ (if_pos hother)
  have hv : v ∉ s.positioners.queue :=
    not_queued_of_moving hs (by rw [Positioner.moving, show (s.pos v).state = _ from htravel]; rfl)
  have hstep' : exec (.positionerStep v) s = .next (s.travelStep v) := by rw [hstep, State.travelTimer, if_pos htravel]
  have hstepped := travelStep_eq s v
  refine ⟨?_, ?_⟩
  · rw [hstep', hstepped]
    dsimp only
    by_cases hslip : r.endstop = true ∧ 20 < y
    · rw [if_pos hslip, if_pos hslip]
      have hends := ends_enterFault hapart
        { r with dirOpen := decide (x < r.target), pulses := r.pulses + 1, position := some y } .slip
      exact ⟨_, rfl, ⟨hends.hands, hends.frame⟩, hends.records, hends.record⟩
    rw [if_neg hslip, if_neg hslip]
    by_cases htarget : c = r.target
    · rw [if_neg (not_not.2 htarget), if_pos htarget]
      have hends := ends_endTravel hapart hv stepped
      exact ⟨_, rfl, ⟨hends.hands, hends.frame⟩, hends.records, hends.record⟩
    · rw [if_pos htarget, if_neg htarget]
  · have hcases : s.travelEnd v = if x = r.target then s.endTravel v else if y = r.target then s.travelStep v else s := by
      rw [State.travelEnd]
      exact if_neg (not_not.2 htravel)
    rw [hend, hcases]
    by_cases hthere : x = r.target
    · rw [if_pos hthere, if_pos hthere]
      have hends := ends_endTravel hapart hv r
      rw [setPos_pos] at hends
      exact ⟨_, rfl, ⟨hends.hands, hends.frame⟩, hends.records, hends.record⟩
    · rw [if_neg hthere, if_neg hthere, hstep']
      by_cases hnext : y = r.target
      · rw [if_pos hnext, if_pos hnext]
      · rw [if_neg hnext, if_neg hnext]

/-! ### Homing steps -/

/-- Settles O29. -/
theorem homingStepsCountToTheFailure : Obligations.HomingStepsCountToTheFailure := by
  intro v s hs r stepped failed
  have hapart := standsApart_of_sound hs v
  have hstep : exec (.homingStep v) s = .next (s.homingTimer v) := rfl
  have hfail : exec (.homeFail v) s = .next (s.homingFailure v) := rfl
  have hlast : countTo 1100 (s.pos v).homingCount = 1100 ↔ 1099 ≤ (s.pos v).homingCount := by
    unfold countTo
    omega
  refine ⟨fun hother => ⟨?_, ?_⟩, fun hhoming => ?_⟩
  · rw [hstep, State.homingTimer, if_neg hother]
  · rw [hfail, State.homingFailure]
    exact congrArg _ (if_pos (.inl hother))
  have hstepped : s.homingStep v =
      if 1099 ≤ r.homingCount ∧ r.endstop = false then (s.setPos v stepped).enterFault v .homeFail else s.setPos v stepped := by
    unfold State.homingStep
    simp only [Bool.and_eq_true, decide_eq_true_eq, Bool.not_eq_true', hlast]
    rfl
  have hstep' : exec (.homingStep v) s = .next (s.homingStep v) := by rw [hstep, State.homingTimer, if_pos hhoming]
  refine ⟨?_, ?_⟩
  · rw [hstep', hstepped]
    by_cases hdue : 1099 ≤ r.homingCount ∧ r.endstop = false
    · rw [if_pos hdue, if_pos hdue]
      have hends := ends_enterFault hapart stepped .homeFail
      exact ⟨_, rfl, hends.record, hends.hands, hends.records, hends.frame⟩
    · rw [if_neg hdue, if_neg hdue]
  · have hcases : s.homingFailure v =
        if r.endstop = true then s else if 1100 ≤ r.homingCount then s.enterFault v .homeFail
        else if r.homingCount = 1099 then s.homingStep v else s := by
      rw [State.homingFailure]
      simp only [show (s.pos v).state = _ from hhoming, ne_eq, not_true_eq_false, false_or]
      rfl
    rw [hfail, hcases]
    by_cases hidle : r.endstop = true ∨ r.homingCount < 1099
    · rw [if_pos hidle]
      rcases hidle with he | hc
      · rw [if_pos he]
      · rw [if_neg (show ¬1100 ≤ r.homingCount by omega), if_neg (show r.homingCount ≠ 1099 by omega), ite_self]
    rw [if_neg hidle]
    obtain ⟨he, hc⟩ := not_or.1 hidle
    rw [if_neg he]
    by_cases hnext : r.homingCount = 1099
    · rw [if_pos hnext, if_neg (by omega), if_pos hnext, hstep']
    · rw [if_neg hnext, if_pos (by omega)]
      have hends := ends_enterFault hapart r .homeFail
      rw [setPos_pos] at hends
      exact ⟨_, rfl, hends.record, hends.hands, hends.records, hends.frame⟩

end Sys2Proof.Machine
end

