-- ==== Sys2Proof/Proofs/PositionerRequests.lean ====
section
/-! PROOFS. What a request leaves in the ports' queues beside its result, and the requests MOVE and HOME (O32, O33). -/

namespace Sys2Proof.Machine

/-! ### The records of a request -/

section
variable {s t : State} {p : Port}

theorem port_kept_of_ne {q : Port} (h : q ≠ p) (code : Byte) (a : Answer) : (t.answer p code a).port q = t.port q :=
  port_answer_other _ code a h

theorem answered_queue (q : Port) (code : Byte) (a : Answer) : ((t.answer p code a).port q).queue = (t.port q).queue := by
  by_cases h : q = p
  · rw [h, port_answer_same, answer_queue]
  · rw [port_answer_other _ _ _ h]

theorem answered_lost (q : Port) (code : Byte) (a : Answer) : ((t.answer p code a).port q).lost = (t.port q).lost := by
  by_cases h : q = p
  · rw [h, port_answer_same, answer_lost]
  · rw [port_answer_other _ _ _ h]

theorem executing_lost_eq (q : Port) : ((s.enterExecuting p).port q).lost = (s.port q).lost := by
  by_cases h : q = p
  · rw [h, port_enterExecuting_same, executing_lost]
  · rw [port_enterExecuting_other s h]

/-- What its block tells a port stands in the queue when the request is answered. -/
theorem tells_request {q : Port} {rs : List Record} (h : (s.enterExecuting p).tells t q rs) (code : Byte) (a : Answer) :
    s.tells (t.answer p code a) q rs := by
  unfold State.tells at *
  rw [answered_queue]
  rwa [enterExecuting_queue] at h

/-- Another port sees of a request only what its block posts to it. -/
theorem posts_request {q : Port} (hq : q ≠ p) {rs : List Record} (h : (s.enterExecuting p).posts t q rs) (code : Byte) (a : Answer) :
    s.posts (t.answer p code a) q rs := by
  unfold State.posts at *
  rw [port_answer_other _ _ _ hq, h, port_enterExecuting_other s hq]

/-- What its block adds to a queue of one kind. -/
theorem adds_request {q : Port} {kind : RecordKind} {rs : List Record} (h : (s.enterExecuting p).adds t q kind rs) (code : Byte)
    (a : Answer) : s.adds (t.answer p code a) q kind rs := by
  unfold State.adds at *
  rw [answered_queue, answered_lost]
  rwa [enterExecuting_queue] at h

end

theorem positionersAndPortsOnly_executing (s : State) (p : Port) : PositionersAndPortsOnly s (s.enterExecuting p) := by
  cases p <;> rfl

theorem positionersAndPortsOnly_answer (s : State) (p : Port) (code : Byte) (a : Answer) :
    PositionersAndPortsOnly s (s.answer p code a) := by cases p <;> rfl

/-! ### Handing on, within a request -/

theorem PositionersAndPortsOnly.stepInterval {s t : State} (h : PositionersAndPortsOnly s t) (v : Fin 8) :
    t.stepInterval v = s.stepInterval v := by
  unfold State.stepInterval
  rw [h]

theorem PositionersAndPortsOnly.openChoices {s t : State} (h : PositionersAndPortsOnly s t) : t.openChoices = s.openChoices := by
  rw [h]

/-- Who is handed what depends on the positioners and their step intervals alone. -/
theorem handsOn_congr {s u t t' : State} {v : Fin 8} (hs : u.positioners = s.positioners)
    (hi : ∀ w, u.stepInterval w = s.stepInterval w) (ht : t'.positioners = t.positioners) (h : u.handsOn t v) : s.handsOn t' v := by
  have hpos : u.pos = s.pos := pos_congr (congrArg _ hs)
  have hpos' : t'.pos = t.pos := pos_congr (congrArg _ ht)
  have hhomed : u.homedAtGrant = s.homedAtGrant := by rw [State.homedAtGrant, hs, hpos]; rfl
  unfold State.handsOn at *
  simpa only [hs, hpos, hhomed, hi, ht, hpos'] using h

theorem grantRecords_congr {s u : State} (hs : u.positioners = s.positioners) (hd : u.deviceSeconds = s.deviceSeconds)
    (v : Fin 8) (p : Port) : u.grantRecords v p = s.grantRecords v p := by
  have hpos : u.pos = s.pos := pos_congr (congrArg _ hs)
  have hhomed : u.homedAtGrant = s.homedAtGrant := by rw [State.homedAtGrant, hs, hpos]; rfl
  rw [State.grantRecords, hs, hhomed, hpos, hd]
  rfl

theorem standsApart_congr {s u : State} {v : Fin 8} (hs : u.positioners = s.positioners) (h : s.standsApart v) : u.standsApart v := by
  unfold State.standsApart at *
  rwa [hs]

/-- A request by which a positioner ends its work: its earlier port is told of the replaced work, then the slot or the place is handed
on, then the asking port is told. -/
theorem ends_request {s : State} {p : Port} {v : Fin 8} {r : Positioner} {x : State} (value : Int) {own : Port → List Record}
    (h : Ends ((s.enterExecuting p).postTo (s.pos v).port .moveSuperseded v.val value) x v r own) (k : RequestKind) (result : Result) :
    let t := x.answer p k.code { result := result }
    let superseded := fun q => if (s.pos v).port = some q then [(⟨.moveSuperseded, v.val, value, s.deviceSeconds⟩ : Record)] else []
    (t.port p).answers k result ∧ t.pos v = r ∧ s.handsOn t v ∧
      (∀ q, s.tells t q (superseded q ++ s.grantRecords v q ++ own q)) ∧
      (∀ q, q ≠ p → (s.pos v).port ≠ some q → own q = [] → s.posts t q (s.grantRecords v q)) ∧
      t = { s with positioners := t.positioners, ports := t.ports } := by
  intro t superseded
  have hbefore := (positionersAndPortsOnly_executing s p).trans
    (.postTo (s.enterExecuting p) (s.pos v).port .moveSuperseded v.val value)
  have hsame : ((s.enterExecuting p).postTo (s.pos v).port .moveSuperseded v.val value).positioners = s.positioners := by simp
  have hposts : ∀ q, (s.enterExecuting p).posts x q (superseded q ++ s.grantRecords v q ++ own q) := fun q => by
    have hfirst := posts_postTo (s.enterExecuting p) (s.pos v).port .moveSuperseded v.val value q
    have hall := posts_trans hfirst (h.records q)
    rw [grantRecords_congr hsame hbefore.deviceSeconds, ← List.append_assoc] at hall
    simpa using hall
  have hkept : t.positioners = x.positioners := by simp [t]
  refine ⟨answers_answer .., (congrFun (pos_congr (congrArg _ hkept)) v).trans h.record,
    handsOn_congr hsame (fun w => hbefore.stepInterval w) hkept h.hands, fun q => tells_request (tells_of_posts (hposts q)) _ _,
    fun q hq hport hown => ?_, hbefore.trans (h.frame.trans (positionersAndPortsOnly_answer ..))⟩
  have hq' := hposts q
  rw [show superseded q = [] from if_neg hport, hown, List.nil_append, List.append_nil] at hq'
  exact posts_request hq hq' _ _

/-- A port is told at the end. -/
theorem Ends.post {s t : State} {v : Fin 8} {r : Positioner} (h : Ends s t v r (fun _ => [])) (p : Port) (k : RecordKind) (x : Int) :
    Ends s (t.post p k v.val x) v r (fun q => if q = p then [⟨k, v.val, x, s.deviceSeconds⟩] else []) := by
  refine h.andThen ?_ (by simp) (by simp) (fun q => ?_) (.post ..)
  · rw [pos_post, ← h.record, setPos_pos]
  · have hown := posts_post t p k v.val x q
    rwa [h.frame.deviceSeconds] at hown

/-! ### Seeking a slot -/

/-- With a free travel slot a positioner that is to travel takes one. -/
theorem seekTravel_free {s : State} (h : s.positioners.holders.length < 4) (v : Fin 8) (a : Positioner) :
    ∃ k, k ∉ s.positioners.holders.map Prod.fst ∧ (s.setPos v a).seekTravel v = { s with
      positioners := { s.positioners with
        records := put s.positioners.records v (a.travelling (s.stepInterval v))
        holders := s.positioners.holders ++ [(k, v)] }
      openChoices := s.openChoices + 1 } := by
  have hfree : (s.setPos v a).travelSlotFree = true := decide_eq_true h
  obtain ⟨k, hk, htake⟩ := pick_free_slot hfree
  refine ⟨k, hk, ?_⟩
  rw [State.seekTravel, if_pos hfree, htake, State.enterTravel]
  simp [State.setPos, State.pos, Positioner.travelling]
  rfl

theorem seekTravel_full {s : State} (h : ¬s.positioners.holders.length < 4) (v : Fin 8) (a : Positioner) :
    (s.setPos v a).seekTravel v = { s with positioners := { s.positioners with
      records := put s.positioners.records v { a with state := .waiting, intent := some .move }
      queue := s.positioners.queue ++ [v] } } := by
  have hfull : ¬(s.setPos v a).travelSlotFree = true := fun hc => h (of_decide_eq_true hc)
  rw [State.seekTravel, if_neg hfull]
  simp [State.setPos, State.pos]

/-- With a free travel slot a positioner that is to home takes one. -/
theorem seekHoming_free {s : State} (h : s.positioners.holders.length < 4) (v : Fin 8) (a : Positioner) :
    ∃ k, k ∉ s.positioners.holders.map Prod.fst ∧ (s.setPos v a).seekHoming v = { s with
      positioners := { s.positioners with
        records := put s.positioners.records v (a.homing (s.stepInterval v))
        holders := s.positioners.holders ++ [(k, v)] }
      openChoices := s.openChoices + 1 } := by
  have hfree : (s.setPos v a).travelSlotFree = true := decide_eq_true h
  obtain ⟨k, hk, htake⟩ := pick_free_slot hfree
  refine ⟨k, hk, ?_⟩
  rw [State.seekHoming, if_pos hfree, htake, State.beginHoming]
  simp [State.setPos, State.pos, Positioner.homing]
  rfl

theorem seekHoming_full {s : State} (h : ¬s.positioners.holders.length < 4) (v : Fin 8) (a : Positioner) :
    (s.setPos v a).seekHoming v = { s with positioners := { s.positioners with
      records := put s.positioners.records v
        { a with state := if a.state = .idle then .waiting else a.state, intent := some .home }
      queue := s.positioners.queue ++ [v] } } := by
  have hfull : ¬(s.setPos v a).travelSlotFree = true := fun hc => h (of_decide_eq_true hc)
  rw [State.seekHoming, if_neg hfull]
  simp [State.setPos, State.pos]

/-! ### MOVE -/

theorem takes_positioner {s : State} {p : Port} {v : Fin 8} {k : RequestKind} {payload : List Byte}
    (hs : s.mayCommand p (posDomain v) = true) (hk : k = .move ∨ k = .home ∨ k = .posMode) (hn : payload.length ≤ 247)
    (hl : k.lengthAllowed payload = true) (hv : readU8 payload 0 = v.val) : s.takes p k payload := by
  refine takes_of_mayCommand k hs hn hl ?_
  rcases hk with rfl | rfl | rfl <;> simp [State.requestDomain, hv, indexBelow_val]

/-- Settles O32, by the checks and the state of the positioner. -/
theorem moveDirectsAPositioner : Obligations.MoveDirectsAPositioner := by
  intro p v asked s hs hsound hasked r target c mover
  have hv : readU8 (payloadMove v.val asked) 0 = v.val := by simp [payloadMove, readU8_encU8 (show v.val < 256 by omega)]
  have htarget : clampNat 0 1023 (readU16 (payloadMove v.val asked) 1) = target := by
    simp [payloadMove, readU16_encU16_last hasked, clampNat_zero, target]
  have ht : s.takes p .move (payloadMove v.val asked) :=
    takes_positioner hs (.inl rfl) (by simp [payloadMove]) rfl hv
  have hpos : (s.enterExecuting p).pos v = r := enterExecuting_pos ..
  by_cases hmanual : r.manual = false
  · rw [if_pos hmanual]
    exact ht.refused (by simp [State.handOver, handleMove, hv, indexBelow_val, hpos, hmanual])
  rw [if_neg hmanual]
  rw [Bool.not_eq_false] at hmanual
  by_cases hhomed : r.state = .unhomed ∨ r.state = .homing ∨ r.state = .fault
  · rw [if_pos hhomed]
    refine ht.refused ?_
    rcases hhomed with h | h | h <;> simp [State.handOver, handleMove, hv, indexBelow_val, hpos, hmanual, h]
  rw [if_neg hhomed]
  by_cases hbusy : r.state = .waiting ∧ r.intent = some .home
  · rw [if_pos hbusy]
    exact ht.refused (by simp [State.handOver, handleMove, hv, indexBelow_val, hpos, hmanual, hbusy])
  rw [if_neg hbusy]
  by_cases hidle : r.state = .idle
  · rw [if_pos hidle]
    by_cases hthere : r.position = some target
    · rw [if_pos hthere]
      exact ht.served (by simp [State.handOver, handleMove, hv, htarget, indexBelow_val, hpos, hmanual, hidle, hthere])
    rw [if_neg hthere]
    have hseek : (s.enterExecuting p).handOver p .move (payloadMove v.val asked) =
        accepted (((s.enterExecuting p).setPos v mover).seekTravel v) := by
      simp [State.handOver, handleMove, hv, htarget, indexBelow_val, hpos, hmanual, hidle, hthere, mover]
    have hinterval := (positionersAndPortsOnly_executing s p).stepInterval v
    by_cases hfree : s.positioners.holders.length < 4
    · rw [if_pos hfree]
      obtain ⟨k, hk, htaken⟩ := seekTravel_free (s := s.enterExecuting p) (by simpa using hfree) v mover
      refine ⟨k, by simpa using hk, ht.begun (hseek.trans (congrArg accepted (htaken.trans ?_)))⟩
      rw [hinterval]
      simp [Positioner.travelling]
    · rw [if_neg hfree]
      refine ht.begun (hseek.trans (congrArg accepted ((seekTravel_full (by simpa using hfree) v mover).trans ?_)))
      simp
  rw [if_neg hidle]
  have hretarget : (s.enterExecuting p).handOver p .move (payloadMove v.val asked) = (s.enterExecuting p).retarget p v target := by
    have hmoves : r.state = .travel ∨ r.state = .waiting := by cases h : r.state <;> simp_all
    rcases hmoves with h | h
    · simp [State.handOver, handleMove, hv, htarget, indexBelow_val, hpos, hmanual, h]
    · have hnot : r.intent ≠ some .home := fun hc => hbusy ⟨h, hc⟩
      simp [State.handOver, handleMove, hv, htarget, indexBelow_val, hpos, hmanual, h, hnot]
  unfold State.retarget State.supersede at hretarget
  simp only [pos_postTo, hpos] at hretarget
  by_cases hthere : r.position = some target
  · rw [if_pos hthere] at hretarget ⊢
    have happart : ((s.enterExecuting p).postTo r.port .moveSuperseded v.val r.target).standsApart v :=
      standsApart_congr (by simp) (standsApart_of_sound hsound v)
    have hends := (ends_given_up happart
      { mover with state := .idle, intent := none, stepTimer := none }).tellRequester .moveDone target
    have hsettled := ends_request r.target hends .move .ok
    obtain ⟨hanswers, hself, hhands, htells, hposts, hframe⟩ := hsettled
    refine ⟨_, ht _ hretarget, ?_⟩
    unfold State.settleHere
    simp only [pos_setPos_same, setPos_setPos]
    refine ⟨hanswers, hself, hhands, fun q => ?_, fun q hq hport => hposts q hq hport ?_, hframe⟩
    · have htold := htells q
      simp only [mover, Option.some.injEq, eq_comm (a := p), postTo_deviceSeconds, enterExecuting_deviceSeconds] at htold
      exact htold
    · simp [mover, Ne.symm hq]
  · rw [if_neg hthere] at hretarget ⊢
    exact ht.begun hretarget

/-! ### HOME -/

/-- Settles O33, by the checks and the state of the positioner. -/
theorem homeStartsAHoming : Obligations.HomeStartsAHoming := by
  intro p v s hs hsound r c replaced homer homes told waits
  have hv : readU8 (payloadHome v.val) 0 = v.val := by simp [payloadHome, readU8_encU8_last (show v.val < 256 by omega)]
  have ht : s.takes p .home (payloadHome v.val) := takes_positioner hs (.inr (.inl rfl)) (by simp [payloadHome]) rfl hv
  have hpos : (s.enterExecuting p).pos v = r := enterExecuting_pos ..
  have hloaded : (s.enterExecuting p).ownerLoaded v =
      if v = 0 ∨ v = 1 ∨ v = 3 then s.surface.plantValid else s.surface.buildingValid := by
    simp [State.ownerLoaded, plantSide, or_assoc]
  have hreplaced : r.replacedValue = replaced := by
    unfold Positioner.replacedValue
    cases hstate : r.state <;> simp [replaced, hstate]
  by_cases hready : r.drvfault = true ∨ (if v = 0 ∨ v = 1 ∨ v = 3 then s.surface.plantValid else s.surface.buildingValid) = false
  · rw [if_pos hready]
    exact ht.refused (by
      simp only [State.handOver, handleHome, hv, indexBelow_val, hpos, hloaded]
      rw [if_pos (by simpa using hready)])
  rw [if_neg hready]
  by_cases hend : r.endstop = true
  · rw [if_pos hend]
    have hhandle : (s.enterExecuting p).handOver p .home (payloadHome v.val) = okay ((s.enterExecuting p).homeAtEndstop p v) := by
      simp only [State.handOver, handleHome, hv, indexBelow_val, hpos, hloaded]
      rw [if_neg (by simpa using hready), if_pos hend]
    unfold State.homeAtEndstop State.supersede State.stopHomed at hhandle
    simp only [pos_postTo, hpos, hreplaced, pos_setPos_same, setPos_setPos] at hhandle
    have happart : ((s.enterExecuting p).postTo r.port .moveSuperseded v.val replaced).standsApart v :=
      standsApart_congr (by simp) (standsApart_of_sound hsound v)
    have hends := (ends_given_up happart { r.homed with port := none }).post p .homeDone 0
    obtain ⟨hanswers, hself, hhands, htells, hposts, hframe⟩ := ends_request replaced hends .home .ok
    refine ⟨_, ht _ hhandle, hanswers, hself, hhands, fun q => ?_, fun q hq hport => hposts q hq hport (if_neg hq), hframe⟩
    have htold := htells q
    simp only [postTo_deviceSeconds, enterExecuting_deviceSeconds] at htold
    exact htold
  rw [if_neg hend]
  have hhandle : (s.enterExecuting p).handOver p .home (payloadHome v.val) = accepted ((s.enterExecuting p).startHome p v) := by
    simp only [State.handOver, handleHome, hv, indexBelow_val, hpos, hloaded]
    rw [if_neg (by simpa using hready), if_neg hend]
  have hqueued : (s.enterExecuting p).queued v = true ↔ v ∈ s.positioners.queue := by simp [State.queued]
  have hbefore : PositionersAndPortsOnly s (told (s.enterExecuting p)) :=
    (positionersAndPortsOnly_executing s p).trans (.postTo ..)
  have htoldPositioners : (told (s.enterExecuting p)).positioners = s.positioners := by simp [told]
  have hbegins : ∀ x, (s.enterExecuting p).startHome p v = x (s.enterExecuting p) →
      exec c s = .next (s.served p .home .accepted x) :=
    fun x hx => ht.begun (hhandle.trans (congrArg accepted hx))
  have hasked : ((s.enterExecuting p).supersede v ((s.enterExecuting p).pos v).replacedValue) = told (s.enterExecuting p) := by
    rw [hpos, hreplaced, State.supersede, hpos]
  have htoldPos : (told (s.enterExecuting p)).pos v = r := by rw [← hpos]; simp [told]
  have hseeks : (s.enterExecuting p).startHome p v = ((told (s.enterExecuting p)).setPos v homer).seekHoming v →
      if s.positioners.holders.length < 4 then
        ∃ k, k ∉ s.positioners.holders.map Prod.fst ∧ exec c s = .next (s.served p .home .accepted (fun u =>
          { told u with
            positioners := { s.positioners with
              records := put s.positioners.records v homes, holders := s.positioners.holders ++ [(k, v)] }
            openChoices := s.openChoices + 1 }))
      else exec c s = .next (s.served p .home .accepted (fun u =>
        { told u with positioners := { s.positioners with
            records := put s.positioners.records v waits, queue := s.positioners.queue ++ [v] } })) := by
    intro hstart
    by_cases hfree : s.positioners.holders.length < 4
    · rw [if_pos hfree]
      obtain ⟨k, hk, htaken⟩ := seekHoming_free (s := told (s.enterExecuting p)) (by rwa [htoldPositioners]) v homer
      rw [htoldPositioners] at hk
      rw [hbefore.stepInterval, htoldPositioners, hbefore.openChoices] at htaken
      exact ⟨k, hk, hbegins _ (hstart.trans htaken)⟩
    · rw [if_neg hfree]
      have hwaits := seekHoming_full (s := told (s.enterExecuting p)) (by rwa [htoldPositioners]) v homer
      rw [htoldPositioners] at hwaits
      exact hbegins _ (hstart.trans hwaits)
  by_cases htravel : r.state = .travel
  · rw [if_pos htravel]
    refine hbegins _ ?_
    rw [State.startHome, hasked, htoldPos, hpos, htravel]
    simp only [State.beginHoming, pos_setPos_same, setPos_setPos]
    rw [show ((told (s.enterExecuting p)).setPos v homer).stepInterval v = s.stepInterval v from hbefore.stepInterval v]
  rw [if_neg htravel]
  by_cases hwaiting : r.state = .waiting
  · rw [if_pos hwaiting]
    refine hbegins _ ?_
    rw [State.startHome, hasked, htoldPos, hpos, hwaiting]
    simp only [pos_setPos_same, setPos_setPos]
    rw [← hwaiting]
  rw [if_neg hwaiting]
  by_cases honly : r.state = .homing ∨ v ∈ s.positioners.queue
  · rw [if_pos honly]
    refine hbegins _ ?_
    rw [State.startHome, hasked, htoldPos, hpos]
    by_cases hhoming : r.state = .homing
    · rw [hhoming]
    · have hqueue : v ∈ s.positioners.queue := honly.resolve_left hhoming
      rcases hsound.queued v hqueue with h | ⟨h | h, -⟩
      · exact absurd h hwaiting
      · rw [show r.state = _ from h]
        exact if_pos (hqueued.2 hqueue)
      · rw [show r.state = _ from h]
        exact if_pos (hqueued.2 hqueue)
  rw [if_neg honly]
  obtain ⟨hhoming, hqueue⟩ := not_or.1 honly
  refine hseeks ?_
  rw [State.startHome, hasked, htoldPos, hpos]
  have hqueue' : ¬(s.enterExecuting p).queued v = true := fun h => hqueue (hqueued.1 h)
  cases h : r.state with
  | travel => exact absurd h htravel
  | waiting => exact absurd h hwaiting
  | homing => exact absurd h hhoming
  | idle => rfl
  | unhomed => exact if_neg hqueue'
  | fault => exact if_neg hqueue'

end Sys2Proof.Machine
end

