-- ==== Sys2Proof/Proofs/PowerOnReset.lean ====
section
/-! PROOFS. Power-on reset (O3). -/

namespace Sys2Proof.Machine

/-! ### Operations on distinct objects, one after the other -/

section
variable {α β : Type} (f : State → α → State) (get : State → α → β) (Q : State → Prop)
  (hQ : ∀ t x, Q t → Q (f t x)) (hother : ∀ t x y, Q t → y ≠ x → get (f t x) y = get t y)
include hQ hother

/-- Each object is changed once, by its own operation. -/
theorem get_foldl [DecidableEq α] (F : α → β → β) (hself : ∀ t x, Q t → get (f t x) x = F x (get t x)) (l : List α) (hl : l.Nodup)
    (s : State) (hs : Q s) (y : α) : get (l.foldl f s) y = if y ∈ l then F y (get s y) else get s y := by
  induction l generalizing s with
  | nil => exact (if_neg List.not_mem_nil).symm
  | cons x l ih =>
    rw [List.nodup_cons] at hl
    rw [List.foldl_cons, ih hl.2 _ (hQ s x hs)]
    by_cases hy : y = x
    · rw [hy, if_neg hl.1, if_pos List.mem_cons_self, hself s x hs]
    · rw [hother s x y hs hy]
      simp only [List.mem_cons, hy, false_or]

/-- What each posts depends on its own object, as it was at the start. -/
theorem posts_foldl_of_apart (p : Port) (g : α → β → List Record) (hposts : ∀ t x, Q t → t.posts (f t x) p (g x (get t x)))
    (l : List α) (hl : l.Nodup) (s : State) (hs : Q s) : s.posts (l.foldl f s) p (l.flatMap fun x => g x (get s x)) := by
  induction l generalizing s with
  | nil => exact posts_refl s p
  | cons x l ih =>
    rw [List.nodup_cons] at hl
    have h := posts_trans (hposts s x hs) (ih hl.2 (f s x) (hQ s x hs))
    have heq : (l.flatMap fun y => g y (get (f s x) y)) = l.flatMap fun y => g y (get s y) :=
      List.flatMap_congr fun y hy => by rw [hother s x y hs fun he => hl.1 (he ▸ hy)]
    rw [heq] at h
    exact h

end

theorem nodup_all8 : all8.Nodup := by decide
theorem mem_all8 (n : Fin 8) : n ∈ all8 := by fin_cases n <;> decide

/-- A queue with room for all of them takes the records, and nothing else of the port changes. -/
theorem foldl_enqueue_eq (rs : List Record) (q : PortState) (h : q.queue.length + rs.length ≤ 8) :
    rs.foldl PortState.enqueue q = { q with queue := q.queue ++ rs } := by
  induction rs generalizing q with
  | nil => simp
  | cons r rs ih =>
    simp only [List.length_cons] at h
    rw [List.foldl_cons, enqueue_of_room (by omega), ih]
    · simp
    · simp only [List.length_append, List.length_singleton]
      omega

/-! ### Positioners that enter FAULT at the release -/

/-- No positioner holds a slot or waits for one, and the map and the clock are those of reset. -/
structure NoTravel (s : State) : Prop where
  holders       : s.positioners.holders = []
  queue         : s.positioners.queue = []
  authority     : s.authority = State.reset.authority
  deviceSeconds : s.deviceSeconds = 0

/-- The fault of one positioner at the release. -/
def faultOne (t : State) (v : Fin 8) : State := if (t.pos v).drvfault then t.enterFault v .driver else t

/-- With no slot held and no positioner queued, a fault concerns its own positioner alone. -/
theorem faultOne_ends {s : State} (h : NoTravel s) (v : Fin 8) :
    NoTravel (faultOne s v) ∧
    (∀ w, (faultOne s v).pos w = if w = v ∧ (s.pos v).drvfault = true then (s.pos v).faulted .driver else s.pos w) ∧
    (∀ p, s.posts (faultOne s v) p
      (if (s.pos v).drvfault = true ∧ (State.reset.inDomain (posDomain v) p = true ∨ (s.pos v).port = some p) then
        [⟨.posFault, v.val, 2, 0⟩] else [])) ∧
    PositionersAndPortsOnly s (faultOne s v) := by
  by_cases hd : (s.pos v).drvfault = true
  swap
  · rw [faultOne, if_neg hd]
    exact ⟨h, fun w => by rw [if_neg fun hc => hd hc.2], fun p => by rw [if_neg fun hc => hd hc.1]; exact posts_refl s p, .refl s⟩
  rw [faultOne, if_pos hd]
  have hends := ends_enterFault (s := s) (v := v) ⟨by rw [h.queue]; exact List.nodup_nil, by rw [h.queue]; simp⟩ (s.pos v) .driver
  rw [setPos_pos] at hends
  have hhands := hends.hands
  have hnone : s.positioners.holders.find? (fun h => h.2 == v) = none := by rw [h.holders]; rfl
  rw [State.handsOn, hnone] at hhands
  obtain ⟨hholders, hqueue, hothers⟩ := hhands
  refine ⟨⟨hholders.trans h.holders, by rw [hqueue, h.queue]; rfl, hends.frame.authority.trans h.authority,
    hends.frame.deviceSeconds.trans h.deviceSeconds⟩, fun w => ?_, fun p => ?_, hends.frame⟩
  · by_cases hw : w = v
    · rw [hw, if_pos ⟨rfl, hd⟩, hends.record]
    · rw [if_neg fun hc => hw hc.1, hothers w hw]
  · have hrecords := hends.records p
    have hgrant : s.grantRecords v p = [] := if_neg (by rw [h.holders]; simp)
    have hdomain : s.inDomain (posDomain v) p = State.reset.inDomain (posDomain v) p := by
      rw [State.inDomain, h.authority]
      rfl
    rw [hgrant, List.nil_append, hdomain, h.deviceSeconds] at hrecords
    simp only [hd, true_and]
    exact hrecords

theorem noTravel_released (s : State) (straps : Straps) (drvfault endstop : BitVec 8) (proven : Bool) :
    NoTravel (s.released straps drvfault endstop proven) := ⟨rfl, rfl, rfl, rfl⟩

/-- Settles O3. -/
theorem powerOnResetRestoresEveryBlock : Obligations.PowerOnResetRestoresEveryBlock := by
  intro straps drvfault endstop proven s
  have hstart := noTravel_released s straps drvfault endstop proven
  have hposStart := pos_released s straps drvfault endstop proven
  have hportStart : ∀ p, (s.released straps drvfault endstop proven).port p = PortState.reset (strapRate (match p with
      | .portP => straps.p | .portB => straps.b | .portL => straps.l)) := fun p => by cases p <;> rfl
  have hfold : (s.released straps drvfault endstop proven).faultAtReset =
      all8.foldl faultOne (s.released straps drvfault endstop proven) := rfl
  have hkept : NoTravel (s.released straps drvfault endstop proven).faultAtReset ∧
      PositionersAndPortsOnly (s.released straps drvfault endstop proven) (s.released straps drvfault endstop proven).faultAtReset :=
    foldl_related (R := fun s t => NoTravel s → NoTravel t ∧ PositionersAndPortsOnly s t) (fun s h => ⟨h, .refl s⟩)
      (fun h k hs => ⟨(k (h hs).1).1, (h hs).2.trans (k (h hs).1).2⟩) _
      (fun t v ht => ⟨(faultOne_ends ht v).1, (faultOne_ends ht v).2.2.2⟩) all8 _ hstart
  have hpos : ∀ v, (s.released straps drvfault endstop proven).faultAtReset.pos v =
      if drvfault.getLsbD v.val then (resetPositioner drvfault endstop v).faulted .driver
      else resetPositioner drvfault endstop v := fun v => by
    have h := get_foldl faultOne State.pos NoTravel (fun t x ht => (faultOne_ends ht x).1)
      (fun t x y ht hy => ((faultOne_ends ht x).2.1 y).trans (if_neg fun hc => hy hc.1))
      (fun _ r => if r.drvfault = true then r.faulted .driver else r)
      (fun t x ht => ((faultOne_ends ht x).2.1 x).trans (by simp)) all8 nodup_all8 _ hstart v
    rw [if_pos (mem_all8 v), hposStart] at h
    exact h
  refine ⟨_, rfl, ?_, fun v => ?_, fun p => ?_⟩
  · obtain ⟨hnone, hframe⟩ := hkept
    generalize (s.released straps drvfault endstop proven).faultAtReset = t at hnone hframe
    have hpositioners : t.positioners = { t.positioners with holders := [], queue := [] } := by
      rw [← hnone.holders, ← hnone.queue]
    rw [← hpositioners]
    exact hframe
  · rw [hpos]
    by_cases hd : drvfault.getLsbD v.val = true
    · simp [hd, Positioner.faulted, resetPositioner, Positioner.reset]
    · rw [Bool.not_eq_true] at hd
      simp only [resetPositioner, hd, Bool.false_eq_true, if_false]
      rfl
  · have h := posts_foldl_of_apart faultOne State.pos NoTravel (fun t x ht => (faultOne_ends ht x).1)
      (fun t x y ht hy => ((faultOne_ends ht x).2.1 y).trans (if_neg fun hc => hy hc.1)) p
      (fun v r => if r.drvfault = true ∧ (State.reset.inDomain (posDomain v) p = true ∨ r.port = some p) then
        [⟨.posFault, v.val, 2, 0⟩] else [])
      (fun t x ht => (faultOne_ends ht x).2.2.1 p) all8 nodup_all8 _ hstart
    have hrecords : (all8.flatMap fun v => if ((s.released straps drvfault endstop proven).pos v).drvfault = true ∧
          (State.reset.inDomain (posDomain v) p = true ∨ ((s.released straps drvfault endstop proven).pos v).port = some p) then
          [(⟨.posFault, v.val, 2, 0⟩ : Record)] else []) =
        (all8.filter (fun v => drvfault.getLsbD v.val && State.reset.inDomain (posDomain v) p)).map
          (fun v => ⟨.posFault, v.val, 2, 0⟩) := by
      rw [← flatMap_singleton_if]
      refine List.flatMap_congr fun v _ => ?_
      rw [hposStart]
      have hasked : ¬(resetPositioner drvfault endstop v).port = some p := by simp [resetPositioner, Positioner.reset]
      simp only [hasked, or_false, Bool.and_eq_true]
      rfl
    rw [hrecords] at h
    unfold State.posts at h
    rw [hfold, h, hportStart]
    refine foldl_enqueue_eq _ _ ?_
    have hlen : (all8.filter (fun v => drvfault.getLsbD v.val && State.reset.inDomain (posDomain v) p)).length ≤ 8 :=
      List.length_filter_le ..
    simpa [PortState.reset] using hlen

end Sys2Proof.Machine
end

