-- ==== Sys2Proof/Proofs/PortRequests.lean ====
section
/-! PROOFS. The port's own part in a request: the checks before a block, what a refusal leaves, and frames that break off
(O49 to O51). -/

namespace Sys2Proof.Machine

/-! ### What every block answers -/

/-- The block's answer is OK, or is ACCEPTED without payload, or is a refusal that leaves the state. -/
def Handled.settled (h : Handled) (s : State) : Prop :=
  h.2.result = .ok ∨ h.2 = { result := .accepted } ∨ h = refuse s h.2.result

@[simp] theorem settled_refuse (s : State) (r : Result) : (refuse s r).settled s := .inr (.inr rfl)
@[simp] theorem settled_okay (s t : State) : (okay t).settled s := .inl rfl
@[simp] theorem settled_accepted (s t : State) : (accepted t).settled s := .inr (.inl rfl)
@[simp] theorem settled_ok (s t : State) (bs : List Byte) (lost : Option Bool) :
    Handled.settled (t, { result := .ok, payload := bs, lostBefore := lost }) s := .inl rfl

section
variable (s : State) (p : Port) (payload : List Byte)

theorem handleCollect_settled : (handleCollect s p).settled s := by
  unfold handleCollect
  dsimp only
  split <;> simp

theorem handleRead_settled : (handleRead s payload).settled s := by
  unfold handleRead
  dsimp only
  split
  · simp
  · split <;> simp

theorem authority_settled : (handleAuthSet s payload).settled s ∧ (handleAuthLock s payload).settled s := by
  constructor
  · unfold handleAuthSet
    split
    · split <;> simp
    · simp
  · unfold handleAuthLock
    split <;> simp

theorem probes_settled :
    (handleCalibrateShort s).settled s ∧ (handleProbeOverride s payload).settled s ∧ (handleProbeRelease s payload).settled s := by
  refine ⟨?_, ?_, ?_⟩
  · unfold handleCalibrateShort
    split <;> simp
  · unfold handleProbeOverride
    split
    · simp
    · split <;> simp
  · unfold handleProbeRelease
    split
    · simp
    · split <;> simp

theorem handleSurfaceMode_settled : (handleSurfaceMode s payload).settled s := by
  unfold handleSurfaceMode
  split
  · simp
  · dsimp only
    repeat' split
    all_goals simp

theorem handleLoadProfile_settled : (handleLoadProfile s p payload).settled s := by
  unfold handleLoadProfile
  split
  · unfold loadPlant
    dsimp only
    repeat' split
    all_goals simp
  · unfold loadBuilding
    dsimp only
    split <;> simp
  · unfold loadLighting
    dsimp only
    split <;> simp
  all_goals simp

theorem handleSlabScan_settled : (handleSlabScan s payload).settled s := by
  unfold handleSlabScan
  dsimp only
  split
  · simp
  · split <;> simp

theorem pool_settled :
    (handleResurfPreheat s payload).settled s ∧ (handleClaimManual s p payload).settled s ∧ (handleClaimAuto s payload).settled s := by
  refine ⟨?_, ?_, ?_⟩
  · unfold handleResurfPreheat
    split <;> simp
  · unfold handleClaimManual
    dsimp only
    repeat' split
    all_goals simp
  · unfold handleClaimAuto
    repeat' split
    all_goals simp

theorem zones_settled :
    (handleZoneSet s payload).settled s ∧ (handleZoneSource s p payload).settled s ∧ (handleZoneLock s payload).settled s := by
  refine ⟨?_, ?_, ?_⟩
  · unfold handleZoneSet
    split <;> simp
  · unfold handleZoneSource
    dsimp only
    repeat' split
    all_goals simp
  · unfold handleZoneLock
    split <;> simp

theorem retarget_settled (v : Fin 8) (target : Nat) : (s.retarget p v target).settled s := by
  unfold State.retarget
  dsimp only
  split <;> simp

theorem positioners_settled :
    (handleMove s p payload).settled s ∧ (handleHome s p payload).settled s ∧ (handlePosMode s payload).settled s := by
  refine ⟨?_, ?_, ?_⟩
  · unfold handleMove
    dsimp only
    repeat' split
    all_goals simp [retarget_settled]
  · unfold handleHome
    repeat' split
    all_goals simp
  · unfold handlePosMode
    dsimp only
    repeat' split
    all_goals simp

theorem handleGo_settled : (handleGo s p payload).settled s := by
  unfold handleGo
  dsimp only
  split
  · simp
  · split
    · simp
    · split
      · simp
      · split
        · unfold State.goMiss
          split <;> simp
        · split
          · unfold State.goHit
            dsimp only
            repeat' split
            all_goals simp
          · simp [State.goJoin]

theorem cueStore_settled :
    (handleCueWrite s payload).settled s ∧ (handleCueInvalidate s payload).settled s ∧ (handleCueProbe s payload).settled s := by
  refine ⟨?_, ?_, ?_⟩
  · unfold handleCueWrite
    dsimp only
    repeat' split
    all_goals simp
  · unfold handleCueInvalidate
    dsimp only
    repeat' split
    all_goals simp
  · unfold handleCueProbe
    dsimp only
    split <;> simp

theorem handleRelease_settled : (handleRelease s p payload).settled s := by
  unfold handleRelease
  dsimp only
  repeat' split
  all_goals simp

/-- Every request is carried out, begun, or refused with no effect. -/
theorem handOver_settled (k : RequestKind) : (s.handOver p k payload).settled s := by
  cases k with
  | status => exact settled_ok ..
  | collect => exact handleCollect_settled s p
  | read => exact handleRead_settled s payload
  | authSet => exact (authority_settled s payload).1
  | authLock => exact (authority_settled s payload).2
  | calibrateShort => exact (probes_settled s payload).1
  | probeOverride => exact (probes_settled s payload).2.1
  | probeRelease => exact (probes_settled s payload).2.2
  | surfaceMode => exact handleSurfaceMode_settled s payload
  | loadProfile => exact handleLoadProfile_settled s p payload
  | plantReport => exact settled_okay ..
  | slabScan => exact handleSlabScan_settled s payload
  | resurfPreheat => exact (pool_settled s p payload).1
  | claimManual => exact (pool_settled s p payload).2.1
  | claimAuto => exact (pool_settled s p payload).2.2
  | zoneSet => exact (zones_settled s p payload).1
  | zoneSource => exact (zones_settled s p payload).2.1
  | zoneLock => exact (zones_settled s p payload).2.2
  | move => exact (positioners_settled s p payload).1
  | home => exact (positioners_settled s p payload).2.1
  | posMode => exact (positioners_settled s p payload).2.2
  | go => exact handleGo_settled s p payload
  | cueWrite => exact (cueStore_settled s payload).1
  | cueInvalidate => exact (cueStore_settled s payload).2.1
  | cueProbe => exact (cueStore_settled s payload).2.2
  | release => exact handleRelease_settled s p payload

/-- The port's own refusals have no effect either. -/
theorem judgeRequest_settled (code : Byte) : (s.judgeRequest p code payload).settled s := by
  unfold State.judgeRequest
  split
  · simp
  · split
    · simp
    · split
      · simp
      · split
        · simp
        · exact handOver_settled ..
        · split
          · exact handOver_settled ..
          · simp

end

/-- A request at a ready port is judged, and answered with what is found. -/
theorem exec_judged (k : RequestKind) {p : Port} {payload : List Byte} {s : State} (hr : (s.port p).ready = true)
    (hn : payload.length ≤ 247) :
    exec (k.command p payload) s = .next (((s.enterExecuting p).judgeRequest p k.code payload).1.answer p k.code
      ((s.enterExecuting p).judgeRequest p k.code payload).2) := by
  rw [exec_command, request_of_ready s p k.code payload hr hn]
  rfl

/-- Settles O51. -/
theorem refusedRequestsHaveNoEffect : Obligations.RefusedRequestsHaveNoEffect := by
  intro p k payload s hr hn
  have hsettled := judgeRequest_settled (s.enterExecuting p) p payload k.code
  have hexec := exec_judged k hr hn
  generalize (s.enterExecuting p).judgeRequest p k.code payload = h at hsettled hexec
  refine ⟨_, h.2.result, hexec, by rw [port_answer_same]; rfl, ⟨_, h.2.payload, by rw [port_answer_same]; rfl, fun hok => ?_⟩,
    fun hok hacc => ?_⟩
  · obtain hok' | hacc | hrefused := hsettled
    · exact absurd hok' hok
    · rw [hacc]
    · rw [hrefused]
      rfl
  · obtain hok' | hacc' | hrefused := hsettled
    · exact absurd hok' hok
    · exact absurd (by rw [hacc']) hacc
    · rw [hrefused]
      rfl

/-! ### The checks in their order -/

theorem exec_refused (k : RequestKind) {p : Port} {payload : List Byte} {s : State} (hr : (s.port p).ready = true)
    (hn : payload.length ≤ 247) {r : Result}
    (h : (s.enterExecuting p).judgeRequest p k.code payload = refuse (s.enterExecuting p) r) :
    exec (k.command p payload) s = .next (s.refused p k.code r) := by
  rw [exec_judged k hr hn, h]
  rfl

theorem ofCode_resurface (n : Nat) : Mode.ofCode n = some .resurface ↔ n = 4 := by
  rcases n with _ | _ | _ | _ | _ | _ | n <;> simp [Mode.ofCode]

/-- The kind byte of LOAD_PROFILE fixes its length. -/
theorem loadProfile_length (payload : List Byte) :
    RequestKind.loadProfile.lengthAllowed payload = true ↔ payload.length + 3 =
      if readU8 payload 0 = 0 then 42 else if readU8 payload 0 = 1 then 61 else if readU8 payload 0 = 2 then 196 else 0 := by
  unfold RequestKind.lengthAllowed
  dsimp only
  generalize readU8 payload 0 = kind
  rcases kind with _ | _ | _ | kind <;> simp

theorem posDomain_eq (v : Fin 8) : posDomain v = if v.val = 0 ∨ v.val = 1 ∨ v.val = 3 then 4 else 5 := by
  fin_cases v <;> rfl

/-- Settles O50, check by check. -/
theorem portChecksComeBeforeTheBlock : Obligations.PortChecksComeBeforeTheBlock := by
  intro p payload s hr hn
  refine ⟨fun code hcode => ?_, ?_⟩
  · have hexec : exec (.unknownRequest p code payload) s = .next (s.takeRequest p code payload) := by
      rw [← request_of_ready s p code payload hr hn]
      rfl
    rw [hexec, State.takeRequest, State.judgeRequest, ofCode_unknown hcode]
    rfl
  intro k first length domain
  have hlength : k.lengthAllowed payload = true ↔ payload.length + 3 = length := by
    cases k with
    | loadProfile => exact loadProfile_length payload
    | _ =>
      simp only [RequestKind.lengthAllowed, length, beq_iff_eq, Bool.and_eq_true, decide_eq_true_eq]
      omega
  have hdomain : ∀ d, domain = some d → ¬((k = .move ∨ k = .home ∨ k = .posMode) ∧ 7 < first) →
      (s.enterExecuting p).requestDomain k payload = some (some d) := by
    intro d hd hexists
    have hpositioner : ∀ h : first < 8,
        (indexBelow 8 first).map (fun v => some (posDomain v)) = some (some (if first = 0 ∨ first = 1 ∨ first = 3 then 4 else 5)) :=
      fun h => by simp [indexBelow, h, posDomain_eq]
    have hsurface : (s.enterExecuting p).surfaceModeDomain payload =
        if first = 4 ∨ s.surface.mode = .resurface then 1 else 0 := by
      simp only [State.surfaceModeDomain, ofCode_resurface, enterExecuting_surface]
      rfl
    cases k with
    | surfaceMode => rw [← hd, State.requestDomain, hsurface]
    | move => rw [← hd]; exact hpositioner (Nat.lt_of_not_le fun h => hexists ⟨by simp, h⟩)
    | home => rw [← hd]; exact hpositioner (Nat.lt_of_not_le fun h => hexists ⟨by simp, h⟩)
    | posMode => rw [← hd]; exact hpositioner (Nat.lt_of_not_le fun h => hexists ⟨by simp, h⟩)
    | status | collect | read | loadProfile | slabScan | go | release => exact nomatch (show none = some d from hd)
    | _ => exact congrArg some hd
  have hunblocked : k.unblocked = true ↔ ¬(k ≠ .status ∧ k ≠ .collect ∧ k ≠ .read) := by
    cases k <;> simp [RequestKind.unblocked]
  have hjudged := fun r => exec_refused k hr hn (r := r)
  unfold State.judgeRequest at hjudged
  rw [ofCode_code] at hjudged
  simp only [port_enterExecuting_same, mustCollectPending_executing] at hjudged
  by_cases hlen : payload.length + 3 ≠ length
  · rw [if_pos hlen]
    exact hjudged _ (if_pos (by simpa using mt hlength.1 hlen))
  have hlen' : ¬(!k.lengthAllowed payload) = true := by simpa using hlength.2 (not_not.1 hlen)
  rw [if_neg hlen]
  by_cases hmust : (s.port p).mustCollectPending = true ∧ k ≠ .status ∧ k ≠ .collect ∧ k ≠ .read
  · rw [if_pos hmust]
    refine hjudged _ ((if_neg hlen').trans (if_pos ?_))
    rw [hmust.1, Bool.eq_false_iff.2 fun h => hunblocked.1 h hmust.2]
    rfl
  have hmust' : ¬((s.port p).mustCollectPending && !k.unblocked) = true := by
    simp only [Bool.and_eq_true, Bool.not_eq_true', not_and, Bool.not_eq_false]
    exact fun h => hunblocked.2 fun hk => hmust ⟨h, hk⟩
  rw [if_neg hmust]
  by_cases hexists : (k = .move ∨ k = .home ∨ k = .posMode) ∧ 7 < first
  · rw [if_pos hexists]
    refine hjudged _ ((if_neg hlen').trans ((if_neg hmust').trans ?_))
    have hnone : (s.enterExecuting p).requestDomain k payload = none := by
      have hindex : indexBelow 8 first = none := indexBelow_of_le hexists.2
      rcases hexists.1 with rfl | rfl | rfl <;> exact congrArg (Option.map fun v => some (posDomain v)) hindex
    rw [hnone]
  · rw [if_neg hexists]
    intro d hd hin
    refine hjudged _ ((if_neg hlen').trans ((if_neg hmust').trans ?_))
    rw [hdomain d hd hexists]
    exact if_neg (by rw [enterExecuting_inDomain, hin]; exact Bool.false_ne_true)

/-! ### Frames that break off, and frames out of turn -/

/-- A frame that fails drops what was received of it. -/
theorem failLink_setPort (s : State) (p : Port) {q : PortState} (h : q.executing = (s.port p).executing) :
    (s.setPort p q).failLink p = s.refused p 0 .linkError := by
  rw [State.failLink, State.enterExecuting, port_setPort_same, setPort_setPort, h]
  rfl

/-- The beginning of a frame leaves the port in RECEIVING, with nothing but the frame's own fields changed. -/
theorem receive_beginning {s : State} {p : Port} (hr : (s.port p).ready = true) {bytes : List RxByte} (h : beginsFrame bytes = true) :
    ∃ q, s.receive p bytes = s.setPort p q ∧ q.phase = .receiving ∧ q.executing = (s.port p).executing := by
  match bytes with
  | [] => exact nomatch h
  | [start] => exact ⟨_, receiveByte_start s p start hr h, rfl, rfl⟩
  | start :: len :: rest =>
    simp only [beginsFrame, Bool.and_eq_true, decide_eq_true_eq] at h
    obtain ⟨⟨hstart, hlen⟩, hshort⟩ := h
    have hrun : s.receive p (start :: len :: rest) = ((s.receiveByte p start).receiveByte p len).receive p rest := rfl
    obtain ⟨k, hk⟩ : ∃ k, len.value.toNat - 1 = rest.length + (k + 1) := ⟨len.value.toNat - 2 - rest.length, by omega⟩
    refine ⟨((s.port p).lengthTaken start.value len.value).grown rest (k + 1), ?_, rfl, rfl⟩
    rw [hrun, receive_head s p start len hr hstart hlen, receive_grow p rest k]
    · rw [port_setPort_same, setPort_setPort]
    · rw [port_setPort_same]
      exact started_inFrame (s.port p) start.value hr
    · rw [port_setPort_same]
      simp [PortState.lengthTaken]
    · rw [port_setPort_same]
      exact hk

/-- Bytes that are no more than the discard remaining are dropped. -/
theorem receive_dropped {s : State} {p : Port} (hline : (s.port p).lineDropped = false) (hawait : (s.port p).awaitLength = false)
    (rest : List RxByte) (h : rest.length ≤ (s.port p).discard) :
    s.receive p rest = s.setPort p { s.port p with discard := (s.port p).discard - rest.length } := by
  induction rest generalizing s with
  | nil => exact (setPort_port s p).symm
  | cons b rest ih =>
    rw [List.length_cons] at h
    have hstep : s.receiveByte p b = s.setPort p { s.port p with discard := (s.port p).discard - 1 } := by
      simp [State.receiveByte, hline, hawait, show 0 < (s.port p).discard by omega]
    have hrun : s.receive p (b :: rest) = (s.receiveByte p b).receive p rest := rfl
    have hrest := ih (s := s.setPort p { s.port p with discard := (s.port p).discard - 1 })
      (by rw [port_setPort_same]; exact hline) (by rw [port_setPort_same]; exact hawait)
      (by rw [port_setPort_same]; exact Nat.le_sub_one_of_lt h)
    have harith : (s.port p).discard - 1 - rest.length = (s.port p).discard - (rest.length + 1) := by omega
    rw [hrun, hstep, hrest, port_setPort_same, setPort_setPort, List.length_cons, ← harith]

/-- The start byte of a frame out of turn, and the byte that follows it. -/
theorem receive_outOfTurn {s : State} {p : Port} (hphase : (s.port p).phase = .executing ∨ (s.port p).phase = .answering)
    (hline : (s.port p).lineDropped = false) (hawait : (s.port p).awaitLength = false) (hdiscard : (s.port p).discard = 0)
    {first : RxByte} (hfirst : first.startsFrame = true) (len : RxByte) :
    (s.receiveByte p first).receiveByte p len = s.setPort p { s.port p with
      outOfTurn := true, discard := if len.goodLength then len.value.toNat - 1 else 0 } := by
  have hstart : s.receiveByte p first = s.setPort p { s.port p with outOfTurn := true, awaitLength := true } := by
    rcases hphase with h | h <;> simp [State.receiveByte, h, hline, hawait, hdiscard, PortState.busyByte, hfirst]
  rw [hstart, State.receiveByte]
  simp [hline, hawait]

/-- The running parity of a list of bits. -/
theorem foldl_xor (bits : List Bool) (a : Bool) : bits.foldl Bool.xor a = decide ((bits.countP id + if a then 1 else 0) % 2 = 1) := by
  induction bits generalizing a with
  | nil => cases a <;> rfl
  | cons b bits ih =>
    rw [List.foldl_cons, ih, List.countP_cons]
    congr 1
    cases a <;> cases b <;> grind

/-- A byte is bad by the bits that it and its parity bit hold, or by its stop bit. -/
theorem bad_iff (b : RxByte) : b.bad = true ↔
    ((List.range 8).countP (fun k => b.value.getLsbD k) + if b.parity then 1 else 0) % 2 = 1 ∨ b.stop = false := by
  have hcount : (dataBits b.value).countP id = (List.range 8).countP (fun k => b.value.getLsbD k) := by
    rw [dataBits, List.countP_map]
    rfl
  have heven : evenParity b.value = decide ((List.range 8).countP (fun k => b.value.getLsbD k) % 2 = 1) := by
    rw [evenParity, foldl_xor, hcount]
    rfl
  simp only [RxByte.bad, RxByte.parityError, RxByte.framingError, Bool.or_eq_true, bne_iff_ne, Bool.not_eq_true', heven]
  generalize (List.range 8).countP (fun k => b.value.getLsbD k) = n
  refine or_congr_left ?_
  cases b.parity <;> grind

/-- Settles O49. -/
theorem brokenFramesNeverReachABlock : Obligations.BrokenFramesNeverReachABlock := by
  intro p s
  refine ⟨fun hr bytes => ⟨fun hbegins => ?_, fun herror => ?_⟩,
    fun hphase hline hawait hdiscard first len rest hfirst => ⟨fun hgood hrest => ?_, fun hbad => ?_⟩,
    fun hline hawait rest hrest => congrArg Host.Outcome.next (receive_dropped hline hawait rest hrest), bad_iff⟩
  · obtain ⟨q, hreceive, hphase, hexecuting⟩ := receive_beginning hr hbegins
    refine congrArg Host.Outcome.next ?_
    rw [hreceive, State.gap, port_setPort_same, hphase]
    exact failLink_setPort s p hexecuting
  · refine congrArg Host.Outcome.next ?_
    match bytes with
    | [] => exact nomatch herror
    | [_] => exact nomatch herror
    | start :: len :: rest =>
      simp only [endsInLinkError, Bool.and_eq_true] at herror
      obtain ⟨hstart, herror⟩ := herror
      by_cases hlen : len.goodLength = true
      · rw [if_pos hlen, Bool.and_eq_true, beq_iff_eq] at herror
        obtain ⟨hwhole, herror⟩ := herror
        rw [receive_frame s p start len rest hr hstart hlen hwhole, ← List.map_cons, if_pos herror]
        rfl
      · rw [if_neg hlen, List.isEmpty_iff] at herror
        subst herror
        have hrun : s.receive p [start, len] = (s.receiveByte p start).receiveByte p len := rfl
        have hf : ((s.setPort p ((s.port p).started start.value)).port p).inFrame := by
          rw [port_setPort_same]
          exact started_inFrame _ _ hr
        rw [hrun, receiveByte_start s p start hr hstart, receiveByte_inFrame _ p len hf, State.frameByte, port_setPort_same,
          if_pos (show ((s.port p).started start.value).buffer.length < 2 from Nat.one_lt_two), if_neg hlen]
        exact failLink_setPort s p rfl
  · have hrun : s.receive p (first :: len :: rest) = ((s.receiveByte p first).receiveByte p len).receive p rest := rfl
    refine congrArg Host.Outcome.next ?_
    rw [hrun, receive_outOfTurn hphase hline hawait hdiscard hfirst, if_pos hgood, receive_dropped]
    · rw [port_setPort_same, setPort_setPort]
    · rw [port_setPort_same]
      exact hline
    · rw [port_setPort_same]
      exact hawait
    · rw [port_setPort_same]
      exact Nat.le_sub_one_of_lt hrest
  · refine congrArg Host.Outcome.next ((receive_outOfTurn hphase hline hawait hdiscard hfirst len).trans ?_)
    rw [if_neg (by rw [hbad]; exact Bool.false_ne_true), ← hdiscard]

end Sys2Proof.Machine
end

