-- ==== Sys2Proof/Proofs/EvaluationLaws.lean ====
section
/-! PROOFS. What the evaluations that the governor is asked for make of the state, with and without slots that wait for headroom
(R117 to R119, R123). -/

namespace Sys2Proof.Machine

/-! ### The records of evaluations -/

/-- The kinds of the records that an evaluation may post. -/
def RecordKind.ofEvaluation (k : RecordKind) : Prop := k = .iceOverload ∨ k = .iceClear ∨ k = .cueDone ∨ k = .cuePreempted

theorem postedOnly_endSlot {K : RecordKind → Prop} {k : RecordKind} (hk : K k) (s : State) (n : Fin 8) :
    PostedOnly K s (s.endSlot n k) :=
  PostedOnly.trans (.of_ports (freeSlot_ports s n)) ((postedOnly_postMoves K).postTo _ _ hk _ _)

theorem postedOnly_enterFading (s : State) (n : Fin 8) : PostedOnly RecordKind.ofEvaluation s (s.enterFading n).1 := by
  unfold State.enterFading
  refine .trans (.of_ports (startFading_ports s n)) (.trans ?_ ((postedOnly_postMoves _).foldl _ (fun t m => ?_) _ _))
  · split
    · exact postedOnly_endSlot (.inr (.inr (.inl rfl))) _ n
    · exact .refl _
  · unfold State.judgePreempted
    split
    · exact postedOnly_endSlot (.inr (.inr (.inr rfl))) t m
    · exact .refl t

theorem postedOnly_serveSlots (l : List (Fin 8)) (acc : State × Nat) :
    PostedOnly RecordKind.ofEvaluation acc.1 (l.foldl serveSlot acc).1 := by
  induction l generalizing acc with
  | nil => exact .refl _
  | cons n l ih =>
    refine .trans ?_ (ih _)
    unfold serveSlot
    split
    · exact postedOnly_enterFading acc.1 n
    · exact .refl _

theorem postedOnly_judgeOverload (s : State) : PostedOnly RecordKind.ofEvaluation s s.judgeOverload := by
  unfold State.judgeOverload
  dsimp only
  split
  · exact .of_ports rfl
  · refine .trans (b := { s with governor := { s.governor with iceOverload := decide (s.governor.avail < 0) } })
      (.of_ports rfl) ((postedOnly_postMoves _).postAll _ _ ?_ _ _)
    split
    · exact .inl rfl
    · exact .inr (.inl rfl)

theorem postedOnly_evaluateOnce (s : State) (kind : EvalKind) (spill : Option Nat) :
    PostedOnly RecordKind.ofEvaluation s (s.evaluateOnce kind spill).1 :=
  .trans (b := s.openEvaluation spill) (.of_ports rfl)
    (.trans (postedOnly_serveSlots (s.openEvaluation spill).governor.queue (s.openEvaluation spill, 0))
      (.trans (b := (s.openEvaluation spill).serveQueue.1.weigh kind) (.of_ports rfl)
        (.trans (postedOnly_judgeOverload _) (.of_ports rfl))))

theorem postedOnly_evaluations (fuel asked : Nat) (s : State) : PostedOnly RecordKind.ofEvaluation s (evaluations fuel asked s) := by
  induction fuel generalizing asked s with
  | zero => exact .refl s
  | succ fuel ih =>
    cases asked with
    | zero => exact .refl s
    | succ asked => exact .trans (postedOnly_evaluateOnce s .ordinary none) (ih _ _)

theorem postedOnly_evaluate (s : State) : PostedOnly RecordKind.ofEvaluation s s.evaluate := postedOnly_evaluations _ _ s

theorem ordinary_of_evaluation {k : RecordKind} (h : k.ofEvaluation) : k.ordinary := by
  rcases h with rfl | rfl | rfl | rfl <;> rfl

/-! ### What the last evaluation leaves -/

/-- The spill held is that of the last round. -/
theorem evaluateOnce_lSpill (s : State) (kind : EvalKind) (spill : Option Nat) :
    (s.evaluateOnce kind spill).1.governor.lSpill = spill.getD s.governor.lSpill := by
  rw [evaluateOnce_governor]
  have hserved : (s.openEvaluation spill).serveQueue.1.governor.lSpill = (s.openEvaluation spill).governor.lSpill := by
    rw [serveQueue_governor]
  exact hserved

theorem evaluateOnce_lastEval (s : State) (kind : EvalKind) (spill : Option Nat) :
    (s.evaluateOnce kind spill).1.governor.lastEval = some kind := by rw [evaluateOnce_governor]

/-- What holds of the state after one ordinary evaluation, whatever was before, holds after all that are asked for. -/
theorem evaluations_last {P : State → Prop} (h : ∀ s : State, P (s.evaluateOnce .ordinary none).1) (fuel asked : Nat) (s : State)
    (hs : P s ∨ 0 < fuel ∧ 0 < asked) : P (evaluations fuel asked s) := by
  induction fuel generalizing asked s with
  | zero => exact hs.resolve_right fun hc => absurd hc.1 (Nat.lt_irrefl 0)
  | succ fuel ih =>
    cases asked with
    | zero => exact hs.resolve_right fun hc => absurd hc.2 (Nat.lt_irrefl 0)
    | succ asked => exact ih _ _ (.inl (h s))

theorem askOrdinary_last {P : State → Prop} (h : ∀ s : State, P (s.evaluateOnce .ordinary none).1) {asked : Nat} (ha : 0 < asked) (s : State) :
    P (s.askOrdinary asked) := evaluations_last h _ _ s (.inr ⟨Nat.lt_of_lt_of_le ha (Nat.le_add_right ..), ha⟩)

theorem askOrdinary_evaluated {asked : Nat} (ha : 0 < asked) (s : State) : (s.askOrdinary asked).evaluated :=
  askOrdinary_last (fun t => evaluateOnce_evaluated t .ordinary none) ha s

theorem askOrdinary_lastEval {asked : Nat} (ha : 0 < asked) (s : State) : (s.askOrdinary asked).governor.lastEval = some .ordinary :=
  askOrdinary_last (P := fun t => t.governor.lastEval = some .ordinary) (fun t => evaluateOnce_lastEval t .ordinary none) ha s

theorem evaluate_evaluated (s : State) : s.evaluate.evaluated := askOrdinary_evaluated Nat.one_pos s

theorem evaluate_lastEval (s : State) : s.evaluate.governor.lastEval = some .ordinary := askOrdinary_lastEval Nat.one_pos s

theorem evaluations_lSpill (fuel asked : Nat) (s : State) : (evaluations fuel asked s).governor.lSpill = s.governor.lSpill := by
  induction fuel generalizing asked s with
  | zero => rfl
  | succ fuel ih =>
    cases asked with
    | zero => rfl
    | succ asked => exact (ih _ _).trans (evaluateOnce_lSpill s .ordinary none)

theorem evaluate_lSpill (s : State) : s.evaluate.governor.lSpill = s.governor.lSpill := evaluations_lSpill _ _ s

/-! ### With no slot waiting for headroom -/

section
variable {s : State} (h : s.governor.queue = [])
include h

/-- With no slot waiting for headroom an evaluation serves none. -/
theorem serveQueue_of_empty (spill : Option Nat) : (s.openEvaluation spill).serveQueue = (s.openEvaluation spill, 0) := by
  have hqueue : (s.openEvaluation spill).governor.queue = [] := h
  rw [State.serveQueue, hqueue]
  rfl

theorem evaluateOnce_of_empty (kind : EvalKind) (spill : Option Nat) :
    s.evaluateOnce kind spill = ((((s.openEvaluation spill).weigh kind).judgeOverload).closeEvaluation kind, 0) := by
  rw [State.evaluateOnce, serveQueue_of_empty h]

theorem evaluateOnce_queue_of_empty (kind : EvalKind) (spill : Option Nat) :
    (s.evaluateOnce kind spill).1.governor.queue = [] := by
  rw [evaluateOnce_governor, serveQueue_of_empty h]
  exact h

theorem evaluations_of_empty (fuel asked : Nat) (hf : asked ≤ fuel) :
    evaluations fuel asked s = (fun t : State => (t.evaluateOnce .ordinary none).1)^[asked] s := by
  induction asked generalizing fuel s with
  | zero => cases fuel <;> rfl
  | succ asked ih =>
    obtain ⟨fuel, rfl⟩ := Nat.exists_eq_add_of_lt (Nat.lt_of_lt_of_le (Nat.succ_pos asked) hf)
    rw [Nat.zero_add] at hf ⊢
    have hnone : (s.evaluateOnce .ordinary none).2 = 0 := by rw [evaluateOnce_of_empty h]
    rw [evaluations, hnone, Function.iterate_succ_apply]
    exact ih (evaluateOnce_queue_of_empty h .ordinary none) fuel (Nat.le_of_succ_le_succ hf)

/-- One evaluation asked for is one made. -/
theorem evaluate_of_empty : s.evaluate = (s.evaluateOnce .ordinary none).1 := by
  rw [State.evaluate, State.askOrdinary, h]
  exact evaluations_of_empty h 1 1 le_rfl

end

/-- The records of the last stages, at each port. -/
theorem posts_judgeOverload (s : State) (p : Port) : s.posts s.judgeOverload p
    (if p = .portB ∨ decide (s.governor.avail < 0) = s.governor.iceOverload then []
     else [⟨if s.governor.avail < 0 then .iceOverload else .iceClear, 0, s.governor.avail / 1000, s.deviceSeconds⟩]) := by
  unfold State.judgeOverload
  dsimp only
  by_cases hsame : decide (s.governor.avail < 0) = s.governor.iceOverload
  · rw [if_pos hsame, if_pos (.inr hsame)]
    exact posts_of_ports rfl p
  · rw [if_neg hsame]
    have hposts := posts_postAll [.portP, .portL] (by decide)
      { s with governor := { s.governor with iceOverload := decide (s.governor.avail < 0) } }
      (if decide (s.governor.avail < 0) then .iceOverload else .iceClear) 0 (s.governor.avail / 1000) p
    have hafter := posts_after (s := s) rfl hposts
    have hport : p ∈ [Port.portP, Port.portL] ↔ ¬p = .portB := by cases p <;> simp
    simp only [hport, ite_not] at hafter
    simp only [hsame, or_false]
    simp only [decide_eq_true_eq] at hafter ⊢
    exact hafter

/-- With no slot waiting for headroom an ordinary evaluation is just that. -/
theorem evaluateOnce_evaluatedOnce {s : State} (h : s.governor.queue = []) : s.evaluatedOnce (s.evaluateOnce .ordinary none).1 := by
  have hshape := congrArg Prod.fst (evaluateOnce_of_empty h .ordinary none)
  have hgovernor := evaluateOnce_governor s .ordinary none
  rw [serveQueue_of_empty h] at hgovernor
  refine ⟨evaluateOnce_evaluated .., ?_, ?_, evaluateOnce_queue_of_empty h .., ?_, evaluateOnce_lastEval .., fun p => ?_, ?_⟩
  · rw [hgovernor]
    rfl
  · rw [hgovernor]
    rfl
  · rw [hgovernor]
    rfl
  · have hposts := posts_judgeOverload ((s.openEvaluation none).weigh .ordinary) p
    have hports : (s.evaluateOnce .ordinary none).1.port p = ((s.openEvaluation none).weigh .ordinary).judgeOverload.port p :=
      port_congr (by rw [hshape]; rfl) p
    rw [hports, hgovernor]
    unfold State.posts at hposts
    rw [hposts]
    simp only [decide_eq_true_eq]
    exact apply_ite (List.foldl PortState.enqueue (s.port p)) _ _ _
  · rw [hshape]
    dsimp only
    rw [State.closeEvaluation, judgeOverload_frame]
    rfl

theorem evaluate_evaluatedOnce {s : State} (h : s.governor.queue = []) : s.evaluatedOnce s.evaluate := by
  rw [evaluate_of_empty h]
  exact evaluateOnce_evaluatedOnce h

/-- A change of ICE_OVERLOAD is all that one evaluation tells. -/
theorem tellsOverload_of_posts {s t : State} (h : ∀ p, s.posts t p (if p = .portB ∨ t.governor.iceOverload = s.governor.iceOverload
      then [] else [⟨if t.governor.iceOverload = true then .iceOverload else .iceClear, 0, t.governor.avail / 1000, s.deviceSeconds⟩])) :
    s.tellsOverload t := by
  intro p
  have hadds := fun kind => adds_of_posts (h p) kind
  constructor
  · refine cast (congrArg _ ?_) (hadds .iceOverload)
    cases hp : decide (p = .portB) <;> cases ht : t.governor.iceOverload <;> cases hs : s.governor.iceOverload <;>
      simp_all
  · refine cast (congrArg _ ?_) (hadds .iceClear)
    cases hp : decide (p = .portB) <;> cases ht : t.governor.iceOverload <;> cases hs : s.governor.iceOverload <;>
      simp_all

theorem State.evaluatedOnce.posts {s t : State} (h : s.evaluatedOnce t) (p : Port) : s.posts t p
    (if p = .portB ∨ t.governor.iceOverload = s.governor.iceOverload then []
     else [⟨if t.governor.iceOverload = true then .iceOverload else .iceClear, 0, t.governor.avail / 1000, s.deviceSeconds⟩]) := by
  obtain ⟨-, -, -, -, -, -, hports, -⟩ := h
  unfold State.posts
  rw [hports p]
  split <;> rfl

end Sys2Proof.Machine
end

