-- ==== Sys2Proof/Proofs/SlotEnds.lean ====
section
/-! PROOFS. Slots that are freed one after the other, and what the service of the headroom queue leaves alone (R123, R144). -/

namespace Sys2Proof.Machine

/-! ### Tables that agree record by record -/

theorem channels_ext {s t : State} (h : ∀ c, t.channel c = s.channel c) : t.channels = s.channels := by
  ext i hi
  exact h ⟨i, hi⟩

theorem slots_ext {s t : State} (h : ∀ n, t.slot n = s.slot n) : t.slots = s.slots := by
  ext i hi
  exact h ⟨i, hi⟩

theorem store_ext {s t : State} (h : ∀ l w, t.entry l w = s.entry l w) (hl : ∀ l, (pick t.store l).lru = (pick s.store l).lru) :
    t.store = s.store := by
  ext i hi
  have hline : pick t.store ⟨i, hi⟩ = pick s.store ⟨i, hi⟩ := by
    have hways : (pick t.store ⟨i, hi⟩).ways = (pick s.store ⟨i, hi⟩).ways := by
      ext j hj
      exact h ⟨i, hi⟩ ⟨j, hj⟩
    have hlru := hl ⟨i, hi⟩
    cases ht : pick t.store ⟨i, hi⟩
    cases hs : pick s.store ⟨i, hi⟩
    rw [ht, hs] at hways hlru
    simp_all
  exact hline

/-! ### Slots freed one after the other -/

/-- The slots `ns` have been freed in this order, with a record of the kind `k` to the GO port of each. -/
structure SlotsEnded (ns : List (Fin 8)) (k : RecordKind) (s t : State) : Prop where
  slot     : ∀ m, t.slot m = if m ∈ ns then Slot.reset else s.slot m
  channel  : ∀ c, t.channel c = { s.channel c with owner := (s.channel c).owner.filter (fun n => decide (n ∉ ns)) }
  entry    : ∀ l w, t.entry l w = { s.entry l w with
    waiters := (s.entry l w).waiters.filter (fun n => !decide (n ∈ ns ∧ cueLine (s.slot n).cue = l)) }
  lru      : ∀ l, (pick t.store l).lru = (pick s.store l).lru
  governor : t.governor = { s.governor with queue := s.governor.queue.filter (fun n => decide (n ∉ ns)) }
  records  : ∀ p, s.posts t p ((ns.filter (fun n => (s.slot n).port == some p)).map
    (fun n => ⟨k, n.val, (s.slot n).cue, s.deviceSeconds⟩))
  frame    : LightingOnly s t

theorem LightingOnly.deviceSeconds {s t : State} (h : LightingOnly s t) : t.deviceSeconds = s.deviceSeconds := by rw [h]

theorem owner_disowned_eq (ch : Channel) (n : Fin 8) : (ch.disowned n).owner = ch.owner.filter (fun m => decide (m ≠ n)) := by
  unfold Channel.disowned
  cases h : ch.owner with
  | none => rfl
  | some m => by_cases hm : m = n <;> simp [Option.filter_some, hm]

/-- What one freed slot posts. -/
theorem posts_endSlot (s : State) (n : Fin 8) (k : RecordKind) (p : Port) : s.posts (s.endSlot n k) p
    (if (s.slot n).port = some p then [⟨k, n.val, (s.slot n).cue, s.deviceSeconds⟩] else []) :=
  posts_after (freeSlot_ports s n) (posts_postTo (s.freeSlot n) (s.slot n).port k n.val (s.slot n).cue p)

theorem slotsEnded_nil (k : RecordKind) (s : State) : SlotsEnded [] k s s where
  slot _ := rfl
  channel c := by
    have howner : (s.channel c).owner.filter (fun n => decide (n ∉ ([] : List (Fin 8)))) = (s.channel c).owner := by
      cases (s.channel c).owner <;> simp [Option.filter_some]
    rw [howner]
  entry l w := by simp
  lru _ := rfl
  governor := by simp
  records p := posts_refl s p
  frame := .refl s

theorem slotsEnded_foldl (k : RecordKind) (ns : List (Fin 8)) (hn : ns.Nodup) (s : State) :
    SlotsEnded ns k s (ns.foldl (fun t n => t.endSlot n k) s) := by
  induction ns generalizing s with
  | nil => exact slotsEnded_nil k s
  | cons n ns ih =>
    obtain ⟨hnot, hns⟩ := List.nodup_cons.1 hn
    have h := ih hns (s.endSlot n k)
    have hother : ∀ m ∈ ns, (s.endSlot n k).slot m = s.slot m := fun m hm => by
      rw [slot_endSlot, if_neg fun he : m = n => hnot (he ▸ hm)]
    rw [List.foldl_cons]
    refine { slot := fun m => ?_, channel := fun c => ?_, entry := fun l w => ?_, lru := fun l => ?_, governor := ?_
             records := fun p => ?_, frame := (lighting_endSlot s n k).trans h.frame }
    · rw [h.slot, slot_endSlot]
      by_cases hm : m = n
      · simp [hm]
      · simp [hm]
    · have howner : ((s.channel c).disowned n).owner.filter (fun m => decide (m ∉ ns)) =
          (s.channel c).owner.filter (fun m => decide (m ∉ n :: ns)) := by
        rw [owner_disowned_eq, Option.filter_filter]
        exact congrArg (Option.filter · _) (funext fun m => by simp)
      rw [h.channel, channel_endSlot, howner]
      rfl
    · rw [h.entry, entry_endSlot]
      by_cases hl : l = cueLine (s.slot n).cue
      · rw [if_pos hl]
        simp only [Entry.without, List.filter_filter]
        congr 1
        refine List.filter_congr fun m _ => ?_
        rw [slot_endSlot]
        by_cases hm : m = n
        · simp [hm, hl]
        · simp [hm]
      · have hwaiters : (s.entry l w).waiters.filter (fun m => !decide (m ∈ ns ∧ cueLine ((s.endSlot n k).slot m).cue = l)) =
            (s.entry l w).waiters.filter (fun m => !decide (m ∈ n :: ns ∧ cueLine (s.slot m).cue = l)) := by
          refine List.filter_congr fun m _ => ?_
          rw [slot_endSlot]
          by_cases hm : m = n
          · simp [hm, hnot, Ne.symm hl]
          · simp [hm]
        rw [if_neg hl, hwaiters]
    · rw [h.lru, lru_endSlot]
    · rw [h.governor, endSlot_governor]
      simp only [List.filter_filter]
      congr 1
      refine List.filter_congr fun m _ => ?_
      by_cases hm : m = n <;> simp [hm]
    · have hposts := posts_trans (posts_endSlot s n k p) (h.records p)
      have hrecords : (ns.filter (fun m => ((s.endSlot n k).slot m).port == some p)).map
            (fun m => (⟨k, m.val, ((s.endSlot n k).slot m).cue, (s.endSlot n k).deviceSeconds⟩ : Record)) =
          (ns.filter (fun m => (s.slot m).port == some p)).map (fun m => ⟨k, m.val, (s.slot m).cue, s.deviceSeconds⟩) := by
        rw [(lighting_endSlot s n k).deviceSeconds, List.filter_congr fun m hm => by rw [hother m hm]]
        exact List.map_congr_left fun m hm => by rw [hother m (List.mem_of_mem_filter hm)]
      rw [hrecords] at hposts
      rw [List.filter_cons]
      by_cases hp : (s.slot n).port = some p
      · simpa [hp] using hposts
      · simpa [hp] using hposts

theorem slotsEnded_one (k : RecordKind) (s : State) (n : Fin 8) : SlotsEnded [n] k s (s.endSlot n k) :=
  slotsEnded_foldl k [n] (List.nodup_singleton n) s

/-! ### What the service of the queue leaves alone -/

/-- A property that the service of the headroom queue keeps: entering FADING of the slots `ok` and freeing a slot keep it, and
where it holds the queue names only such slots. -/
structure ServiceInvariant (ok : Fin 8 → Prop) (P : State → Prop) : Prop where
  queued      : ∀ s : State, P s → ∀ m ∈ s.governor.queue, ok m
  same        : ∀ s t : State, t.slots = s.slots → t.channels = s.channels → t.store = s.store → t.governor.queue = s.governor.queue →
    P s → P t
  startFading : ∀ (s : State) m, ok m → P s → P (s.startFading m)
  freeSlot    : ∀ (s : State) m, P s → P (s.freeSlot m)

namespace ServiceInvariant
variable {ok : Fin 8 → Prop} {P : State → Prop} (h : ServiceInvariant ok P) {s : State}
include h

theorem endSlot (n : Fin 8) (k : RecordKind) (hs : P s) : P (s.endSlot n k) :=
  h.same (s.freeSlot n) _ (by simp [State.endSlot]) (by simp [State.endSlot]) (by simp [State.endSlot]) (by simp [State.endSlot])
    (h.freeSlot s n hs)

omit h in
theorem foldl {α : Type} (f : State → α → State) (hf : ∀ t x, P t → P (f t x)) (l : List α) (hs : P s) : P (l.foldl f s) :=
  foldl_related (R := fun s t => P s → P t) (fun _ => id) (fun a b => b ∘ a) f hf l s hs

theorem enterFading {n : Fin 8} (hn : ok n) (hs : P s) : P (s.enterFading n).1 := by
  unfold State.enterFading
  refine foldl _ (fun t m ht => ?_) _ ?_
  · unfold State.judgePreempted
    split
    · exact h.endSlot m _ ht
    · exact ht
  · split
    · exact h.endSlot n _ (h.startFading s n hn hs)
    · exact h.startFading s n hn hs

theorem serveSlots (l : List (Fin 8)) (hl : ∀ m ∈ l, ok m) (acc : State × Nat) (hs : P acc.1) : P (l.foldl serveSlot acc).1 := by
  induction l generalizing acc with
  | nil => exact hs
  | cons n l ih =>
    refine ih (fun m hm => hl m (List.mem_cons_of_mem n hm)) _ ?_
    unfold serveSlot
    split
    · exact h.enterFading (hl n List.mem_cons_self) hs
    · exact hs

theorem evaluateOnce (kind : EvalKind) (spill : Option Nat) (hs : P s) : P (s.evaluateOnce kind spill).1 := by
  have hopened : P (s.openEvaluation spill) := h.same s _ rfl rfl rfl rfl hs
  have hserved : P (s.openEvaluation spill).serveQueue.1 :=
    h.serveSlots _ (h.queued _ hopened) (s.openEvaluation spill, 0) hopened
  refine h.same (s.openEvaluation spill).serveQueue.1 _ ?_ ?_ ?_ ?_ hserved
  · exact (congrArg State.slots (judgeOverload_frame (State.weigh _ kind)) :)
  · exact (congrArg State.channels (judgeOverload_frame (State.weigh _ kind)) :)
  · exact (congrArg State.store (judgeOverload_frame (State.weigh _ kind)) :)
  · rw [evaluateOnce_governor]
    rfl

theorem evaluations (fuel asked : Nat) (hs : P s) : P (evaluations fuel asked s) := by
  induction fuel generalizing asked s with
  | zero => exact hs
  | succ fuel ih =>
    cases asked with
    | zero => exact hs
    | succ asked => exact ih _ (h.evaluateOnce .ordinary none hs)

theorem evaluate (hs : P s) : P s.evaluate := h.evaluations _ _ hs

end ServiceInvariant

/-- The slot is FREE, no channel names it, and it does not wait for headroom. -/
def State.idleSlot (n : Fin 8) (s : State) : Prop :=
  s.slot n = Slot.reset ∧ (∀ c, (s.channel c).owner ≠ some n) ∧ n ∉ s.governor.queue

theorem idleSlot_service (n : Fin 8) : ServiceInvariant (fun m => m ≠ n) (State.idleSlot n) where
  queued s hs m hm he := hs.2.2 (he ▸ hm)
  same s t hslots hchannels _ hqueue hs := by
    obtain ⟨hslot, howner, hnot⟩ := hs
    exact ⟨(slot_congr hslots n).trans hslot, fun c => by rw [channel_congr hchannels]; exact howner c, by rwa [hqueue]⟩
  startFading s m hm hs := by
    obtain ⟨hslot, howner, hnot⟩ := hs
    refine ⟨?_, fun c => ?_, ?_⟩
    · rw [slot_startFading, if_neg (Ne.symm hm), hslot]
      rfl
    · rw [owner_startFading]
      split
      · simpa using hm
      · exact howner c
    · rw [startFading_governor]
      exact fun hmem => hnot (List.mem_of_mem_filter hmem)
  freeSlot s m hs := by
    obtain ⟨hslot, howner, hnot⟩ := hs
    refine ⟨?_, fun c => ?_, ?_⟩
    · rw [slot_freeSlot, hslot, ite_self]
    · rw [channel_freeSlot, ne_eq, owner_disowned]
      exact fun hc => howner c hc.2
    · rw [freeSlot_governor]
      exact fun hmem => hnot (List.mem_of_mem_filter hmem)

/-- A slot that has been freed is idle. -/
theorem SlotsEnded.idle {ns : List (Fin 8)} {k : RecordKind} {s t : State} (h : SlotsEnded ns k s t) {n : Fin 8} (hn : n ∈ ns) :
    t.idleSlot n := by
  refine ⟨by rw [h.slot, if_pos hn], fun c hc => ?_, ?_⟩
  · rw [h.channel, Option.filter_eq_some_iff] at hc
    simp [hn] at hc
  · rw [h.governor]
    simp [hn]

/-- Of the entries only the waiter lists differ from those of `s₀`. -/
def State.keepsEntries (s₀ s : State) : Prop := ∀ l w, s.entry l w = { s₀.entry l w with waiters := (s.entry l w).waiters }

theorem keepsEntries_service (s₀ : State) : ServiceInvariant (fun _ => True) s₀.keepsEntries where
  queued _ _ _ _ := trivial
  same s t _ _ hstore _ hs l w := by
    rw [entry_congr hstore]
    exact hs l w
  startFading s m _ hs l w := by
    rw [entry_congr (startFading_store s m)]
    exact hs l w
  freeSlot s m hs l w := by
    rw [entry_freeSlot]
    split
    · rw [hs l w]
      rfl
    · exact hs l w

/-! ### Telling ICE_OVERLOAD after other records -/

/-- What comes before an evaluation and posts no record of ICE_OVERLOAD does not change what it tells of it. -/
theorem tellsOverload_after {K : RecordKind → Prop} {s t u : State} (h : PostedOnly K s t) (hon : ¬K .iceOverload) (hoff : ¬K .iceClear)
    (hice : t.governor.iceOverload = s.governor.iceOverload) (hseconds : t.deviceSeconds = s.deviceSeconds) (k : t.tellsOverload u)
    (hu : PostedOnly RecordKind.ofEvaluation t u) : s.tellsOverload u := by
  intro p
  have hk := k p
  rw [hice, hseconds] at hk
  exact ⟨by simpa using adds_trans (h.adds p hon) hk.1 (hu.lost p), by simpa using adds_trans (h.adds p hoff) hk.2 (hu.lost p)⟩

theorem evaluate_tellsOverload {s : State} (h : s.governor.queue = []) : s.tellsOverload s.evaluate :=
  tellsOverload_of_posts (evaluate_evaluatedOnce h).posts

end Sys2Proof.Machine
end

