-- ==== Sys2Proof/Proofs/CueDropping.lean ====
section
/-! PROOFS. Entries of the cue store that become INVALID, with the slots that wait for them (R137, R139, R153). -/

namespace Sys2Proof.Machine

/-! ### Slots that neither fade nor wait for headroom -/

theorem option_filter_eq_self {α : Type} {o : Option α} {p : α → Bool} (h : ∀ a, o = some a → p a = true) : o.filter p = o := by
  cases o with
  | none => rfl
  | some a => rw [Option.filter_some, if_pos (h a rfl)]

/-- Freed slots that await a fill own no channel and do not wait for headroom. -/
theorem SlotsEnded.awaiting {ns : List (Fin 8)} {k : RecordKind} {s t : State} (h : SlotsEnded ns k s t) (hs : FadesSound s)
    (hns : ∀ n ∈ ns, (s.slot n).state = .waitingFill) : t.channels = s.channels ∧ t.governor = s.governor := by
  refine ⟨channels_ext fun c => ?_, ?_⟩
  · have howner : (s.channel c).owner.filter (fun n => decide (n ∉ ns)) = (s.channel c).owner :=
      option_filter_eq_self fun n hn => decide_eq_true fun hmem => by
        simpa [hns n hmem] using ((hs.owners c n).1 hn).1
    rw [h.channel, howner]
  · have hqueue : s.governor.queue.filter (fun n => decide (n ∉ ns)) = s.governor.queue :=
      List.filter_eq_self.2 fun n hn => decide_eq_true fun hmem => by
        simpa [hns n hmem] using (hs.headroom n).1 hn
    rw [h.governor, hqueue]

/-! ### Entries dropped one after the other -/

/-- The records at a port of the slots that wait for the fill of an entry. -/
def State.waiterRecords (s : State) (k : RecordKind) (p : Port) (c : Fin 64 × Fin 2) : List Record :=
  ((s.entry c.1 c.2).waiters.filter (fun n => (s.slot n).port == some p)).map
    (fun n => ⟨k, n.val, (s.slot n).cue, s.deviceSeconds⟩)

/-- The entries at `cells` have been made INVALID in this order, and the slots that waited for them freed. -/
structure EntriesDropped (cells : List (Fin 64 × Fin 2)) (k : RecordKind) (s t : State) : Prop where
  entry   : ∀ l w, t.entry l w = if (l, w) ∈ cells then (s.entry l w).invalidated else s.entry l w
  lru     : ∀ l, (pick t.store l).lru = (pick s.store l).lru
  slot    : ∀ n, t.slot n = if ∃ c ∈ cells, n ∈ (s.entry c.1 c.2).waiters then Slot.reset else s.slot n
  records : ∀ p, s.posts t p (cells.flatMap (s.waiterRecords k p))
  frame   : t = { s with slots := t.slots, store := t.store, ports := t.ports }

theorem entriesDropped_nil (k : RecordKind) (s : State) : EntriesDropped [] k s s where
  entry _ _ := rfl
  lru _ := rfl
  slot _ := by simp
  records p := posts_refl s p
  frame := rfl

theorem entriesDropped_one {s : State} (hs : s.lightingSound) (l : Fin 64) (w : Fin 2) (k : RecordKind) :
    EntriesDropped [(l, w)] k s (s.dropEntry l w k) := by
  obtain ⟨hfades, hstore⟩ := (lightingSound_iff s).1 hs
  have h := slotsEnded_foldl k (s.entry l w).waiters (hs.waitersOnce l w) (s.setEntry l w (s.entry l w).invalidated)
  obtain ⟨hchannels, hgovernor⟩ := h.awaiting (fadesSound_setEntry hfades l w _) fun n hn => (hs.waiters l w n hn).2.1
  have hframe := h.frame
  refine { entry := fun m v => ?_, lru := fun m => (h.lru m).trans (lru_setEntry ..), slot := fun n => ?_, records := fun p => ?_
           frame := ?_ }
  · refine (h.entry m v).trans ?_
    rw [entry_setEntry]
    by_cases hmv : m = l ∧ v = w
    · rw [if_pos hmv, if_pos (by simp [hmv]), hmv.1, hmv.2]
      rfl
    · rw [if_neg hmv, if_neg (by simpa using hmv)]
      have hwaiters : (s.entry m v).waiters.filter (fun n => !decide (n ∈ (s.entry l w).waiters ∧
          cueLine ((s.setEntry l w (s.entry l w).invalidated).slot n).cue = m)) = (s.entry m v).waiters :=
        List.filter_eq_self.2 fun n hn => by
          have hnot : n ∉ (s.entry l w).waiters := fun hl => hmv (hstore.listed_once hl hn)
          simp [hnot]
      rw [hwaiters]
  · refine (h.slot n).trans ?_
    simp only [List.mem_singleton, exists_eq_left]
    rfl
  · have hposts := h.records p
    rw [List.flatMap_singleton]
    exact hposts
  · rw [LightingOnly, hgovernor, hchannels] at hframe
    exact hframe

theorem entriesDropped_cons {c : Fin 64 × Fin 2} {cells : List (Fin 64 × Fin 2)} {k : RecordKind} {s t u : State}
    (hs : s.lightingSound) (hc : c ∉ cells) (h : EntriesDropped [c] k s t) (hcells : EntriesDropped cells k t u) :
    EntriesDropped (c :: cells) k s u := by
  obtain ⟨-, hstore⟩ := (lightingSound_iff s).1 hs
  have hentry : ∀ d ∈ cells, t.entry d.1 d.2 = s.entry d.1 d.2 := fun d hd => by
    rw [h.entry, if_neg]
    rw [List.mem_singleton]
    exact fun he => hc (he ▸ hd)
  have hwaits : ∀ d ∈ cells, ∀ n ∈ (s.entry d.1 d.2).waiters, t.slot n = s.slot n := fun d hd n hn => by
    rw [h.slot, if_neg]
    rintro ⟨e, he, hmem⟩
    rw [List.mem_singleton.1 he] at hmem
    obtain ⟨h1, h2⟩ := hstore.listed_once hmem hn
    exact hc (Prod.ext h1 h2 ▸ hd)
  have hseconds : t.deviceSeconds = s.deviceSeconds := by rw [h.frame]
  refine { entry := fun l w => ?_, lru := fun l => (hcells.lru l).trans (h.lru l), slot := fun n => ?_, records := fun p => ?_
           frame := ?_ }
  · rw [hcells.entry]
    by_cases hmem : (l, w) ∈ cells
    · rw [if_pos hmem, if_pos (List.mem_cons_of_mem c hmem), hentry (l, w) hmem]
    · rw [if_neg hmem, h.entry]
      simp [hmem]
  · have hmem : (∃ d ∈ cells, n ∈ (t.entry d.1 d.2).waiters) ↔ ∃ d ∈ cells, n ∈ (s.entry d.1 d.2).waiters :=
      exists_congr fun d => and_congr_right fun hd => by rw [hentry d hd]
    rw [hcells.slot, h.slot]
    simp only [hmem, exists_eq_left, List.mem_cons, or_and_right, exists_or]
    by_cases h1 : n ∈ (s.entry c.1 c.2).waiters
    · simp [h1]
    · simp [h1]
  · have hrecords : cells.flatMap (t.waiterRecords k p) = cells.flatMap (s.waiterRecords k p) :=
      List.flatMap_congr fun d hd => by
        unfold State.waiterRecords
        rw [hentry d hd, hseconds, List.filter_congr fun n hn => by rw [hwaits d hd n hn]]
        exact List.map_congr_left fun n hn => by rw [hwaits d hd n (List.mem_of_mem_filter hn)]
    have hposts := posts_trans (h.records p) (hcells.records p)
    rw [List.flatMap_singleton, hrecords] at hposts
    exact hposts
  · rw [hcells.frame, h.frame]

/-- The entries in the scope of an invalidation, of which those that hold a cue are dropped. -/
theorem entriesDropped_foldl (cells : List (Fin 64 × Fin 2)) (hcells : cells.Nodup) {s : State} (hs : s.lightingSound) :
    EntriesDropped (cells.filter fun c => (s.entry c.1 c.2).state != .invalid) .cueInvalidated s
      (cells.foldl (fun t c => t.invalidateWay c.1 c.2) s) := by
  induction cells generalizing s with
  | nil => exact entriesDropped_nil _ s
  | cons c cells ih =>
    obtain ⟨hc, hrest⟩ := List.nodup_cons.1 hcells
    rw [List.foldl_cons, List.filter_cons]
    unfold State.invalidateWay
    by_cases hinvalid : (s.entry c.1 c.2).state = .invalid
    · rw [if_pos hinvalid]
      simp only [hinvalid, bne_self_eq_false, Bool.false_eq_true, if_false]
      exact ih hrest hs
    · have hone := entriesDropped_one hs c.1 c.2 .cueInvalidated
      have hsame : cells.filter (fun d => ((s.dropEntry c.1 c.2 .cueInvalidated).entry d.1 d.2).state != .invalid) =
          cells.filter (fun d => (s.entry d.1 d.2).state != .invalid) :=
        List.filter_congr fun d hd => by
          rw [hone.entry, if_neg]
          rw [List.mem_singleton]
          intro he
          have hdc : d = c := he
          exact hc (hdc ▸ hd)
      have hfold := ih hrest (lightingSound_dropEntry hs c.1 c.2 .cueInvalidated)
      rw [hsame] at hfold
      rw [if_neg hinvalid]
      simp only [hinvalid, bne_iff_ne, ne_eq, not_false_eq_true, if_true]
      exact entriesDropped_cons hs (fun hmem => hc (List.mem_of_mem_filter hmem)) hone hfold

/-! ### FILL_TIMEOUT -/

/-- Settles O40: the waiting slots of a FILLING entry own no channel and do not wait for headroom, so that dropping the entry changes
only slots, store and ports; a port receives no more records than there are slots. -/
theorem fillTimeoutFreesTheWaiters : Obligations.FillTimeoutFreesTheWaiters := by
  intro l w s hs
  dsimp only
  have hexec : exec (.fillTimeout l w) s = .next (s.fillTimeout l w) := rfl
  rw [hexec, State.fillTimeout]
  split
  · have h := entriesDropped_one hs l w .fillTimeout
    refine ⟨_, rfl, fun k v => ?_, h.lru, fun n => ?_, fun p hempty => ?_, h.frame⟩
    · rw [h.entry]
      by_cases hkv : k = l ∧ v = w
      · rw [if_pos hkv, if_pos (by simp [hkv]), hkv.1, hkv.2]
        rfl
      · rw [if_neg hkv, if_neg (by simpa using hkv)]
    · rw [h.slot]
      simp
    · have hposts := h.records p
      have hroom : (s.waiterRecords .fillTimeout p (l, w)).length ≤ 8 := by
        rw [State.waiterRecords, List.length_map]
        exact ((hs.waitersOnce l w).filter _).length_le_card
      rw [State.posts, List.flatMap_singleton, foldl_enqueue_eq _ _ (by simpa [hempty] using hroom), hempty] at hposts
      exact hposts
  · rfl

/-! ### CUE_INVALIDATE -/

theorem flatMap_filter_eq {α β : Type} (l : List α) (b : α → Bool) (f : α → List β) :
    (l.filter b).flatMap f = l.flatMap fun x => if b x = true then f x else [] := by
  induction l with
  | nil => rfl
  | cons x l ih =>
    rw [List.filter_cons, List.flatMap_cons, ← ih]
    split <;> simp

/-- Where only one element of a list gives anything. -/
theorem flatMap_of_unique {α β : Type} {l : List α} (hl : l.Nodup) {a : α} (ha : a ∈ l) {f : α → List β}
    (hf : ∀ x, x ≠ a → f x = []) : l.flatMap f = f a := by
  induction l with
  | nil => cases ha
  | cons x l ih =>
    obtain ⟨hx, hl⟩ := List.nodup_cons.1 hl
    rw [List.flatMap_cons]
    by_cases hxa : x = a
    · have hnone : l.flatMap f = [] := by
        rw [List.flatMap_eq_nil_iff]
        exact fun y hy => hf y fun hya => hx (by rwa [hxa, ← hya])
      rw [hnone, List.append_nil, hxa]
    · rw [hf x hxa, List.nil_append]
      exact ih hl ((List.mem_cons.1 ha).resolve_left (Ne.symm hxa))

/-- The entries of the store, by line and way. -/
def allCells : List (Fin 64 × Fin 2) := (List.finRange 64).flatMap fun l => [(l, 0), (l, 1)]

theorem mem_allCells (c : Fin 64 × Fin 2) : c ∈ allCells := by
  rw [allCells, List.mem_flatMap]
  refine ⟨c.1, List.mem_finRange _, ?_⟩
  have hway : c.2 = 0 ∨ c.2 = 1 := by omega
  rcases hway with h | h <;> simp [Prod.ext_iff, h]

theorem nodup_allCells : allCells.Nodup := by
  rw [allCells, List.nodup_flatMap]
  refine ⟨fun l _ => by simp, (List.nodup_finRange 64).imp fun hne => ?_⟩
  rw [Function.onFun, List.disjoint_left]
  rintro ⟨l, w⟩ h k
  simp only [List.mem_cons, Prod.mk.injEq, List.not_mem_nil, or_false] at h k
  exact hne (by rcases h with h | h <;> rcases k with k | k <;> exact h.1.symm.trans k.1)

theorem flatMap_allCells {β : Type} (f : Fin 64 × Fin 2 → List β) :
    allCells.flatMap f = (List.finRange 64).flatMap fun l => (List.finRange 2).flatMap fun w => f (l, w) := by
  rw [allCells, List.flatMap_assoc]
  rfl

/-- The entries `cells` are named in the store's order. -/
def Ordered (cells : List (Fin 64 × Fin 2)) : Prop :=
  ∀ f : Fin 64 × Fin 2 → List Record, cells.flatMap f = allCells.flatMap fun c => if c ∈ cells then f c else []

theorem ordered_one (c : Fin 64 × Fin 2) : Ordered [c] := fun f => by
  rw [flatMap_of_unique nodup_allCells (mem_allCells c) fun x hx => if_neg (by simpa using hx)]
  simp

theorem ordered_line (l : Fin 64) : Ordered [(l, 0), (l, 1)] := fun f => by
  rw [flatMap_allCells, flatMap_of_unique (List.nodup_finRange 64) (List.mem_finRange l)]
  · simp [List.finRange_succ]
  · intro k hk
    simp [hk]

theorem ordered_all : Ordered allCells := fun f => by simp [mem_allCells]

/-- What a request leaves that drops the entries that hold a cue among `cells`. -/
theorem invalidates {s : State} {p : Port} {payload : List Byte} (hs : s.lightingSound) (ht : s.takes p .cueInvalidate payload)
    {cells : List (Fin 64 × Fin 2)} (hcells : cells.Nodup) (ho : Ordered cells) (drops : Fin 64 → Fin 2 → Prop)
    [∀ l w, Decidable (drops l w)] (hdrops : ∀ l w, drops l w ↔ (l, w) ∈ cells ∧ (s.entry l w).state ≠ .invalid)
    (hh : handleCueInvalidate (s.enterExecuting p) payload =
      okay (cells.foldl (fun t c => t.invalidateWay c.1 c.2) (s.enterExecuting p))) :
    ∃ t, exec (.cueInvalidate p payload) s = .next t ∧ (t.port p).answers .cueInvalidate .ok ∧
      (∀ l w, (drops l w → t.entry l w = { Entry.reset with tag := (s.entry l w).tag }) ∧
        (¬drops l w → t.entry l w = s.entry l w)) ∧
      (∀ l, (pick t.store l).lru = (pick s.store l).lru) ∧
      (∀ n, ((∃ l w, drops l w ∧ n ∈ (s.entry l w).waiters) → t.slot n = Slot.reset) ∧
        ((∀ l w, drops l w → n ∉ (s.entry l w).waiters) → t.slot n = s.slot n)) ∧
      (∀ q, s.tells t q ((List.finRange 64).flatMap (fun l => (List.finRange 2).flatMap (fun w =>
        if drops l w then ((s.entry l w).waiters.filter (fun n => (s.slot n).port == some q)).map
          (fun n => ⟨.cueInvalidated, n.val, (s.slot n).cue, s.deviceSeconds⟩) else [])))) ∧
      t = { s with slots := t.slots, store := t.store, ports := t.ports } := by
  have hexecuting : (s.enterExecuting p).lightingSound :=
    lightingSound_of_same (by simp) (by simp) (by simp) (by simp) hs
  have h := entriesDropped_foldl cells hcells hexecuting
  generalize cells.foldl (fun t c => t.invalidateWay c.1 c.2) (s.enterExecuting p) = u at h hh
  have hmem : ∀ l w, (l, w) ∈ cells.filter (fun c => ((s.enterExecuting p).entry c.1 c.2).state != .invalid) ↔ drops l w := by
    intro l w
    rw [hdrops]
    simp
  refine ⟨_, ht.served (effect := fun _ => u) hh, answers_answer u p .cueInvalidate .ok,
    fun l w => ?_, fun l => ?_, fun n => ?_, fun q => tells_request (t := u) (tells_of_posts ?_) _ _, ?_⟩
  · have hentry := h.entry l w
    rw [if_congr (hmem l w) rfl rfl, enterExecuting_entry] at hentry
    constructor
    · intro hd
      rw [if_pos hd] at hentry
      exact (entry_congr (answer_store u p _ _) l w).trans hentry
    · intro hd
      rw [if_neg hd] at hentry
      exact (entry_congr (answer_store u p _ _) l w).trans hentry
  · have hlru := h.lru l
    rw [enterExecuting_store] at hlru
    exact (congrArg (fun store => (pick store l).lru) (answer_store u p _ _)).trans hlru
  · have hslot := h.slot n
    have hwaits : (∃ c ∈ cells.filter (fun c => ((s.enterExecuting p).entry c.1 c.2).state != .invalid),
        n ∈ ((s.enterExecuting p).entry c.1 c.2).waiters) ↔ ∃ l w, drops l w ∧ n ∈ (s.entry l w).waiters := by
      constructor
      · rintro ⟨⟨l, w⟩, hc, hn⟩
        exact ⟨l, w, (hmem l w).1 hc, by simpa using hn⟩
      · rintro ⟨l, w, hd, hn⟩
        exact ⟨(l, w), (hmem l w).2 hd, by simpa using hn⟩
    rw [if_congr hwaits rfl rfl, enterExecuting_slot] at hslot
    constructor
    · intro hd
      rw [if_pos hd] at hslot
      exact (slot_congr (answer_slots u p _ _) n).trans hslot
    · intro hd
      rw [if_neg fun ⟨l, w, hlw, hn⟩ => hd l w hlw hn] at hslot
      exact (slot_congr (answer_slots u p _ _) n).trans hslot
  · have hrecords : (cells.filter fun c => ((s.enterExecuting p).entry c.1 c.2).state != .invalid).flatMap
          ((s.enterExecuting p).waiterRecords .cueInvalidated q) =
        (List.finRange 64).flatMap (fun l => (List.finRange 2).flatMap (fun w =>
          if drops l w then s.waiterRecords .cueInvalidated q (l, w) else [])) := by
      rw [flatMap_filter_eq, ho, flatMap_allCells]
      refine List.flatMap_congr fun l _ => List.flatMap_congr fun w _ => ?_
      have hrecord : (s.enterExecuting p).waiterRecords .cueInvalidated q (l, w) = s.waiterRecords .cueInvalidated q (l, w) := by
        simp [State.waiterRecords]
      rw [hrecord]
      by_cases hd : drops l w
      · obtain ⟨hc, hlive⟩ := (hdrops l w).1 hd
        simp [hd, hc, hlive]
      · rw [if_neg hd]
        by_cases hc : (l, w) ∈ cells
        · have hlive : (s.entry l w).state = .invalid := by
            by_contra hlive
            exact hd ((hdrops l w).2 ⟨hc, hlive⟩)
          simp [hc, hlive]
        · simp [hc]
    have hposts := h.records q
    rw [hrecords] at hposts
    exact hposts
  · have hframe := h.frame
    unfold State.served State.answer
    rw [hframe]
    cases p <;> rfl

/-- The port's block, by the scope of the payload. -/
theorem cueInvalidate_cue {s : State} {payload : List Byte} {cue : Nat} (hscope : readU8 payload 0 = 0)
    (hcue : readU16 payload 1 = cue) (hvalid : validCue cue = true) : handleCueInvalidate s payload = okay
      ((((s.wayOf cue).map fun w => (cueLine cue, w)).toList).foldl (fun t c => t.invalidateWay c.1 c.2) s) := by
  unfold handleCueInvalidate
  rw [hscope, hcue]
  simp only [hvalid, Bool.not_true, Bool.false_eq_true, if_false]
  cases s.wayOf cue with
  | none => rfl
  | some way => rfl

theorem cueInvalidate_line {s : State} {payload : List Byte} (hscope : readU8 payload 0 = 1) (l : Fin 64)
    (hl : readU8 payload 2 = l.val) : handleCueInvalidate s payload =
      okay ([(l, 0), (l, 1)].foldl (fun t c => t.invalidateWay c.1 c.2) s) := by
  unfold handleCueInvalidate
  rw [hscope, hl, indexBelow_val]
  rfl

theorem foldl_allCells (s : State) :
    (List.finRange 64).foldl State.invalidateLine s = allCells.foldl (fun t c => t.invalidateWay c.1 c.2) s := by
  rw [allCells, List.foldl_flatMap]
  exact congrArg (fun f => List.foldl f s (List.finRange 64)) (funext fun t => funext fun l => rfl)

theorem cueInvalidate_store {s : State} {payload : List Byte} (hscope : readU8 payload 0 = 2) :
    handleCueInvalidate s payload = okay (allCells.foldl (fun t c => t.invalidateWay c.1 c.2) s) := by
  unfold handleCueInvalidate
  rw [hscope, ← foldl_allCells]
  rfl

theorem cueInvalidate_refused {s : State} {payload : List Byte}
    (h : 2 < readU8 payload 0 ∨ readU8 payload 0 = 0 ∧ validCue (readU16 payload 1) = false ∨
      readU8 payload 0 = 1 ∧ 63 < readU8 payload 2) : handleCueInvalidate s payload = refuse s .badArg := by
  unfold handleCueInvalidate
  split
  · next h0 =>
    have hinvalid : validCue (readU16 payload 1) = false := by
      rw [h0] at h
      simpa using h
    simp [hinvalid]
  · next h1 =>
    have hline : 64 ≤ readU8 payload 2 := by
      rw [h1] at h
      have hbeyond : 63 < readU8 payload 2 := by simpa using h
      omega
    rw [indexBelow_of_le hline]
  · next h2 =>
    rw [h2] at h
    simp at h
  · rfl

/-- With the lighting sound, the only entry of a cue is the one found. -/
theorem holds_iff_wayOf {s : State} (hs : s.lightingSound) (cue : Nat) (l : Fin 64) (w : Fin 2) :
    (s.entry l w).state ≠ .invalid ∧ l = cueLine cue ∧ (s.entry l w).tag = cue / 64 ↔
      (l, w) ∈ ((s.wayOf cue).map fun w => (cueLine cue, w)).toList ∧ (s.entry l w).state ≠ .invalid := by
  constructor
  · rintro ⟨hstate, rfl, htag⟩
    refine ⟨?_, hstate⟩
    cases hway : s.wayOf cue with
    | none => exact absurd htag (wayOf_none hway w hstate)
    | some way =>
      obtain ⟨hheld, hheldTag⟩ := wayOf_matches hway
      by_cases hw : w = way
      · simp [hw]
      · have hother : w = otherWay way := by
          unfold otherWay
          split <;> omega
        subst hother
        exact absurd (hheldTag.trans htag.symm) (((lightingSound_iff s).1 hs).2.other_tag hheld hstate)
  · rintro ⟨hmem, hstate⟩
    cases hway : s.wayOf cue with
    | none => simp [hway] at hmem
    | some way =>
      simp only [hway, Option.map_some, Option.toList_some, List.mem_singleton, Prod.mk.injEq] at hmem
      obtain ⟨rfl, rfl⟩ := hmem
      exact ⟨hstate, rfl, (wayOf_matches hway).2⟩

theorem ordered_nil : Ordered [] := fun f => by simp

/-- Settles O39: each scope names entries in the store's order, and those that hold a cue are dropped one after the other. -/
theorem cueInvalidateDropsItsScope : Obligations.CueInvalidateDropsItsScope := by
  intro p scope index s hmay hs hscope hindex c drops
  have ht : s.takes p .cueInvalidate (payloadScoped scope index) :=
    takes_of_mayCommand .cueInvalidate hmay (by simp [payloadScoped]) rfl rfl
  have hscoped : readU8 (payloadScoped scope index) 0 = scope := readU8_encU8 hscope _
  have hcue : readU16 (payloadScoped scope index) 1 = index := readU16_encU16_last hindex
  have hline : readU8 (payloadScoped scope index) 2 = index % 256 := by
    simp [payloadScoped, encU8, encU16, readU8]
  have hinvalid : validCue index = false ↔ index = 0 ∨ 4095 < index := by
    simp only [validCue, Bool.and_eq_false_iff, decide_eq_false_iff_not]
    omega
  split
  · next hbad =>
    refine ht.refused (cueInvalidate_refused ?_)
    rw [hscoped, hcue, hline, hinvalid]
    exact hbad
  · next hgood =>
    obtain rfl | rfl | rfl : scope = 0 ∨ scope = 1 ∨ scope = 2 := by omega
    · have hvalid : validCue index = true := by
        rw [← Bool.not_eq_false, hinvalid]
        omega
      have hway : (s.enterExecuting p).wayOf index = s.wayOf index := by simp [State.wayOf]
      have hhandle := cueInvalidate_cue (s := s.enterExecuting p) hscoped hcue hvalid
      rw [hway] at hhandle
      refine invalidates hs ht ?_ ?_ drops (fun l w => ?_) hhandle
      · cases s.wayOf index <;> simp
      · cases s.wayOf index with
        | none => exact ordered_nil
        | some way => exact ordered_one _
      · rw [← holds_iff_wayOf hs]
        simp [drops]
    · have hbelow : index % 256 < 64 := by omega
      refine invalidates hs ht (by simp) (ordered_line _) drops (fun l w => ?_)
        (cueInvalidate_line hscoped ⟨index % 256, hbelow⟩ hline)
      have hw : w = 0 ∨ w = 1 := by omega
      have hl : l = ⟨index % 256, hbelow⟩ ↔ l.val = index % 256 := Fin.ext_iff
      simp only [List.mem_cons, Prod.mk.injEq, List.not_mem_nil, or_false, drops]
      rw [← and_or_left, hl]
      constructor
      · rintro ⟨hstate, -, hcell⟩
        exact ⟨⟨hcell trivial, hw⟩, hstate⟩
      · rintro ⟨⟨hcell, -⟩, hstate⟩
        exact ⟨hstate, fun h => absurd h Nat.one_ne_zero, fun _ => hcell⟩
    · refine invalidates hs ht nodup_allCells ordered_all drops (fun l w => ?_) (cueInvalidate_store hscoped)
      simp [drops, mem_allCells]

end Sys2Proof.Machine
end

