-- ==== Sys2Proof/Proofs/Releases.lean ====
section
/-! PROOFS. RELEASE (R152, R153), and what a request leaves of the evaluation that it asks for. -/

namespace Sys2Proof.Machine

/-! ### An evaluation within a request -/

theorem evaluated_answer {s : State} (h : s.evaluated) (p : Port) (code : Byte) (a : Answer) : (s.answer p code a).evaluated :=
  evaluated_of_same ⟨answer_surface .., answer_plant .., answer_fog .., answer_channels .., answer_slots ..⟩
    s.governor.queue s.governor.evalCount s.governor.lastEval (answer_governor ..) h

theorem tellsOverload_request {s t : State} {p : Port} (h : (s.enterExecuting p).tellsOverload t) (code : Byte) (a : Answer) :
    s.tellsOverload (t.answer p code a) := by
  intro q
  have hq := h q
  rw [enterExecuting_governor, enterExecuting_deviceSeconds] at hq
  rw [answer_governor]
  exact ⟨adds_request hq.1 code a, adds_request hq.2 code a⟩

theorem lightingOnly_executing (s : State) (p : Port) : LightingOnly s (s.enterExecuting p) := by cases p <;> rfl

theorem lightingOnly_answer (s : State) (p : Port) (code : Byte) (a : Answer) : LightingOnly s (s.answer p code a) := by
  cases p <;> rfl

/-! ### RELEASE -/

theorem mayRelease_iff (s : State) (p : Port) (n : Fin 8) : s.mayRelease p n = true ↔
    (s.slot n).port = some p ∨ (s.slot n).cls.any (fun c => s.inDomain c.domain p) = true := by
  unfold State.mayRelease
  cases (s.slot n).cls <;> simp

theorem keepsEntries_endSlots {ns : List (Fin 8)} {k : RecordKind} {s t : State} (h : SlotsEnded ns k s t) : s.keepsEntries t :=
  fun l w => by rw [h.entry]

/-- What is left of a request that releases the slots `ns`. -/
theorem releases {s : State} {p : Port} (ns : List (Fin 8)) (hns : ns.Nodup) :
    let t := ((s.enterExecuting p).releaseSlots ns).answer p RequestKind.release.code { result := .ok }
    (t.port p).answers .release .ok ∧ (∀ n ∈ ns, t.slot n = Slot.reset) ∧
      (∀ q, s.tells t q ((ns.filter (fun n => (s.slot n).port == some q)).map
        (fun n => ⟨.cueReleased, n.val, (s.slot n).cue, s.deviceSeconds⟩))) ∧
      ((∀ m ∈ s.governor.queue, m ∈ ns) →
        (∀ m, m ∉ ns → t.slot m = s.slot m) ∧
        (∀ c, t.channel c = { s.channel c with owner := (s.channel c).owner.filter (fun m => decide (m ∉ ns)) }) ∧
        t.governor.queue = [] ∧ t.governor.evalCount = s.governor.evalCount + 1 ∧ s.tellsOverload t) ∧
      (∀ l w, t.entry l w = { s.entry l w with waiters := (t.entry l w).waiters }) ∧ t.governor.lastEval = some .ordinary ∧
      t.evaluated ∧
      t = { s with governor := t.governor, channels := t.channels, slots := t.slots, store := t.store, ports := t.ports } := by
  intro t
  have h := slotsEnded_foldl .cueReleased ns hns (s.enterExecuting p)
  have hposted : PostedOnly (fun k => k = .cueReleased) (s.enterExecuting p)
      (ns.foldl (fun t n => t.endSlot n .cueReleased) (s.enterExecuting p)) :=
    (postedOnly_postMoves (· = .cueReleased)).foldl _ (fun t n => postedOnly_endSlot (K := (· = .cueReleased)) rfl t n) ns _
  have ht : t = (State.evaluate (ns.foldl (fun t n => t.endSlot n .cueReleased) (s.enterExecuting p))).answer p
      RequestKind.release.code { result := .ok } := rfl
  generalize ns.foldl (fun t n => t.endSlot n .cueReleased) (s.enterExecuting p) = u at h hposted ht
  have hevaluated := postedOnly_evaluate u
  have hexecuting := lightingOnly_executing s p
  have hkeeps : (s.enterExecuting p).keepsEntries u.evaluate :=
    (keepsEntries_service _).evaluate (keepsEntries_endSlots h)
  have hframe := (hexecuting.trans h.frame).trans ((lighting_evaluate u).trans
    (lightingOnly_answer u.evaluate p RequestKind.release.code { result := .ok }))
  rw [← ht] at hframe
  have hslot : ∀ m, t.slot m = u.evaluate.slot m := fun m => by rw [ht]; exact slot_congr (answer_slots ..) m
  have hchannel : ∀ c, t.channel c = u.evaluate.channel c := fun c => by rw [ht]; exact channel_congr (answer_channels ..) c
  have hgovernor : t.governor = u.evaluate.governor := by rw [ht, answer_governor]
  refine ⟨by rw [ht]; exact answers_answer .., fun n hn => ?_, fun q => ?_, fun hqueue => ?_, fun l w => ?_, ?_, ?_, hframe⟩
  · rw [hslot]
    exact ((idleSlot_service n).evaluate (h.idle hn)).1
  · have hposts := h.records q
    simp only [enterExecuting_slot, enterExecuting_deviceSeconds] at hposts
    rw [ht]
    exact tells_request (tells_then_ordinary (tells_of_posts hposts) (hevaluated.mono fun _ => ordinary_of_evaluation)) _ _
  · have hempty : u.governor.queue = [] := by
      rw [h.governor]
      simpa using fun m hm => hqueue m (by simpa using hm)
    have honce := evaluate_evaluatedOnce hempty
    have hoverload := evaluate_tellsOverload hempty
    obtain ⟨-, -, -, hleft, hcount, -, -, hsame⟩ := honce
    have hslots : u.evaluate.slots = u.slots := by rw [hsame]
    have hchannels : u.evaluate.channels = u.channels := by rw [hsame]
    refine ⟨fun m hm => ?_, fun c => ?_, by rw [hgovernor, hleft], ?_, ?_⟩
    · rw [hslot, slot_congr hslots, h.slot, if_neg hm, enterExecuting_slot]
    · rw [hchannel, channel_congr hchannels, h.channel, enterExecuting_channel]
    · rw [hgovernor, hcount, h.governor]
      simp
    · rw [ht]
      refine tellsOverload_request (tellsOverload_after hposted (by simp) (by simp) ?_ h.frame.deviceSeconds hoverload hevaluated) _ _
      rw [h.governor]
  · have hentry := hkeeps l w
    rw [enterExecuting_entry] at hentry
    have hsame : t.entry l w = u.evaluate.entry l w := by rw [ht]; exact entry_congr (answer_store ..) l w
    rw [hsame]
    exact hentry
  · rw [hgovernor, evaluate_lastEval]
  · rw [ht]
    exact evaluated_answer (evaluate_evaluated u) ..

/-- Settles O41: the slots that the port may release are freed one after the other; the evaluation that follows posts only ordinary
records, and admits only slots that are still waiting. -/
theorem releaseFreesWhatThePortMay : Obligations.ReleaseFreesWhatThePortMay := by
  intro p s hclear may _
  have ht (scope index : Nat) : s.takes p .release (payloadScoped scope index) :=
    takes_of_clearToSend .release hclear (by simp [payloadScoped]) rfl rfl
  have hscoped (scope index : Nat) (h : scope < 256) : readU8 (payloadScoped scope index) 0 = scope := readU8_encU8 h _
  have hindexed (scope index : Nat) (h : index < 65536) : readU16 (payloadScoped scope index) 1 = index := readU16_encU16_last h
  have hmay : ∀ n, (s.enterExecuting p).mayRelease p n = true ↔ may n := fun n => by
    rw [mayRelease_iff]
    simp [may]
  refine ⟨fun scope index hscope hindex hbad => (ht scope index).refused (r := .badArg) ?_, fun n => ?_, fun cue hlow hhigh => ?_⟩
  · unfold State.handOver handleRelease
    simp only [hscoped scope index hscope, hindexed scope index hindex]
    split
    · rw [indexBelow_of_le (by omega)]
    · have hinvalid : validCue index = false := by
        simp only [validCue, Bool.and_eq_false_iff, decide_eq_false_iff_not]
        omega
      simp [hinvalid]
    · rfl
  · dsimp only
    have hbelow : indexBelow 8 (readU16 (payloadScoped 0 n.val) 1) = some n := by
      rw [hindexed 0 n.val (by omega), indexBelow_val]
    have hhandle : (s.enterExecuting p).handOver p .release (payloadScoped 0 n.val) =
        if (s.slot n).state = .free then okay (s.enterExecuting p)
        else if (s.enterExecuting p).mayRelease p n then okay ((s.enterExecuting p).releaseSlots [n])
        else refuse (s.enterExecuting p) .noAuthority := by
      unfold State.handOver handleRelease
      simp only [hscoped 0 n.val (by omega), hbelow, enterExecuting_slot]
    by_cases hfree : (s.slot n).state = .free
    · rw [if_pos hfree]
      exact (ht 0 n.val).served (effect := id) (hhandle.trans (if_pos hfree))
    rw [if_neg hfree] at hhandle ⊢
    by_cases hmayn : may n
    · rw [if_neg (not_not_intro hmayn)]
      rw [if_pos ((hmay n).2 hmayn)] at hhandle
      exact ⟨_, (ht 0 n.val).served (effect := fun u => u.releaseSlots [n]) hhandle, releases [n] (List.nodup_singleton n)⟩
    · rw [if_pos hmayn]
      rw [if_neg (mt (hmay n).1 hmayn)] at hhandle
      exact (ht 0 n.val).refused hhandle
  · intro c candidate
    have hvalid : validCue cue = true := by simp [validCue, hlow, hhigh]
    have hcandidates : all8.filter (fun n => (s.slot n).state != .free && (s.slot n).cue == cue) =
        all8.filter (fun n => decide (candidate n)) := List.filter_congr fun n _ => by
      simp [candidate, Bool.beq_eq_decide_eq, bne]
    have hmine : (all8.filter (fun n => decide (candidate n))).filter ((s.enterExecuting p).mayRelease p) =
        all8.filter (fun n => decide (candidate n ∧ may n)) := by
      rw [List.filter_filter]
      refine List.filter_congr fun n _ => ?_
      rw [Bool.eq_iff_iff]
      simp only [Bool.and_eq_true, decide_eq_true_eq, hmay]
      exact and_comm
    have hhandle : (s.enterExecuting p).handOver p .release (payloadScoped 1 cue) =
        if (all8.filter (fun n => decide (candidate n))).isEmpty then okay (s.enterExecuting p)
        else if (all8.filter (fun n => decide (candidate n ∧ may n))).isEmpty then refuse (s.enterExecuting p) .noAuthority
        else okay ((s.enterExecuting p).releaseSlots (all8.filter (fun n => decide (candidate n ∧ may n)))) := by
      unfold State.handOver handleRelease
      simp only [hscoped 1 cue (by omega), hindexed 1 cue (by omega), hvalid, enterExecuting_slot, hcandidates, hmine]
      rfl
    have hempty : ∀ q : Fin 8 → Prop, ∀ [DecidablePred q], (all8.filter (fun n => decide (q n))).isEmpty = true ↔ ∀ n, ¬q n := by
      intro q _
      simp [List.filter_eq_nil_iff, mem_all8]
    by_cases hnone : ∀ n, ¬candidate n
    · rw [if_pos hnone]
      exact (ht 1 cue).served (effect := id) (hhandle.trans (if_pos ((hempty candidate).2 hnone)))
    rw [if_neg hnone]
    rw [if_neg (mt (hempty candidate).1 hnone)] at hhandle
    have hnoneMine : (∀ n, candidate n → ¬may n) ↔ ∀ n, ¬(candidate n ∧ may n) := forall_congr' fun n => not_and.symm
    by_cases hrefused : ∀ n, candidate n → ¬may n
    · rw [if_pos hrefused]
      rw [if_pos ((hempty _).2 (hnoneMine.1 hrefused))] at hhandle
      exact (ht 1 cue).refused hhandle
    · rw [if_neg hrefused]
      rw [if_neg (mt (hempty _).1 (mt hnoneMine.2 hrefused))] at hhandle
      exact ⟨_, (ht 1 cue).served (effect := fun u => u.releaseSlots _) hhandle, releases _ (nodup_all8.filter _)⟩

end Sys2Proof.Machine
end

