-- ==== Sys2Proof/Proofs/FadeSteps.lean ====
section
/-! PROOFS. The levels of a fade and the end of one (R148, R149). -/

namespace Sys2Proof.Machine

/-! ### The level formula (R148) -/

/-- A share of a distance, rounded half up, is at most the distance. -/
theorem rounded_le (d x e : Nat) (hd : 0 < d) (he : e ≤ d) : (x * e + d / 2) / d ≤ x := by
  have hmul : x * e ≤ x * d := Nat.mul_le_mul_left x he
  have hlt : (x * e + d / 2) / d < x + 1 := by
    rw [Nat.div_lt_iff_lt_mul hd, Nat.add_mul]
    omega
  omega

theorem rounded_whole (d x : Nat) (hd : 0 < d) : (x * d + d / 2) / d = x := by
  rw [Nat.mul_comm, Nat.mul_add_div hd, Nat.div_eq_of_lt (by omega), Nat.add_zero]

theorem fadeLevel_le_max (d s t o elapsed : Nat) : fadeLevel d s t o elapsed ≤ max s t := by
  unfold fadeLevel
  split
  · split <;> omega
  · next hd =>
    have hround := rounded_le d (t - s) (min d (elapsed - o)) (Nat.pos_of_ne_zero hd) (min_le_left ..)
    dsimp only
    generalize ((t - s) * min d (elapsed - o) + d / 2) / d = up at hround ⊢
    generalize ((s - t) * min d (elapsed - o) + d / 2) / d = down
    split <;> omega

theorem min_le_fadeLevel (d s t o elapsed : Nat) : min s t ≤ fadeLevel d s t o elapsed := by
  unfold fadeLevel
  split
  · split <;> omega
  · next hd =>
    have hround := rounded_le d (s - t) (min d (elapsed - o)) (Nat.pos_of_ne_zero hd) (min_le_left ..)
    dsimp only
    generalize ((s - t) * min d (elapsed - o) + d / 2) / d = down at hround ⊢
    generalize ((t - s) * min d (elapsed - o) + d / 2) / d = up
    split <;> omega

theorem fadeLevel_of_reached {d s t o elapsed : Nat} (h : o + d ≤ elapsed) : fadeLevel d s t o elapsed = t := by
  unfold fadeLevel
  split
  · rw [if_neg (by omega)]
  · next hd =>
    have hmin : min d (elapsed - o) = d := by omega
    dsimp only
    rw [hmin, rounded_whole _ _ (Nat.pos_of_ne_zero hd), rounded_whole _ _ (Nat.pos_of_ne_zero hd)]
    split <;> omega

theorem fadeLevel_formula {d s t o elapsed : Nat} (hd : 0 < d) : (fadeLevel d s t o elapsed : Int) =
    s + ((t : Int) - s).sign * ((((t : Int) - s).natAbs * min d (elapsed - o) + d / 2) / d : Nat) := by
  unfold fadeLevel
  rw [if_neg (by omega)]
  dsimp only
  split
  · next hle =>
    have habs : ((t : Int) - s).natAbs = t - s := by omega
    rw [habs]
    by_cases heq : s = t
    · subst heq
      have hnone : d / 2 / d = 0 := Nat.div_eq_of_lt (by omega)
      simp [hnone]
    · rw [Int.sign_eq_one_of_pos (by omega), one_mul]
      push_cast
      rfl
  · next hlt =>
    have habs : ((t : Int) - s).natAbs = s - t := by omega
    have hround := rounded_le d (s - t) (min d (elapsed - o)) hd (min_le_left ..)
    rw [habs, Int.sign_eq_neg_one_of_neg (by omega), Nat.cast_sub (by omega)]
    omega

theorem fadeLevel_instant (s t o elapsed : Nat) : fadeLevel 0 s t o elapsed = if elapsed < o then s else t := rfl

/-! ### A step (R149) -/

theorem allReached_iff (sl : Slot) : sl.allReached = true ↔ ∀ e ∈ sl.list, e.offset + sl.duration ≤ sl.elapsed := by
  simp [Slot.allReached, ListEntry.reached]

/-- A FADING slot stands in no waiter list. -/
theorem entry_without_fading {s : State} (hs : s.lightingSound) {n : Fin 8} (hn : (s.slot n).state = .fading) (l : Fin 64) (w : Fin 2) :
    (s.entry l w).without n = s.entry l w := by
  have hnot : n ∉ (s.entry l w).waiters := fun hmem => by simpa [hn] using (hs.waiters l w n hmem).2.1
  have hwaiters : (s.entry l w).waiters.filter (· != n) = (s.entry l w).waiters := filter_ne_eq_self hnot
  rw [Entry.without, hwaiters]

/-- What a completion makes of a state with an empty headroom queue. -/
theorem completeSlot_of_empty {s : State} (hs : s.lightingSound) {n : Fin 8} (hn : (s.slot n).state = .fading)
    (hqueue : s.governor.queue = []) :
    let t := s.completeSlot n
    t.slot n = Slot.reset ∧ (∀ m, m ≠ n → t.slot m = s.slot m) ∧ (∀ c, t.channel c = (s.channel c).disowned n) ∧
      (∀ p, (s.slot n).port = some p → (s.port p).queue.length < 8 →
        (s.port p).queue ++ [⟨.cueDone, n.val, (s.slot n).cue, s.deviceSeconds⟩] <+: (t.port p).queue) ∧
      t.governor.evalCount = s.governor.evalCount + 1 ∧ t.evaluated ∧ s.tellsOverload t ∧
      t = { s with governor := t.governor, channels := t.channels, slots := t.slots, ports := t.ports } := by
  intro t
  have hgovernor : (s.endSlot n .cueDone).governor = s.governor := by
    rw [endSlot_governor, hqueue, List.filter_nil, ← hqueue]
  have hempty : (s.endSlot n .cueDone).governor.queue = [] := by rw [hgovernor, hqueue]
  have hordinary := (postedOnly_evaluate (s.endSlot n .cueDone)).mono fun _ => ordinary_of_evaluation
  obtain ⟨hevaluated, -, -, -, hcount, -, -, hsame⟩ := evaluate_evaluatedOnce hempty
  have hslots : t.slots = (s.endSlot n .cueDone).slots := by rw [show t = _ from hsame]
  have hchannels : t.channels = (s.endSlot n .cueDone).channels := by rw [show t = _ from hsame]
  have hfreed : (s.endSlot n .cueDone).store = s.store := store_ext (fun l w => by
    rw [entry_endSlot, entry_without_fading hs hn, ite_self]) fun l => lru_endSlot ..
  have hstore : t.store = s.store := by
    rw [show t = _ from hsame]
    exact hfreed
  have hposted : PostedOnly (· = .cueDone) s (s.endSlot n .cueDone) := postedOnly_endSlot (K := (· = .cueDone)) rfl s n
  have hframe := (lighting_endSlot s n .cueDone).trans (lighting_evaluate (s.endSlot n .cueDone))
  refine ⟨?_, fun m hm => ?_, fun c => ?_, fun p hp hroom => ?_, ?_, hevaluated, ?_, ?_⟩
  · rw [slot_congr hslots, slot_endSlot, if_pos rfl]
  · rw [slot_congr hslots, slot_endSlot, if_neg hm]
  · rw [channel_congr hchannels, channel_endSlot]
  · have hposts := posts_endSlot s n .cueDone p
    rw [if_pos hp] at hposts
    exact tells_then_ordinary (tells_of_posts hposts) hordinary (by simpa using hroom)
  · rw [← hgovernor]
    exact hcount
  · exact tellsOverload_after hposted (by simp) (by simp) (by rw [hgovernor]) (lighting_endSlot s n _).deviceSeconds
      (evaluate_tellsOverload hempty) (postedOnly_evaluate _)
  · have hwhole : t = { s with governor := t.governor, channels := t.channels, slots := t.slots, store := t.store, ports := t.ports } :=
      hframe
    rw [hstore] at hwhole
    exact hwhole

/-- The slot has moved on, and its levels are written. -/
def State.fadeWritten (s : State) (n : Fin 8) : State := (s.setSlot n (s.slot n).advanced).writeLevels n

section
variable {s : State} {n : Fin 8}

theorem fadeWritten_channel (hs : s.lightingSound) (c : Fin 96) : (s.fadeWritten n).channel c = { s.channel c with
    level := listedLevel (s.slot n).list (s.slot n).duration ((s.slot n).elapsed + 20) c (s.channel c).level } := by
  have hslot : (s.setSlot n (s.slot n).advanced).slot n = (s.slot n).advanced := slot_setSlot_same ..
  have h := channel_writeLevels (s.setSlot n (s.slot n).advanced) n (by rw [hslot]; exact hs.lists n) c
  rw [hslot] at h
  exact h

theorem fadeWritten_slot (m : Fin 8) : (s.fadeWritten n).slot m = if m = n then (s.slot n).advanced else s.slot m :=
  (slot_writeLevels _ n m).trans (slot_setSlot ..)

theorem fadeWritten_frame (s : State) (n : Fin 8) :
    s.fadeWritten n = { s.setSlot n (s.slot n).advanced with channels := (s.fadeWritten n).channels } :=
  writeLevels_frame (s.setSlot n (s.slot n).advanced) n

theorem lightingSound_fadeWritten (hs : s.lightingSound) (hn : (s.slot n).state = .fading) : (s.fadeWritten n).lightingSound := by
  have hstepped : (s.setSlot n (s.slot n).advanced).lightingSound :=
    lightingSound_of_staysSound (staysSound_setSlot_of_same rfl (by rw [Slot.advanced, hn]; decide) rfl rfl) hs
  exact lightingSound_of_staysSound (staysSound_of_same (by rw [fadeWritten_frame]) (owner_writeLevels _ n)
    (by rw [fadeWritten_frame]) (by rw [fadeWritten_frame])) hstepped

/-- The governor and ports of a step that does not complete. -/
theorem fadeWritten_kept : (s.fadeWritten n).governor = s.governor ∧ (s.fadeWritten n).ports = s.ports ∧
    (s.fadeWritten n).deviceSeconds = s.deviceSeconds ∧ (s.fadeWritten n).store = s.store := by
  rw [fadeWritten_frame]
  exact ⟨rfl, rfl, rfl, rfl⟩

end

/-- Settles O43: a step writes the level that the list names for each channel; a slot of which every entry is reached is freed, and with
an empty headroom queue the one evaluation that follows only weighs the state left. -/
theorem fadeStepsReachTheirTargets : Obligations.FadeStepsReachTheirTargets := by
  refine ⟨fun d start target offset elapsed => ⟨min_le_fadeLevel .., fadeLevel_le_max .., fadeLevel_of_reached, fadeLevel_formula,
    fun hd => hd ▸ fadeLevel_instant ..⟩, ?_⟩
  intro n s hs sl reached level completes
  have hstep : exec (.fadeStep n) s = .next (s.fadeStep n) := rfl
  have hdone : exec (.cueDone n) s = .next (s.fadeDone n) := rfl
  have hreached : sl.allReached = true ↔ reached sl.elapsed := allReached_iff sl
  have hreachedNext : sl.advanced.allReached = true ↔ reached (sl.elapsed + 20) := allReached_iff sl.advanced
  refine ⟨fun hstate => ⟨?_, ?_⟩, fun hfading => ⟨?_, ?_⟩⟩
  · rw [hstep, State.fadeStep, if_neg hstate]
  · rw [hdone]
    unfold State.fadeDone
    rw [if_pos hstate]
  · have hfadeStep : s.fadeStep n = if sl.advanced.allReached then (s.fadeWritten n).completeSlot n else s.fadeWritten n :=
      if_pos hfading
    have hlevel : ∀ c, (s.fadeWritten n).channel c = { s.channel c with level := level (sl.elapsed + 20) c } := fadeWritten_channel hs
    split
    · next hnext =>
      rw [if_pos (hreachedNext.2 hnext)] at hfadeStep
      intro hqueue
      rw [hstep, hfadeStep]
      obtain ⟨hgovernor, hports, hseconds, hstore⟩ := fadeWritten_kept (s := s) (n := n)
      have hwritten : (s.fadeWritten n).slot n = sl.advanced := by rw [fadeWritten_slot, if_pos rfl]
      obtain ⟨hfreed, hothers, hchannels, htold, hcount, hevaluated, hoverload, hframe⟩ :=
        completeSlot_of_empty (lightingSound_fadeWritten hs hfading) (by rw [hwritten]; exact hfading) (by rw [hgovernor, hqueue])
      rw [hwritten, hseconds] at htold
      refine ⟨_, rfl, hfreed, fun m hm => ?_, fun c => ?_, fun p hp hroom => ?_, by rw [hcount, hgovernor], hevaluated, fun p => ?_, ?_⟩
      · rw [hothers m hm, fadeWritten_slot, if_neg hm]
      · rw [hchannels, hlevel]
        rfl
      · have hport := port_congr hports p
        have h := htold p hp (by rwa [hport])
        rwa [hport] at h
      · have h := hoverload p
        unfold State.adds at h ⊢
        rw [hgovernor, hseconds, port_congr hports] at h
        exact h
      · generalize (s.fadeWritten n).completeSlot n = t at hframe ⊢
        exact hframe.trans (congrArg (fun u : State => { u with
          governor := t.governor, channels := t.channels, slots := t.slots, ports := t.ports }) (fadeWritten_frame s n))
    · next hnext =>
      rw [if_neg (mt hreachedNext.1 hnext)] at hfadeStep
      exact ⟨_, hstep.trans (congrArg _ hfadeStep), hlevel, fadeWritten_frame s n⟩
  · have hfadeDone : s.fadeDone n = if sl.allReached then s.completeSlot n else if sl.advanced.allReached then s.fadeStep n else s :=
      if_neg (not_not_intro hfading)
    by_cases hall : reached sl.elapsed
    · rw [if_pos (hreached.2 hall)] at hfadeDone
      rw [if_pos hall]
      intro hqueue
      obtain ⟨hfreed, hothers, hchannels, hrest⟩ := completeSlot_of_empty hs hfading hqueue
      exact ⟨_, hdone.trans (congrArg _ hfadeDone), hfreed, hothers, fun c => hchannels c, hrest⟩
    · rw [if_neg (mt hreached.1 hall)] at hfadeDone
      rw [if_neg hall]
      by_cases hnext : reached (sl.elapsed + 20)
      · rw [if_pos hnext, hdone, hfadeDone, if_pos (hreachedNext.2 hnext), hstep]
      · rw [if_neg hnext, hdone, hfadeDone, if_neg (mt hreachedNext.1 hnext)]

end Sys2Proof.Machine
end

