-- ==== Sys2Proof/Proofs/Admission.lean ====
section
/-! PROOFS. Admission at a delay's end: the headroom test, entry into FADING, and the evaluations that follow (R120 to R124, R146,
R147). -/

namespace Sys2Proof.Machine

/-! ### Slots of which some are freed -/

/-- Of the slots of a list those are freed, one after the other, that meet a condition on their own record. -/
theorem slotsEnded_foldl_if (b : Slot → Bool) (k : RecordKind) (ns : List (Fin 8)) (hns : ns.Nodup) (s : State) :
    SlotsEnded (ns.filter fun n => b (s.slot n)) k s
      (ns.foldl (fun t n => if b (t.slot n) = true then t.endSlot n k else t) s) := by
  have hfold : ns.foldl (fun t n => if b (t.slot n) = true then t.endSlot n k else t) s =
      (ns.filter fun n => b (s.slot n)).foldl (fun t n => t.endSlot n k) s := by
    induction ns generalizing s with
    | nil => rfl
    | cons n ns ih =>
      obtain ⟨hn, hrest⟩ := List.nodup_cons.1 hns
      rw [List.foldl_cons, List.filter_cons]
      by_cases hb : b (s.slot n) = true
      · have hsame : ns.filter (fun m => b ((s.endSlot n k).slot m)) = ns.filter fun m => b (s.slot m) :=
          List.filter_congr fun m hm => by rw [slot_endSlot, if_neg fun h : m = n => hn (h ▸ hm)]
        rw [if_pos hb, if_pos hb, List.foldl_cons, ih hrest, hsame]
      · rw [if_neg hb, if_neg hb, ih hrest]
  rw [hfold]
  exact slotsEnded_foldl k _ (hns.filter _) s

/-! ### Evaluations with no slot waiting for headroom -/

theorem evaluateOnce_frame_of_empty {s : State} (h : s.governor.queue = []) :
    (s.evaluateOnce .ordinary none).1 = { s with
      governor := (s.evaluateOnce .ordinary none).1.governor, ports := (s.evaluateOnce .ordinary none).1.ports } := by
  obtain ⟨-, -, -, -, -, -, -, hframe⟩ := evaluateOnce_evaluatedOnce h
  exact hframe

/-- However many evaluations are asked for, with no slot waiting they change only the governor's figures and the ports. -/
theorem askOrdinary_frame_of_empty {s : State} (h : s.governor.queue = []) (asked : Nat) :
    s.askOrdinary asked = { s with governor := (s.askOrdinary asked).governor, ports := (s.askOrdinary asked).ports } := by
  rw [State.askOrdinary, h, evaluations_of_empty h _ asked (Nat.le_add_right ..)]
  induction asked generalizing s with
  | zero => rfl
  | succ asked ih =>
    rw [Function.iterate_succ_apply]
    have hrest := ih (evaluateOnce_queue_of_empty h .ordinary none)
    generalize (fun t : State => (t.evaluateOnce .ordinary none).1)^[asked] (s.evaluateOnce .ordinary none).1 = u at hrest ⊢
    rw [hrest, evaluateOnce_frame_of_empty h]

theorem postedOnly_askOrdinary (s : State) (asked : Nat) : PostedOnly RecordKind.ofEvaluation s (s.askOrdinary asked) :=
  postedOnly_evaluations _ _ s

/-! ### A slot that has been admitted -/

/-- The slot fades or is FREE, and does not wait for headroom. -/
def State.admitted (n : Fin 8) (s : State) : Prop :=
  ((s.slot n).state = .fading ∨ (s.slot n).state = .free) ∧ n ∉ s.governor.queue

theorem admitted_service (n : Fin 8) : ServiceInvariant (fun m => m ≠ n) (State.admitted n) where
  queued s hs m hm he := hs.2 (he ▸ hm)
  same s t hslots _ _ hqueue hs := by
    obtain ⟨hstate, hnot⟩ := hs
    exact ⟨by rwa [slot_congr hslots], by rwa [hqueue]⟩
  startFading s m hm hs := by
    obtain ⟨hstate, hnot⟩ := hs
    refine ⟨?_, ?_⟩
    · rw [slot_startFading, if_neg (Ne.symm hm)]
      exact hstate
    · rw [startFading_governor]
      exact fun hmem => hnot (List.mem_of_mem_filter hmem)
  freeSlot s m hs := by
    obtain ⟨hstate, hnot⟩ := hs
    refine ⟨?_, ?_⟩
    · rw [slot_freeSlot]
      split
      · exact .inr rfl
      · exact hstate
    · rw [freeSlot_governor]
      exact fun hmem => hnot (List.mem_of_mem_filter hmem)

theorem admitted_startFading (s : State) (n : Fin 8) : (s.startFading n).admitted n := by
  refine ⟨.inl ?_, ?_⟩
  · rw [slot_startFading, if_pos rfl]
    rfl
  · rw [startFading_governor]
    simp

theorem admitted_enterFading (s : State) (n : Fin 8) : (s.enterFading n).1.admitted n := by
  have hentered := admitted_startFading s n
  unfold State.enterFading
  refine ServiceInvariant.foldl _ (fun t m ht => ?_) _ ?_
  · unfold State.judgePreempted
    split
    · exact (admitted_service n).endSlot m _ ht
    · exact ht
  · split
    · exact (admitted_service n).endSlot n _ hentered
    · exact hentered

theorem admitted_admitSlot (s : State) (n : Fin 8) : (s.admitSlot n).admitted n :=
  (admitted_service n).evaluations _ _ (admitted_enterFading s n)

theorem admitSlot_evaluated (s : State) (n : Fin 8) :
    (s.admitSlot n).evaluated ∧ (s.admitSlot n).governor.lastEval = some .ordinary := by
  have hasked : 0 < if (s.enterFading n).2 then 2 else 1 := by split <;> decide
  exact ⟨askOrdinary_evaluated hasked _, askOrdinary_lastEval hasked _⟩

/-! ### What entry into FADING makes of a sound state -/

/-- What a slot has left in its list when the channels of another list are taken from it. -/
def Slot.keptOf (sl : Slot) (mine : List (Fin 96)) : List ListEntry := sl.list.filter fun e => decide (e.channel ∉ mine)

/-- The slots that lose their last entry when a slot enters FADING. -/
def State.robbed (s : State) (n : Fin 8) : List (Fin 8) :=
  all8.filter fun m => decide (m ≠ n) && (s.slot m).state == .fading && !(s.slot m).list.isEmpty &&
    ((s.slot m).keptOf ((s.slot n).list.map ListEntry.channel)).isEmpty

theorem mem_robbed {s : State} {n m : Fin 8} : m ∈ s.robbed n ↔ m ≠ n ∧ (s.slot m).state = .fading ∧ (s.slot m).list ≠ [] ∧
    (s.slot m).keptOf ((s.slot n).list.map ListEntry.channel) = [] := by
  simp [State.robbed, mem_all8, and_assoc]

/-- The level of a listed channel at the entry. -/
theorem fadeLevel_start (d s t o : Nat) : fadeLevel d s t o 0 = if d = 0 ∧ o = 0 then t else s := by
  by_cases hd : d = 0
  · subst hd
    rw [fadeLevel_instant]
    by_cases ho : o = 0
    · simp [ho]
    · rw [if_pos (by omega), if_neg (by omega)]
  · have hhalf : d / 2 / d = 0 := Nat.div_eq_of_lt (by omega)
    rw [if_neg fun h => hd h.1]
    simp [fadeLevel, hd, hhalf]

section
variable {s : State} {n : Fin 8}

/-- The list of another slot, by what the slots fade. -/
theorem list_startFading (hs : FadesSound s) {m : Fin 8} (hm : m ≠ n) : (s.startFading n).slot m =
    if (s.slot m).state = .fading then { s.slot m with list := (s.slot m).keptOf ((s.slot n).list.map ListEntry.channel) }
    else s.slot m := by
  rw [slot_startFading, if_neg hm]
  split
  · next hfading =>
    have hlist : (s.slot m).list.filter (fun x => !(named (s.slot n).list x.channel && (s.channel x.channel).owner == some m)) =
        (s.slot m).keptOf ((s.slot n).list.map ListEntry.channel) := by
      refine List.filter_congr fun x hx => ?_
      have howner : (s.channel x.channel).owner = some m := (hs.owners _ m).2 ⟨hfading, List.mem_map_of_mem hx⟩
      rw [howner, beq_self_eq_true, Bool.and_true, Bool.eq_iff_iff]
      simp [← named_iff]
    rw [hlist]
  · next hidle =>
    have hlist : (s.slot m).list.filter (fun x => !(named (s.slot n).list x.channel && (s.channel x.channel).owner == some m)) =
        (s.slot m).list := by
      refine List.filter_eq_self.2 fun x _ => ?_
      have howner : (s.channel x.channel).owner ≠ some m := fun h => hidle ((hs.owners _ m).1 h).1
      simp [howner]
    rw [hlist]

/-- The channels at the entry. -/
theorem channel_started (hs : FadesSound s) (c : Fin 96) : (s.startFading n).channel c =
    match (s.slot n).list.find? (fun e => e.channel == c) with
    | none => s.channel c
    | some e => { s.channel c with
      level := if (s.slot n).duration = 0 ∧ e.offset = 0 then e.target else (s.channel c).level
      owner := some n } := by
  rw [channel_startFading s n (hs.lists n) c]
  have hfind : ((s.slot n).started s).list.find? (fun e => e.channel == c) =
      ((s.slot n).list.find? (fun e => e.channel == c)).map fun e => { e with start := (s.channel e.channel).level } := by
    simp only [Slot.started, List.find?_map, Function.comp_def]
  unfold listedLevel
  rw [hfind]
  cases hc : (s.slot n).list.find? (fun e => e.channel == c) with
  | none =>
    have hnot : ¬named (s.slot n).list c = true := by
      simp only [named, List.any_eq_true, not_exists, not_and]
      exact fun e he => by simpa using List.find?_eq_none.1 hc e he
    simp [hnot]
  | some e =>
    have hec : e.channel = c := by simpa using List.find?_some hc
    have hnamed : named (s.slot n).list c = true := List.any_eq_true.2 ⟨e, List.mem_of_find?_eq_some hc, by simp [hec]⟩
    simp only [Option.map_some, fadeLevel_start, hnamed, if_true, hec]

/-- The slot completes at its entry when every entry is reached. -/
theorem started_allReached (s : State) (n : Fin 8) : ((s.startFading n).slot n).allReached = true ↔
    ∀ e ∈ (s.slot n).list, e.offset + (s.slot n).duration = 0 := by
  rw [slot_startFading, if_pos rfl, allReached_iff]
  simp [Slot.started]

/-- The state after the entry, before the slots are judged that have lost entries. -/
def State.settledEntry (s : State) (n : Fin 8) : State :=
  if ((s.startFading n).slot n).allReached then (s.startFading n).endSlot n .cueDone else s.startFading n

theorem enterFading_eq (s : State) (n : Fin 8) : (s.enterFading n).1 = (s.formerOwners n).foldl
    (fun t m => if (t.slot m).list.isEmpty = true then t.endSlot m .cuePreempted else t) (s.settledEntry n) := rfl

theorem slot_settledEntry_other {m : Fin 8} (hm : m ≠ n) : (s.settledEntry n).slot m = (s.startFading n).slot m := by
  unfold State.settledEntry
  split
  · rw [slot_endSlot, if_neg hm]
  · rfl

theorem settledEntry_deviceSeconds (s : State) (n : Fin 8) : (s.settledEntry n).deviceSeconds = s.deviceSeconds := by
  have hentered : (s.startFading n).deviceSeconds = s.deviceSeconds := (lighting_startFading s n).deviceSeconds
  unfold State.settledEntry
  split
  · rw [(lighting_endSlot ..).deviceSeconds, hentered]
  · exact hentered

/-- The former owners that are left with an empty list are the robbed slots. -/
theorem formerOwners_empty (hs : FadesSound s) :
    (s.formerOwners n).filter (fun m => ((s.settledEntry n).slot m).list.isEmpty) = s.robbed n := by
  rw [State.formerOwners, List.filter_filter]
  refine List.filter_congr fun m _ => ?_
  rw [Bool.eq_iff_iff]
  by_cases hm : m = n
  · simp [hm]
  rw [slot_settledEntry_other hm, list_startFading hs hm]
  have howned : (s.slot n).list.any (fun e => (s.channel e.channel).owner == some m) = true ↔
      ∃ e ∈ (s.slot n).list, (s.slot m).state = .fading ∧ e.channel ∈ (s.slot m).list.map ListEntry.channel := by
    simp only [List.any_eq_true, beq_iff_eq, hs.owners]
  simp only [Bool.and_eq_true, howned, bne_iff_ne, ne_eq, hm, not_false_eq_true, true_and, decide_true, beq_iff_eq,
    List.isEmpty_iff, Bool.not_eq_true', List.isEmpty_eq_false_iff]
  constructor
  · rintro ⟨hempty, e, he, hfading, hlisted⟩
    rw [if_pos hfading] at hempty
    refine ⟨⟨hfading, fun hnil => ?_⟩, hempty⟩
    rw [hnil] at hlisted
    cases hlisted
  · rintro ⟨⟨hfading, hlist⟩, hempty⟩
    rw [if_pos hfading]
    obtain ⟨x, hx⟩ := List.exists_mem_of_ne_nil _ hlist
    have hmine : x.channel ∈ (s.slot n).list.map ListEntry.channel := by
      by_contra hnot
      have hkept : x ∈ (s.slot m).keptOf ((s.slot n).list.map ListEntry.channel) :=
        List.mem_filter.2 ⟨hx, decide_eq_true hnot⟩
      rw [hempty] at hkept
      cases hkept
    obtain ⟨e, he, hex⟩ := List.mem_map.1 hmine
    exact ⟨hempty, e, he, hfading, by rw [hex]; exact List.mem_map_of_mem hx⟩

theorem nodup_formerOwners (s : State) (n : Fin 8) : (s.formerOwners n).Nodup := nodup_all8.filter _

theorem enterFading_ended (hs : FadesSound s) : SlotsEnded (s.robbed n) .cuePreempted (s.settledEntry n) (s.enterFading n).1 := by
  rw [enterFading_eq]
  have h := slotsEnded_foldl_if (fun sl => sl.list.isEmpty) .cuePreempted (s.formerOwners n) (nodup_formerOwners s n) (s.settledEntry n)
  rw [formerOwners_empty hs] at h
  exact h

/-- The channel table after the entry: the robbed slots own no channel that is not in the entering slot's list. -/
theorem channel_enterFading (hs : FadesSound s) (hn : (s.slot n).state ≠ .fading) (c : Fin 96) : (s.enterFading n).1.channel c =
    match (s.slot n).list.find? (fun e => e.channel == c) with
    | none => s.channel c
    | some e => { s.channel c with
      level := if (s.slot n).duration = 0 ∧ e.offset = 0 then e.target else (s.channel c).level
      owner := if ∀ e ∈ (s.slot n).list, e.offset + (s.slot n).duration = 0 then none else some n } := by
  rw [(enterFading_ended hs).channel]
  have hnotMine : (s.channel c).owner ≠ some n := fun h => hn ((hs.owners c n).1 h).1
  have hsettled : (s.settledEntry n).channel c =
      match (s.slot n).list.find? (fun e => e.channel == c) with
      | none => s.channel c
      | some e => { s.channel c with
        level := if (s.slot n).duration = 0 ∧ e.offset = 0 then e.target else (s.channel c).level
        owner := if ∀ e ∈ (s.slot n).list, e.offset + (s.slot n).duration = 0 then none else some n } := by
    unfold State.settledEntry
    by_cases hdone : ((s.startFading n).slot n).allReached = true
    · rw [if_pos hdone, channel_endSlot, channel_started hs, Channel.disowned]
      have hall := (started_allReached s n).1 hdone
      cases (s.slot n).list.find? (fun e => e.channel == c) with
      | none => simp [hnotMine]
      | some e => simp only [if_pos hall, if_true]
    · rw [if_neg hdone, channel_started hs]
      have hnot := mt (started_allReached s n).2 hdone
      cases (s.slot n).list.find? (fun e => e.channel == c) with
      | none => rfl
      | some e => simp only [if_neg hnot]
  have hkept : ((s.settledEntry n).channel c).owner.filter (fun m => decide (m ∉ s.robbed n)) = ((s.settledEntry n).channel c).owner := by
    refine option_filter_eq_self fun m hm => decide_eq_true fun hrobbed => ?_
    obtain ⟨hne, hfading, -, hempty⟩ := mem_robbed.1 hrobbed
    rw [hsettled] at hm
    cases hc : (s.slot n).list.find? (fun e => e.channel == c) with
    | none =>
      rw [hc] at hm
      obtain ⟨-, hlisted⟩ := (hs.owners c m).1 hm
      obtain ⟨x, hx, hxc⟩ := List.mem_map.1 hlisted
      have hmem : x ∈ (s.slot m).keptOf ((s.slot n).list.map ListEntry.channel) := by
        refine List.mem_filter.2 ⟨hx, decide_eq_true fun hmine => ?_⟩
        obtain ⟨e, he, hex⟩ := List.mem_map.1 hmine
        simpa [hex, hxc] using List.find?_eq_none.1 hc e he
      rw [hempty] at hmem
      cases hmem
    | some e =>
      rw [hc] at hm
      dsimp only at hm
      split at hm
      · cases hm
      · exact hne (Option.some.inj hm).symm
  rw [hkept, hsettled]

theorem slot_enterFading_self (hs : FadesSound s) : (s.enterFading n).1.slot n =
    if ∀ e ∈ (s.slot n).list, e.offset + (s.slot n).duration = 0 then Slot.reset else (s.slot n).started s := by
  rw [(enterFading_ended hs).slot, if_neg fun h => (mem_robbed.1 h).1 rfl]
  unfold State.settledEntry
  by_cases hdone : ((s.startFading n).slot n).allReached = true
  · rw [if_pos hdone, slot_endSlot, if_pos rfl, if_pos ((started_allReached s n).1 hdone)]
  · rw [if_neg hdone, if_neg (mt (started_allReached s n).2 hdone), slot_startFading, if_pos rfl]

theorem slot_enterFading_other (hs : FadesSound s) {m : Fin 8} (hm : m ≠ n) : (s.enterFading n).1.slot m =
    if m ∈ s.robbed n then Slot.reset
    else if (s.slot m).state = .fading then { s.slot m with list := (s.slot m).keptOf ((s.slot n).list.map ListEntry.channel) }
    else s.slot m := by
  rw [(enterFading_ended hs).slot, slot_settledEntry_other hm, list_startFading hs hm]

theorem posts_enterFading (hs : FadesSound s) (p : Port) : s.posts (s.enterFading n).1 p
    ((if (∀ e ∈ (s.slot n).list, e.offset + (s.slot n).duration = 0) ∧ (s.slot n).port = some p then
        [⟨.cueDone, n.val, (s.slot n).cue, s.deviceSeconds⟩] else []) ++
      ((s.robbed n).filter (fun m => (s.slot m).port == some p)).map
        (fun m => ⟨.cuePreempted, m.val, (s.slot m).cue, s.deviceSeconds⟩)) := by
  have hsettled : s.posts (s.settledEntry n) p
      (if (∀ e ∈ (s.slot n).list, e.offset + (s.slot n).duration = 0) ∧ (s.slot n).port = some p then
        [⟨.cueDone, n.val, (s.slot n).cue, s.deviceSeconds⟩] else []) := by
    unfold State.settledEntry
    by_cases hdone : ((s.startFading n).slot n).allReached = true
    · have hposts := posts_after (startFading_ports s n) (posts_endSlot (s.startFading n) n .cueDone p)
      rw [slot_startFading, if_pos rfl, (lighting_startFading s n).deviceSeconds] at hposts
      rw [if_pos hdone]
      simp only [and_iff_right ((started_allReached s n).1 hdone)]
      exact hposts
    · rw [if_neg hdone, if_neg fun h => hdone ((started_allReached s n).2 h.1)]
      exact posts_of_ports (startFading_ports s n) p
  have hkept : ∀ m ∈ s.robbed n, ((s.settledEntry n).slot m).port = (s.slot m).port ∧ ((s.settledEntry n).slot m).cue = (s.slot m).cue := by
    intro m hm
    obtain ⟨hne, hfading, -, -⟩ := mem_robbed.1 hm
    rw [slot_settledEntry_other hne, list_startFading hs hne, if_pos hfading]
    exact ⟨rfl, rfl⟩
  have hrecords : ((s.robbed n).filter (fun m => ((s.settledEntry n).slot m).port == some p)).map
        (fun m => (⟨.cuePreempted, m.val, ((s.settledEntry n).slot m).cue, (s.settledEntry n).deviceSeconds⟩ : Record)) =
      ((s.robbed n).filter (fun m => (s.slot m).port == some p)).map
        (fun m => ⟨.cuePreempted, m.val, (s.slot m).cue, s.deviceSeconds⟩) := by
    rw [settledEntry_deviceSeconds, List.filter_congr fun m hm => by rw [(hkept m hm).1]]
    exact List.map_congr_left fun m hm => by rw [(hkept m (List.mem_of_mem_filter hm)).2]
  have hended := (enterFading_ended (n := n) hs).records p
  rw [hrecords] at hended
  exact posts_trans hsettled hended

theorem enterFading_queue_of_empty (h : s.governor.queue = []) : (s.enterFading n).1.governor.queue = [] := by
  have hinvariant : ServiceInvariant (fun _ => True) (fun t => t.governor.queue = []) := {
    queued := fun t ht m hm => trivial
    same := fun t u _ _ _ hqueue ht => hqueue.trans ht
    startFading := fun t m _ ht => by rw [startFading_governor, ht]; rfl
    freeSlot := fun t m ht => by rw [freeSlot_governor, ht]; rfl }
  exact hinvariant.enterFading trivial h

end

end Sys2Proof.Machine
end

