-- ==== Sys2Proof/Proofs/DelayEnds.lean ====
section
/-! PROOFS. The end of a delay and of a hold (R120 to R124). -/

namespace Sys2Proof.Machine

/-! ### The slot judged -/

theorem setSlot_setSlot (s : State) (n : Fin 8) (x y : Slot) : (s.setSlot n x).setSlot n y = s.setSlot n y := by
  have hslots : ((s.setSlot n x).setSlot n y).slots = (s.setSlot n y).slots := slots_ext fun m => by
    simp only [slot_setSlot]
    split <;> rfl
  have hframe : (s.setSlot n x).setSlot n y = { s.setSlot n y with slots := ((s.setSlot n x).setSlot n y).slots } := rfl
  rw [hframe, hslots]

/-- The headroom test, by the ceiling formed now. -/
theorem fits_iff (s : State) (n : Fin 8) : s.fits s.formedCeiling n = true ↔
    ((s.governor.lSpill + s.lightingLoad (s.slot n).list false + s.lightingLoad (s.slot n).list true : Nat) : Int) ≤ s.ceilingNow := by
  unfold State.fits
  dsimp only
  rw [decide_eq_true_iff, State.lUntrim, State.lTrim, covered_loadSum_eq, covered_loadSum_eq, ← formedCeiling_eq]
  omega

/-- The loads do not depend on how long a slot's delay still is. -/
theorem lightingLoad_setSlot (s : State) (n : Fin 8) (x : Slot) (hlist : x.list = (s.slot n).list) (candidate : List ListEntry)
    (trimmable : Bool) : (s.setSlot n x).lightingLoad candidate trimmable = s.lightingLoad candidate trimmable := by
  have hlists : ∀ m, ((s.setSlot n x).slot m).list = (s.slot m).list := fun m => by
    rw [slot_setSlot]
    split
    · next h => rw [hlist, h]
    · rfl
  have hcommitted : (s.setSlot n x).committedLevel candidate = s.committedLevel candidate := by
    funext c
    unfold State.committedLevel
    dsimp only
    simp only [hlists]
    rfl
  unfold State.lightingLoad
  dsimp only
  rw [hcommitted]
  rfl

section
variable {s : State} {n : Fin 8}

/-- The slot at its delay's end. -/
def State.delayOver (s : State) (n : Fin 8) : State := s.setSlot n { s.slot n with delay := 0 }

theorem slot_delayOver : (s.delayOver n).slot n = { s.slot n with delay := 0 } := slot_setSlot_same ..

theorem slot_delayOver_other {m : Fin 8} (h : m ≠ n) : (s.delayOver n).slot m = s.slot m := (slot_setSlot ..).trans (if_neg h)

theorem lightingLoad_delayOver (candidate : List ListEntry) (trimmable : Bool) :
    (s.delayOver n).lightingLoad candidate trimmable = s.lightingLoad candidate trimmable :=
  lightingLoad_setSlot s n { s.slot n with delay := 0 } rfl candidate trimmable

/-- The slot asks to fit, and does not. -/
def State.heldUp (s : State) (n : Fin 8) : Prop := (s.slot n).policy = some .hold ∧ s.ceilingNow <
  (s.governor.lSpill + s.lightingLoad (s.slot n).list false + s.lightingLoad (s.slot n).list true : Nat)

theorem heldUp_iff : ((s.slot n).policy = some .hold && !(s.delayOver n).fits (s.delayOver n).formedCeiling n) = true ↔ s.heldUp n := by
  have hfits := fits_iff (s.delayOver n) n
  rw [slot_delayOver, lightingLoad_delayOver, lightingLoad_delayOver] at hfits
  rw [Bool.and_eq_true, decide_eq_true_iff, Bool.not_eq_true', ← Bool.not_eq_true, hfits, State.heldUp, Int.not_le]
  rfl

theorem judgeAdmission_of_heldUp (h : s.heldUp n) : s.judgeAdmission n =
    if (s.slot n).hold = 0 then (s.delayOver n).endSlot n .noHeadroom
    else { s.setSlot n { s.slot n with state := .waitingHeadroom, delay := 0, timer := some 100 } with
      governor := { s.governor with queue := s.governor.queue ++ [n] } } := by
  have hjudged : s.judgeAdmission n = if (s.slot n).hold = 0 then (s.delayOver n).endSlot n .noHeadroom
      else (s.delayOver n).waitHeadroom n := if_pos (heldUp_iff.2 h)
  rw [hjudged, State.waitHeadroom, slot_delayOver, State.delayOver, setSlot_setSlot]
  rfl

theorem judgeAdmission_of_fits (h : ¬s.heldUp n) : s.judgeAdmission n = (s.delayOver n).admitSlot n := if_neg (mt heldUp_iff.1 h)

/-- A slot that has been judged neither delays nor waits for a fill. -/
theorem judgeAdmission_state (s : State) (n : Fin 8) : ((s.judgeAdmission n).slot n).state = .free ∨
    ((s.judgeAdmission n).slot n).state = .waitingHeadroom ∨ ((s.judgeAdmission n).slot n).state = .fading := by
  by_cases h : s.heldUp n
  · rw [judgeAdmission_of_heldUp h]
    split
    · rw [slot_endSlot, if_pos rfl]
      exact .inl rfl
    · refine .inr (.inl ?_)
      have hslot := slot_setSlot_same s n { s.slot n with state := .waitingHeadroom, delay := 0, timer := some 100 }
      exact congrArg Slot.state hslot
  · rw [judgeAdmission_of_fits h]
    obtain ⟨hstate, -⟩ := admitted_admitSlot (s.delayOver n) n
    rcases hstate with h | h
    · exact .inr (.inr h)
    · exact .inl h

/-! ### A slot that is freed -/

theorem postedTo_eq {t : State} {p : Port} {q : Option Port} {r : Record} (h : s.posts t p (if q = some p then [r] else [])) :
    t.port p = if q = some p then (s.port p).enqueue r else s.port p := by
  rw [State.posts] at h
  rw [h]
  split <;> rfl

/-- What freeing a slot with a record makes of the state. -/
theorem freed_endSlot (s : State) (n : Fin 8) (k : RecordKind) :
    let t := s.endSlot n k
    t.slot n = Slot.reset ∧ (∀ m, m ≠ n → t.slot m = s.slot m) ∧ n ∉ t.governor.queue ∧
      (∀ c, t.channel c = { s.channel c with owner := if (s.channel c).owner = some n then none else (s.channel c).owner }) ∧
      (∀ p, t.port p = if (s.slot n).port = some p then (s.port p).enqueue ⟨k, n.val, (s.slot n).cue, s.deviceSeconds⟩
        else s.port p) ∧
      t = { s with governor := { s.governor with queue := t.governor.queue }, channels := t.channels, slots := t.slots
                   store := t.store, ports := t.ports } := by
  intro t
  refine ⟨by rw [slot_endSlot, if_pos rfl], fun m hm => by rw [slot_endSlot, if_neg hm], ?_, channel_endSlot s n k,
    fun p => postedTo_eq (posts_endSlot s n k p), ?_⟩
  · rw [endSlot_governor]
    simp
  · have hframe : t = { s with governor := t.governor, channels := t.channels, slots := t.slots, store := t.store, ports := t.ports } :=
      lighting_endSlot s n k
    have hgovernor : t.governor = { s.governor with queue := t.governor.queue } := by rw [endSlot_governor]
    rw [← hgovernor]
    exact hframe

/-! ### A slot that is admitted -/

theorem fadesSound_delayOver (hs : s.lightingSound) (hn : (s.slot n).state = .delay) : FadesSound (s.delayOver n) :=
  ((lightingSound_iff _).1 (lightingSound_of_staysSound (staysSound_setSlot_of_same (n := n)
    (x := { s.slot n with delay := 0 }) rfl (by rw [hn]; decide) rfl rfl) hs)).1

theorem lighting_admitSlot (s : State) (n : Fin 8) : LightingOnly s (s.admitSlot n) :=
  (lighting_enterFading s n).trans (lighting_evaluations ..)

theorem robbed_delayOver : (s.delayOver n).robbed n = s.robbed n := by
  refine List.filter_congr fun m _ => ?_
  by_cases hm : m = n
  · simp [hm]
  · rw [slot_delayOver, slot_delayOver_other hm]

/-- What the admission of a slot makes of a sound state in which none waits for headroom. -/
theorem admitSlot_of_empty (hs : s.lightingSound) (hn : (s.slot n).state = .delay) (hqueue : s.governor.queue = []) :
    let sl := s.slot n
    let t := (s.delayOver n).admitSlot n
    let done := ∀ e ∈ sl.list, e.offset + sl.duration = 0
    (∀ c, t.channel c = match sl.list.find? (fun e => e.channel == c) with
      | none => s.channel c
      | some e => { s.channel c with
        level := if sl.duration = 0 ∧ e.offset = 0 then e.target else (s.channel c).level
        owner := if done then none else some n }) ∧
    (t.slot n = if done then Slot.reset else { sl with
      state := .fading, delay := 0, elapsed := 0, timer := some 20
      list := sl.list.map (fun e => { e with start := (s.channel e.channel).level }) }) ∧
    (∀ m, m ≠ n → t.slot m = if m ∈ s.robbed n then Slot.reset
      else if (s.slot m).state = .fading then { s.slot m with list := (s.slot m).keptOf (sl.list.map ListEntry.channel) }
      else s.slot m) ∧
    ∀ p, s.tells t p ((if done ∧ sl.port = some p then [⟨.cueDone, n.val, sl.cue, s.deviceSeconds⟩] else []) ++
      ((s.robbed n).filter (fun m => (s.slot m).port == some p)).map
        (fun m => ⟨.cuePreempted, m.val, (s.slot m).cue, s.deviceSeconds⟩)) := by
  intro sl t done
  have hsound := fadesSound_delayOver hs hn
  have hframe := askOrdinary_frame_of_empty (enterFading_queue_of_empty (n := n) (s := s.delayOver n) hqueue)
    (if ((s.delayOver n).enterFading n).2 then 2 else 1)
  have hslot : ((s.delayOver n).slot n).list = sl.list ∧ ((s.delayOver n).slot n).duration = sl.duration ∧
      ((s.delayOver n).slot n).port = sl.port ∧ ((s.delayOver n).slot n).cue = sl.cue := by
    rw [slot_delayOver]
    exact ⟨rfl, rfl, rfl, rfl⟩
  obtain ⟨hlist, hduration, hport, hcue⟩ := hslot
  have hslots : t.slots = ((s.delayOver n).enterFading n).1.slots := by rw [show t = _ from hframe]
  have hchannels : t.channels = ((s.delayOver n).enterFading n).1.channels := by rw [show t = _ from hframe]
  refine ⟨fun c => ?_, ?_, fun m hm => ?_, fun p => ?_⟩
  · have hnot : ((s.delayOver n).slot n).state ≠ .fading := by rw [slot_delayOver, hn]; decide
    have hchannel := channel_enterFading hsound hnot c
    rw [hlist, hduration] at hchannel
    rw [channel_congr hchannels]
    exact hchannel
  · have hself := slot_enterFading_self (n := n) hsound
    rw [hlist, hduration] at hself
    rw [slot_congr hslots, hself, slot_delayOver]
    rfl
  · have hother := slot_enterFading_other hsound hm
    rw [hlist, robbed_delayOver, slot_delayOver_other hm] at hother
    rw [slot_congr hslots, hother]
  · have hposts := posts_enterFading (n := n) hsound p
    rw [hlist, hduration, hport, hcue, robbed_delayOver] at hposts
    have hothers : ((s.robbed n).filter (fun m => ((s.delayOver n).slot m).port == some p)).map
          (fun m => (⟨.cuePreempted, m.val, ((s.delayOver n).slot m).cue, (s.delayOver n).deviceSeconds⟩ : Record)) =
        ((s.robbed n).filter (fun m => (s.slot m).port == some p)).map
          (fun m => ⟨.cuePreempted, m.val, (s.slot m).cue, s.deviceSeconds⟩) := by
      have hne : ∀ m ∈ s.robbed n, m ≠ n := fun m hm => (mem_robbed.1 hm).1
      rw [List.filter_congr fun m hm => by rw [slot_delayOver_other (hne m hm)]]
      exact List.map_congr_left fun m hm => by rw [slot_delayOver_other (hne m (List.mem_of_mem_filter hm))]; rfl
    rw [hothers] at hposts
    have htells := tells_then_ordinary (tells_of_posts hposts)
      ((postedOnly_askOrdinary _ (if ((s.delayOver n).enterFading n).2 then 2 else 1)).mono fun _ => ordinary_of_evaluation)
    exact htells

end

/-- Settles O42: a HOLD slot that does not fit waits or is freed; any other enters FADING, and neither the entry nor the evaluations that
follow bring it back to the headroom queue. -/
theorem delayEndAdmitsOrHolds : Obligations.DelayEndAdmitsOrHolds := by
  intro n s sl freed
  have hdelay : exec (.delayEnd n) s = .next (s.delayEnd n) := rfl
  have hexpiry : exec (.holdExpiry n) s = .next (s.holdExpiry n) := rfl
  refine ⟨?_, ?_⟩
  · split
    · next hstate => rw [hdelay, State.delayEnd, if_neg hstate]
    next hstate =>
    have hstate : sl.state = .delay := not_not.1 hstate
    have hend : s.delayEnd n = s.judgeAdmission n := if_pos hstate
    rw [hdelay, hend]
    split
    · next hheld =>
      rw [judgeAdmission_of_heldUp hheld]
      split
      · next hhold =>
        have h := freed_endSlot (s.delayOver n) n .noHeadroom
        rw [slot_delayOver] at h
        obtain ⟨hreset, hothers, hqueue, hchannels, hports, hframe⟩ := h
        exact ⟨_, rfl, hreset, fun m hm => (hothers m hm).trans (slot_delayOver_other hm), hqueue, hchannels, hports, hframe⟩
      · rfl
    · next hfits =>
      rw [judgeAdmission_of_fits hfits]
      obtain ⟨hadmitted, hqueue⟩ := admitted_admitSlot (s.delayOver n) n
      obtain ⟨hevaluated, hlast⟩ := admitSlot_evaluated (s.delayOver n) n
      exact ⟨_, rfl, hadmitted, hqueue, hlast, hevaluated, fun hs hempty => admitSlot_of_empty hs hstate hempty,
        lighting_admitSlot (s.delayOver n) n⟩
  · split
    · next hstate => rw [hexpiry, State.holdExpiry, if_neg hstate]
    · next hstate =>
      have hend : s.holdExpiry n = s.endSlot n .noHeadroom := if_pos (not_not.1 hstate)
      rw [hexpiry, hend]
      exact ⟨_, rfl, freed_endSlot s n .noHeadroom⟩

end Sys2Proof.Machine
end

