-- ==== Sys2Proof/Proofs/Firing.lean ====
section
/-! PROOFS. GO: a hit, a join or a miss (R128, R131, R133 to R135). -/

namespace Sys2Proof.Machine

/-! ### Looking up -/

theorem otherWay_eq (w : Fin 2) : otherWay w = 1 - w := by fin_cases w <;> rfl

/-- The way holds the cue. -/
def State.holdsCue (s : State) (cue : Nat) (w : Fin 2) : Prop :=
  (s.entry (cueLine cue) w).state ≠ .invalid ∧ (s.entry (cueLine cue) w).tag = cue / 64

theorem matches_iff (s : State) (cue : Nat) (w : Fin 2) :
    (s.entry (cueLine cue) w).matches (cueTag cue) = true ↔ s.holdsCue cue w := by
  simp [Entry.matches, State.holdsCue, cueTag]

theorem wayOf_of_holds {s : State} {cue : Nat} {w : Fin 2} (h : s.holdsCue cue w) (hfirst : ∀ v, v < w → ¬s.holdsCue cue v) :
    s.wayOf cue = some w := by
  have hw : w = 0 ∨ w = 1 := by omega
  rcases hw with rfl | rfl
  · exact if_pos ((matches_iff s cue 0).2 h)
  · exact (if_neg (mt (matches_iff s cue 0).1 (hfirst 0 (by decide)))).trans (if_pos ((matches_iff s cue 1).2 h))

theorem wayOf_eq_none_iff (s : State) (cue : Nat) : s.wayOf cue = none ↔ ∀ w, ¬s.holdsCue cue w := by
  constructor
  · intro h w hw
    obtain ⟨hlive, htag⟩ := hw
    exact wayOf_none h w hlive htag
  · intro h
    exact (if_neg (mt (matches_iff s cue 0).1 (h 0))).trans (if_neg (mt (matches_iff s cue 1).1 (h 1)))

theorem allocatable_eq (s : State) (line : Fin 64) : s.allocatable line =
    if (s.entry line 0).state = .invalid then some 0
    else if (s.entry line 1).state = .invalid then some 1
    else if (s.entry line (pick s.store line).lru).state ≠ .filling then some (pick s.store line).lru
    else if (s.entry line (1 - (pick s.store line).lru)).state ≠ .filling then some (1 - (pick s.store line).lru)
    else none := by
  unfold State.allocatable
  dsimp only
  rw [otherWay_eq]

theorem freeSlotIndex_eq_none_iff (s : State) : s.freeSlotIndex = none ↔ ∀ n, (s.slot n).state ≠ .free := by
  simp [State.freeSlotIndex, List.find?_eq_none, mem_all8]

theorem freeSlotIndex_eq_some {s : State} {n : Fin 8} (hn : (s.slot n).state = .free) (hlow : ∀ m, m < n → (s.slot m).state ≠ .free) :
    s.freeSlotIndex = some n := by
  have hlists : ∀ n : Fin 8, all8 = all8.filter (fun m => decide (m < n)) ++ n :: all8.filter (fun m => decide (n < m)) := by decide
  rw [State.freeSlotIndex, List.find?_eq_some_iff_append]
  refine ⟨by simp [hn], _, _, hlists n, fun m hm => ?_⟩
  simpa using hlow m (by simpa using (List.mem_filter.1 hm).2)

/-! ### GO -/

section
variable {s : State} {p : Port} {payload : List Byte} {cue : Nat} (hcue : readU16 payload 0 = cue)
include hcue

theorem go_invalid (h : cue = 0 ∨ 4095 < cue) : handleGo s p payload = refuse s .badArg := by
  have hinvalid : validCue cue = false := by
    simp only [validCue, Bool.and_eq_false_iff, decide_eq_false_iff_not]
    omega
  simp [handleGo, hcue, hinvalid]

variable (hvalid : ¬(cue = 0 ∨ 4095 < cue))
include hvalid

theorem go_valid : handleGo s p payload = if s.surface.mode = .start then refuse s .wrongMode
    else match s.freeSlotIndex with
      | none => refuse s .noSlot
      | some n => match s.wayOf cue with
        | none => s.goMiss p cue n
        | some way => match (s.entry (cueLine cue) way).state, (s.entry (cueLine cue) way).header with
          | .present, some h => s.goHit p cue n way h
          | _, _ => s.goJoin p cue n way := by
  have hv : validCue cue = true := by
    simp only [validCue, Bool.and_eq_true, decide_eq_true_eq]
    omega
  have hnot : ¬(!validCue cue) = true := by simp [hv]
  unfold handleGo
  rw [hcue]
  exact if_neg hnot

end

theorem enterDelay_of_zero (s : State) (n : Fin 8) {sl : Slot} (hd : sl.delay = 0) (hs : sl.state = .delay) :
    s.enterDelay n sl = (s.setSlot n sl).judgeAdmission n ∧ (s.setSlot n sl).delayEnd n = (s.setSlot n sl).judgeAdmission n :=
  ⟨if_pos hd, if_pos (by rw [slot_setSlot_same]; exact hs)⟩

/-- Settles O35: with the lowest FREE slot found, the way that holds the cue, or none, leads to the hit, the join or the miss; a copy
without delay takes its delay end as an event of its own would. -/
theorem goHitsJoinsOrMisses : Obligations.GoHitsJoinsOrMisses := by
  intro p cue s hclear hbound c line holds mark allocated waiting
  have ht : s.takes p .go (payloadCue cue) := takes_of_clearToSend .go hclear (by simp [payloadCue]) rfl rfl
  have hread : readU16 (payloadCue cue) 0 = cue := readU16_encU16_last hbound
  split
  · next hbad => exact ht.refused (go_invalid hread hbad)
  next hvalid =>
  have hgo := go_valid (s := s.enterExecuting p) (p := p) hread hvalid
  rw [enterExecuting_surface] at hgo
  split
  · next hstart =>
    rw [if_pos hstart] at hgo
    exact ht.refused hgo
  next hstart =>
  rw [if_neg hstart] at hgo
  have hfree : (s.enterExecuting p).freeSlotIndex = s.freeSlotIndex := by simp [State.freeSlotIndex]
  have hway : (s.enterExecuting p).wayOf cue = s.wayOf cue := by simp [State.wayOf]
  rw [hfree, hway] at hgo
  split
  · next hfull =>
    rw [(freeSlotIndex_eq_none_iff s).2 hfull] at hgo
    exact ht.refused hgo
  next hfull =>
  intro n hn hlow
  rw [freeSlotIndex_eq_some hn hlow] at hgo
  dsimp only at hgo
  refine ⟨fun w h hw hfirst hpresent hheader => ?_, fun w hw hfirst hfilling => ?_, fun hnone => ?_⟩
  · intro copy
    rw [wayOf_of_holds hw hfirst] at hgo
    dsimp only at hgo
    rw [enterExecuting_entry, show (s.entry (cueLine cue) w).state = .present from hpresent,
      show (s.entry (cueLine cue) w).header = some h from hheader] at hgo
    dsimp only at hgo
    have hhit : (s.enterExecuting p).goHit p cue n w h =
        if s.inDomain h.cls.domain p = false then refuse (s.enterExecuting p) .noAuthority
        else if s.surface.mode.allows h.cls = false then refuse (s.enterExecuting p) .wrongMode
        else accepted (((s.enterExecuting p).setLru line (1 - w)).enterDelay n copy) := by
      unfold State.goHit
      rw [otherWay_eq, enterExecuting_inDomain, enterExecuting_surface, enterExecuting_entry]
      simp only [Bool.not_eq_true']
      rfl
    rw [hhit] at hgo
    split
    · next hauthority =>
      rw [if_pos hauthority] at hgo
      exact ht.refused hgo
    next hauthority =>
    rw [if_neg hauthority] at hgo
    split
    · next hmode =>
      rw [if_pos hmode] at hgo
      exact ht.refused hgo
    next hmode =>
    rw [if_neg hmode] at hgo
    split
    · next hdelay =>
      have hentered : ((s.enterExecuting p).setLru line (1 - w)).enterDelay n copy =
          ((s.enterExecuting p).setLru line (1 - w)).setSlot n copy := if_neg (Nat.ne_of_gt hdelay)
      rw [hentered] at hgo
      exact ht.begun (effect := fun u => (u.setLru line (1 - w)).setSlot n copy) hgo
    · next hdelay =>
      obtain ⟨hentered, hended⟩ := enterDelay_of_zero ((s.enterExecuting p).setLru line (1 - w)) n (sl := copy)
        (Nat.eq_zero_of_not_pos hdelay) rfl
      rw [hentered] at hgo
      have hcopied : LightingOnly s (((s.enterExecuting p).setLru line (1 - w)).setSlot n copy) :=
        (lightingOnly_executing s p).trans (b := s.enterExecuting p) rfl
      generalize ((s.enterExecuting p).setLru line (1 - w)).setSlot n copy = u at hgo hended hcopied ⊢
      have hstate := judgeAdmission_state u n
      have hframe := hcopied.trans (lighting_judgeAdmission u n)
      refine ⟨u.judgeAdmission n, ht _ hgo, ?_, ?_, ?_, hframe⟩
      · exact congrArg Host.Outcome.next hended
      · rcases hstate with h | h | h <;> rw [h] <;> decide
      · rcases hstate with h | h | h <;> rw [h] <;> decide
  · rw [wayOf_of_holds hw hfirst] at hgo
    simp only [enterExecuting_entry] at hgo
    have hjoin : handleGo (s.enterExecuting p) p (payloadCue cue) = (s.enterExecuting p).goJoin p cue n w := by
      rw [hgo, hfilling]
    refine ht.begun (effect := fun u => (u.setSlot n waiting).setEntry line w
      { s.entry line w with waiters := (s.entry line w).waiters ++ [n] }) (hjoin.trans ?_)
    unfold State.goJoin
    rw [enterExecuting_entry]
    rfl
  · rw [(wayOf_eq_none_iff s cue).2 hnone] at hgo
    have hallocated : (s.enterExecuting p).allocatable line = allocated := by
      rw [allocatable_eq]
      simp only [enterExecuting_entry, enterExecuting_store]
      rfl
    have hmiss : handleGo (s.enterExecuting p) p (payloadCue cue) = (s.enterExecuting p).goMiss p cue n := hgo
    unfold State.goMiss at hmiss
    rw [hallocated] at hmiss
    cases hway : allocated with
    | none =>
      rw [hway] at hmiss
      exact ht.refused hmiss
    | some w =>
      rw [hway] at hmiss
      exact ht.begun (effect := fun u => ((u.setSlot n waiting).setEntry line w
        { Entry.reset with state := .filling, tag := cue / 64, waiters := [n], fillTimer := some 2000 }).post
        .portL .fillNeeded cue w.val) hmiss

end Sys2Proof.Machine
end

