-- ==== Sys2Proof/Proofs/CueWriting.lean ====
section
/-! PROOFS. CUE_WRITE, and what the completion of a fill makes of the waiting slots (R129 to R132, R136, R145). -/

namespace Sys2Proof.Machine

/-! ### The written entry -/

theorem take_all_iff (segments : Vector (Option (List Pair)) 8) (count : Nat) :
    (segments.toList.take count).all Option.isSome = (List.finRange 8).all fun i => decide (count ≤ i.val) || (pick segments i).isSome := by
  rw [Bool.eq_iff_iff, List.all_eq_true, List.all_eq_true]
  constructor
  · intro h i _
    by_cases hi : count ≤ i.val
    · simp [hi]
    · have hmem : pick segments i ∈ segments.toList.take count :=
        List.mem_take_iff_getElem.2 ⟨i.val, by simp; omega, by simp [pick]⟩
      simp [h _ hmem]
  · intro h x hx
    obtain ⟨i, hi, hix⟩ := List.mem_take_iff_getElem.1 hx
    simp only [Vector.length_toList, lt_inf_iff] at hi
    have hseg := h ⟨i, hi.2⟩ (List.mem_finRange _)
    rw [← hix]
    simpa [pick, Nat.not_le.2 hi.1] using hseg

/-- The segments after a write. -/
def CueWrite.segmentsOn (w : CueWrite) (base : Entry) (i : Fin 8) : Option (List Pair) :=
  if i = w.segment then some w.pairs else if i.val < w.header.segCount then pick base.segments i else none

theorem written_complete (base : Entry) (w : CueWrite) : (base.written w).complete =
    (List.finRange 8).all fun i => decide (w.header.segCount ≤ i.val) || (w.segmentsOn base i).isSome := by
  have hcomplete : (base.written w).complete = ((base.written w).segments.toList.take w.header.segCount).all Option.isSome := rfl
  rw [hcomplete, take_all_iff]
  have hpick : ∀ i, pick (base.written w).segments i = w.segmentsOn base i := fun i => by
    simp [Entry.written, pick, CueWrite.segmentsOn]
  simp only [hpick]

theorem settled_written (base : Entry) (w : CueWrite) (hlive : base.state ≠ .invalid) : (base.written w).settled = {
    state := if (base.written w).complete then .present else .filling
    tag := base.tag, header := some w.header, segments := Vector.ofFn (w.segmentsOn base)
    waiters := if (base.written w).complete then [] else base.waiters
    fillTimer := if (base.written w).complete then none else if base.state = .present then some 2000 else base.fillTimer } := by
  cases hc : (base.written w).complete with
  | true =>
    rw [settled_of_complete hc]
    rfl
  | false =>
    rw [settled_of_incomplete hc]
    cases hstate : base.state with
    | invalid => exact absurd hstate hlive
    | filling =>
      rw [if_neg (by rw [written_state, hstate]; decide)]
      simp [Entry.written, hstate]
      rfl
    | present =>
      rw [if_pos (by rw [written_state, hstate])]
      simp [Entry.written]
      rfl

/-! ### What the judgement of other waiting slots leaves of one -/

/-- The GO port of the slot, if it still has one, is not in the domain of the class. -/
def State.barred (s : State) (h : Header) (n : Fin 8) : Bool := !(s.slot n).port.any fun q => s.inDomain h.cls.domain q

theorem judgeWaiter_eq (e : Entry) (h : Header) (s : State) (n : Fin 8) : State.judgeWaiter e h s n =
    if s.barred h n = true then s.endSlot n .cueNoAuthority
    else if s.surface.mode.allows h.cls = false then s.endSlot n .cueMode
    else s.enterDelay n (copiedSlot e h (s.slot n).cue (s.slot n).port) := by
  unfold State.judgeWaiter State.barred
  dsimp only
  cases (s.slot n).port <;> simp

section
variable {ok : Fin 8 → Prop} {P : State → Prop} (hP : ServiceInvariant ok P) {m : Fin 8} (hm : ok m)
  (hset : ∀ (s : State) x, P s → P (s.setSlot m x))
  (hqueue : ∀ s : State, P s → P { s with governor := { s.governor with queue := s.governor.queue ++ [m] } })
include hP hm hset hqueue

/-- What holds through the service of the queue, and where another slot is put, holds through the judgement of other slots. -/
theorem ServiceInvariant.judgeAdmission {s : State} (hs : P s) : P (s.judgeAdmission m) := by
  have hover : P (s.delayOver m) := hset s _ hs
  by_cases hheld : s.heldUp m
  · rw [judgeAdmission_of_heldUp hheld]
    split
    · exact hP.endSlot m _ hover
    · exact hqueue _ (hset s _ hs)
  · rw [judgeAdmission_of_fits hheld]
    exact hP.evaluations _ _ (hP.enterFading hm hover)

theorem ServiceInvariant.judgeWaiter (e : Entry) (h : Header) {s : State} (hs : P s) : P (State.judgeWaiter e h s m) := by
  rw [judgeWaiter_eq]
  split
  · exact hP.endSlot m _ hs
  · split
    · exact hP.endSlot m _ hs
    · unfold State.enterDelay
      dsimp only
      split
      · exact hP.judgeAdmission hm hset hqueue (hset s _ hs)
      · exact hset s _ hs

end

/-- The entry has no waiters, and its line's mark stands. -/
def State.entryStands (l : Fin 64) (w : Fin 2) (e : Entry) (mark : Fin 2) (s : State) : Prop :=
  s.entry l w = e ∧ (pick s.store l).lru = mark

theorem entryStands_service {l : Fin 64} {w : Fin 2} {e : Entry} {mark : Fin 2} (he : e.waiters = []) :
    ServiceInvariant (fun _ => True) (State.entryStands l w e mark) where
  queued _ _ _ _ := trivial
  same s t _ _ hstore _ hs := by
    obtain ⟨hentry, hmark⟩ := hs
    exact ⟨(entry_congr hstore l w).trans hentry, by rw [hstore]; exact hmark⟩
  startFading s m _ hs := by
    obtain ⟨hentry, hmark⟩ := hs
    exact ⟨(entry_congr (startFading_store s m) l w).trans hentry, by rw [startFading_store]; exact hmark⟩
  freeSlot s m hs := by
    obtain ⟨hentry, hmark⟩ := hs
    have hwithout : e.without m = e := by
      rw [Entry.without, he, List.filter_nil, ← he]
    refine ⟨?_, (lru_freeSlot ..).trans hmark⟩
    rw [entry_freeSlot, hentry, hwithout, ite_self]

/-- The slot no longer waits for a fill. -/
def State.unwaiting (n : Fin 8) (s : State) : Prop := (s.slot n).state ≠ .waitingFill

theorem unwaiting_service (n : Fin 8) : ServiceInvariant (fun _ => True) (State.unwaiting n) where
  queued _ _ _ _ := trivial
  same s t hslots _ _ _ hs := by
    rw [State.unwaiting, slot_congr hslots]
    exact hs
  startFading s m _ hs := by
    rw [State.unwaiting, slot_startFading]
    split
    · exact SlotState.noConfusion
    · exact hs
  freeSlot s m hs := by
    rw [State.unwaiting, slot_freeSlot]
    split
    · exact SlotState.noConfusion
    · exact hs

/-- The slot has this GO port, or none any more. -/
def State.portOrNone (n : Fin 8) (q : Option Port) (s : State) : Prop := (s.slot n).port = q ∨ (s.slot n).port = none

theorem portOrNone_service (n : Fin 8) (q : Option Port) : ServiceInvariant (fun _ => True) (State.portOrNone n q) where
  queued _ _ _ _ := trivial
  same s t hslots _ _ _ hs := by
    rw [State.portOrNone, slot_congr hslots]
    exact hs
  startFading s m _ hs := by
    have hport : ((s.startFading m).slot n).port = (s.slot n).port := by
      rw [slot_startFading]
      split
      · next h => rw [h]; rfl
      · rfl
    rw [State.portOrNone, hport]
    exact hs
  freeSlot s m hs := by
    rw [State.portOrNone, slot_freeSlot]
    split
    · exact .inr rfl
    · exact hs

/-! ### The waiting slots of a completed fill, in whatever state -/

section
variable {e : Entry} {h : Header}

/-- Another slot's judgement leaves a freed slot alone. -/
theorem idleSlot_judgeWaiter {s : State} {n m : Fin 8} (hm : m ≠ n) (hs : s.idleSlot n) : (State.judgeWaiter e h s m).idleSlot n :=
  (idleSlot_service n).judgeWaiter hm
    (fun t x ht => by
      obtain ⟨hslot, howner, hqueue⟩ := ht
      exact ⟨(slot_setSlot ..).trans ((if_neg (Ne.symm hm)).trans hslot), howner, hqueue⟩)
    (fun t ht => by
      obtain ⟨hslot, howner, hqueue⟩ := ht
      exact ⟨hslot, howner, by simpa using ⟨hqueue, Ne.symm hm⟩⟩) e h hs

theorem idle_endSlot (s : State) (n : Fin 8) (k : RecordKind) : (s.endSlot n k).idleSlot n :=
  (slotsEnded_one k s n).idle (List.mem_singleton.2 rfl)

/-- A slot that is barred, or whose class the mode forbids, is freed. -/
theorem judgeWaiter_freed {s : State} {n : Fin 8} (hs : s.barred h n = true ∨ s.surface.mode.allows h.cls = false) :
    (State.judgeWaiter e h s n).idleSlot n := by
  rw [judgeWaiter_eq]
  split
  · exact idle_endSlot ..
  · next hbarred =>
    rw [if_pos (hs.resolve_left hbarred)]
    exact idle_endSlot ..

/-- A freed slot has no GO port. -/
theorem barred_of_idle {s : State} {n : Fin 8} (hs : s.idleSlot n) : s.barred h n = true := by
  obtain ⟨hslot, -⟩ := hs
  simp [State.barred, hslot, Slot.reset]

theorem unwaiting_judgeWaiter (s : State) (n : Fin 8) : (State.judgeWaiter e h s n).unwaiting n := by
  rw [judgeWaiter_eq]
  unfold State.unwaiting
  split
  · rw [slot_endSlot, if_pos rfl]
    exact SlotState.noConfusion
  · split
    · rw [slot_endSlot, if_pos rfl]
      exact SlotState.noConfusion
    · unfold State.enterDelay
      dsimp only
      split
      · rcases judgeAdmission_state (s.setSlot n (copiedSlot e h (s.slot n).cue (s.slot n).port)) n with hs | hs | hs <;>
          rw [hs] <;> exact SlotState.noConfusion
      · rw [slot_setSlot_same]
        exact SlotState.noConfusion

theorem unwaiting_judgeOther {s : State} {n m : Fin 8} (hm : m ≠ n) (hs : s.unwaiting n) :
    (State.judgeWaiter e h s m).unwaiting n :=
  (unwaiting_service n).judgeWaiter trivial
    (fun t x ht => by
      rw [State.unwaiting, slot_setSlot, if_neg (Ne.symm hm)]
      exact ht)
    (fun _ ht => ht) e h hs

theorem portOrNone_judgeWaiter {s : State} {n m : Fin 8} {q : Option Port} (hm : m ≠ n) (hs : s.portOrNone n q) :
    (State.judgeWaiter e h s m).portOrNone n q :=
  (portOrNone_service n q).judgeWaiter trivial
    (fun t x ht => by
      rw [State.portOrNone, slot_setSlot, if_neg (Ne.symm hm)]
      exact ht)
    (fun _ ht => ht) e h hs

theorem entryStands_judgeWaiter {l : Fin 64} {w : Fin 2} {f : Entry} {mark : Fin 2} (hf : f.waiters = []) {s : State} (m : Fin 8)
    (hs : s.entryStands l w f mark) : (State.judgeWaiter e h s m).entryStands l w f mark :=
  (entryStands_service hf).judgeWaiter trivial (fun _ _ ht => ht) (fun _ ht => ht) e h hs

/-- The judgement of a waiting slot leaves mode and authority map alone. -/
theorem judgeWaiter_kept (s : State) (n : Fin 8) : (State.judgeWaiter e h s n).surface = s.surface ∧
    (State.judgeWaiter e h s n).authority = s.authority := by
  have hframe := lighting_judgeWaiter e h s n
  constructor <;> rw [hframe]

theorem judgeWaiters_kept (l : List (Fin 8)) (s : State) : (l.foldl (State.judgeWaiter e h) s).surface = s.surface ∧
    (l.foldl (State.judgeWaiter e h) s).authority = s.authority :=
  foldl_related (R := fun s t => t.surface = s.surface ∧ t.authority = s.authority) (fun _ => ⟨rfl, rfl⟩)
    (fun hab hbc => ⟨hbc.1.trans hab.1, hbc.2.trans hab.2⟩) _ (fun s n => judgeWaiter_kept s n) l s

/-- What holds of a slot once it has been judged, and through every later judgement, holds after all of them. -/
theorem foldl_judgeWaiter {P Q : State → Prop} {n : Fin 8} (hQ : ∀ s m, m ≠ n → Q s → Q (State.judgeWaiter e h s m))
    (hQP : ∀ s, Q s → P (State.judgeWaiter e h s n)) (hP : ∀ s m, P s → P (State.judgeWaiter e h s m))
    {l : List (Fin 8)} (hn : n ∈ l) {s : State} (hs : Q s) : P (l.foldl (State.judgeWaiter e h) s) := by
  induction l generalizing s with
  | nil => cases hn
  | cons m l ih =>
    rw [List.foldl_cons]
    by_cases hm : m = n
    · subst hm
      have hlater : ∀ (l : List (Fin 8)) (t : State), P t → P (l.foldl (State.judgeWaiter e h) t) := fun l t ht =>
        foldl_related (R := fun s t => P s → P t) (fun _ => id) (fun f g => g ∘ f) _ hP l t ht
      exact hlater l _ (hQP s hs)
    · exact ih ((List.mem_cons.1 hn).resolve_left (Ne.symm hm)) (hQ s m hm hs)

theorem judgeWaiters_unwaiting {l : List (Fin 8)} {n : Fin 8} (hn : n ∈ l) (s : State) :
    (l.foldl (State.judgeWaiter e h) s).unwaiting n :=
  foldl_judgeWaiter (Q := fun _ => True) (fun _ _ _ _ => trivial) (fun t _ => unwaiting_judgeWaiter t n)
    (fun t m ht => by
      by_cases hm : m = n
      · rw [hm]
        exact unwaiting_judgeWaiter t n
      · exact unwaiting_judgeOther hm ht) hn trivial

/-- A slot that is barred, or whose class the mode forbids, is freed among all of them. -/
theorem judgeWaiters_freed {l : List (Fin 8)} {n : Fin 8} (hn : n ∈ l) {s : State}
    (hs : s.barred h n = true ∨ s.surface.mode.allows h.cls = false) : (l.foldl (State.judgeWaiter e h) s).slot n = Slot.reset := by
  have hidle : (l.foldl (State.judgeWaiter e h) s).idleSlot n :=
    foldl_judgeWaiter (Q := fun t => t.portOrNone n (s.slot n).port ∧ t.surface = s.surface ∧ t.authority = s.authority)
      (P := State.idleSlot n)
      (fun t m hm ht => by
        obtain ⟨hport, hsurface, hauthority⟩ := ht
        obtain ⟨hkeptSurface, hkeptAuthority⟩ := judgeWaiter_kept (e := e) (h := h) t m
        exact ⟨portOrNone_judgeWaiter hm hport, hkeptSurface.trans hsurface, hkeptAuthority.trans hauthority⟩)
      (fun t ht => by
        obtain ⟨hport, hsurface, hauthority⟩ := ht
        refine judgeWaiter_freed (hs.imp (fun hbarred => ?_) fun hmode => by rw [hsurface, hmode])
        unfold State.barred State.inDomain at hbarred ⊢
        rcases hport with hport | hport
        · rw [hport, hauthority]
          exact hbarred
        · rw [hport]
          rfl)
      (fun t m ht => by
        by_cases hm : m = n
        · rw [hm]
          exact judgeWaiter_freed (.inl (barred_of_idle ht))
        · exact idleSlot_judgeWaiter hm ht) hn ⟨.inl rfl, rfl, rfl⟩
  exact hidle.1

theorem judgeWaiters_entryStands {f : Entry} (hf : f.waiters = []) (ns : List (Fin 8)) {l : Fin 64} {w : Fin 2} {mark : Fin 2} {s : State}
    (hs : s.entryStands l w f mark) : (ns.foldl (State.judgeWaiter e h) s).entryStands l w f mark :=
  foldl_related (R := fun s t => s.entryStands l w f mark → t.entryStands l w f mark) (fun _ => id) (fun a b => b ∘ a) _
    (fun _ m ht => entryStands_judgeWaiter hf m ht) ns s hs

end

/-! ### The waiting slots of a completed fill, in a sound state and with a delay -/

/-- What a waiting slot becomes. -/
def Slot.judged (sl : Slot) (e : Entry) (h : Header) (freed : Bool) : Slot :=
  if freed = true then Slot.reset else copiedSlot e h sl.cue sl.port

/-- What a waiting slot posts. -/
def waiterRecord (h : Header) (s : State) (n : Fin 8) : Record :=
  ⟨if s.barred h n = true then .cueNoAuthority else .cueMode, n.val, (s.slot n).cue, s.deviceSeconds⟩

/-- The slot is freed when its fill completes. -/
def State.barsWaiter (s : State) (h : Header) (n : Fin 8) : Bool := s.barred h n || !s.surface.mode.allows h.cls

/-- What the judgement of the slots `ns`, which wait for a fill, makes of a state, when the cue has a delay. -/
structure WaitersJudged (e : Entry) (h : Header) (ns : List (Fin 8)) (s t : State) : Prop where
  slot     : ∀ n, t.slot n = if n ∈ ns then (s.slot n).judged e h (s.barsWaiter h n) else s.slot n
  records  : ∀ q, s.posts t q ((ns.filter fun n => (s.slot n).port == some q && s.barsWaiter h n).map (waiterRecord h s))
  channels : t.channels = s.channels
  governor : t.governor = s.governor

section
variable {e : Entry} {h : Header}

theorem waitersJudged_one (hd : 0 < h.delay) {s : State} (hs : FadesSound s) {n : Fin 8} (hn : (s.slot n).state = .waitingFill) :
    WaitersJudged e h [n] s (State.judgeWaiter e h s n) ∧ FadesSound (State.judgeWaiter e h s n) := by
  rw [judgeWaiter_eq]
  have hended : ∀ k, s.barsWaiter h n = true → (waiterRecord h s n).kind = k →
      WaitersJudged e h [n] s (s.endSlot n k) ∧ FadesSound (s.endSlot n k) := by
    intro k hbars hk
    have hone := slotsEnded_one k s n
    obtain ⟨hchannels, hgovernor⟩ := hone.awaiting hs fun m hm => by rw [List.mem_singleton.1 hm]; exact hn
    refine ⟨⟨fun m => ?_, fun q => ?_, hchannels, hgovernor⟩,
      fadesSound_freed (fun m => slot_endSlot s n m k) (channel_endSlot s n k) (by rw [endSlot_governor]) hs⟩
    · rw [hone.slot]
      by_cases hm : m ∈ [n]
      · rw [if_pos hm, if_pos hm, List.mem_singleton.1 hm, hbars]
        rfl
      · rw [if_neg hm, if_neg hm]
    · have hposts := posts_endSlot s n k q
      have hrecord : waiterRecord h s n = ⟨k, n.val, (s.slot n).cue, s.deviceSeconds⟩ := by rw [← hk]; rfl
      rw [List.filter_singleton, hbars, Bool.and_true]
      by_cases hq : (s.slot n).port = some q
      · simpa [hq, hrecord] using hposts
      · have hother : ((s.slot n).port == some q) = false := by simpa using hq
        simpa [hq, hother] using hposts
  split
  · next hbarred => exact hended .cueNoAuthority (by simp [State.barsWaiter, hbarred]) (by simp [waiterRecord, hbarred])
  · next hbarred =>
    split
    · next hmode => exact hended .cueMode (by simp [State.barsWaiter, hmode]) (by simp [waiterRecord, hbarred])
    · next hmode =>
      have hbars : s.barsWaiter h n = false := by simp [State.barsWaiter, hbarred, hmode]
      have hentered : s.enterDelay n (copiedSlot e h (s.slot n).cue (s.slot n).port) =
          s.setSlot n (copiedSlot e h (s.slot n).cue (s.slot n).port) := if_neg (Nat.ne_of_gt hd)
      rw [hentered]
      refine ⟨⟨fun m => ?_, fun q => ?_, rfl, rfl⟩, fadesSound_setSlot hs (by simp [hn]) (by simp [hn]) SlotState.noConfusion
        SlotState.noConfusion SlotState.noConfusion (channelList_nodup e h)⟩
      · rw [slot_setSlot]
        by_cases hm : m = n
        · rw [if_pos hm, if_pos (by simp [hm]), hm, hbars]
          rfl
        · rw [if_neg hm, if_neg (by simpa using hm)]
      · rw [List.filter_singleton, hbars, Bool.and_false]
        exact posts_of_ports rfl q

theorem waitersJudged_foldl (hd : 0 < h.delay) (ns : List (Fin 8)) (hns : ns.Nodup) {s : State} (hs : FadesSound s)
    (hwait : ∀ n ∈ ns, (s.slot n).state = .waitingFill) : WaitersJudged e h ns s (ns.foldl (State.judgeWaiter e h) s) := by
  induction ns generalizing s with
  | nil => exact ⟨fun _ => rfl, fun q => posts_refl s q, rfl, rfl⟩
  | cons n ns ih =>
    obtain ⟨hn, hrest⟩ := List.nodup_cons.1 hns
    obtain ⟨hone, hsound⟩ := waitersJudged_one (e := e) hd hs (hwait n List.mem_cons_self)
    obtain ⟨hsurface, hauthority⟩ := judgeWaiter_kept (e := e) (h := h) s n
    have hseconds : (State.judgeWaiter e h s n).deviceSeconds = s.deviceSeconds := (lighting_judgeWaiter e h s n).deviceSeconds
    rw [List.foldl_cons]
    generalize State.judgeWaiter e h s n = u at hone hsound hsurface hauthority hseconds ⊢
    have hother : ∀ m ∈ ns, u.slot m = s.slot m := fun m hm => by
      rw [hone.slot, if_neg]
      rw [List.mem_singleton]
      exact fun he => hn (he ▸ hm)
    have hbarred : ∀ m ∈ ns, u.barred h m = s.barred h m := fun m hm => by
      unfold State.barred State.inDomain
      rw [hother m hm, hauthority]
    have hbars : ∀ m ∈ ns, u.barsWaiter h m = s.barsWaiter h m := fun m hm => by
      rw [State.barsWaiter, State.barsWaiter, hbarred m hm, hsurface]
    have hfold := ih hrest hsound fun m hm => by rw [hother m hm]; exact hwait m (List.mem_cons_of_mem n hm)
    refine ⟨fun m => ?_, fun q => ?_, hfold.channels.trans hone.channels, hfold.governor.trans hone.governor⟩
    · rw [hfold.slot]
      by_cases hm : m ∈ ns
      · rw [if_pos hm, if_pos (List.mem_cons_of_mem n hm), hother m hm, hbars m hm]
      · rw [if_neg hm, hone.slot]
        by_cases hmn : m = n
        · simp [hmn]
        · simp [hmn, hm]
    · have hposts := posts_trans (hone.records q) (hfold.records q)
      have hfilter : ns.filter (fun m => (u.slot m).port == some q && u.barsWaiter h m) =
          ns.filter fun m => (s.slot m).port == some q && s.barsWaiter h m :=
        List.filter_congr fun m hm => by rw [hother m hm, hbars m hm]
      have hrecord : ∀ m ∈ ns, waiterRecord h u m = waiterRecord h s m := fun m hm => by
        rw [waiterRecord, waiterRecord, hbarred m hm, hother m hm, hseconds]
      rw [hfilter, List.map_congr_left fun m hm => hrecord m (List.mem_of_mem_filter hm)] at hposts
      have hcons : (n :: ns).filter (fun m => (s.slot m).port == some q && s.barsWaiter h m) =
          [n].filter (fun m => (s.slot m).port == some q && s.barsWaiter h m) ++
            ns.filter fun m => (s.slot m).port == some q && s.barsWaiter h m := by
        rw [← List.filter_append, List.singleton_append]
      rw [hcons, List.map_append]
      exact hposts

end

/-! ### CUE_WRITE -/

/-- The entry that a write finds, or allocates. -/
def State.writeBase (s : State) (w : CueWrite) (way : Fin 2) : Entry :=
  if s.wayOf w.cue = none then Entry.allocated (cueTag w.cue) else s.entry (cueLine w.cue) way

theorem writeBase_live {s : State} {w : CueWrite} {way : Fin 2} (hway : (s.wayOf w.cue).or (s.allocatable (cueLine w.cue)) = some way) :
    (s.writeBase w way).state ≠ .invalid := by
  unfold State.writeBase
  cases hheld : s.wayOf w.cue with
  | none =>
    rw [if_pos rfl]
    exact EntryState.noConfusion
  | some v =>
    rw [hheld, Option.some_or] at hway
    rw [if_neg (Option.some_ne_none v), ← Option.some.inj hway]
    exact (wayOf_matches hheld).1

theorem cueWrite_eq {s : State} {payload : List Byte} {w : CueWrite} (hread : readCueWrite payload = some w) :
    handleCueWrite s payload = match (s.wayOf w.cue).or (s.allocatable (cueLine w.cue)) with
      | none => refuse s .storeBusy
      | some way => okay (s.writeCue (cueLine w.cue) way (s.writeBase w way) w) := by
  unfold handleCueWrite State.writeBase
  rw [hread]
  cases hheld : s.wayOf w.cue with
  | some way => simp [hheld]
  | none =>
    cases halloc : s.allocatable (cueLine w.cue) with
    | none => simp [hheld, halloc]
    | some way => simp [hheld, halloc]

theorem cueWrite_refused {s : State} {payload : List Byte} (hread : readCueWrite payload = none) :
    handleCueWrite s payload = refuse s .badArg := by
  unfold handleCueWrite
  rw [hread]

/-- The waiting slots of an entry in a sound state wait for its cue. -/
theorem waiters_cue {s : State} (hs : s.lightingSound) {cue : Nat} {way : Fin 2} (htag : (s.entry (cueLine cue) way).tag = cue / 64) {n : Fin 8}
    (hn : n ∈ (s.entry (cueLine cue) way).waiters) : (s.slot n).state = .waitingFill ∧ (s.slot n).cue = cue := by
  obtain ⟨-, hwait, hline, hcueTag⟩ := hs.waiters _ _ n hn
  refine ⟨hwait, ?_⟩
  have hmod : (s.slot n).cue % 64 = cue % 64 := congrArg Fin.val hline
  have hdiv : (s.slot n).cue / 64 = cue / 64 := hcueTag.trans htag
  omega

end Sys2Proof.Machine
end

