-- ==== Sys2Proof/Proofs/CueWriteRequest.lean ====
section
/-! PROOFS. CUE_WRITE as a request (R129 to R132, R136, R142, R145). -/

namespace Sys2Proof.Machine

section
variable {s : State} {p : Port} {payload : List Byte} {w : CueWrite} {way : Fin 2} {base after : Entry}

/-- The way is filled: its entry and its line's mark. -/
def State.filled (s : State) (line : Fin 64) (way : Fin 2) (e : Entry) : State := (s.setEntry line way e).setLru line (1 - way)

theorem filled_stands (s : State) (line : Fin 64) (way : Fin 2) (e : Entry) : (s.filled line way e).entryStands line way e (1 - way) := by
  unfold State.filled
  refine ⟨?_, ?_⟩
  · rw [entry_setLru, entry_setEntry, if_pos ⟨rfl, rfl⟩]
  · rw [lru_setLru, if_pos rfl]

theorem writeCue_eq (s : State) (line : Fin 64) (way : Fin 2) (base : Entry) (w : CueWrite) : s.writeCue line way base w =
    if (base.written w).complete = true then
      base.waiters.foldl (State.judgeWaiter (base.written w).settled w.header) (s.filled line way (base.written w).settled)
    else s.filled line way (base.written w).settled := by
  unfold State.writeCue State.filled
  rw [otherWay_eq]
  rfl

/-- What a write that completes a fill leaves, in any state. -/
theorem completed_any (ns : List (Fin 8)) (e : Entry) (he : e.waiters = []) (h : Header) (s : State) (line : Fin 64) (way : Fin 2) :
    let u := ns.foldl (State.judgeWaiter e h) (s.filled line way e)
    u.entry line way = e ∧ (pick u.store line).lru = 1 - way ∧
      (∀ n ∈ ns, (u.slot n).state ≠ .waitingFill ∧
        ((∀ q, (s.slot n).port = some q → s.inDomain h.cls.domain q = false) → u.slot n = Slot.reset) ∧
        (s.surface.mode.allows h.cls = false → u.slot n = Slot.reset)) ∧ LightingOnly s u := by
  intro u
  obtain ⟨hentry, hmark⟩ := judgeWaiters_entryStands (e := e) (h := h) he ns (filled_stands s line way e)
  refine ⟨hentry, hmark, fun n hn => ⟨judgeWaiters_unwaiting hn _, fun hports => judgeWaiters_freed hn (.inl ?_),
    fun hmode => judgeWaiters_freed hn (.inr hmode)⟩, ?_⟩
  · have hbarred : (s.filled line way e).barred h n = !(s.slot n).port.any fun q => s.inDomain h.cls.domain q := rfl
    rw [hbarred, Bool.not_eq_true', Option.any_eq_false]
    simpa using hports
  · exact LightingOnly.trans (b := s.filled line way e) rfl (lighting_foldl _ (fun t n => lighting_judgeWaiter e h t n) ns _)

/-- The same, for the slots that wait for the cue in a sound state, when the cue has a delay. -/
theorem completed_sound (hs : s.lightingSound) {line : Fin 64} (hd : 0 < w.header.delay) {ns : List (Fin 8)} (hns : ns.Nodup)
    (hwait : ∀ n ∈ ns, (s.slot n).state = .waitingFill ∧ (s.slot n).cue = w.cue) :
    let barred := fun n : Fin 8 => !(s.slot n).port.any (fun q => s.inDomain w.header.cls.domain q)
    let t := (ns.foldl (State.judgeWaiter after w.header) ((s.enterExecuting p).filled line way after)).answer p 0x17
      { result := .ok }
    (∀ n, t.slot n = if n ∉ ns then s.slot n
      else if barred n = true ∨ s.surface.mode.allows w.header.cls = false then Slot.reset
      else copiedSlot after w.header w.cue (s.slot n).port) ∧
    (∀ q, s.tells t q ((ns.filter (fun n => (s.slot n).port == some q &&
        (barred n || !s.surface.mode.allows w.header.cls))).map
      (fun n => ⟨if barred n then .cueNoAuthority else .cueMode, n.val, w.cue, s.deviceSeconds⟩))) ∧
    t.channels = s.channels ∧ t.governor = s.governor := by
  intro barred t
  have hexecuting : FadesSound (s.enterExecuting p) := ((lightingSound_iff _).1
    (lightingSound_of_same (by simp) (by simp) (by simp) (by simp) hs)).1
  have hsound : FadesSound ((s.enterExecuting p).filled line way after) :=
    fadesSound_of_same (s := s.enterExecuting p) (fun _ => rfl) (fun _ => rfl) rfl hexecuting
  have hslot : ∀ n, ((s.enterExecuting p).filled line way after).slot n = s.slot n := fun n => enterExecuting_slot s p n
  have hbarred : ∀ n, ((s.enterExecuting p).filled line way after).barred w.header n = barred n := fun n => by
    unfold State.barred
    rw [hslot]
    exact congrArg (fun f => !(s.slot n).port.any f) (funext fun q => enterExecuting_inDomain ..)
  have hbars : ∀ n, ((s.enterExecuting p).filled line way after).barsWaiter w.header n =
      (barred n || !s.surface.mode.allows w.header.cls) := fun n => by
    have hsurface : ((s.enterExecuting p).filled line way after).surface = s.surface := enterExecuting_surface ..
    rw [State.barsWaiter, hbarred, hsurface]
  have hjudged := waitersJudged_foldl (e := after) hd ns hns hsound fun n hn => by
    rw [hslot]
    exact (hwait n hn).1
  refine ⟨fun n => ?_, fun q => ?_, ?_, ?_⟩
  · refine (slot_congr (answer_slots ..) n).trans ((hjudged.slot n).trans ?_)
    rw [hslot, hbars]
    by_cases hn : n ∈ ns
    · rw [if_pos hn, if_neg (not_not_intro hn), Slot.judged, (hwait n hn).2]
      simp only [Bool.or_eq_true, Bool.not_eq_true']
    · rw [if_neg hn, if_pos hn]
  · have hposts := hjudged.records q
    have hfilter : ns.filter (fun n => (((s.enterExecuting p).filled line way after).slot n).port == some q &&
          ((s.enterExecuting p).filled line way after).barsWaiter w.header n) =
        ns.filter (fun n => (s.slot n).port == some q && (barred n || !s.surface.mode.allows w.header.cls)) :=
      List.filter_congr fun n _ => by rw [hslot, hbars]
    have hrecord : ∀ n ∈ ns, waiterRecord w.header ((s.enterExecuting p).filled line way after) n =
        ⟨if barred n then .cueNoAuthority else .cueMode, n.val, w.cue, s.deviceSeconds⟩ := fun n hn => by
      have hseconds : ((s.enterExecuting p).filled line way after).deviceSeconds = s.deviceSeconds := enterExecuting_deviceSeconds ..
      rw [waiterRecord, hbarred, hslot, (hwait n hn).2, hseconds]
    rw [hfilter, List.map_congr_left fun n hn => hrecord n (List.mem_of_mem_filter hn)] at hposts
    exact tells_request (tells_of_posts hposts) _ _
  · exact (answer_channels ..).trans (hjudged.channels.trans (enterExecuting_channels ..))
  · exact (answer_governor ..).trans (hjudged.governor.trans (enterExecuting_governor ..))

/-- A single waiting slot that passes takes its delay end with the copy. -/
theorem completed_instant {h : Header} {n : Fin 8} (u : State) (hd : h.delay = 0) (hb : u.barred h n = false)
    (hm : u.surface.mode.allows h.cls = true) (e : Entry) :
    exec (.delayEnd n) (u.setSlot n (copiedSlot e h (u.slot n).cue (u.slot n).port)) =
      .next ([n].foldl (State.judgeWaiter e h) u) := by
  obtain ⟨hentered, hended⟩ := enterDelay_of_zero u n (sl := copiedSlot e h (u.slot n).cue (u.slot n).port) hd rfl
  have hjudged : State.judgeWaiter e h u n = u.enterDelay n (copiedSlot e h (u.slot n).cue (u.slot n).port) := by
    rw [judgeWaiter_eq, if_neg (by simp [hb]), if_neg (by simp [hm])]
  rw [List.foldl_cons, List.foldl_nil, hjudged, hentered]
  exact congrArg Host.Outcome.next hended

end

/-- Settles O38: the written entry is put in its way first, and the waiting slots of a completed fill are judged one after the other; what
becomes of one is not touched by the judgement of the others. -/
theorem cueWriteFillsAnEntry : Obligations.CueWriteFillsAnEntry := by
  intro p payload s hmay hlength hpairs
  have ht : s.takes p .cueWrite payload :=
    takes_of_mayCommand .cueWrite hmay hlength (by simp [RequestKind.lengthAllowed]; omega) rfl
  have hhold : (s.enterExecuting p).handOver p .cueWrite payload = handleCueWrite (s.enterExecuting p) payload := rfl
  cases hread : readCueWrite payload with
  | none => exact ht.refused (hhold.trans (cueWrite_refused hread))
  | some w =>
  dsimp -zeta only
  intro line
  have hwrite := cueWrite_eq (s := s.enterExecuting p) hread
  have hsameWay : (s.enterExecuting p).wayOf w.cue = s.wayOf w.cue := by simp [State.wayOf]
  have hsameAllocation : (s.enterExecuting p).allocatable line = s.allocatable line := by
    simp [State.allocatable]
  rw [hsameWay, hsameAllocation] at hwrite
  cases hway : (s.wayOf w.cue).or (s.allocatable line) with
  | none =>
    rw [hway] at hwrite
    exact ht.refused (hhold.trans hwrite)
  | some way =>
  rw [hway] at hwrite
  dsimp -zeta only at hwrite ⊢
  intro base segment complete after
  have hbase : (s.enterExecuting p).writeBase w way = base := by
    unfold State.writeBase
    rw [hsameWay, enterExecuting_entry]
    rfl
  have hlive : base.state ≠ .invalid := writeBase_live hway
  have hcomplete : (base.written w).complete = complete := written_complete base w
  have hsettled : (base.written w).settled = after := by
    rw [settled_written base w hlive, hcomplete]
    rfl
  rw [hbase, writeCue_eq, hcomplete, hsettled] at hwrite
  split
  · next hcompletes =>
    obtain ⟨hall, hsome⟩ := hcompletes
    rw [if_pos hall] at hwrite
    have hnone : after.waiters = [] := if_pos hall
    have hheld : base = s.entry line way ∧ s.wayOf w.cue = some way := by
      cases hof : s.wayOf w.cue with
      | none =>
        refine absurd ?_ hsome
        have hallocated : base = Entry.allocated (cueTag w.cue) := if_pos hof
        rw [hallocated]
        rfl
      | some v =>
        rw [hof, Option.some_or] at hway
        exact ⟨if_neg (by simp [hof]), hway⟩
    obtain ⟨hentry, hmark, hwaiting, hframe⟩ :=
      completed_any base.waiters after hnone w.header (s.enterExecuting p) line way
    refine ⟨_, ht _ (hhold.trans hwrite), answers_answer .., (entry_congr (answer_store ..) line way).trans hentry,
      (congrArg (fun store => (pick store line).lru) (answer_store ..)).trans hmark, fun n hn => ?_, fun hs => ⟨fun hd => ?_, ?_⟩,
      (lightingOnly_executing s p).trans (hframe.trans (lightingOnly_answer ..))⟩
    · obtain ⟨hstate, hports, hmode⟩ := hwaiting n hn
      have hslot : ∀ (u : State) (a : Answer), (u.answer p RequestKind.cueWrite.code a).slot n = u.slot n :=
        fun u a => slot_congr (answer_slots ..) n
      simp only [enterExecuting_slot, enterExecuting_inDomain, enterExecuting_surface] at hports hmode
      exact ⟨by rw [hslot]; exact hstate, fun h => (hslot _ _).trans (hports h), fun h => (hslot _ _).trans (hmode h)⟩
    · have hwait : ∀ n ∈ base.waiters, (s.slot n).state = .waitingFill ∧ (s.slot n).cue = w.cue := by
        rw [hheld.1]
        exact fun n hn => waiters_cue hs (wayOf_matches hheld.2).2 hn
      exact completed_sound hs hd (by rw [hheld.1]; exact hs.waitersOnce line way) hwait
    · intro hd n hone hfree hmode filled
      have hn : n ∈ (s.entry line way).waiters := by
        rw [← hheld.1, hone]
        exact List.mem_singleton.2 rfl
      have hslot : (filled.slot n) = s.slot n := enterExecuting_slot s p n
      have hpasses : filled.barred w.header n = false := by
        unfold State.barred
        rw [hslot]
        refine Eq.trans ?_ hfree
        exact congrArg (fun f => !(s.slot n).port.any f) (funext fun q => enterExecuting_inDomain ..)
      have hallows : filled.surface.mode.allows w.header.cls = true := by
        refine Eq.trans ?_ hmode
        exact congrArg (fun x : Surface => x.mode.allows w.header.cls) (enterExecuting_surface ..)
      have hend := completed_instant filled hd hpasses hallows after
      rw [hslot, (waiters_cue hs (wayOf_matches hheld.2).2 hn).2] at hend
      rw [hone]
      exact ⟨_, hend, rfl⟩
  · next hnot =>
    have hstored : handleCueWrite (s.enterExecuting p) payload = okay ((s.enterExecuting p).filled line way after) := by
      by_cases hall : complete = true
      · rw [if_pos hall] at hwrite
        have hempty : base.waiters = [] := by
          by_contra hsome
          exact hnot ⟨hall, hsome⟩
        rw [hempty] at hwrite
        exact hwrite
      · rw [if_neg hall] at hwrite
        exact hwrite
    exact ht.served (effect := fun u => u.filled line way after) (hhold.trans hstored)

end Sys2Proof.Machine
end

