-- ==== Sys2Proof/Proofs/PlantReporting.lean ====
section
/-! PROOFS. PLANT_REPORT (R28, R30, R114 to R119). -/

namespace Sys2Proof.Machine

/-- A record posted to some ports adds itself to their queues. -/
theorem adds_postAll (s : State) (ps : List Port) (hps : ps.Nodup) (k : RecordKind) (o : Nat) (v : Int) (p : Port) :
    s.adds (s.postAll ps k o v) p k (if p ∈ ps then [⟨k, o, v, s.deviceSeconds⟩] else []) := by
  have h := adds_of_posts (posts_postAll ps hps s k o v p) k
  have hfilter : (if p ∈ ps then [(⟨k, o, v, s.deviceSeconds⟩ : Record)] else []).filter (fun x => x.kind == k) =
      if p ∈ ps then [⟨k, o, v, s.deviceSeconds⟩] else [] := by
    split <;> simp
  rwa [hfilter] at h

theorem adds_refl (s : State) (p : Port) (k : RecordKind) : s.adds s p k [] := fun _ => (List.append_nil _).symm

/-- What other blocks see of an evaluation. -/
theorem evaluate_frame (s : State) : s.evaluate.surface = s.surface ∧ s.evaluate.pool = s.pool ∧ s.evaluate.fog = s.fog := by
  have h := lighting_evaluate s
  refine ⟨?_, ?_, ?_⟩ <;> rw [h]

/-- The state in which a plant report is stored, before its evaluation. -/
def State.reported (s : State) (r : PlantReport) : State :=
  let stored := { s with surface := { s.surface with report := some r, reportAge := 0, plantStale := false } }
  if s.surface.plantStale then stored.postAll [.portP, .portB] .plantFresh 0 0 else stored

section
variable (s : State) (r : PlantReport)

theorem reported_frame : s.reported r = { s with
    surface := { s.surface with report := some r, reportAge := 0, plantStale := false }, ports := (s.reported r).ports } := by
  unfold State.reported
  dsimp only
  split
  · simp [State.postAll, State.post, State.setPort]
  · rfl

theorem postedOnly_reported : PostedOnly (· = .plantFresh) s (s.reported r) := by
  unfold State.reported
  dsimp only
  split
  · exact .trans (b := { s with surface := { s.surface with report := some r, reportAge := 0, plantStale := false } })
      (.of_ports rfl) ((postedOnly_postMoves (· = .plantFresh)).postAll _ _ rfl _ _)
  · exact .of_ports rfl

theorem adds_reported (p : Port) : s.adds (s.reported r) p .plantFresh
    (if s.surface.plantStale = true ∧ p ≠ .portL then [⟨.plantFresh, 0, 0, s.deviceSeconds⟩] else []) := by
  unfold State.reported
  dsimp only
  by_cases hstale : s.surface.plantStale = true
  · have h := adds_postAll { s with surface := { s.surface with report := some r, reportAge := 0, plantStale := false } }
      [.portP, .portB] (by decide) .plantFresh 0 0 p
    have hport : p ∈ [Port.portP, Port.portB] ↔ p ≠ .portL := by cases p <;> simp
    rw [if_pos hstale]
    simp only [hstale, true_and, ← hport]
    exact h
  · rw [if_neg hstale, if_neg fun h => hstale h.1]
    exact adds_refl s p .plantFresh

end

/-- Settles O14: the report is stored, and the evaluation that follows is made by the state that it leaves. -/
theorem plantReportReachesTheCeiling : Obligations.PlantReportReachesTheCeiling := by
  intro p q h s hmay hq hh
  have ht : s.takes p .plantReport (payloadPlantReport q h) := takes_of_mayCommand .plantReport hmay (by simp [payloadPlantReport]) rfl rfl
  have hhandle : (s.enterExecuting p).handOver p .plantReport (payloadPlantReport q h) =
      okay ((s.enterExecuting p).reported ⟨min 2000 q, min 1500 h⟩).evaluate := by
    have hclamped : handlePlantReport (s.enterExecuting p) (payloadPlantReport q h) =
        okay ((s.enterExecuting p).reported ⟨clampNat 0 2000 (readU16 (payloadPlantReport q h) 0),
          clampNat 0 1500 (readU16 (payloadPlantReport q h) 2)⟩).evaluate := rfl
    have hfirst : readU16 (payloadPlantReport q h) 0 = q := readU16_encU16 hq _
    have hsecond : readU16 (payloadPlantReport q h) 2 = h := readU16_encU16_last hh
    rw [hfirst, hsecond, clampNat_zero, clampNat_zero] at hclamped
    exact hclamped
  have hexec : exec (.plantReport p (payloadPlantReport q h)) s =
      .next (((s.enterExecuting p).reported ⟨min 2000 q, min 1500 h⟩).evaluate.answer p RequestKind.plantReport.code
        { result := .ok }) := ht _ hhandle
  have hframe := reported_frame (s.enterExecuting p) ⟨min 2000 q, min 1500 h⟩
  have hposted := postedOnly_reported (s.enterExecuting p) ⟨min 2000 q, min 1500 h⟩
  have hadds := adds_reported (s.enterExecuting p) ⟨min 2000 q, min 1500 h⟩
  generalize (s.enterExecuting p).reported ⟨min 2000 q, min 1500 h⟩ = u at hexec hframe hposted hadds
  have hgovernor : u.governor = s.governor := by rw [hframe, enterExecuting_governor]
  have hsurface : u.surface = { s.surface with report := some ⟨min 2000 q, min 1500 h⟩, reportAge := 0, plantStale := false } := by
    rw [hframe, enterExecuting_surface]
  have hafter := postedOnly_evaluate u
  obtain ⟨hkept, -, -⟩ := evaluate_frame u
  have hevaluated := evaluated_answer (evaluate_evaluated u) p RequestKind.plantReport.code { result := .ok }
  refine ⟨_, hexec, answers_answer .., ?_, ?_, hevaluated, ?_, ?_, fun r => ?_, fun hempty => ?_, ?_⟩
  · exact (answer_surface ..).trans (hkept.trans hsurface)
  · refine (hevaluated.1).trans ?_
    unfold State.hIceNow
    rw [answer_surface, hkept, hsurface]
    rfl
  · rw [answer_governor]
    exact (evaluate_lSpill u).trans (by rw [hgovernor])
  · rw [answer_governor]
    exact evaluate_lastEval u
  · have hall := adds_trans (hadds r) (hafter.adds r (kind := .plantFresh) (by simp [RecordKind.ofEvaluation])) (hafter.lost r)
    rw [List.append_nil, enterExecuting_surface, enterExecuting_deviceSeconds] at hall
    exact adds_request hall _ _
  · have hqueue : u.governor.queue = [] := by rw [hgovernor, hempty]
    obtain ⟨-, hf, -, -, hcount, -⟩ := evaluate_evaluatedOnce hqueue
    rw [answer_governor]
    rw [hgovernor] at hf hcount
    refine ⟨hf, hcount, tellsOverload_request ?_ _ _⟩
    exact tellsOverload_after hposted (by simp) (by simp) (by rw [hgovernor, enterExecuting_governor]) (by rw [hframe])
      (evaluate_tellsOverload hqueue) hafter
  · have hlighting := lighting_evaluate u
    have hanswer := lightingOnly_answer u.evaluate p RequestKind.plantReport.code { result := .ok }
    have hwhole : LightingOnly u (u.evaluate.answer p RequestKind.plantReport.code { result := .ok }) := hlighting.trans hanswer
    have hexecuting : s.enterExecuting p = { s with ports := (s.enterExecuting p).ports } := by cases p <;> rfl
    have hout : (u.evaluate.answer p RequestKind.plantReport.code { result := .ok }).surface = u.surface :=
      (answer_surface ..).trans hkept
    generalize u.evaluate.answer p RequestKind.plantReport.code { result := .ok } = t at hwhole hout ⊢
    rw [hout]
    have hbase : u = { s with surface := u.surface, ports := u.ports } := by
      rw [hframe, hexecuting]
    exact Eq.trans hwhole (congrArg (fun v : State => { v with
      governor := t.governor, channels := t.channels, slots := t.slots, store := t.store, ports := t.ports }) hbase)

end Sys2Proof.Machine
end

