-- ==== Sys2Proof/Proofs/ExitHoming.lean ====
section
/-! PROOFS. The automatic homing of the positioners on the exit from START (R98, R111). -/

namespace Sys2Proof.Machine

/-- The positioners of a list that are to home at the exit from START. -/
def State.dueAmong (s : State) (vs : List (Fin 8)) : List (Fin 8) :=
  vs.filter fun v => (s.pos v).state == .unhomed && !s.positioners.queue.contains v

/-- Those that are not at the closed end. -/
def State.homingAmong (s : State) (vs : List (Fin 8)) : List (Fin 8) := (s.dueAmong vs).filter fun v => !(s.pos v).endstop

/-- How many travel slots are free. -/
def State.freeSlots (s : State) : Nat := 4 - s.positioners.holders.length

/-- The positioners `vs` have been judged for automatic homing, in this order. -/
structure HomedAmong (vs : List (Fin 8)) (s t : State) : Prop where
  pos     : ∀ v, t.pos v =
    if v ∈ (s.homingAmong vs).take s.freeSlots then (s.pos v).homing (s.stepInterval v)
    else if v ∈ s.homingAmong vs then { s.pos v with intent := some .home }
    else if v ∈ s.dueAmong vs then (s.pos v).homed
    else s.pos v
  queue   : t.positioners.queue = s.positioners.queue ++ (s.homingAmong vs).drop s.freeSlots
  holders : t.positioners.holders.map Prod.snd = s.positioners.holders.map Prod.snd ++ (s.homingAmong vs).take s.freeSlots
  keys    : (s.positioners.holders.map Prod.fst).Nodup → (t.positioners.holders.map Prod.fst).Nodup
  frame   : t = { s with positioners := t.positioners, openChoices := t.openChoices }

section
variable {s : State} {v : Fin 8} {vs : List (Fin 8)}

theorem mem_dueAmong {w : Fin 8} : w ∈ s.dueAmong vs ↔ w ∈ vs ∧ (s.pos w).state = .unhomed ∧ w ∉ s.positioners.queue := by
  simp [State.dueAmong]

theorem mem_homingAmong {w : Fin 8} : w ∈ s.homingAmong vs ↔ w ∈ s.dueAmong vs ∧ (s.pos w).endstop = false := by
  simp [State.homingAmong]

/-- The other positioners are due as they were when one has taken its turn. -/
theorem amongs_congr {t : State} (hpos : ∀ w ∈ vs, t.pos w = s.pos w) (hqueue : ∀ w ∈ vs, w ∈ t.positioners.queue ↔ w ∈ s.positioners.queue) :
    t.dueAmong vs = s.dueAmong vs ∧ t.homingAmong vs = s.homingAmong vs := by
  have hdue : t.dueAmong vs = s.dueAmong vs := List.filter_congr fun w hw => by
    rw [hpos w hw]
    simp [hqueue w hw]
  refine ⟨hdue, ?_⟩
  rw [State.homingAmong, State.homingAmong, hdue]
  exact List.filter_congr fun w hw => by rw [hpos w (List.mem_of_mem_filter hw)]

theorem stepInterval_congr {t : State} (h : t = { s with positioners := t.positioners, openChoices := t.openChoices }) (w : Fin 8) :
    t.stepInterval w = s.stepInterval w := by
  rw [h]
  rfl

/-- A positioner whose turn it is and that is not due. -/
theorem homedAmong_skip {t : State} (hdue : ¬((s.pos v).state = .unhomed ∧ v ∉ s.positioners.queue)) (h : HomedAmong vs s t) :
    HomedAmong (v :: vs) s t := by
  have hsame : s.dueAmong (v :: vs) = s.dueAmong vs := by
    rw [State.dueAmong, List.filter_cons, if_neg (by simpa using hdue)]
    rfl
  have hhoming : s.homingAmong (v :: vs) = s.homingAmong vs := by rw [State.homingAmong, hsame]; rfl
  exact ⟨by rw [hsame, hhoming]; exact h.pos, by rw [hhoming]; exact h.queue, by rw [hhoming]; exact h.holders, h.keys, h.frame⟩

theorem dueAmong_cons (hdue : (s.pos v).state = .unhomed ∧ v ∉ s.positioners.queue) : s.dueAmong (v :: vs) = v :: s.dueAmong vs := by
  rw [State.dueAmong, List.filter_cons, if_pos (by simpa using hdue)]
  rfl

/-- One at the closed end stands homed at once. -/
theorem homedAmong_stop {t : State} (hv : v ∉ vs) (hdue : (s.pos v).state = .unhomed ∧ v ∉ s.positioners.queue)
    (hend : (s.pos v).endstop = true) (h : HomedAmong vs (s.setPos v (s.pos v).homed) t) : HomedAmong (v :: vs) s t := by
  have hother : ∀ w, w ≠ v → (s.setPos v (s.pos v).homed).pos w = s.pos w := fun w hw => by rw [pos_setPos, if_neg hw]
  obtain ⟨hsame, hhoming⟩ := amongs_congr (s := s) (t := s.setPos v (s.pos v).homed) (vs := vs)
    (fun w hw => hother w fun he => hv (he ▸ hw)) fun w _ => Iff.rfl
  have hcons := dueAmong_cons (vs := vs) hdue
  have hhomes : s.homingAmong (v :: vs) = s.homingAmong vs := by
    rw [State.homingAmong, hcons, List.filter_cons, if_neg (by simp [hend])]
    rfl
  have hfree : (s.setPos v (s.pos v).homed).freeSlots = s.freeSlots := rfl
  refine ⟨fun w => ?_, ?_, ?_, h.keys, h.frame⟩
  · rw [h.pos, hsame, hhoming, hhomes, hcons, hfree]
    by_cases hw : w = v
    · subst hw
      have hnot : w ∉ s.homingAmong vs := fun hm => hv (mem_dueAmong.1 (mem_homingAmong.1 hm).1).1
      rw [if_neg fun hm => hnot (List.mem_of_mem_take hm), if_neg hnot, if_neg fun hm => hv (mem_dueAmong.1 hm).1,
        if_neg fun hm => hnot (List.mem_of_mem_take hm), if_neg hnot, if_pos List.mem_cons_self, pos_setPos, if_pos rfl]
    · rw [hother w hw]
      simp only [List.mem_cons, hw, false_or]
      rfl
  · rw [h.queue, hhoming, hhomes, hfree]
    rfl
  · rw [h.holders, hhoming, hhomes, hfree]
    rfl

theorem homingAmong_cons (hdue : (s.pos v).state = .unhomed ∧ v ∉ s.positioners.queue) (hend : (s.pos v).endstop = false) :
    s.homingAmong (v :: vs) = v :: s.homingAmong vs := by
  rw [State.homingAmong, dueAmong_cons hdue, List.filter_cons, if_pos (by simp [hend])]
  rfl

/-- One that homes takes a travel slot while one is free. -/
theorem homedAmong_take {t u : State} (hv : v ∉ vs) (hdue : (s.pos v).state = .unhomed ∧ v ∉ s.positioners.queue)
    (hend : (s.pos v).endstop = false) (hroom : s.positioners.holders.length < 4) {k : Fin 4} (hk : k ∉ s.positioners.holders.map Prod.fst)
    (hu : u = { s with
      positioners := { s.positioners with
        records := put s.positioners.records v ((s.pos v).homing (s.stepInterval v))
        holders := s.positioners.holders ++ [(k, v)] }
      openChoices := s.openChoices + 1 }) (h : HomedAmong vs u t) : HomedAmong (v :: vs) s t := by
  have hupos : ∀ w, u.pos w = if w = v then (s.pos v).homing (s.stepInterval v) else s.pos w := fun w => by
    rw [hu]
    exact pick_put ..
  have huqueue : u.positioners.queue = s.positioners.queue := by rw [hu]
  have huholders : u.positioners.holders = s.positioners.holders ++ [(k, v)] := by rw [hu]
  have huframe : u = { s with positioners := u.positioners, openChoices := u.openChoices } := by rw [hu]
  obtain ⟨hsame, hhoming⟩ := amongs_congr (s := s) (t := u) (vs := vs)
    (fun w hw => by rw [hupos, if_neg fun he : w = v => hv (he ▸ hw)]) fun w _ => by rw [huqueue]
  have hcons := dueAmong_cons (vs := vs) hdue
  have hhomes := homingAmong_cons (vs := vs) hdue hend
  have hfree : s.freeSlots = u.freeSlots + 1 := by
    rw [State.freeSlots, State.freeSlots, huholders, List.length_append, List.length_singleton]
    omega
  refine ⟨fun w => ?_, ?_, ?_, fun hkeys => h.keys ?_, h.frame.trans ?_⟩
  · rw [h.pos, hsame, hhoming, hhomes, hcons, hfree, List.take_succ_cons, hupos]
    by_cases hw : w = v
    · subst hw
      have hnot : w ∉ s.homingAmong vs := fun hm => hv (mem_dueAmong.1 (mem_homingAmong.1 hm).1).1
      rw [if_neg fun hm => hnot (List.mem_of_mem_take hm), if_neg hnot, if_neg fun hm => hv (mem_dueAmong.1 hm).1, if_pos rfl,
        if_pos List.mem_cons_self]
    · rw [if_neg hw, stepInterval_congr huframe]
      simp only [List.mem_cons, hw, false_or]
  · rw [h.queue, hhoming, hhomes, hfree, List.drop_succ_cons, huqueue]
  · rw [h.holders, hhoming, hhomes, hfree, List.take_succ_cons, huholders]
    simp
  · rw [huholders, List.map_append, List.nodup_append]
    exact ⟨hkeys, by simp, fun a ha b hb => by
      rw [List.map_singleton, List.mem_singleton] at hb
      rw [hb]
      intro he
      rw [he] at ha
      exact hk ha⟩
  · exact congrArg (fun x : State => { x with positioners := t.positioners, openChoices := t.openChoices }) huframe

/-- One that homes joins the queue when none is free. -/
theorem homedAmong_wait {t u : State} (hv : v ∉ vs) (hdue : (s.pos v).state = .unhomed ∧ v ∉ s.positioners.queue)
    (hend : (s.pos v).endstop = false) (hfull : ¬s.positioners.holders.length < 4)
    (hu : u = { s with positioners := { s.positioners with
      records := put s.positioners.records v { s.pos v with intent := some .home }
      queue := s.positioners.queue ++ [v] } }) (h : HomedAmong vs u t) : HomedAmong (v :: vs) s t := by
  have hupos : ∀ w, u.pos w = if w = v then { s.pos v with intent := some .home } else s.pos w := fun w => by
    rw [hu]
    exact pick_put ..
  have huqueue : u.positioners.queue = s.positioners.queue ++ [v] := by rw [hu]
  have huholders : u.positioners.holders = s.positioners.holders := by rw [hu]
  have huframe : u = { s with positioners := u.positioners, openChoices := u.openChoices } := by rw [hu]
  obtain ⟨hsame, hhoming⟩ := amongs_congr (s := s) (t := u) (vs := vs)
    (fun w hw => by rw [hupos, if_neg fun he : w = v => hv (he ▸ hw)]) fun w hw => by
      rw [huqueue, List.mem_append, List.mem_singleton, or_iff_left fun he : w = v => hv (he ▸ hw)]
  have hcons := dueAmong_cons (vs := vs) hdue
  have hhomes := homingAmong_cons (vs := vs) hdue hend
  have hnone : s.freeSlots = 0 := by
    rw [State.freeSlots]
    omega
  have hunone : u.freeSlots = 0 := by rw [State.freeSlots, huholders]; exact hnone
  refine ⟨fun w => ?_, ?_, ?_, fun hkeys => h.keys (by rwa [huholders]), h.frame.trans ?_⟩
  · rw [h.pos, hsame, hhoming, hhomes, hcons, hnone, hunone, hupos]
    simp only [List.take_zero, List.not_mem_nil, if_false]
    by_cases hw : w = v
    · subst hw
      have hnot : w ∉ s.homingAmong vs := fun hm => hv (mem_dueAmong.1 (mem_homingAmong.1 hm).1).1
      rw [if_neg hnot, if_neg fun hm => hv (mem_dueAmong.1 hm).1, if_pos rfl, if_pos List.mem_cons_self]
    · rw [if_neg hw]
      simp only [List.mem_cons, hw, false_or]
  · rw [h.queue, hhoming, hhomes, hnone, hunone, huqueue]
    simp
  · rw [h.holders, hhoming, hhomes, hnone, hunone, huholders]
    simp
  · exact congrArg (fun x : State => { x with positioners := t.positioners, openChoices := t.openChoices }) huframe

theorem homedAmong_foldl (vs : List (Fin 8)) (hvs : vs.Nodup) (s : State) : HomedAmong vs s (vs.foldl State.autoHome s) := by
  induction vs generalizing s with
  | nil => exact ⟨fun v => by simp [State.homingAmong, State.dueAmong], by simp [State.homingAmong, State.dueAmong],
      by simp [State.homingAmong, State.dueAmong], id, rfl⟩
  | cons v vs ih =>
    obtain ⟨hv, hrest⟩ := List.nodup_cons.1 hvs
    rw [List.foldl_cons]
    have hcond : ((s.pos v).state = .unhomed && !s.queued v) = true ↔ (s.pos v).state = .unhomed ∧ v ∉ s.positioners.queue := by
      simp [State.queued]
    unfold State.autoHome
    by_cases hdue : (s.pos v).state = .unhomed ∧ v ∉ s.positioners.queue
    · rw [if_pos (hcond.2 hdue)]
      by_cases hend : (s.pos v).endstop = true
      · rw [if_pos hend]
        exact homedAmong_stop hv hdue hend (ih hrest _)
      · rw [if_neg hend]
        have hnotEnd : (s.pos v).endstop = false := by simpa using hend
        by_cases hroom : s.positioners.holders.length < 4
        · obtain ⟨k, hk, hseek⟩ := seekHoming_free hroom v (s.pos v)
          rw [setPos_pos] at hseek
          exact homedAmong_take hv hdue hnotEnd hroom hk hseek (ih hrest _)
        · have hseek := seekHoming_full hroom v (s.pos v)
          have hstate : (if (s.pos v).state = .idle then PosState.waiting else (s.pos v).state) = (s.pos v).state :=
            if_neg (by rw [hdue.1]; decide)
          rw [setPos_pos, hstate] at hseek
          exact homedAmong_wait hv hdue hnotEnd hroom hseek (ih hrest _)
    · rw [if_neg (mt hcond.1 hdue)]
      exact homedAmong_skip hdue (ih hrest s)

end

theorem homedAmong_all (s : State) : HomedAmong all8 s s.autoHomeAll := homedAmong_foldl all8 nodup_all8 s

/-- What the exit from START asks of the positioners. -/
theorem homedAtExit_of_among {s t : State} (h : HomedAmong all8 s t) : s.homedAtExit t := ⟨h.pos, h.queue, h.holders, h.keys⟩

end Sys2Proof.Machine
end

