-- ==== Sys2Proof/Proofs/Transitions.lean ====
section
/-! PROOFS. A transition of the surface mode (R19, R20, R22, R117). -/

namespace Sys2Proof.Machine

/-! ### The parts of a transition -/

/-- The surface controller's record after a transition. -/
def State.crossedSurface (s : State) (new : Mode) : Surface := { s.surface with
  mode := new, dwell := 0
  ready := if s.surface.mode = .prep ∨ new = .prep then false else s.surface.ready
  inBand := if s.surface.mode = .prep ∨ new = .prep then 0 else s.surface.inBand
  softIce := if s.surface.mode = .play then false else s.surface.softIce
  aboveRun := if s.surface.mode = .play ∨ new = .play then 0 else s.surface.aboveRun
  belowRun := if s.surface.mode = .play ∨ new = .play then 0 else s.surface.belowRun
  resurfaceTimer := if new = .resurface then some (s.plant.resurfaceMax * 60)
    else if s.surface.mode = .resurface then none else s.surface.resurfaceTimer }

/-- The cause byte of a record. -/
def Cause.code : Cause → Nat
  | .request => 0 | .auto => 1

/-- The new mode stands, and its records are posted. -/
def State.moved (s : State) (new : Mode) (cause : Cause) : State :=
  { s with surface := { s.surface with mode := new, dwell := 0 } }.postAll allPorts .surfaceChanged s.surface.mode.code
    (changeValue new cause)

/-- A transition without what leaving a mode asks of other blocks, and before its evaluation. -/
def State.crossed (s : State) (new : Mode) (cause : Cause) : State :=
  ((s.moved new cause).freeForbidden).crossFlags s.surface.mode new

theorem transition_eq (s : State) (new : Mode) (cause : Cause) :
    s.transition new cause = ((s.crossed new cause).announceLeaving s.surface.mode).evaluate := rfl

/-- What a transition has made of a state before what leaving a mode asks for. -/
structure Crosses (s : State) (new : Mode) (cause : Nat) (u : State) : Prop where
  surface  : u.surface = s.crossedSurface new
  slot     : ∀ m, u.slot m = if m ∈ s.forbidden new then Slot.reset else s.slot m
  channel  : ∀ c, u.channel c = { s.channel c with owner := (s.channel c).owner.filter (fun n => decide (n ∉ s.forbidden new)) }
  entry    : s.forbidden new = [] → u.store = s.store
  governor : u.governor = { s.governor with queue := s.governor.queue.filter (fun n => decide (n ∉ s.forbidden new)) }
  records  : ∀ p, s.posts u p (s.transitionRecords new cause p)
  frame    : u = { s with surface := u.surface, governor := u.governor, channels := u.channels, slots := u.slots
                          store := u.store, ports := u.ports }

section
variable {s : State} {new : Mode} {cause : Cause}

theorem postAll_frame (s : State) (ps : List Port) (k : RecordKind) (o : Nat) (v : Int) :
    s.postAll ps k o v = { s with ports := (s.postAll ps k o v).ports } :=
  foldl_related (R := fun s t => t = { s with ports := t.ports }) (fun _ => rfl) (fun h k => by rw [k, h]) _
    (fun s p => by cases p <;> rfl) ps s

theorem moved_frame (s : State) (new : Mode) (cause : Cause) : s.moved new cause = { s with
    surface := { s.surface with mode := new, dwell := 0 }, ports := (s.moved new cause).ports } :=
  postAll_frame ..

theorem posts_moved (s : State) (new : Mode) (cause : Cause) (p : Port) : s.posts (s.moved new cause) p
    [⟨.surfaceChanged, s.surface.mode.code, (new.code + 256 * cause.code : Nat), s.deviceSeconds⟩] := by
  have h := posts_postAll allPorts (by decide) { s with surface := { s.surface with mode := new, dwell := 0 } } .surfaceChanged
    s.surface.mode.code (changeValue new cause) p
  have hmem : p ∈ allPorts := by cases p <;> decide
  have hvalue : changeValue new cause = (new.code + 256 * cause.code : Nat) := by cases cause <;> simp [changeValue, Cause.code]
  rw [if_pos hmem, hvalue] at h
  unfold State.moved
  rw [hvalue]
  exact h

/-- The mode does not change while forbidden slots are freed. -/
theorem freeForbidden_eq (s : State) : s.freeForbidden =
    all8.foldl (fun t n => if (t.slot n).forbiddenBy s.surface.mode = true then t.endSlot n .cueMode else t) s := by
  have hfold : ∀ (ns : List (Fin 8)) (t : State), t.surface = s.surface →
      ns.foldl (fun t n => if (t.slot n).forbiddenBy t.surface.mode then t.endSlot n .cueMode else t) t =
        ns.foldl (fun t n => if (t.slot n).forbiddenBy s.surface.mode = true then t.endSlot n .cueMode else t) t := by
    intro ns
    induction ns with
    | nil => intro t _; rfl
    | cons n ns ih =>
      intro t ht
      rw [List.foldl_cons, List.foldl_cons, ht]
      refine ih _ ?_
      split
      · rw [lighting_endSlot t n .cueMode]
        exact ht
      · exact ht
  exact hfold all8 s rfl

theorem forbidden_eq (s : State) (new : Mode) : all8.filter (fun n => (s.slot n).forbiddenBy new) = s.forbidden new :=
  List.filter_congr fun n _ => by
    unfold Slot.forbiddenBy
    cases (s.slot n).cls <;> rfl

theorem freeForbidden_ended (s : State) : SlotsEnded (s.forbidden s.surface.mode) .cueMode s s.freeForbidden := by
  rw [freeForbidden_eq, ← forbidden_eq]
  exact slotsEnded_foldl_if (fun sl => sl.forbiddenBy s.surface.mode) .cueMode all8 nodup_all8 s

/-- What READY, SOFT_ICE, their runs and the resurface timer become. -/
theorem crossedSurface_eq (s : State) (new : Mode) :
    ((({ s.surface with mode := new, dwell := 0 } : Surface).crossPrep s.surface.mode new).crossPlay s.surface.mode new).crossResurface
      s.surface.mode new s.plant.resurfaceMax = s.crossedSurface new := by
  unfold Surface.crossPrep Surface.crossPlay Surface.crossResurface State.crossedSurface
  by_cases hprep : s.surface.mode = .prep ∨ new = .prep <;> by_cases hold : s.surface.mode = .play <;> by_cases hnew : new = .play <;>
    by_cases hin : new = .resurface <;> by_cases hout : s.surface.mode = .resurface <;> simp_all

theorem crossFlags_frame (s : State) (old new : Mode) : s.crossFlags old new = { s with
    surface := ((s.surface.crossPrep old new).crossPlay old new).crossResurface old new s.plant.resurfaceMax
    ports := (s.crossFlags old new).ports } := by
  unfold State.crossFlags
  dsimp only
  split
  · simp [State.post, State.setPort]
  · rfl

theorem posts_crossFlags (s : State) (old new : Mode) (p : Port) : s.posts (s.crossFlags old new) p
    (if p = .portP ∧ old = .play ∧ s.surface.softIce = true then [⟨.softIce, 0, 0, s.deviceSeconds⟩] else []) := by
  unfold State.crossFlags
  dsimp only
  by_cases hsoft : (decide (old = .play) && s.surface.softIce) = true
  · rw [if_pos hsoft]
    rw [Bool.and_eq_true, decide_eq_true_iff] at hsoft
    have h := posts_post
      { s with surface := ((s.surface.crossPrep old new).crossPlay old new).crossResurface old new s.plant.resurfaceMax }
      .portP .softIce 0 0 p
    simp only [hsoft, and_self, and_true]
    exact h
  · rw [if_neg hsoft]
    rw [Bool.and_eq_true, decide_eq_true_iff] at hsoft
    rw [if_neg fun h => hsoft h.2]
    exact posts_of_ports rfl p

theorem crosses (s : State) (new : Mode) (cause : Cause) : Crosses s new cause.code (s.crossed new cause) := by
  have hmoved := moved_frame s new cause
  have hposted := posts_moved s new cause
  unfold State.crossed
  generalize s.moved new cause = m at hmoved hposted ⊢
  have hslot : ∀ n, m.slot n = s.slot n := fun n => by rw [hmoved]; rfl
  have hmode : m.surface.mode = new := by rw [hmoved]
  have hseconds : m.deviceSeconds = s.deviceSeconds := by rw [hmoved]
  have hforbidden : m.forbidden m.surface.mode = s.forbidden new := by
    rw [hmode]
    exact List.filter_congr fun n _ => by rw [hslot]
  have hended := freeForbidden_ended m
  rw [hforbidden] at hended
  have hfreed := hended.frame
  generalize m.freeForbidden = f at hended hfreed ⊢
  have hfsurface : f.surface = { s.surface with mode := new, dwell := 0 } := by rw [hfreed, hmoved]
  have hfseconds : f.deviceSeconds = s.deviceSeconds := hended.frame.deviceSeconds.trans hseconds
  have hfplant : f.plant = s.plant := by rw [hfreed, hmoved]
  have hflags := crossFlags_frame f s.surface.mode new
  have hflagRecords := posts_crossFlags f s.surface.mode new
  rw [hfsurface, hfplant, crossedSurface_eq] at hflags
  generalize f.crossFlags s.surface.mode new = u at hflags hflagRecords ⊢
  have hslots : u.slots = f.slots := by rw [hflags]
  have hchannels : u.channels = f.channels := by rw [hflags]
  refine { surface := by rw [hflags], slot := fun n => ?_, channel := fun c => ?_, entry := fun hnone => ?_, governor := ?_
           records := fun p => ?_, frame := ?_ }
  · rw [slot_congr hslots, hended.slot, hslot]
  · have hchannel : m.channel c = s.channel c := by rw [hmoved]; rfl
    rw [channel_congr hchannels, hended.channel, hchannel]
  · have hstore : m.store = s.store := by rw [hmoved]
    have hkept : f.store = m.store := store_ext (fun l w => by rw [hended.entry, hnone]; simp) hended.lru
    rw [hflags]
    exact hkept.trans hstore
  · have hgovernor : m.governor = s.governor := by rw [hmoved]
    rw [hflags]
    exact hended.governor.trans (by rw [hgovernor])
  · have hall := posts_trans (posts_trans (hposted p) (hended.records p)) (hflagRecords p)
    have hsoft : f.surface.softIce = s.surface.softIce := by rw [hfsurface]
    simp only [hslot, hseconds, hfseconds, hsoft] at hall
    rw [List.append_assoc] at hall
    exact hall
  · rw [hflags, hfreed, hmoved]

end

/-! ### What an evaluation leaves of a transition -/

/-- No slot waits that the mode forbids. -/
def State.allAllowed (new : Mode) (s : State) : Prop :=
  ∀ n c, ((s.slot n).state = .delay ∨ (s.slot n).state = .waitingHeadroom) → (s.slot n).cls = some c → new.allows c = true

theorem allAllowed_service (new : Mode) : ServiceInvariant (fun _ => True) (State.allAllowed new) where
  queued _ _ _ _ := trivial
  same s t hslots _ _ _ hs n c := by
    rw [slot_congr hslots]
    exact hs n c
  startFading s m _ hs n c := by
    rw [slot_startFading]
    split
    · rintro (h | h) <;> cases h
    · exact hs n c
  freeSlot s m hs n c := by
    rw [slot_freeSlot]
    split
    · rintro (h | h) <;> cases h
    · exact hs n c

section
variable {s u v : State} {new : Mode} {cause : Nat}

theorem Crosses.allAllowed (h : Crosses s new cause u) : u.allAllowed new := by
  intro n c
  rw [h.slot]
  split
  · rintro (h | h) <;> cases h
  · next hn =>
    intro hstate hcls
    by_contra hforbids
    refine hn (List.mem_filter.2 ⟨mem_all8 n, ?_⟩)
    rw [Bool.and_eq_true, hcls]
    exact ⟨by simpa using hstate, by simpa using hforbids⟩

/-- A forbidden slot is idle after a transition. -/
theorem Crosses.idle (h : Crosses s new cause u) {n : Fin 8} (hn : n ∈ s.forbidden new) : u.idleSlot n := by
  refine ⟨by rw [h.slot, if_pos hn], fun c hc => ?_, ?_⟩
  · rw [h.channel, Option.filter_eq_some_iff] at hc
    simp [hn] at hc
  · rw [h.governor]
    simp [hn]

/-- What leaving a mode asks of pool and positioners changes no slot, channel, queue or port. -/
structure Leaves (u v : State) : Prop where
  slots    : v.slots = u.slots
  channels : v.channels = u.channels
  store    : v.store = u.store
  governor : v.governor = u.governor
  ports    : v.ports = u.ports

/-- What the evaluation at the end of a transition leaves. -/
structure Ended (s : State) (new : Mode) (cause : Nat) (v t : State) : Prop where
  allowed   : t.allAllowed new
  freed     : ∀ n ∈ s.forbidden new, t.slot n = Slot.reset
  records   : ∀ p, s.tells t p (s.transitionRecords new cause p)
  evaluated : t.evaluated
  frame     : LightingOnly v t

theorem Crosses.ends (h : Crosses s new cause u) (hv : Leaves u v) : Ended s new cause v v.evaluate := by
  refine ⟨(allAllowed_service new).evaluate ?_, fun n hn => ((idleSlot_service n).evaluate ?_).1, fun p => ?_, evaluate_evaluated v,
    lighting_evaluate v⟩
  · exact (allAllowed_service new).same u v hv.slots hv.channels hv.store (by rw [hv.governor]) h.allAllowed
  · exact (idleSlot_service n).same u v hv.slots hv.channels hv.store (by rw [hv.governor]) (h.idle hn)
  · exact tells_then_ordinary (tells_of_posts (posts_then (h.records p) hv.ports))
      ((postedOnly_evaluate v).mono fun _ => ordinary_of_evaluation)

theorem leaves_announce (u : State) (old : Mode) : Leaves u (u.announceLeaving old) := by
  unfold State.announceLeaving
  split
  · exact ⟨rfl, rfl, rfl, rfl, rfl⟩
  · have hframe := (homedAmong_all { u with pool := { u.pool with roundTimer := some 5000 } }).frame
    exact ⟨by rw [hframe], by rw [hframe], by rw [hframe], by rw [hframe], by rw [hframe]⟩
  · exact ⟨rfl, rfl, rfl, rfl, rfl⟩

end

/-- A transition out of a mode other than START. -/
theorem transition_ends {s : State} {new : Mode} (cause : Cause) (hold : s.surface.mode ≠ .start) :
    let t := s.transition new cause
    t.surface = s.crossedSurface new ∧ t.pool = { s.pool with preheat := s.surface.mode != .resurface && s.pool.preheat } ∧
      Ended s new cause.code ((s.crossed new cause).announceLeaving s.surface.mode) t ∧
      t = { s with surface := t.surface, pool := t.pool, governor := t.governor, channels := t.channels, slots := t.slots
                   store := t.store, ports := t.ports } := by
  intro t
  have hcrosses := crosses s new cause
  have hended := hcrosses.ends (leaves_announce (s.crossed new cause) s.surface.mode)
  have ht : t = ((s.crossed new cause).announceLeaving s.surface.mode).evaluate := transition_eq s new cause
  have hcrossed := hcrosses.frame
  have hleft : (s.crossed new cause).announceLeaving s.surface.mode = { s.crossed new cause with
      pool := { s.pool with preheat := s.surface.mode != .resurface && s.pool.preheat } } := by
    have hpool : (s.crossed new cause).pool = s.pool := by rw [hcrossed]
    generalize s.crossed new cause = u at hpool ⊢
    unfold State.announceLeaving
    rw [← hpool]
    cases hmode : s.surface.mode with
    | start => exact absurd hmode hold
    | resurface => rfl
    | hold => rfl
    | prep => rfl
    | play => rfl
    | covered => rfl
  rw [← ht] at hended
  have hframe := hended.frame
  refine ⟨?_, ?_, hended, ?_⟩
  · rw [hframe, hleft]
    exact hcrosses.surface
  · rw [hframe, hleft]
  · have hsurface : t.surface = (s.crossed new cause).surface := by rw [hframe, hleft]
    have hpool : t.pool = { s.pool with preheat := s.surface.mode != .resurface && s.pool.preheat } := by rw [hframe, hleft]
    rw [hsurface, hpool]
    clear_value t
    rw [LightingOnly, hleft] at hframe
    generalize s.crossed new cause = u at hframe hcrossed ⊢
    exact hframe.trans (congrArg (fun x : State => { x with
      pool := { s.pool with preheat := s.surface.mode != Mode.resurface && s.pool.preheat }, governor := t.governor
      channels := t.channels, slots := t.slots, store := t.store, ports := t.ports }) hcrossed)

/-- Settles O11: in RESURFACE, with the timer in its last second, the event is the transition to PLAY. -/
theorem resurfaceTimerReturnsToPlay : Obligations.ResurfaceTimerReturnsToPlay := by
  intro s
  have hexec : exec .resurfaceTimerExpiry s = .next s.resurfaceExpiry := rfl
  have hdue : s.surface.resurfaceDue = true ↔
      s.surface.mode = .resurface ∧ (s.surface.resurfaceTimer = some 0 ∨ s.surface.resurfaceTimer = some 1) := by
    unfold Surface.resurfaceDue
    cases s.surface.resurfaceTimer with
    | none => simp
    | some n =>
      have hlast : n ≤ 1 ↔ n = 0 ∨ n = 1 := by omega
      simp only [Bool.and_eq_true, beq_iff_eq, decide_eq_true_eq, Option.some.injEq, hlast]
  rw [hexec, State.resurfaceExpiry]
  split
  · next hcond =>
    have hmode := hcond.1
    obtain ⟨hsurface, hpool, hended, hframe⟩ := transition_ends (s := s) (new := .play) .auto (by rw [hmode]; decide)
    rw [if_pos (hdue.2 hcond)]
    refine ⟨_, rfl, ?_, ?_, hended.records, hended.evaluated, hframe⟩
    · rw [hsurface, State.crossedSurface, hmode]
      simp
    · rw [hpool, hmode]
      simp
  · next hcond => rw [if_neg (mt hdue.1 hcond)]

end Sys2Proof.Machine
end

