-- ==== Sys2Proof/Proofs/ModeRequests.lean ====
section
/-! PROOFS. SURFACE_MODE (R18 to R20). -/

namespace Sys2Proof.Machine

/-! ### The checks -/

theorem ofCode_code_mode (m : Mode) : Mode.ofCode m.code = some m := by cases m <;> rfl

theorem ofCode_of_ge {m : Nat} (h : 6 ≤ m) : Mode.ofCode m = none := by
  unfold Mode.ofCode
  split
  case h_7 => rfl
  all_goals omega

theorem mayGo_iff (a b : Mode) : a.mayGo b = true ↔ (a, b) ∈ [(Mode.hold, Mode.prep), (.hold, .covered), (.prep, .play), (.prep, .hold),
    (.play, .resurface), (.play, .covered), (.play, .hold), (.resurface, .play), (.covered, .prep), (.covered, .hold)] := by
  cases a <;> cases b <;> decide

/-- The checks of SURFACE_MODE for a mode that exists. -/
theorem surfaceMode_eq {s : State} {payload : List Byte} {new : Mode} (h : Mode.ofCode (readU8 payload 0) = some new) :
    handleSurfaceMode s payload =
      if new = s.surface.mode then okay s
      else if ¬(s.surface.mode, new) ∈ [(Mode.hold, Mode.prep), (.hold, .covered), (.prep, .play), (.prep, .hold), (.play, .resurface),
        (.play, .covered), (.play, .hold), (.resurface, .play), (.covered, .prep), (.covered, .hold)] then refuse s .wrongMode
      else if s.surface.dwell < 60 ∨ s.surface.mode = .resurface ∧ s.surface.dwell < 180 then refuse s .tooSoon
      else if s.surface.mode = .prep ∧ new = .play ∧ s.surface.ready = false then refuse s .notReady
      else okay (s.transition new .request) := by
  unfold handleSurfaceMode
  rw [h]
  dsimp only
  by_cases hsame : new = s.surface.mode
  · rw [if_pos hsame, if_pos hsame]
  rw [if_neg hsame, if_neg hsame]
  by_cases hgo : s.surface.mode.mayGo new = true
  · rw [if_neg (by simp [hgo]), if_neg (not_not_intro ((mayGo_iff _ _).1 hgo))]
    by_cases hsixty : s.surface.dwell < 60
    · rw [if_pos hsixty, if_pos (.inl hsixty)]
    · rw [if_neg hsixty]
      simp only [hsixty, false_or]
  · rw [if_pos (by simpa using hgo), if_pos (mt (mayGo_iff _ _).2 hgo)]

/-! ### Within a request -/

theorem transitionRecords_executing (s : State) (p : Port) (new : Mode) (cause : Nat) (q : Port) :
    (s.enterExecuting p).transitionRecords new cause q = s.transitionRecords new cause q := by
  simp [State.transitionRecords, State.forbidden]

theorem forbidden_executing (s : State) (p : Port) (new : Mode) : (s.enterExecuting p).forbidden new = s.forbidden new := by
  simp [State.forbidden]

/-- Settles O10: after the checks the transition is made while the port executes. -/
theorem surfaceModeRequestMakesATransition : Obligations.SurfaceModeRequestMakesATransition := by
  intro p m s hm hmay
  have hread : readU8 (payloadSurfaceMode m) 0 = m := readU8_encU8_last hm
  have hdomain : (s.enterExecuting p).requestDomain .surfaceMode (payloadSurfaceMode m) =
      some (some (if m = 4 ∨ s.surface.mode = .resurface then domResurface else domSurface)) := by
    have hof : Mode.ofCode m = some .resurface ↔ m = 4 := ofCode_resurface m
    unfold State.requestDomain State.surfaceModeDomain
    simp only [hread, hof, enterExecuting_surface]
  have ht : s.takes p .surfaceMode (payloadSurfaceMode m) :=
    takes_of_mayCommand .surfaceMode hmay (by simp [payloadSurfaceMode]) rfl hdomain
  have hhold : (s.enterExecuting p).handOver p .surfaceMode (payloadSurfaceMode m) =
      handleSurfaceMode (s.enterExecuting p) (payloadSurfaceMode m) := rfl
  refine ⟨fun hbig => ht.refused (hhold.trans ?_), fun new hnew => ?_⟩
  · unfold handleSurfaceMode
    rw [hread, ofCode_of_ge hbig]
  have hjudged := surfaceMode_eq (s := s.enterExecuting p) (payload := payloadSurfaceMode m) (new := new)
    (by rw [hread, ← hnew, ofCode_code_mode])
  rw [enterExecuting_surface] at hjudged
  split
  · next hsame =>
    rw [if_pos hsame] at hjudged
    exact ht.served (effect := id) (hhold.trans hjudged)
  next hsame =>
  rw [if_neg hsame] at hjudged
  split
  · next hgo =>
    rw [if_pos hgo] at hjudged
    exact ht.refused (hhold.trans hjudged)
  next hgo =>
  rw [if_neg hgo] at hjudged
  split
  · next hsoon =>
    rw [if_pos hsoon] at hjudged
    exact ht.refused (hhold.trans hjudged)
  next hsoon =>
  rw [if_neg hsoon] at hjudged
  split
  · next hready =>
    rw [if_pos hready] at hjudged
    exact ht.refused (hhold.trans hjudged)
  next hready =>
  rw [if_neg hready] at hjudged
  have hstart : (s.enterExecuting p).surface.mode ≠ .start := fun h => by
    rw [enterExecuting_surface] at h
    rw [h] at hgo
    revert hgo
    cases new <;> decide
  have hexec : exec (.surfaceMode p (payloadSurfaceMode m)) s =
      .next (((s.enterExecuting p).transition new .request).answer p RequestKind.surfaceMode.code { result := .ok }) :=
    ht _ (hhold.trans hjudged)
  obtain ⟨hsurface, hpool, hended, hframe⟩ := transition_ends .request hstart (new := new)
  generalize (s.enterExecuting p).transition new .request = u at hexec hsurface hpool hended hframe
  have hslot : ∀ n, (u.answer p RequestKind.surfaceMode.code { result := .ok }).slot n = u.slot n := fun n =>
    slot_congr (answer_slots ..) n
  refine ⟨_, hexec, answers_answer .., ?_, ?_, fun n c => ?_, fun n hn => ?_, fun q => ?_, evaluated_answer hended.evaluated .., ?_⟩
  · rw [answer_surface, hsurface, State.crossedSurface, enterExecuting_surface, enterExecuting_plant]
  · rw [answer_pool, hpool, enterExecuting_surface, enterExecuting_pool]
  · rw [hslot]
    exact hended.allowed n c
  · rw [hslot]
    exact hended.freed n (by rwa [forbidden_executing])
  · have htells := hended.records q
    rw [transitionRecords_executing] at htells
    exact tells_request htells _ _
  · have hanswer := lightingOnly_answer u p RequestKind.surfaceMode.code { result := .ok }
    have hout : (u.answer p RequestKind.surfaceMode.code { result := .ok }).surface = u.surface := answer_surface ..
    have hpoolOut : (u.answer p RequestKind.surfaceMode.code { result := .ok }).pool = u.pool := answer_pool ..
    have hexecuting : s.enterExecuting p = { s with ports := (s.enterExecuting p).ports } := by cases p <;> rfl
    generalize u.answer p RequestKind.surfaceMode.code { result := .ok } = t at hanswer hout hpoolOut ⊢
    rw [hout, hpoolOut]
    have hbase : u = { s with
        surface := u.surface, pool := u.pool, governor := u.governor, channels := u.channels, slots := u.slots
        store := u.store, ports := u.ports } := by
      rw [hexecuting] at hframe
      exact hframe
    exact Eq.trans hanswer (congrArg (fun v : State => { v with
      governor := t.governor, channels := t.channels, slots := t.slots, store := t.store, ports := t.ports }) hbase)

end Sys2Proof.Machine
end

