-- ==== Sys2Proof/Proofs/LeavingStart.lean ====
section
/-! PROOFS. The exit from START, and the end of long calibration (R9, R24, R58, R111). -/

namespace Sys2Proof.Machine

/-! ### The exit from START -/

/-- The four conditions of the exit hold. -/
def Surface.complete (q : Surface) : Prop :=
  q.mode = .start ∧ q.calComplete = true ∧ q.plantValid = true ∧ q.buildingValid = true ∧ q.lightingValid = true

theorem tryExitStart_of_complete {s : State} (h : s.surface.complete) : s.tryExitStart = s.transition .hold .auto := by
  obtain ⟨hmode, hcal, hplant, hbuilding, hlighting⟩ := h
  exact if_pos (by simp [hmode, hcal, hplant, hbuilding, hlighting])

theorem tryExitStart_of_incomplete {s : State} (h : ¬s.surface.complete) : s.tryExitStart = s := by
  refine if_neg fun hc => h ?_
  simp only [Bool.and_eq_true, decide_eq_true_eq] at hc
  obtain ⟨⟨⟨⟨hmode, hcal⟩, hplant⟩, hbuilding⟩, hlighting⟩ := hc
  exact ⟨hmode, hcal, hplant, hbuilding, hlighting⟩

theorem kind_transitionRecords {s : State} {new : Mode} {cause : Nat} {p : Port} {r : Record} (h : r ∈ s.transitionRecords new cause p) :
    r.kind = .surfaceChanged ∨ r.kind = .cueMode ∨ r.kind = .softIce := by
  unfold State.transitionRecords at h
  rcases List.mem_cons.1 h with rfl | h
  · exact .inl rfl
  · rcases List.mem_append.1 h with h | h
    · obtain ⟨n, -, rfl⟩ := List.mem_map.1 h
      exact .inr (.inl rfl)
    · split at h
      · rw [List.mem_singleton.1 h]
        exact .inr (.inr rfl)
      · cases h

/-- Of the records of a transition, one at each port tells of the change. -/
theorem surfaceChanged_transitionRecords (s : State) (new : Mode) (cause : Nat) (p : Port) :
    (s.transitionRecords new cause p).filter (fun x => x.kind == .surfaceChanged) =
      [⟨.surfaceChanged, s.surface.mode.code, (new.code + 256 * cause : Nat), s.deviceSeconds⟩] := by
  unfold State.transitionRecords
  rw [List.filter_cons_of_pos rfl, List.filter_append]
  have hmode : ∀ l : List (Fin 8), (l.map (fun n => (⟨.cueMode, n.val, (s.slot n).cue, s.deviceSeconds⟩ : Record))).filter
      (fun x => x.kind == .surfaceChanged) = [] := fun l => by
    rw [List.filter_eq_nil_iff]
    intro r hr
    obtain ⟨n, -, rfl⟩ := List.mem_map.1 hr
    exact Bool.false_ne_true
  rw [hmode]
  split <;> rfl

section
variable {s u v : State} {new : Mode} {cause : Nat}

theorem Crosses.postedOnly (h : Crosses s new cause u) :
    PostedOnly (fun k => k = .surfaceChanged ∨ k = .cueMode ∨ k = .softIce) s u := fun p =>
  ⟨_, fun _ hr => kind_transitionRecords hr, h.records p⟩

/-- The change is told once at each port. -/
theorem Crosses.adds_surfaceChanged (h : Crosses s new cause u) (hv : Leaves u v) (p : Port) : s.adds v.evaluate p .surfaceChanged
    [⟨.surfaceChanged, s.surface.mode.code, (new.code + 256 * cause : Nat), s.deviceSeconds⟩] := by
  have hcrossed := adds_of_posts (posts_then (h.records p) hv.ports) .surfaceChanged
  rw [surfaceChanged_transitionRecords] at hcrossed
  have hafter := postedOnly_evaluate v
  have hall := adds_trans hcrossed (hafter.adds p (kind := .surfaceChanged) (by simp [RecordKind.ofEvaluation])) (hafter.lost p)
  rwa [List.append_nil] at hall

end

/-- What homing does to the positioners does not depend on what the transition has changed before. -/
theorem homedAtExit_congr {s u t v : State} (hpositioners : u.positioners = s.positioners) (hplant : u.plant = s.plant)
    (hbuilding : u.building = s.building) (ht : t.positioners = v.positioners) (h : u.homedAtExit v) : s.homedAtExit t := by
  have hpos : ∀ w, u.pos w = s.pos w := fun w => by rw [State.pos, State.pos, hpositioners]
  have hposOut : ∀ w, t.pos w = v.pos w := fun w => by rw [State.pos, State.pos, ht]
  have hinterval : ∀ w, u.stepInterval w = s.stepInterval w := fun w => by
    unfold State.stepInterval
    rw [hplant, hbuilding]
  unfold State.homedAtExit at h ⊢
  simp only [hpos, hinterval, hpositioners] at h
  simp only [hposOut, ht]
  exact h

/-- The exit from START, with its effects. -/
theorem leavesStart_transition {s : State} (hmode : s.surface.mode = .start) : s.leavesStart (s.transition .hold .auto) := by
  have hcrosses := crosses s .hold .auto
  have htransition := transition_eq s .hold .auto
  have hcrossed := hcrosses.frame
  have hsurface : s.crossedSurface .hold = { s.surface with mode := .hold, dwell := 0 } := by
    simp [State.crossedSurface, hmode]
  have hannounced : (s.crossed .hold .auto).announceLeaving s.surface.mode =
      { s.crossed .hold .auto with pool := { s.pool with roundTimer := some 5000 } }.autoHomeAll := by
    have hpool : (s.crossed .hold .auto).pool = s.pool := by rw [hcrossed]
    rw [hmode, ← hpool]
    rfl
  have hleaves := leaves_announce (s.crossed .hold .auto) s.surface.mode
  rw [hannounced] at htransition hleaves
  generalize s.transition .hold .auto = t at htransition ⊢
  generalize hu : s.crossed .hold .auto = u at hcrosses hcrossed hleaves htransition
  have hhomed := homedAmong_all { u with pool := { s.pool with roundTimer := some 5000 } }
  have hends := hcrosses.ends hleaves
  generalize ({ u with pool := { s.pool with roundTimer := some 5000 } } : State).autoHomeAll = v at htransition hleaves hhomed hends
  rw [← htransition] at hends
  have hframe := hends.frame
  have hhomedFrame := hhomed.frame
  have htsurface : t.surface = u.surface := by rw [hframe, hhomedFrame]
  have htpool : t.pool = { s.pool with roundTimer := some 5000 } := by rw [hframe, hhomedFrame]
  have htpositioners : t.positioners = v.positioners := by rw [hframe]
  have htchoices : t.openChoices = v.openChoices := by rw [hframe]
  refine ⟨by rw [htsurface, hcrosses.surface, hsurface], htpool, ?_, hends.freed, hends.records, hends.evaluated, fun hempty => ?_, ?_⟩
  · refine homedAtExit_congr (u := { u with pool := { s.pool with roundTimer := some 5000 } }) ?_ ?_ ?_ htpositioners
      (homedAtExit_of_among hhomed)
    · exact (congrArg State.positioners hcrossed :)
    · exact (congrArg State.plant hcrossed :)
    · exact (congrArg State.building hcrossed :)
  · have hvqueue : v.governor.queue = [] := by
      rw [hleaves.governor, hcrosses.governor, hempty]
      rfl
    have honce := evaluate_evaluatedOnce hvqueue
    have htold := evaluate_tellsOverload hvqueue
    have hafter := postedOnly_evaluate v
    rw [← htransition] at honce htold hafter
    obtain ⟨-, hf, hspill, hqueue, hcount, hlast, -, hsame⟩ := honce
    have hposted : PostedOnly (fun k => k = .surfaceChanged ∨ k = .cueMode ∨ k = .softIce) s v :=
      .trans hcrosses.postedOnly (.of_ports hleaves.ports)
    have hvgovernor : v.governor.f = s.governor.f ∧ v.governor.lSpill = s.governor.lSpill ∧
        v.governor.evalCount = s.governor.evalCount ∧ v.governor.iceOverload = s.governor.iceOverload := by
      rw [hleaves.governor, hcrosses.governor]
      exact ⟨rfl, rfl, rfl, rfl⟩
    obtain ⟨hvf, hvspill, hvcount, hvice⟩ := hvgovernor
    have hseconds : v.deviceSeconds = s.deviceSeconds := by rw [hhomedFrame, hcrossed]
    have hslots : t.slots = u.slots := by rw [hsame]; exact hleaves.slots
    have hchannels : t.channels = u.channels := by rw [hsame]; exact hleaves.channels
    have hstore : t.store = u.store := by rw [hsame]; exact hleaves.store
    refine ⟨fun n hn => ?_, fun c => ?_, fun hnone => hstore.trans (hcrosses.entry hnone), ?_, by rw [hf, hvf], by rw [hspill, hvspill],
      hqueue, by rw [hcount, hvcount], hlast⟩
    · rw [slot_congr hslots, hcrosses.slot, if_neg hn]
    · rw [channel_congr hchannels, hcrosses.channel]
    · exact tellsOverload_after hposted (by simp) (by simp) hvice hseconds htold hafter
  · rw [htsurface, htpool, htpositioners, htchoices]
    rw [LightingOnly, hhomedFrame, hcrossed] at hframe
    exact hframe

/-! ### Long calibration -/

/-- Settles O6: in long calibration a conversion of another channel than REF leaves only the scan moved on; the end that finds 32 readings
may be the exit from START. -/
theorem longCalibrationEndsAfterThirtyTwoReadings : Obligations.LongCalibrationEndsAfterThirtyTwoReadings := by
  intro raw s hcal href next ended
  have hexec : exec (.probeConversion raw) s = .next (s.convert raw) := rfl
  have hconverted : s.convertChannel s.scanner.channel (limitedRaw s.scanner.channel raw) = s := by
    unfold State.convertChannel
    dsimp only
    rw [if_neg href, if_pos hcal]
  have hconvert : s.convert raw = if s.scanner.channel = 31 then ({ s with scanner := next } : State).passEnd else { s with scanner := next } := by
    unfold State.convert
    dsimp only
    rw [hconverted]
  rw [hexec, hconvert]
  refine ⟨fun hne => by rw [if_neg hne], fun hlast hcount => ?_, fun hlast hcount => ?_⟩
  · have hnext : next.channel = 0 := by
      have hstep : next.channel = s.scanner.channel + 1 := rfl
      rw [hstep, hlast]
      rfl
    have hpass : ({ s with scanner := next } : State).passEnd =
        { s with scanner := { next with passNumber := s.scanner.passNumber + 1 } } :=
      (if_pos hcal).trans (if_neg hcount)
    rw [if_pos hlast, hpass]
    rw [← hnext]
  · have hnext : next.channel = 0 := by
      have hstep : next.channel = s.scanner.channel + 1 := rfl
      rw [hstep, hlast]
      rfl
    have hpass : ({ s with scanner := next } : State).passEnd =
        ({ s with scanner := ended, surface := { s.surface with calComplete := true } } : State).tryExitStart := by
      refine ((if_pos hcal).trans (if_pos hcount)).trans ?_
      have hended : ended = { next with passNumber := s.scanner.passNumber + 1, longCal := false } := by
        simp only [ended, ← hnext]
        rfl
      rw [hended]
    rw [if_pos hlast, hpass]
    split
    · next hall =>
      obtain ⟨hmode, hplant, hbuilding, hlighting⟩ := hall
      have hcomplete : ({ s.surface with calComplete := true } : Surface).complete := ⟨hmode, rfl, hplant, hbuilding, hlighting⟩
      exact ⟨_, congrArg _ (tryExitStart_of_complete hcomplete), leavesStart_transition hmode⟩
    · next hnot =>
      have hincomplete : ¬({ s.surface with calComplete := true } : Surface).complete := by
        rintro ⟨hmode, -, hplant, hbuilding, hlighting⟩
        exact hnot ⟨hmode, hplant, hbuilding, hlighting⟩
      exact congrArg _ (tryExitStart_of_incomplete hincomplete)

end Sys2Proof.Machine
end

