-- ==== Sys2Proof/Proofs/ProfileLoading.lean ====
section
/-! PROOFS. LOAD_PROFILE (R24 to R27). -/

namespace Sys2Proof.Machine

/-! ### Channels keep what the lighting profile gave them -/

/-- Of the channels only levels and owners differ from those of `s₀`. -/
def State.keepsProfiles (s₀ s : State) : Prop :=
  ∀ c, s.channel c = { s₀.channel c with level := (s.channel c).level, owner := (s.channel c).owner }

theorem keepsProfiles_refl (s : State) : s.keepsProfiles s := fun _ => rfl

theorem keepsProfiles_trans {s t u : State} (h : s.keepsProfiles t) (k : t.keepsProfiles u) : s.keepsProfiles u := fun c => by
  rw [k c, h c]

theorem keepsProfiles_setChannel {s : State} {c : Fin 96} {x : Channel}
    (hx : x = { s.channel c with level := x.level, owner := x.owner }) : s.keepsProfiles (s.setChannel c x) := fun d => by
  rw [channel_setChannel]
  split
  · next h => rw [h, hx]
  · rfl

theorem keepsProfiles_of_channels {s t : State} (h : t.channels = s.channels) : s.keepsProfiles t := fun c => by
  rw [channel_congr h]

theorem keepsProfiles_foldl {α : Type} (f : State → α → State) (hf : ∀ (s : State) x, s.keepsProfiles (f s x)) (l : List α) (s : State) :
    s.keepsProfiles (l.foldl f s) := foldl_related keepsProfiles_refl keepsProfiles_trans f hf l s

theorem keepsProfiles_startFading (s : State) (n : Fin 8) : s.keepsProfiles (s.startFading n) := by
  rw [startFading_eq]
  refine keepsProfiles_trans (keepsProfiles_foldl (State.takeChannel n) (fun t e c => ?_) _ s) (keepsProfiles_trans
    (t := ((((s.slot n).list.foldl (State.takeChannel n) s).setSlot n ((s.slot n).started s)).leaveHeadroom n))
    (keepsProfiles_of_channels rfl) (keepsProfiles_foldl _ (fun t e => keepsProfiles_setChannel rfl) _ _))
  rw [channel_takeChannel]
  split <;> rfl

theorem keepsProfiles_service (s₀ : State) : ServiceInvariant (fun _ => True) s₀.keepsProfiles where
  queued _ _ _ _ := trivial
  same _ _ _ hchannels _ _ hs := keepsProfiles_trans hs (keepsProfiles_of_channels hchannels)
  startFading s m _ hs := keepsProfiles_trans hs (keepsProfiles_startFading s m)
  freeSlot s m hs := keepsProfiles_trans hs fun c => by
    rw [channel_freeSlot]
    rfl

theorem Crosses.keepsProfiles {s u : State} {new : Mode} {cause : Nat} (h : Crosses s new cause u) : s.keepsProfiles u := fun c => by
  rw [h.channel]

theorem keepsProfiles_transition (s : State) (new : Mode) (cause : Cause) : s.keepsProfiles (s.transition new cause) := by
  rw [transition_eq]
  have hleaves := leaves_announce (s.crossed new cause) s.surface.mode
  exact (keepsProfiles_service s).evaluate (keepsProfiles_trans (crosses s new cause).keepsProfiles
    (keepsProfiles_of_channels hleaves.channels))

/-! ### A lighting record -/

theorem nodup_all96 : all96.Nodup := List.nodup_finRange 96

theorem mem_all96 (c : Fin 96) : c ∈ all96 := List.mem_finRange c

theorem channel_withLighting (s : State) (payload : List Byte) (c : Fin 96) :
    (s.withLighting payload).channel c = (s.channel c).withProfile payload c := by
  have h := get_foldl (fun s c => s.setChannel c ((s.channel c).withProfile payload c)) State.channel (fun _ => True)
    (fun _ _ _ => trivial) (fun t x y _ hy => (channel_setChannel ..).trans (if_neg hy))
    (fun x ch => ch.withProfile payload x) (fun t x _ => (channel_setChannel ..).trans (if_pos rfl)) all96 nodup_all96 s trivial c
  rw [if_pos (mem_all96 c)] at h
  exact h

/-- The coefficient and the flags, by their places in the record's body. -/
theorem withProfile_eq (ch : Channel) (kind : Byte) (body : List Byte) (c : Fin 96) : ch.withProfile (kind :: body) c = { ch with
    coefficient := readU8 body (2 * c.val), trimmable := decide (readU8 body (2 * c.val + 1) % 2 = 1)
    haze := decide (readU8 body (2 * c.val + 1) / 2 % 2 = 1) } := by
  have hfirst : 1 + 2 * c.val = 2 * c.val + 1 := Nat.add_comm ..
  have hsecond : 2 + 2 * c.val = 2 * c.val + 1 + 1 := by omega
  have hzero : ∀ b : Byte, b.getLsbD 0 = decide (b.toNat % 2 = 1) := fun b => by
    rw [← BitVec.testBit_toNat, Nat.testBit_zero]
  have hone : ∀ b : Byte, b.getLsbD 1 = decide (b.toNat / 2 % 2 = 1) := fun b => by
    rw [← BitVec.testBit_toNat, Nat.testBit_add_one, Nat.testBit_zero]
  unfold Channel.withProfile
  rw [hfirst, hsecond, hzero, hone]
  rfl

/-! ### The checks -/

section
variable {p : Port} {s : State} {kind : Byte} {body : List Byte}

theorem takes_loadProfile (hr : (s.port p).clearToSend = true) (hn : (kind :: body).length ≤ 247)
    (hl : (kind :: body).length + 3 =
      if kind.toNat = 0 then 42 else if kind.toNat = 1 then 61 else if kind.toNat = 2 then 196 else 0) :
    s.takes p .loadProfile (kind :: body) :=
  takes_of_clearToSend .loadProfile hr hn ((loadProfile_length _).2 hl) rfl

/-- A profile that is in force: the exit from START where it completes the four conditions. -/
theorem loaded_exits {u s₀ : State} (ht : s.takes p .loadProfile (kind :: body))
    (hh : handleLoadProfile (s.enterExecuting p) p (kind :: body) = okay u.tryExitStart) (hu : u = s₀) (hc : s₀.surface.complete) :
    ∃ t : State, exec (.loadProfile p (kind :: body)) s = .next (t.answer p 0x0A { result := .ok }) ∧ s₀.leavesStart t := by
  rw [hu, tryExitStart_of_complete hc] at hh
  have hexec : exec (.loadProfile p (kind :: body)) s =
      .next ((s₀.transition .hold .auto).answer p RequestKind.loadProfile.code { result := .ok }) := ht _ hh
  exact ⟨s₀.transition .hold .auto, hexec, leavesStart_transition hc.1⟩

end

/-! ### The lighting profile -/

/-- A lighting record in force. -/
def State.withProfiles (s : State) (body : List Byte) : State := { s with
  surface := { s.surface with lightingValid := true }
  channels := Vector.ofFn fun c : Fin 96 => { s.channel c with
    coefficient := readU8 body (2 * c.val), trimmable := decide (readU8 body (2 * c.val + 1) % 2 = 1)
    haze := decide (readU8 body (2 * c.val + 1) / 2 % 2 = 1) } }

theorem withLighting_eq (s : State) (kind : Byte) (body : List Byte) :
    ({ s with surface := { s.surface with lightingValid := true } } : State).withLighting (kind :: body) = s.withProfiles body := by
  have hchannels : (({ s with surface := { s.surface with lightingValid := true } } : State).withLighting (kind :: body)).channels =
      (s.withProfiles body).channels := channels_ext fun c => by
    rw [channel_withLighting, withProfile_eq]
    simp [State.withProfiles, State.channel, pick]
  rw [withLighting_frame, hchannels]
  rfl

theorem loadLighting_eq (s : State) (kind : Byte) (body : List Byte) : loadLighting s (kind :: body) =
    if ∃ n, (s.slot n).state ≠ .free then refuse s .busy else okay (s.withProfiles body).evaluate.tryExitStart := by
  have hany : all8.any (fun n => (s.slot n).state != .free) = true ↔ ∃ n, (s.slot n).state ≠ .free := by
    simp [mem_all8]
  unfold loadLighting
  dsimp only
  rw [withLighting_eq]
  by_cases h : ∃ n, (s.slot n).state ≠ .free
  · rw [if_pos h, if_pos (hany.2 h)]
  · rw [if_neg h, if_neg (mt hany.1 h)]

/-- What the exit that a lighting profile completes leaves of channels, slots and store, when every slot is FREE. -/
theorem leavesStart_of_free {u t : State} (h : u.leavesStart t) (hfree : ∀ n, (u.slot n).state = .free) (hempty : u.governor.queue = []) :
    t.channels = u.channels ∧ t.slots = u.slots ∧ t.store = u.store ∧ t.governor.evalCount = u.governor.evalCount + 1 := by
  have hnone : u.forbidden .hold = [] := by
    rw [State.forbidden, List.filter_eq_nil_iff]
    intro n _
    simp [hfree n]
  obtain ⟨-, -, -, -, -, -, hquiet, -⟩ := h
  obtain ⟨hslots, hchannels, hstore, -, -, -, -, hcount, -⟩ := hquiet hempty
  rw [hnone] at hslots hchannels hstore
  refine ⟨channels_ext fun c => ?_, slots_ext fun n => hslots n List.not_mem_nil, hstore rfl, hcount⟩
  have howner : (u.channel c).owner.filter (fun n => decide (n ∉ ([] : List (Fin 8)))) = (u.channel c).owner :=
    option_filter_eq_self fun _ _ => by simp
  rw [hchannels, howner]

theorem postedOnly_transition (s : State) (new : Mode) (cause : Cause) : PostedOnly (fun _ => True) s (s.transition new cause) :=
  .trans ((crosses s new cause).postedOnly.mono fun _ _ => trivial)
    (.trans (.of_ports (leaves_announce (s.crossed new cause) s.surface.mode).ports)
      ((postedOnly_evaluate _).mono fun _ _ => trivial))

theorem adds_surfaceChanged_transition {s : State} (hmode : s.surface.mode = .start) (q : Port) :
    s.adds (s.transition .hold .auto) q .surfaceChanged [⟨.surfaceChanged, 0, 1 + 256, s.deviceSeconds⟩] := by
  rw [transition_eq]
  have h := (crosses s .hold .auto).adds_surfaceChanged (leaves_announce (s.crossed .hold .auto) s.surface.mode) q
  rw [hmode] at h ⊢
  exact h

/-! ### The kinds -/

section
variable {p : Port} {s : State} {body : List Byte}

/-- The kind is tied to the port. -/
theorem loadProfile_plant (hp : p = .portP) (s : State) : handleLoadProfile s p (0 :: body) = loadPlant s (0 :: body) := by
  rw [hp]
  rfl

theorem loadProfile_building (hp : p = .portB) (s : State) : handleLoadProfile s p (1 :: body) = loadBuilding s (1 :: body) := by
  rw [hp]
  rfl

theorem loadProfile_lighting (hp : p = .portL) (s : State) : handleLoadProfile s p (2 :: body) = loadLighting s (2 :: body) := by
  rw [hp]
  rfl

theorem loadProfile_otherPort (s : State) : (p ≠ .portP → handleLoadProfile s p (0 :: body) = refuse s .noAuthority) ∧
    (p ≠ .portB → handleLoadProfile s p (1 :: body) = refuse s .noAuthority) ∧
    (p ≠ .portL → handleLoadProfile s p (2 :: body) = refuse s .noAuthority) := by
  refine ⟨fun h => ?_, fun h => ?_, fun h => ?_⟩
  · cases p with
    | portP => exact absurd rfl h
    | portB => rfl
    | portL => rfl
  · cases p with
    | portP => rfl
    | portB => exact absurd rfl h
    | portL => rfl
  · cases p with
    | portP => rfl
    | portB => rfl
    | portL => exact absurd rfl h

variable (hclear : (s.port p).clearToSend = true)
include hclear

theorem loads_plant (hbody : body.length = 38) :
    if p ≠ .portP then exec (.loadProfile p (0 :: body)) s = .next (s.refused p 0x0A .noAuthority)
    else if s.surface.mode ≠ .start ∧ s.surface.mode ≠ .hold then
      exec (.loadProfile p (0 :: body)) s = .next (s.refused p 0x0A .wrongMode)
    else if (readPlant (0 :: body)).bandHigh ≤ (readPlant (0 :: body)).bandLow then
      exec (.loadProfile p (0 :: body)) s = .next (s.refused p 0x0A .badArg)
    else if s.surface.mode = .start ∧ s.surface.calComplete = true ∧ s.surface.buildingValid = true ∧
        s.surface.lightingValid = true then
      ∃ t : State, exec (.loadProfile p (0 :: body)) s = .next (t.answer p 0x0A { result := .ok }) ∧
        ({ s.enterExecuting p with plant := (readPlant (0 :: body)).clamped, surface := { s.surface with plantValid := true } } :
          State).leavesStart t
    else exec (.loadProfile p (0 :: body)) s = .next (s.served p .loadProfile .ok (fun u =>
      { u with plant := (readPlant (0 :: body)).clamped, surface := { u.surface with plantValid := true } })) := by
  have ht : s.takes p .loadProfile (0 :: body) := takes_loadProfile hclear (by simp [hbody]) (by simp [hbody])
  split
  · next hp => exact ht.refused ((loadProfile_otherPort _).1 hp)
  next hp =>
  have hload := loadProfile_plant (body := body) (not_not.1 hp) (s.enterExecuting p)
  unfold loadPlant at hload
  dsimp only at hload
  rw [enterExecuting_surface] at hload
  split
  · next hmode =>
    rw [if_pos hmode] at hload
    exact ht.refused hload
  next hmode =>
  rw [if_neg hmode] at hload
  have hordered : (!(readPlant (0 :: body)).ordered) = true ↔ (readPlant (0 :: body)).bandHigh ≤ (readPlant (0 :: body)).bandLow := by
    simp [PlantProfile.ordered]
  split
  · next hbad =>
    rw [if_pos (hordered.2 hbad)] at hload
    exact ht.refused hload
  next hbad =>
  rw [if_neg (mt hordered.1 hbad)] at hload
  split
  · next hall =>
    obtain ⟨hstart, hcal, hbuilding, hlighting⟩ := hall
    exact loaded_exits ht hload rfl ⟨hstart, hcal, rfl, hbuilding, hlighting⟩
  · next hnot =>
    rw [tryExitStart_of_incomplete ?_] at hload
    · exact ht.served (effect := fun u =>
        { u with plant := (readPlant (0 :: body)).clamped, surface := { u.surface with plantValid := true } }) (by
          rw [enterExecuting_surface]
          exact hload)
    · rintro ⟨hstart, hcal, -, hbuilding, hlighting⟩
      exact hnot ⟨hstart, hcal, hbuilding, hlighting⟩

theorem loads_building (hbody : body.length = 57) :
    if p ≠ .portB then exec (.loadProfile p (1 :: body)) s = .next (s.refused p 0x0A .noAuthority)
    else if (readBuilding (1 :: body)).ordered = false then
      exec (.loadProfile p (1 :: body)) s = .next (s.refused p 0x0A .badArg)
    else if s.surface.mode = .start ∧ s.surface.calComplete = true ∧ s.surface.plantValid = true ∧
        s.surface.lightingValid = true then
      ∃ t : State, exec (.loadProfile p (1 :: body)) s = .next (t.answer p 0x0A { result := .ok }) ∧
        ({ s.enterExecuting p with
          building := (readBuilding (1 :: body)).clamped, surface := { s.surface with buildingValid := true } } :
          State).leavesStart t
    else exec (.loadProfile p (1 :: body)) s = .next (s.served p .loadProfile .ok (fun u =>
      { u with building := (readBuilding (1 :: body)).clamped, surface := { u.surface with buildingValid := true } })) := by
  have ht : s.takes p .loadProfile (1 :: body) := takes_loadProfile hclear (by simp [hbody]) (by simp [hbody])
  split
  · next hp => exact ht.refused ((loadProfile_otherPort _).2.1 hp)
  next hp =>
  have hload := loadProfile_building (body := body) (not_not.1 hp) (s.enterExecuting p)
  unfold loadBuilding at hload
  dsimp only at hload
  rw [enterExecuting_surface] at hload
  split
  · next hbad =>
    rw [if_pos (by rw [hbad]; rfl)] at hload
    exact ht.refused hload
  next hbad =>
  rw [if_neg (by simpa using hbad)] at hload
  split
  · next hall =>
    obtain ⟨hstart, hcal, hplant, hlighting⟩ := hall
    exact loaded_exits ht hload rfl ⟨hstart, hcal, hplant, rfl, hlighting⟩
  · next hnot =>
    rw [tryExitStart_of_incomplete ?_] at hload
    · exact ht.served (effect := fun u =>
        { u with building := (readBuilding (1 :: body)).clamped, surface := { u.surface with buildingValid := true } }) (by
          rw [enterExecuting_surface]
          exact hload)
    · rintro ⟨hstart, hcal, hplant, -, hlighting⟩
      exact hnot ⟨hstart, hcal, hplant, hlighting⟩

omit hclear in
/-- The lighting profile, taken with every slot FREE. -/
theorem loads_lighting (ht : s.takes p .loadProfile (2 :: body)) (hp : p = .portL) (hfree : ¬∃ n, (s.slot n).state ≠ .free) :
    let loaded := { s.enterExecuting p with
      surface := { s.surface with lightingValid := true }
      channels := Vector.ofFn (fun c : Fin 96 => { s.channel c with
        coefficient := readU8 body (2 * c.val), trimmable := decide (readU8 body (2 * c.val + 1) % 2 = 1)
        haze := decide (readU8 body (2 * c.val + 1) / 2 % 2 = 1) }) }
    let leaves := s.surface.mode = .start ∧ s.surface.calComplete = true ∧ s.surface.plantValid = true ∧
      s.surface.buildingValid = true
    ∃ u t : State, exec (.loadProfile p (2 :: body)) s = .next (t.answer p 0x0A { result := .ok }) ∧ u.evaluated ∧
      (if leaves then u.leavesStart t else t = u) ∧
      (∀ c, t.channel c = { loaded.channel c with level := (t.channel c).level, owner := (t.channel c).owner }) ∧
      u = { loaded with
        governor := u.governor, channels := u.channels, slots := u.slots, store := u.store, ports := u.ports } ∧
      (s.governor.queue = [] → loaded.evaluatedOnce u ∧ t.channels = loaded.channels ∧ t.slots = s.slots ∧
        t.store = s.store ∧ t.governor.evalCount = s.governor.evalCount + (if leaves then 2 else 1) ∧
        ∀ q, s.adds t q .surfaceChanged (if leaves then [⟨.surfaceChanged, 0, 1 + 256, s.deviceSeconds⟩] else [])) := by
  intro loaded leaves
  have hload := loadProfile_lighting (body := body) hp (s.enterExecuting p)
  have hnotBusy : ¬∃ n, ((s.enterExecuting p).slot n).state ≠ .free := by simpa using hfree
  have hloaded : (s.enterExecuting p).withProfiles body = loaded := by
    unfold State.withProfiles
    simp only [enterExecuting_surface, enterExecuting_channel]
    rfl
  rw [loadLighting_eq, if_neg hnotBusy, hloaded] at hload
  have hexec : exec (.loadProfile p (2 :: body)) s = .next (loaded.evaluate.tryExitStart.answer p RequestKind.loadProfile.code
      { result := .ok }) := ht _ hload
  have hframe := lighting_evaluate loaded
  have hposted := postedOnly_evaluate loaded
  have hkept : loaded.keepsProfiles loaded.evaluate := (keepsProfiles_service loaded).evaluate (keepsProfiles_refl loaded)
  have hevaluated := evaluate_evaluated loaded
  have honce : s.governor.queue = [] → loaded.evaluatedOnce loaded.evaluate := fun h =>
    evaluate_evaluatedOnce ((congrArg Governor.queue (enterExecuting_governor s p)).trans h)
  have hslots : loaded.slots = s.slots := enterExecuting_slots s p
  have hstore : loaded.store = s.store := enterExecuting_store s p
  have hcount : loaded.governor.evalCount = s.governor.evalCount := congrArg Governor.evalCount (enterExecuting_governor s p)
  have hqueue : ∀ q, (loaded.port q).queue = (s.port q).queue := enterExecuting_queue s p
  have hsurface : loaded.surface = { s.surface with lightingValid := true } := rfl
  have hseconds : loaded.deviceSeconds = s.deviceSeconds := enterExecuting_deviceSeconds s p
  clear_value loaded
  have hkeptSurface := (evaluate_frame loaded).1
  have hkeptSeconds := hframe.deviceSeconds
  generalize loaded.evaluate = u at *
  have hnone : ∀ q, s.adds u q .surfaceChanged [] := fun q hlost => by
    rw [← hqueue q]
    exact hposted.adds q (kind := .surfaceChanged) (by simp [RecordKind.ofEvaluation]) hlost
  by_cases hleaves : leaves
  · have ⟨hstart, hcal, hplant, hbuilding⟩ := hleaves
    have hmode : u.surface.mode = .start := by rw [hkeptSurface, hsurface]; exact hstart
    have hcomplete : u.surface.complete := by
      rw [hkeptSurface, hsurface]
      exact ⟨hstart, hcal, hplant, hbuilding, rfl⟩
    rw [tryExitStart_of_complete hcomplete] at hexec
    have hexits := leavesStart_transition hmode
    refine ⟨u, u.transition .hold .auto, hexec, hevaluated, ?_, keepsProfiles_trans hkept (keepsProfiles_transition u _ _), hframe,
      fun hempty => ?_⟩
    · rw [if_pos hleaves]
      exact hexits
    · obtain ⟨-, -, -, hleft, honceCount, -, -, hsame⟩ := honce hempty
      have huslots : u.slots = s.slots := by rw [hsame]; exact hslots
      obtain ⟨hchannelsOut, hslotsOut, hstoreOut, hcountOut⟩ := leavesStart_of_free hexits (fun n => by
        rw [slot_congr huslots]
        exact not_not.1 fun h => hfree ⟨n, h⟩) hleft
      refine ⟨honce hempty, hchannelsOut.trans (by rw [hsame]), hslotsOut.trans huslots,
        hstoreOut.trans (by rw [hsame]; exact hstore), ?_, fun q => ?_⟩
      · rw [hcountOut, honceCount, hcount, if_pos hleaves, BitVec.add_assoc]
        rfl
      · have hadds := adds_surfaceChanged_transition hmode q
        rw [hkeptSeconds, hseconds] at hadds
        rw [if_pos hleaves]
        exact adds_trans (hnone q) hadds ((postedOnly_transition u .hold .auto).lost q)
  · have hincomplete : ¬u.surface.complete := by
      rw [hkeptSurface, hsurface]
      rintro ⟨hstart, hcal, hplant, hbuilding, -⟩
      exact hleaves ⟨hstart, hcal, hplant, hbuilding⟩
    rw [tryExitStart_of_incomplete hincomplete] at hexec
    refine ⟨u, u, hexec, hevaluated, (if_neg hleaves).symm ▸ rfl, hkept, hframe, fun hempty => ?_⟩
    obtain ⟨-, -, -, -, honceCount, -, -, hsame⟩ := honce hempty
    refine ⟨honce hempty, by rw [hsame], by rw [hsame]; exact hslots, by rw [hsame]; exact hstore, ?_, fun q => ?_⟩
    · rw [honceCount, hcount, if_neg hleaves]
    · rw [if_neg hleaves]
      exact hnone q

end

/-- Settles O12, kind by kind. -/
theorem loadProfileReplacesAProfileWhole : Obligations.LoadProfileReplacesAProfileWhole := by
  intro p body s hclear
  refine ⟨loads_plant hclear, loads_building hclear, fun hbody => ?_, fun kind hkind hbody => ?_⟩
  · have ht : s.takes p .loadProfile (2 :: body) := takes_loadProfile hclear (by simp [hbody]) (by simp [hbody])
    split
    · next hp => exact ht.refused ((loadProfile_otherPort _).2.2 hp)
    next hp =>
    split
    · next hbusy =>
      have hload := loadProfile_lighting (body := body) (not_not.1 hp) (s.enterExecuting p)
      rw [loadLighting_eq, if_pos (by simpa using hbusy)] at hload
      exact ht.refused hload
    · next hfree => exact loads_lighting ht (not_not.1 hp) hfree
  · obtain ⟨hready, -⟩ := (clearToSend_iff _).1 hclear
    refine exec_refused .loadProfile hready (by simp; omega) ?_
    have hlength : RequestKind.loadProfile.lengthAllowed (kind :: body) = false := by
      rw [← Bool.not_eq_true, loadProfile_length]
      have hread : readU8 (kind :: body) 0 = kind.toNat := rfl
      rw [hread, if_neg (by omega), if_neg (by omega), if_neg (by omega)]
      omega
    unfold State.judgeRequest
    rw [ofCode_code]
    simp [hlength]

end Sys2Proof.Machine
end

