-- ==== Sys2Proof/Proofs/DewPoint.lean ====
section
/-! PROOFS. The dew point record (R40, R41): the table interpolated, and inverted. -/

namespace Sys2Proof.Machine

/-! ### The table of Table 3-3 -/

theorem saturation_le {j k : Nat} (hk : k ≤ 12) (h : j ≤ k) : saturation j ≤ saturation k := by
  have hall : ∀ k, k ≤ 12 → ∀ j, j ≤ k → saturation j ≤ saturation k := by decide
  exact hall k hk j h

theorem saturation_lt {k : Nat} (hk : k < 12) : saturation k < saturation (k + 1) := by
  have hall : ∀ k, k < 12 → saturation k < saturation (k + 1) := by decide
  exact hall k hk

theorem saturation_first : saturation 0 = 126 := rfl

theorem saturation_last : saturation 12 = 7368 := rfl

theorem saturation_eleven : saturation 11 = 5613 := rfl

theorem clampInt_bounds {lo hi : Int} (h : lo ≤ hi) (x : Int) : lo ≤ clampInt lo hi x ∧ clampInt lo hi x ≤ hi := by
  unfold clampInt
  omega

/-! ### Interpolation -/

/-- Between two entries the interpolated pressure is the same from either. -/
theorem saturationAt_eq {t : Int} {k : Nat} (hk : k < 12) (hlo : 50 * (k : Int) ≤ t + 200) (hhi : t + 200 ≤ 50 * (k : Int) + 50) :
    saturationAt t = saturation k + ((saturation (k + 1) - saturation k) * (t + 200 - 50 * k) + 25) / 50 := by
  unfold saturationAt
  dsimp only
  have hx : (((t + 200).toNat : Nat) : Int) = t + 200 := by omega
  rw [hx]
  by_cases hin : min 11 ((t + 200).toNat / 50) = k
  · rw [hin]
  · have hnext : min 11 ((t + 200).toNat / 50) = k + 1 := by omega
    have hend : t + 200 - 50 * (k : Int) = 50 := by omega
    rw [hnext, hend]
    have hzero : t + 200 - 50 * ((k + 1 : Nat) : Int) = 0 := by omega
    rw [hzero]
    omega

/-- A step of the table of height `d`, `f` fiftieths of the way up, rounded half up, lies within the step. -/
theorem step_bounds {d f : Int} (hd : 0 ≤ d) (hf : 0 ≤ f) (hf' : f ≤ 50) : 0 ≤ (d * f + 25) / 50 ∧ (d * f + 25) / 50 ≤ d := by
  have hlo : 0 ≤ d * f := Int.mul_nonneg hd hf
  have hhi : d * f ≤ d * 50 := Int.mul_le_mul_of_nonneg_left hf' hd
  omega

/-- The entry of the table below an air temperature. -/
theorem exists_cell {t : Int} (hlo : -200 ≤ t) (hhi : t ≤ 400) :
    ∃ k : Nat, k < 12 ∧ 50 * (k : Int) ≤ t + 200 ∧ t + 200 ≤ 50 * (k : Int) + 50 :=
  ⟨min 11 ((t + 200).toNat / 50), by omega, by omega, by omega⟩

theorem saturationAt_bounds {t : Int} (hlo : -200 ≤ t) (hhi : t ≤ 400) : 126 ≤ saturationAt t ∧ saturationAt t ≤ 7368 := by
  obtain ⟨k, hk, hk₁, hk₂⟩ := exists_cell hlo hhi
  rw [saturationAt_eq hk hk₁ hk₂]
  have hstep := step_bounds (f := t + 200 - 50 * k) (Int.sub_nonneg.2 (saturation_lt hk).le) (by omega) (by omega)
  have hlow := saturation_le (j := 0) (k := k) (by omega) (by omega)
  have hhigh := saturation_le (j := k + 1) (k := 12) (by omega) (by omega)
  rw [saturation_first] at hlow
  rw [saturation_last] at hhigh
  omega

/-- Only at 40.0 °C does the table reach its last entry. -/
theorem eq_of_saturationAt_last {t : Int} (hlo : -200 ≤ t) (hhi : t ≤ 400) (h : 7368 ≤ saturationAt t) : t = 400 := by
  obtain ⟨k, hk, hk₁, hk₂⟩ := exists_cell hlo hhi
  rw [saturationAt_eq hk hk₁ hk₂] at h
  by_cases hlast : k = 11
  · subst hlast
    rw [saturation_last, saturation_eleven] at h
    omega
  · have hstep := step_bounds (f := t + 200 - 50 * k) (Int.sub_nonneg.2 (saturation_lt hk).le) (by omega) (by omega)
    have hhigh := saturation_le (j := k + 1) (k := 11) (by omega) (by omega)
    rw [saturation_eleven] at hhigh
    omega

/-! ### Inversion -/

theorem saturationIndex_eq {e : Int} {k : Nat} (hk : k < 12) (hlo : saturation k ≤ e) (hhi : e < saturation (k + 1)) :
    saturationIndex e = k := by
  have hcells : (List.range 12).filter (fun j => decide (saturation j ≤ e)) = (List.range 12).filter (fun j => decide (j ≤ k)) := by
    refine List.filter_congr fun j hj => decide_eq_decide.2 ⟨fun h => ?_, fun h => (saturation_le (by omega) h).trans hlo⟩
    by_contra hlt
    have := saturation_le (j := k + 1) (k := j) (by have := List.mem_range.1 hj; omega) (by omega)
    omega
  have hlast : ∀ k, k < 12 → ((List.range 12).filter (fun j => decide (j ≤ k))).getLast?.getD 0 = k := by decide
  rw [saturationIndex, hcells, hlast k hk]

theorem saturationInverse_eq {e : Int} {k : Nat} (hk : k < 12) (hlo : saturation k ≤ e) (hhi : e < saturation (k + 1)) :
    saturationInverse e =
      50 * k - 200 + (100 * (e - saturation k) + (saturation (k + 1) - saturation k)) / (2 * (saturation (k + 1) - saturation k)) := by
  have htop := saturation_le (j := k + 1) (k := 12) (by omega) (by omega)
  unfold saturationInverse
  dsimp only
  rw [saturationIndex_eq hk hlo hhi]
  by_cases hfirst : e ≤ saturation 0
  · have hk0 : k = 0 := by
      by_contra hne
      have hone := saturation_le (j := 1) (k := k) (by omega) (by omega)
      have hrise : saturation 0 < saturation 1 := saturation_lt (by omega)
      omega
    subst hk0
    have he : e = saturation 0 := by omega
    rw [if_pos hfirst, he]
    decide
  · rw [if_neg hfirst, if_neg (by omega)]

theorem saturationInverse_of_le {e : Int} (h : e ≤ 126) : saturationInverse e = -200 := if_pos h

theorem saturationInverse_of_last {e : Int} (h : 7368 ≤ e) : saturationInverse e = 400 := by
  have hfirst : ¬e ≤ saturation 0 := by rw [saturation_first]; omega
  exact (if_neg hfirst).trans (if_pos h)

theorem saturationInverse_ge (e : Int) : -200 ≤ saturationInverse e := by
  unfold saturationInverse
  dsimp only
  split
  · exact Int.le_refl _
  · next hfirst =>
    split
    · decide
    · have hj : saturationIndex e < 12 := by
        unfold saturationIndex
        cases hlast : ((List.range 12).filter (fun j => decide (saturation j ≤ e))).getLast? with
        | none => decide
        | some j => exact List.mem_range.1 (List.mem_filter.1 (List.mem_of_getLast? hlast)).1
      have hle : saturation (saturationIndex e) ≤ e := by
        unfold saturationIndex
        cases hlast : ((List.range 12).filter (fun j => decide (saturation j ≤ e))).getLast? with
        | none => exact (Int.lt_of_not_ge hfirst).le
        | some j => exact of_decide_eq_true (List.mem_filter.1 (List.mem_of_getLast? hlast)).2
      have hd := saturation_lt hj
      have hquot : 0 ≤ (100 * (e - saturation (saturationIndex e)) + (saturation (saturationIndex e + 1) - saturation (saturationIndex e))) /
          (2 * (saturation (saturationIndex e + 1) - saturation (saturationIndex e))) := Int.ediv_nonneg (by omega) (by omega)
      omega

/-! ### The record -/

/-- The entries of the table as the statement lists them. -/
theorem saturation_of_table {k : Nat} {low : Int}
    (h : ([126, 192, 287, 422, 611, 872, 1226, 1702, 2333, 3160, 4234, 5613, 7368] : List Int)[k]? = some low) :
    k ≤ 12 ∧ saturation k = low := by
  have hk : k < 13 := (List.getElem?_eq_some_iff.1 h).1
  have hall : ∀ k, k < 13 →
      ([126, 192, 287, 422, 611, 872, 1226, 1702, 2333, 3160, 4234, 5613, 7368] : List Int)[k]? = some (saturation k) := by decide
  rw [hall k hk] at h
  exact ⟨by omega, Option.some.inj h⟩

/-- The share of a pressure is not above it. -/
theorem share_bounds {es rh : Int} (hes : 0 ≤ es) (hrh : 0 ≤ rh) (hrh' : rh ≤ 1000) :
    0 ≤ (es * rh + 500) / 1000 ∧ (es * rh + 500) / 1000 ≤ es := by
  have hlo : 0 ≤ es * rh := Int.mul_nonneg hes hrh
  have hhi : es * rh ≤ es * 1000 := Int.mul_le_mul_of_nonneg_left hrh' hes
  omega

theorem dewPoint_laws (a0 h0 : Int) :
    let d := dewPoint a0 h0
    let table : List Int := [126, 192, 287, 422, 611, 872, 1226, 1702, 2333, 3160, 4234, 5613, 7368]
    d.t = clampInt (-200) 400 a0 ∧ d.rh = clampInt 0 1000 h0 ∧ 126 ≤ d.es ∧ d.es ≤ 7368 ∧ 0 ≤ d.e ∧ d.e ≤ d.es ∧
      -200 ≤ d.td ∧ d.td ≤ 400 ∧ d.td ≤ d.t ∧ d.fresh = true ∧ d.e = (d.es * d.rh + 500) / 1000 ∧
      (d.e ≤ 126 → d.td = -200) ∧ (7368 ≤ d.e → d.td = d.t) ∧
      ∀ (k : Nat) (low high : Int), table[k]? = some low → table[k + 1]? = some high →
        (50 * k ≤ d.t + 200 → d.t + 200 ≤ 50 * k + 50 → d.es = low + ((high - low) * (d.t + 200 - 50 * k) + 25) / 50) ∧
        (low ≤ d.e → d.e < high →
          d.td = min d.t (50 * k - 200 + (100 * (d.e - low) + (high - low)) / (2 * (high - low)))) := by
  have ht := clampInt_bounds (show (-200 : Int) ≤ 400 by decide) a0
  have hrh := clampInt_bounds (show (0 : Int) ≤ 1000 by decide) h0
  have hes := saturationAt_bounds ht.1 ht.2
  have he := share_bounds (by omega : 0 ≤ saturationAt (clampInt (-200) 400 a0)) hrh.1 hrh.2
  have hinv := saturationInverse_ge ((saturationAt (clampInt (-200) 400 a0) * clampInt 0 1000 h0 + 500) / 1000)
  have htd : (dewPoint a0 h0).td = min (saturationInverse (dewPoint a0 h0).e) (dewPoint a0 h0).t := rfl
  intro d table
  have hdt : d.t = clampInt (-200) 400 a0 := rfl
  have hes' : d.es = saturationAt d.t := rfl
  have hde : d.e = (saturationAt (clampInt (-200) 400 a0) * clampInt 0 1000 h0 + 500) / 1000 := rfl
  refine ⟨rfl, rfl, hes.1, hes.2, he.1, he.2, ?_, ?_, ?_, rfl, rfl, fun h => ?_, fun h => ?_, fun k low high hlow hhigh => ?_⟩
  · rw [htd]
    exact le_min hinv ht.1
  · rw [htd]
    exact (min_le_right _ _).trans ht.2
  · rw [htd]
    exact min_le_right _ _
  · rw [htd, saturationInverse_of_le h]
    exact min_eq_left ht.1
  · have hlast : d.t = 400 := eq_of_saturationAt_last ht.1 ht.2 (h.trans he.2)
    rw [htd, saturationInverse_of_last h]
    exact min_eq_right ht.2
  · obtain ⟨-, hlow⟩ := saturation_of_table hlow
    obtain ⟨hk, hhigh⟩ := saturation_of_table hhigh
    rw [← hlow, ← hhigh]
    refine ⟨fun h₁ h₂ => ?_, fun h₁ h₂ => ?_⟩
    · rw [hes']
      exact saturationAt_eq (by omega) h₁ h₂
    · rw [htd, saturationInverse_eq (by omega) h₁ h₂, min_comm]

end Sys2Proof.Machine
end

