-- ==== Sys2Proof/Proofs/FogCycle.lean ====
section
/-! PROOFS. The fog cycle (R39 to R55): its state, its records, and what follows from the acting state. -/

namespace Sys2Proof.Machine

/-! ### The fog state -/

/-- The state of an ordered fog state after a margin that is not worse for it: one place less severe, when it may step down. -/
def Fog.stepped (f : Fog) (h : Nat) (m : Int) : FogState :=
  let steps := fun entry : Nat => 60 ≤ f.dwell ∧ (entry : Int) + h ≤ m
  match f.state with
  | .severe => if steps f.severeEff then .act else .severe
  | .act => if steps f.actEff then .watch else .act
  | .watch => if steps f.watchEff then .clear else .watch
  | other => other

/-- The fog state that a cycle leaves (R43 to R46). -/
def Fog.next (f : Fog) (h : Nat) : FogState :=
  match f.margin with
  | none => .blind
  | some m => if f.state = .blind ∨ f.state.code < (f.target m).code then f.target m else f.stepped h m

theorem target_ne_blind (f : Fog) (m : Int) : f.target m ≠ .blind := by
  unfold Fog.target
  repeat' split
  all_goals simp

theorem rank_lt_iff {x y : FogState} (hx : x ≠ .blind) (hy : y ≠ .blind) : x.rank < y.rank ↔ x.code < y.code := by
  cases x <;> cases y <;> simp_all [FogState.rank, FogState.code]

/-- The de-escalation is one step down, where the dwell and the margin allow it. -/
theorem stepped_eq (f : Fog) (h : Nat) (m : Int) :
    f.stepped h m = if f.state ≠ .blind ∧ f.state ≠ .clear ∧ 60 ≤ f.dwell ∧ (f.entry f.state : Int) + h ≤ m then f.state.down else f.state := by
  unfold Fog.stepped Fog.entry FogState.down
  cases f.state <;> simp

theorem down_ne {x : FogState} (hx : x ≠ .blind) (hc : x ≠ .clear) : x.down ≠ x ∧ x.down ≠ .blind ∧ x.down ≠ .severe := by
  cases x <;> simp_all [FogState.down]

/-- The fog unit once its state is `next`: a change clears the dwell, entering BLIND holds the state left for 300 s, leaving it
drops what was held (R43, R48). -/
def Fog.entered (f : Fog) (next : FogState) : Fog :=
  { f with
    state := next
    dwell := if next = f.state then f.dwell else 0
    held := if next ≠ .blind ∧ f.state = .blind then none else if next = .blind ∧ f.state ≠ .blind then some f.state else f.held
    holdTimer := if next ≠ .blind ∧ f.state = .blind then none else if next = .blind ∧ f.state ≠ .blind then some 300 else f.holdTimer }

/-- The cause of FOG_BLIND (R43): AIR when A0 or H0 is not usable, else SURFACE. -/
def State.blindCause (s : State) : Int := if s.published probeA0 = none ∨ s.published probeH0 = none then 0 else 1

/-- The records that a change of the fog state posts to a port (R43, R48). -/
def State.fogRecords (s : State) (p : Port) : List Record :=
  match s.fog.margin with
  | none => if s.fog.state ≠ .blind ∧ p = .portB then [⟨.fogBlind, s.fog.state.code, s.blindCause, s.deviceSeconds⟩] else []
  | some m => if s.fog.next s.building.h = .severe ∧ s.fog.state ≠ .severe ∧ p ≠ .portP then
      [⟨.fogSevere, s.fog.state.code, m, s.deviceSeconds⟩] else []

theorem fogRecords_length (s : State) (p : Port) : (s.fogRecords p).length ≤ 1 := by
  unfold State.fogRecords
  split
  · split <;> simp
  · split <;> simp

theorem fogRecords_portP (s : State) : s.fogRecords .portP = [] := by
  unfold State.fogRecords
  split
  · exact if_neg fun h => by cases h.2
  · exact if_neg fun h => h.2.2 rfl

theorem fogRecords_kind (s : State) (p : Port) : ∀ r ∈ s.fogRecords p, r.kind = .fogBlind ∨ r.kind = .fogSevere := by
  unfold State.fogRecords
  intro r hr
  split at hr
  · split at hr
    · rw [List.mem_singleton.1 hr]
      exact .inl rfl
    · cases hr
  · split at hr
    · rw [List.mem_singleton.1 hr]
      exact .inr rfl
    · cases hr

/-- What the third stage of a cycle makes of a state: the fog state entered, its records posted. -/
structure FogUpdated (s t : State) (next : FogState) (records : Port → List Record) : Prop where
  fog : t.fog = s.fog.entered next
  frame : t = { s with fog := t.fog, ports := t.ports }
  posts : ∀ p, s.posts t p (records p)

theorem fogUpdated_same (s : State) : FogUpdated s s s.fog.state fun _ => [] where
  fog := by
    unfold Fog.entered
    by_cases h : s.fog.state = .blind
    · simp only [h, ne_eq, not_true_eq_false, false_and, and_false, if_false, if_true]
      rw [← h]
    · simp [h]
  frame := rfl
  posts p := posts_refl s p

theorem post_frame (s : State) (p : Port) (k : RecordKind) (o : Nat) (v : Int) :
    s.post p k o v = { s with ports := (s.post p k o v).ports } := by
  cases p <;> rfl

/-- A change of the fog state, with its record. -/
theorem changeFog_laws (s : State) (next : FogState) (m : Int) :
    (s.changeFog next m).fog = { s.fog with state := next, dwell := 0 } ∧
      s.changeFog next m = { s with fog := (s.changeFog next m).fog, ports := (s.changeFog next m).ports } ∧
      ∀ p, s.posts (s.changeFog next m) p
        (if next = .severe ∧ p ≠ .portP then [⟨.fogSevere, s.fog.state.code, m, s.deviceSeconds⟩] else []) := by
  unfold State.changeFog
  by_cases h : next = .severe
  · simp only [h, true_and, if_true]
    generalize hchanged : ({ s with fog := { s.fog with state := .severe, dwell := 0 } } : State) = changed
    have hframe := postAll_frame changed [.portB, .portL] .fogSevere s.fog.state.code m
    have hports : changed.ports = s.ports := by rw [← hchanged]
    have hseconds : changed.deviceSeconds = s.deviceSeconds := by rw [← hchanged]
    refine ⟨?_, ?_, fun p => posts_after hports ?_⟩
    · refine (congrArg State.fog hframe :).trans ?_
      rw [← hchanged]
    · refine hframe.trans ?_
      rw [(congrArg State.fog hframe :), ← hchanged]
    · have hposts := posts_postAll [.portB, .portL] (by decide) changed .fogSevere s.fog.state.code m p
      have hmem : p ∈ [Port.portB, Port.portL] ↔ p ≠ .portP := by cases p <;> simp
      rw [hseconds] at hposts
      simpa only [hmem] using hposts
  · simp only [h, false_and, if_false]
    exact ⟨trivial, trivial, fun p => posts_of_ports rfl p⟩

theorem fogUpdated_changeFog {s : State} {next : FogState} (hs : s.fog.state ≠ .blind) (hne : next ≠ s.fog.state)
    (hblind : next ≠ .blind) (m : Int) : FogUpdated s (s.changeFog next m) next
      fun p => if next = .severe ∧ p ≠ .portP then [⟨.fogSevere, s.fog.state.code, m, s.deviceSeconds⟩] else [] := by
  obtain ⟨hfog, hframe, hposts⟩ := changeFog_laws s next m
  refine ⟨hfog.trans ?_, hframe, hposts⟩
  simp [Fog.entered, hs, hne, hblind]

/-- Leaving BLIND drops what was held (R46). -/
theorem fogUpdated_leaveBlind {s : State} {next : FogState} (hs : s.fog.state = .blind) (hblind : next ≠ .blind) (m : Int) :
    FogUpdated s (({ s with fog := { s.fog with held := none, holdTimer := none } } : State).changeFog next m) next
      fun p => if next = .severe ∧ p ≠ .portP then [⟨.fogSevere, s.fog.state.code, m, s.deviceSeconds⟩] else [] := by
  obtain ⟨hfog, hframe, hposts⟩ :=
    changeFog_laws ({ s with fog := { s.fog with held := none, holdTimer := none } } : State) next m
  refine ⟨hfog.trans ?_, hframe.trans rfl, hposts⟩
  simp [Fog.entered, hs, hblind]

theorem fogUpdated_goBlind {s : State} (h : s.fog.state ≠ .blind) (cause : Int) : FogUpdated s (s.goBlind cause) .blind
    fun p => if p = .portB then [⟨.fogBlind, s.fog.state.code, cause, s.deviceSeconds⟩] else [] := by
  have hfog : (s.goBlind cause).fog = { s.fog with state := .blind, dwell := 0, held := some s.fog.state, holdTimer := some 300 } :=
    (congrArg State.fog (post_frame ..) :)
  refine ⟨hfog.trans ?_, ?_, fun p => posts_after rfl (posts_post { s with fog := { s.fog with
    state := .blind, dwell := 0, held := some s.fog.state, holdTimer := some 300 } } .portB .fogBlind s.fog.state.code cause p)⟩
  · simp [Fog.entered, h, Ne.symm h]
  · rw [hfog]
    exact post_frame ..

theorem blindCause_eq (s : State) :
    s.blindCause = if (s.published probeA0).isNone || (s.published probeH0).isNone then 0 else 1 := by
  unfold State.blindCause
  cases s.published probeA0 <;> cases s.published probeH0 <;> simp

section
variable {s t : State} {m : Int} (hm : s.fog.margin = some m)
include hm

theorem next_of_some (h : Nat) : s.fog.next h =
    if s.fog.state = .blind ∨ s.fog.state.code < (s.fog.target m).code then s.fog.target m else s.fog.stepped h m := by
  unfold Fog.next
  rw [hm]

theorem fogRecords_of_some (p : Port) : s.fogRecords p =
    if s.fog.next s.building.h = .severe ∧ s.fog.state ≠ .severe ∧ p ≠ .portP then
      [⟨.fogSevere, s.fog.state.code, m, s.deviceSeconds⟩] else [] := by
  unfold State.fogRecords
  rw [hm]

theorem updateFog_of_some : s.updateFog =
    if s.fog.state = .blind then
      (({ s with fog := { s.fog with held := none, holdTimer := none } } : State).changeFog (s.fog.target m) m, true)
    else if s.fog.state.rank < (s.fog.target m).rank then (s.changeFog (s.fog.target m) m, true)
    else if s.fog.state ≠ .clear ∧ 60 ≤ s.fog.dwell ∧ (s.fog.entry s.fog.state : Int) + s.building.h ≤ m then
      (s.changeFog s.fog.state.down m, true)
    else (s, false) := by
  unfold State.updateFog
  rw [hm]

/-- A change into SEVERE is told, and no other. -/
theorem fogUpdated_of_some {next : FogState} (hnext : s.fog.next s.building.h = next) (hne : next ≠ s.fog.state)
    (h : FogUpdated s t next fun p => if next = .severe ∧ p ≠ .portP then [⟨.fogSevere, s.fog.state.code, m, s.deviceSeconds⟩] else []) :
    FogUpdated s t (s.fog.next s.building.h) s.fogRecords := by
  refine ⟨hnext ▸ h.fog, h.frame, fun p => ?_⟩
  have hiff : (next = .severe ∧ s.fog.state ≠ .severe ∧ p ≠ .portP) ↔ next = .severe ∧ p ≠ .portP :=
    ⟨fun h => ⟨h.1, h.2.2⟩, fun h => ⟨h.1, fun k => hne (h.1.trans k.symm), h.2⟩⟩
  rw [fogRecords_of_some hm, hnext]
  simp only [hiff]
  exact h.posts p

end

/-- The third stage of a cycle, whole: what it makes of the fog unit, what it posts, and whether it reports a change. -/
theorem updateFog_laws (s : State) :
    FogUpdated s s.updateFog.1 (s.fog.next s.building.h) s.fogRecords ∧
      (s.updateFog.2 = true ↔ s.fog.next s.building.h ≠ s.fog.state) := by
  cases hm : s.fog.margin with
  | none =>
    unfold State.updateFog Fog.next State.fogRecords
    rw [hm]
    by_cases hs : s.fog.state = .blind
    · simp only [hs, if_true, ne_eq, not_true_eq_false, false_and, if_false]
      exact ⟨hs ▸ fogUpdated_same s, by simp⟩
    · simp only [ne_eq, hs, if_false, not_false_eq_true, true_and, ← blindCause_eq]
      exact ⟨fogUpdated_goBlind hs _, by simp [Ne.symm hs]⟩
  | some m =>
    have hnext := next_of_some hm s.building.h
    have htarget := target_ne_blind s.fog m
    rw [updateFog_of_some hm]
    by_cases hs : s.fog.state = .blind
    · rw [if_pos (.inl hs)] at hnext
      have hne : s.fog.target m ≠ s.fog.state := fun h => htarget (h.trans hs)
      rw [if_pos hs]
      exact ⟨fogUpdated_of_some hm hnext hne (fogUpdated_leaveBlind hs htarget m), by simp [hnext, hne]⟩
    · have hworse := rank_lt_iff hs htarget
      rw [if_neg hs]
      by_cases hup : s.fog.state.rank < (s.fog.target m).rank
      · rw [if_pos (.inr (hworse.1 hup))] at hnext
        have hne : s.fog.target m ≠ s.fog.state := fun h => by rw [h] at hup; exact lt_irrefl _ hup
        rw [if_pos hup]
        exact ⟨fogUpdated_of_some hm hnext hne (fogUpdated_changeFog hs hne htarget m), by simp [hnext, hne]⟩
      · rw [if_neg (fun h => h.elim hs fun k => hup (hworse.2 k)), stepped_eq] at hnext
        rw [if_neg hup]
        by_cases hdown : s.fog.state ≠ .clear ∧ 60 ≤ s.fog.dwell ∧ (s.fog.entry s.fog.state : Int) + s.building.h ≤ m
        · obtain ⟨hne, hblind, -⟩ := down_ne hs hdown.1
          rw [if_pos ⟨hs, hdown⟩] at hnext
          rw [if_pos hdown]
          exact ⟨fogUpdated_of_some hm hnext hne (fogUpdated_changeFog hs hne hblind m), by simp [hnext, hne]⟩
        · rw [if_neg fun h => hdown h.2] at hnext
          rw [if_neg hdown]
          refine ⟨⟨hnext ▸ (fogUpdated_same s).fog, rfl, fun p => ?_⟩, by simp [hnext]⟩
          rw [fogRecords_of_some hm, hnext, if_neg fun h => h.2.1 h.1]
          exact posts_refl s p

/-! ### The acting state -/

/-- The backup's judgement, field by field. -/
theorem judged_eq (f : Fog) (acting : FogState) (enable loopFail : Bool) :
    let acute := acting = .act ∨ acting = .severe
    let turnsOn := f.backup = false ∧ enable = true ∧ acute ∧ (f.zeroRun = 3 ∨ loopFail = true)
    let turnsOff := f.backup = true ∧ (enable = false ∨ ¬acute ∨ f.adequateRun = 3)
    f.judged acting enable loopFail = { f with
      backup := if turnsOn then true else if turnsOff then false else f.backup
      adequateRun := if turnsOn then 0 else f.adequateRun
      wheel := if turnsOn then true else if turnsOff then decide (0 < f.lastGrant) else f.wheel } := by
  intro acute turnsOn turnsOff
  have heq : f.judged acting enable loopFail = if turnsOn then { f with backup := true, adequateRun := 0, wheel := true }
    else if turnsOff then { f with backup := false, wheel := decide (0 < f.lastGrant) } else f := rfl
  rw [heq]
  by_cases hon : turnsOn
  · simp only [if_pos hon]
  · by_cases hoff : turnsOff
    · simp only [if_neg hon, if_pos hoff]
    · simp only [if_neg hon, if_neg hoff]

theorem regen_eq (q : BuildingProfile) (acting : FogState) : q.regen acting = match acting with
    | .clear => 0
    | .watch => q.regenWatch
    | .severe => q.regenMax
    | _ => q.regenAct := by
  cases acting <;> rfl

theorem fanStageOf_eq (acting : FogState) : fanStageOf acting = match acting with
    | .clear => 0
    | .watch => 1
    | _ => 2 := by
  cases acting <;> rfl

theorem fanStageOf_pos (acting : FogState) : 1 ≤ fanStageOf acting ↔ acting ≠ .clear := by
  cases acting <;> simp [fanStageOf]

theorem fanStageOf_two (acting : FogState) : 2 ≤ fanStageOf acting ↔ acting ≠ .clear ∧ acting ≠ .watch := by
  cases acting <;> simp [fanStageOf]

theorem acting_eq (f : Fog) :
    f.acting = if f.state ≠ .blind then f.state else if f.holdTimer = none then .act else f.held.getD .act := by
  unfold Fog.acting
  cases f.state <;> cases f.holdTimer <;> cases f.held <;> rfl

theorem actOnFog_fog (s : State) : s.actOnFog.fog =
    ({ s.fog with request := s.building.regen s.fog.acting, fanStage := fanStageOf s.fog.acting } : Fog).judged
      s.fog.acting s.building.backupEnable s.pool.loopFail :=
  judgeBackup_eq _ _ _

/-! ### A cycle -/

/-- The fog unit measured, entered in its next state and acted on. -/
def State.fogAfter (s : State) : Fog :=
  let f := s.measureFog.fog.entered (s.measureFog.fog.next s.building.h)
  ({ f with request := s.building.regen f.acting, fanStage := fanStageOf f.acting } : Fog).judged
    f.acting s.building.backupEnable s.pool.loopFail

/-- Whether a cycle changes the fog state. -/
def State.fogChanges (s : State) : Prop := s.measureFog.fog.next s.building.h ≠ s.fog.state

/-- What a fog cycle with a building profile, outside START, makes of a state. -/
structure FogCycled (s t : State) : Prop where
  fog : t.fog = s.fogAfter
  scanner : t.scanner = s.scanner
  surface : t.surface = s.surface
  posted : ∃ u : State, (∀ p, s.posts u p (s.measureFog.fogRecords p)) ∧ PostedOnly RecordKind.ofEvaluation u t
  frame : t = { s with fog := t.fog, governor := t.governor, channels := t.channels, slots := t.slots, store := t.store, ports := t.ports }
  evaluated : s.fogChanges → t.evaluated ∧ t.governor.lastEval = some .ordinary
  room : s.governor.queue = [] → ∀ p, p ≠ .portL → ∃ rs : List Record, rs.length ≤ 1 ∧ s.posts t p rs

theorem fogCycle_cycled {s : State} (hmode : s.surface.mode ≠ .start) (hvalid : s.surface.buildingValid = true) :
    FogCycled s s.fogCycle := by
  obtain ⟨hupdated, hchanged⟩ := updateFog_laws s.measureFog
  have hcycle : s.fogCycle =
      if s.measureFog.updateFog.2 then s.measureFog.updateFog.1.actOnFog.evaluate else s.measureFog.updateFog.1.actOnFog :=
    if_neg (by simp [hmode, hvalid])
  generalize s.measureFog.updateFog = updated at hupdated hchanged hcycle
  obtain ⟨hfog, hframe, hposts⟩ := hupdated
  have hacted : updated.1.actOnFog.fog = s.fogAfter := by
    have hbuilding : updated.1.building = s.building := by rw [hframe]; rfl
    have hpool : updated.1.pool = s.pool := by rw [hframe]; rfl
    rw [actOnFog_fog, hfog, hbuilding, hpool]
    rfl
  have hactedFrame : updated.1.actOnFog = { s with fog := updated.1.actOnFog.fog, ports := updated.1.actOnFog.ports } := by
    have hstep : updated.1.actOnFog = { updated.1 with fog := updated.1.actOnFog.fog } := rfl
    refine hstep.trans ?_
    rw [hframe]
    rfl
  have hactedPosts : ∀ p, s.posts updated.1.actOnFog p (s.measureFog.fogRecords p) := hposts
  generalize updated.1.actOnFog = acted at hacted hactedFrame hactedPosts hcycle
  rw [hcycle]
  cases hflag : updated.2 with
  | false =>
    have hsame : ¬s.fogChanges := fun h => Bool.false_ne_true (hflag.symm.trans (hchanged.2 h))
    rw [if_neg Bool.false_ne_true]
    exact ⟨hacted, by rw [hactedFrame], by rw [hactedFrame], ⟨acted, hactedPosts, .refl _⟩, by rw [hactedFrame],
      fun h => absurd h hsame, fun _ p _ => ⟨_, fogRecords_length _ p, hactedPosts p⟩⟩
  | true =>
    rw [if_pos rfl]
    have hlighting := lighting_evaluate acted
    obtain ⟨hsurface, -, hfogKept⟩ := evaluate_frame acted
    refine ⟨hfogKept.trans hacted, ?_, ?_, ⟨acted, hactedPosts, postedOnly_evaluate acted⟩, ?_,
      fun _ => ⟨evaluate_evaluated acted, evaluate_lastEval acted⟩, fun hqueue p hp => ?_⟩
    · rw [hlighting, hactedFrame]
    · rw [hsurface, hactedFrame]
    · rw [hlighting, hactedFrame]
    · have hnone : acted.governor.queue = [] := by
        rw [hactedFrame]
        exact hqueue
      obtain ⟨-, -, -, -, -, -, hports, -⟩ := evaluate_evaluatedOnce hnone
      have hport := hports p
      split at hport
      · exact ⟨_, fogRecords_length _ p, (hport.trans (hactedPosts p) :)⟩
      · next hice =>
        have hplant : p = .portP := by
          cases p with
          | portP => rfl
          | portB => exact absurd (.inl rfl) hice
          | portL => exact absurd rfl hp
        have hquiet : acted.port p = s.port p := by
          have h := hactedPosts p
          rw [hplant, fogRecords_portP] at h
          rw [hplant]
          exact h
        rw [hquiet] at hport
        exact ⟨[⟨if acted.evaluate.governor.iceOverload = true then .iceOverload else .iceClear, 0,
          acted.evaluate.governor.avail / 1000, acted.deviceSeconds⟩], le_rfl, hport⟩

end Sys2Proof.Machine
end

