-- ==== Sys2Proof/Proofs/SlabSurvey.lean ====
section
/-! PROOFS. The slab survey of a pass end (R31 to R33). -/

namespace Sys2Proof.Machine

/-- What a survey makes of a state: the surface controller's record, the records posted before any of an evaluation, and whether
SOFT_ICE changes, which brings an evaluation. -/
structure SlabSurveyed (s t : State) (surface : Surface) (records : Port → List Record) (changes : Prop) : Prop where
  surface : t.surface = surface
  posted : ∃ u : State, (∀ p, s.posts u p (records p)) ∧ PostedOnly RecordKind.ofEvaluation u t
  frame : t = { s with surface := t.surface, governor := t.governor, channels := t.channels, slots := t.slots, store := t.store
                       ports := t.ports }
  changed : changes → t.evaluated ∧ t.governor.lastEval = some .ordinary
  evaluated : s.evaluated → s.governor.lastEval = some .ordinary → t.evaluated ∧ t.governor.lastEval = some .ordinary

/-- The published values of the usable slab probes, in ascending order. -/
def State.slabValues (s : State) : List Int := (List.finRange 20).filterMap fun c => s.published ⟨c.val, by omega⟩

theorem slabCells_values (s : State) : s.slabCells.map Prod.snd = s.slabValues := by
  unfold State.slabCells State.slabValues
  rw [List.map_filterMap]
  refine List.filterMap_congr fun c _ => ?_
  rw [Option.map_map]
  exact Option.map_id' ..

theorem slabCells_length (s : State) : s.slabCells.length = s.slabValues.length := by
  rw [← slabCells_values, List.length_map]

theorem SlabSurveyed.congr {s t : State} {q q' : Surface} {r r' : Port → List Record} {changes changes' : Prop}
    (h : SlabSurveyed s t q r changes) (hq : q = q') (hr : ∀ p, r p = r' p) (hc : changes' → changes) :
    SlabSurveyed s t q' r' changes' := by
  obtain rfl := hq
  obtain rfl : r = r' := funext hr
  exact ⟨h.surface, h.posted, h.frame, fun k => h.changed (hc k), h.evaluated⟩

/-! ### The statistics -/

theorem slabStats_n (l : List (Nat × Int)) : (slabStats l).n = (l.map Prod.snd).length := rfl

/-- The mean is the sum over the count, rounded half up. -/
theorem slabStats_mean {l : List (Nat × Int)} (h : l ≠ []) :
    2 * ((slabStats l).n : Int) * (slabStats l).mean ≤ 2 * (l.map Prod.snd).sum + (slabStats l).n ∧
      2 * (l.map Prod.snd).sum + (slabStats l).n < 2 * (slabStats l).n * ((slabStats l).mean + 1) := by
  have hn : 0 < (2 * ((l.map Prod.snd).length : Int)) := by
    have := List.length_pos_iff.2 h
    rw [List.length_map]
    omega
  have hmean : (slabStats l).mean = (2 * (l.map Prod.snd).sum + (l.map Prod.snd).length) / (2 * ((l.map Prod.snd).length : Int)) := rfl
  rw [slabStats_n, hmean]
  generalize 2 * (l.map Prod.snd).sum + ((l.map Prod.snd).length : Int) = x
  exact ⟨Int.mul_ediv_self_le hn.ne', Int.lt_mul_ediv_self_add hn |>.trans_eq (by rw [Int.mul_add, Int.mul_one])⟩

/-- A fold by a choice that `r` favours picks one of what it was given, and the most favoured. -/
theorem foldl_choice {f : Int → Int → Int} {r : Int → Int → Prop} (hrefl : ∀ a, r a a) (htrans : ∀ {a b c}, r a b → r b c → r a c)
    (hchoice : ∀ a b, f a b = a ∨ f a b = b) (hleft : ∀ a b, r (f a b) a) (hright : ∀ a b, r (f a b) b) (l : List Int) (a : Int) :
    (l.foldl f a = a ∨ l.foldl f a ∈ l) ∧ r (l.foldl f a) a ∧ ∀ v ∈ l, r (l.foldl f a) v := by
  induction l generalizing a with
  | nil => exact ⟨.inl rfl, hrefl a, by simp⟩
  | cons x l ih =>
    obtain ⟨hmem, hle, hall⟩ := ih (f a x)
    refine ⟨?_, htrans hle (hleft a x), List.forall_mem_cons.2 ⟨htrans hle (hright a x), hall⟩⟩
    rw [List.foldl_cons]
    rcases hmem with h | h
    · rw [h]
      exact (hchoice a x).imp id fun k => by rw [k]; exact List.mem_cons_self
    · exact .inr (List.mem_cons_of_mem _ h)

theorem foldl_headD_mem {l : List Int} (h : l ≠ []) {f : Int → Int → Int}
    (hmem : l.foldl f (l.headD 0) = l.headD 0 ∨ l.foldl f (l.headD 0) ∈ l) : l.foldl f (l.headD 0) ∈ l := by
  rcases hmem with hhead | hmem
  · cases l with
    | nil => exact absurd rfl h
    | cons x l =>
      rw [hhead]
      exact List.mem_cons_self
  · exact hmem

theorem slabStats_min {l : List (Nat × Int)} (h : l ≠ []) :
    (slabStats l).min ∈ l.map Prod.snd ∧ ∀ v ∈ l.map Prod.snd, (slabStats l).min ≤ v := by
  obtain ⟨hmem, -, hle⟩ := foldl_choice (f := min) (r := (· ≤ ·)) le_refl (fun h k => h.trans k) min_choice min_le_left min_le_right
    (l.map Prod.snd) ((l.map Prod.snd).headD 0)
  exact ⟨foldl_headD_mem (by simpa using h) hmem, hle⟩

theorem slabStats_max {l : List (Nat × Int)} (h : l ≠ []) :
    (slabStats l).max ∈ l.map Prod.snd ∧ ∀ v ∈ l.map Prod.snd, v ≤ (slabStats l).max := by
  obtain ⟨hmem, -, hle⟩ := foldl_choice (f := max) (r := (· ≥ ·)) le_refl (fun h k => k.trans h) max_choice le_max_left le_max_right
    (l.map Prod.snd) ((l.map Prod.snd).headD 0)
  exact ⟨foldl_headD_mem (by simpa using h) hmem, hle⟩

/-- The cell that holds the greatest value is the lowest one that does. -/
theorem slabStats_maxCell {s : State} (h : s.slabCells ≠ []) : ∃ c : Fin 20, (slabStats s.slabCells).maxCell = c.val ∧
    s.published ⟨c.val, by omega⟩ = some (slabStats s.slabCells).max ∧
    ∀ d : Fin 20, d < c → s.published ⟨d.val, by omega⟩ ≠ some (slabStats s.slabCells).max := by
  have hcell : (slabStats s.slabCells).maxCell =
      ((s.slabCells.find? fun x => x.2 == (slabStats s.slabCells).max).map Prod.fst).getD 0 := rfl
  have hmem := (slabStats_max h).1
  generalize (slabStats s.slabCells).max = hottest at hcell hmem ⊢
  have hfound : (s.slabCells.find? fun x => x.2 == hottest).isSome := by
    obtain ⟨x, hx, hval⟩ := List.mem_map.1 hmem
    exact List.find?_isSome.2 ⟨x, hx, by simp [hval]⟩
  obtain ⟨x, hx⟩ := Option.isSome_iff_exists.1 hfound
  rw [hcell, hx]
  rw [State.slabCells, List.find?_filterMap] at hx
  obtain ⟨c, hc, hcx⟩ := Option.bind_eq_some_iff.1 hx
  obtain ⟨hany, as, bs, hsplit, hbefore⟩ := List.find?_eq_some_iff_append.1 hc
  obtain ⟨v, hv, rfl⟩ := Option.map_eq_some_iff.1 hcx
  rw [hv] at hany
  obtain rfl : v = hottest := by simpa using hany
  refine ⟨c, rfl, hv, fun d hd hdv => ?_⟩
  have hsorted := List.pairwise_lt_finRange 20
  have hdmem : d ∈ List.finRange 20 := List.mem_finRange d
  rw [hsplit] at hsorted hdmem
  rcases List.mem_append.1 hdmem with hin | hin
  · have hnot := hbefore d hin
    rw [hdv] at hnot
    simp at hnot
  · rcases List.mem_cons.1 hin with rfl | hin
    · exact lt_irrefl _ hd
    · exact lt_asymm hd (List.rel_of_pairwise_cons (List.pairwise_append.1 hsorted).2.1 hin)

/-! ### READY (R32) -/

/-- The mean is in the play band. -/
abbrev State.inBandNow (s : State) (mean : Int) : Prop := s.plant.bandLow ≤ mean ∧ mean ≤ s.plant.bandHigh

/-- The in-band run after a survey in PREP. -/
abbrev State.inBandRun (s : State) (mean : Int) : Nat := if s.inBandNow mean then min 75 (s.surface.inBand + 1) else 0

/-- The survey makes the ice ready. -/
abbrev State.becomesReady (s : State) (mean : Int) : Prop :=
  s.inBandNow mean ∧ s.inBandRun mean = 75 ∧ s.surface.ready = false

/-- A survey that asks for no evaluation leaves the governor's figures those of an evaluation made before. -/
theorem slabSurveyed_of_quiet {s t : State} {surface : Surface} {records : Port → List Record} (ports : Ports)
    (ht : t = { s with surface := surface, ports := ports }) (hposts : ∀ p, s.posts t p (records p))
    (hmode : surface.mode = s.surface.mode) (hreport : surface.report = s.surface.report)
    (hstale : surface.plantStale = s.surface.plantStale) (hsoft : surface.softIce = s.surface.softIce) :
    SlabSurveyed s t surface records False := by
  refine ⟨congrArg State.surface ht, ⟨t, hposts, .refl t⟩, by rw [ht], False.elim, fun hs hlast => ?_⟩
  subst ht
  refine ⟨?_, hlast⟩
  obtain ⟨scanner, held, plant, building, fog, pool, zones, boilerProven, positioners, governor, store, channels, slots⟩ := s
  obtain ⟨mode, dwell⟩ := held
  obtain ⟨mode', dwell'⟩ := surface
  cases hmode
  cases hreport
  cases hstale
  cases hsoft
  exact hs

theorem judgeReady_surveyed (s : State) (mean : Int) : SlabSurveyed s (s.judgeReady mean)
    { s.surface with
      inBand := s.inBandRun mean
      ready := if s.becomesReady mean then true else if s.inBandNow mean then s.surface.ready else false }
    (fun p => if s.becomesReady mean ∧ p ≠ .portL then [⟨.prepReady, 0, mean, s.deviceSeconds⟩] else []) False := by
  have heq : s.judgeReady mean =
      if s.inBandNow mean then
        if min 75 (s.surface.inBand + 1) = 75 ∧ s.surface.ready = false then
          ({ s with surface := { s.surface with inBand := min 75 (s.surface.inBand + 1), ready := true } } : State).postAll
            [.portP, .portB] .prepReady 0 mean
        else { s with surface := { s.surface with inBand := min 75 (s.surface.inBand + 1) } }
      else { s with surface := { s.surface with inBand := 0, ready := false } } := rfl
  rw [heq]
  by_cases hband : s.inBandNow mean
  · have hrun : s.inBandRun mean = min 75 (s.surface.inBand + 1) := if_pos hband
    rw [if_pos hband, ← hrun]
    by_cases hready : s.inBandRun mean = 75 ∧ s.surface.ready = false
    · have hnow : s.becomesReady mean := ⟨hband, hready⟩
      rw [if_pos hready, if_pos hnow]
      refine slabSurveyed_of_quiet _ (postAll_frame ..) (fun p => posts_after (t := ({ s with surface :=
        { s.surface with inBand := s.inBandRun mean, ready := true } } : State)) rfl ?_) rfl rfl rfl rfl
      have hposts := posts_postAll [.portP, .portB] (by decide) ({ s with surface :=
        { s.surface with inBand := s.inBandRun mean, ready := true } } : State) .prepReady 0 mean p
      have hmem : p ∈ [Port.portP, Port.portB] ↔ s.becomesReady mean ∧ p ≠ .portL := by
        have hport : p ∈ [Port.portP, Port.portB] ↔ p ≠ .portL := by cases p <;> decide
        exact hport.trans ⟨fun h => ⟨hnow, h⟩, And.right⟩
      simpa only [hmem] using hposts
    · have hquiet : ¬s.becomesReady mean := fun h => hready h.2
      rw [if_neg hready, if_neg hquiet]
      refine slabSurveyed_of_quiet s.ports ?_ (fun p => ?_) rfl rfl rfl rfl
      · rw [if_pos hband]
      · rw [if_neg fun h => hquiet h.1]
        exact posts_of_ports rfl p
  · have hquiet : ¬s.becomesReady mean := fun h => hband h.1
    have hrun : s.inBandRun mean = 0 := if_neg hband
    rw [if_neg hband, if_neg hquiet, if_neg hband]
    refine slabSurveyed_of_quiet s.ports ?_ (fun p => ?_) rfl rfl rfl rfl
    · rw [hrun]
    · rw [if_neg fun h => hquiet h.1]
      exact posts_of_ports rfl p

/-! ### SOFT_ICE (R33) -/

/-- The runs after a survey in PLAY. -/
abbrev State.aboveNow (s : State) (hottest : Int) : Nat := if s.plant.softThreshold < hottest then min 3 (s.surface.aboveRun + 1) else 0

abbrev State.belowNow (s : State) (hottest : Int) : Nat :=
  if hottest ≤ s.plant.softThreshold - 5 then min 3 (s.surface.belowRun + 1) else 0

/-- The survey changes SOFT_ICE. -/
abbrev State.softChanges (s : State) (hottest : Int) : Prop :=
  (s.surface.softIce = false ∧ s.aboveNow hottest = 3) ∨ (s.surface.softIce = true ∧ s.belowNow hottest = 3)

theorem changeSoftIce_surveyed (s : State) (on : Bool) : SlabSurveyed s (s.changeSoftIce on)
    { s.surface with softIce := on, aboveRun := 0, belowRun := 0 }
    (fun p => if p = .portP then [⟨.softIce, 0, if on then 1 else 0, s.deviceSeconds⟩] else []) True := by
  generalize hset : ({ s with surface := { s.surface with softIce := on, aboveRun := 0, belowRun := 0 } } : State) = set
  have hports : set.ports = s.ports := by rw [← hset]
  have hseconds : set.deviceSeconds = s.deviceSeconds := by rw [← hset]
  have hchange : s.changeSoftIce on = (set.post .portP .softIce 0 (if on then 1 else 0)).evaluate := by rw [← hset]; rfl
  have hframe := post_frame set .portP .softIce 0 (if on then 1 else 0)
  have hposts := posts_post set .portP .softIce 0 (if on then 1 else 0)
  rw [hchange]
  generalize set.post .portP .softIce 0 (if on then 1 else 0) = told at hframe hposts
  have hlighting := lighting_evaluate told
  refine ⟨?_, ⟨told, fun p => posts_after hports (hseconds ▸ hposts p), postedOnly_evaluate told⟩, ?_,
    fun _ => ⟨evaluate_evaluated told, evaluate_lastEval told⟩, fun _ _ => ⟨evaluate_evaluated told, evaluate_lastEval told⟩⟩
  · rw [hlighting, hframe, ← hset]
  · rw [hlighting, hframe, ← hset]

theorem judgeSoftIce_surveyed (s : State) (hottest : Int) : SlabSurveyed s (s.judgeSoftIce hottest)
    (if s.softChanges hottest then { s.surface with softIce := !s.surface.softIce, aboveRun := 0, belowRun := 0 }
     else { s.surface with aboveRun := s.aboveNow hottest, belowRun := s.belowNow hottest })
    (fun p => if s.softChanges hottest ∧ p = .portP then
      [⟨.softIce, 0, if s.surface.softIce then 0 else 1, s.deviceSeconds⟩] else []) (s.softChanges hottest) := by
  have heq : s.judgeSoftIce hottest =
      if s.surface.softIce = false ∧ s.aboveNow hottest = 3 then
        ({ s with surface := { s.surface with aboveRun := s.aboveNow hottest, belowRun := s.belowNow hottest } } : State).changeSoftIce true
      else if s.surface.softIce = true ∧ s.belowNow hottest = 3 then
        ({ s with surface := { s.surface with aboveRun := s.aboveNow hottest, belowRun := s.belowNow hottest } } : State).changeSoftIce false
      else { s with surface := { s.surface with aboveRun := s.aboveNow hottest, belowRun := s.belowNow hottest } } := rfl
  rw [heq]
  generalize hcounted : ({ s with surface :=
    { s.surface with aboveRun := s.aboveNow hottest, belowRun := s.belowNow hottest } } : State) = counted
  have hchange : ∀ on : Bool, on = !s.surface.softIce → s.softChanges hottest → SlabSurveyed s (counted.changeSoftIce on)
      { s.surface with softIce := !s.surface.softIce, aboveRun := 0, belowRun := 0 }
      (fun p => if s.softChanges hottest ∧ p = .portP then
        [⟨.softIce, 0, if s.surface.softIce then 0 else 1, s.deviceSeconds⟩] else []) (s.softChanges hottest) := by
    rintro on rfl hsoft
    obtain ⟨hsurface, ⟨u, hposts, hposted⟩, hframe, hchanged, -⟩ := changeSoftIce_surveyed counted (!s.surface.softIce)
    have hevaluated := hchanged trivial
    refine ⟨?_, ⟨u, fun p => ?_, hposted⟩, ?_, fun _ => hevaluated, fun _ _ => hevaluated⟩
    · rw [hsurface, ← hcounted]
    · have hu := hposts p
      rw [← hcounted] at hu
      simp only [hsoft, true_and]
      cases hs : s.surface.softIce <;> rw [hs] at hu <;> exact hu
    · rw [hframe, ← hcounted]
  by_cases hon : s.surface.softIce = false ∧ s.aboveNow hottest = 3
  · have hsoft : s.softChanges hottest := .inl hon
    rw [if_pos hon, if_pos hsoft]
    exact hchange true (by rw [hon.1]; rfl) hsoft
  · rw [if_neg hon]
    by_cases hoff : s.surface.softIce = true ∧ s.belowNow hottest = 3
    · have hsoft : s.softChanges hottest := .inr hoff
      rw [if_pos hoff, if_pos hsoft]
      exact hchange false (by rw [hoff.1]; rfl) hsoft
    · have hquiet : ¬s.softChanges hottest := fun h => h.elim hon hoff
      rw [if_neg hoff, if_neg hquiet, ← hcounted]
      refine SlabSurveyed.congr (r := fun _ => []) (slabSurveyed_of_quiet s.ports rfl (fun p => posts_of_ports rfl p) rfl rfl rfl rfl) rfl
        (fun p => (if_neg fun h : s.softChanges hottest ∧ p = .portP => hquiet h.1).symm) hquiet

/-! ### A survey, by the mode -/

/-- With fewer than 12 usable cells the slab is blind (R31). -/
theorem surveySlab_blind {s : State} (h : s.slabValues.length < 12) :
    s.surveySlab = { s with surface := { s.surface with slabBlind := true } } := by
  rw [← slabCells_length] at h
  exact if_pos h

/-- The surface controller after a survey. -/
def State.surveyedSurface (s : State) (x : SlabStats) : Surface :=
  let surveyed := { s.surface with slabBlind := false, stats := some x }
  if s.surface.mode = .prep then
    { surveyed with
      inBand := s.inBandRun x.mean
      ready := if s.becomesReady x.mean then true else if s.inBandNow x.mean then s.surface.ready else false }
  else if s.surface.mode = .play then
    (if s.softChanges x.max then { surveyed with softIce := !s.surface.softIce, aboveRun := 0, belowRun := 0 }
     else { surveyed with aboveRun := s.aboveNow x.max, belowRun := s.belowNow x.max })
  else surveyed

/-- The records of a survey. -/
def State.surveyRecords (s : State) (x : SlabStats) (p : Port) : List Record :=
  if s.surface.mode = .prep then (if s.becomesReady x.mean ∧ p ≠ .portL then [⟨.prepReady, 0, x.mean, s.deviceSeconds⟩] else [])
  else if s.surface.mode = .play then
    (if s.softChanges x.max ∧ p = .portP then [⟨.softIce, 0, if s.surface.softIce then 0 else 1, s.deviceSeconds⟩] else [])
  else []

theorem surveySlab_surveyed {s : State} (h : ¬s.slabValues.length < 12) :
    SlabSurveyed s s.surveySlab (s.surveyedSurface (slabStats s.slabCells)) (s.surveyRecords (slabStats s.slabCells))
      (s.surface.mode = .play ∧ s.softChanges (slabStats s.slabCells).max) := by
  rw [← slabCells_length] at h
  unfold State.surveySlab
  dsimp only
  rw [if_neg h]
  generalize slabStats s.slabCells = x
  have hjudged : ∀ {t : State} {q : Surface} {records : Port → List Record} {changes : Prop},
      SlabSurveyed { s with surface := { s.surface with slabBlind := false, stats := some x } } t q records changes →
        SlabSurveyed s t q records changes := fun k =>
    ⟨k.surface, k.posted, k.frame.trans rfl, k.changed, fun he => k.evaluated he⟩
  split
  · next hmode =>
    have hplay : ¬s.surface.mode = .play := by rw [hmode]; decide
    exact (hjudged (judgeReady_surveyed _ x.mean)).congr (if_pos hmode).symm (fun p => (if_pos hmode).symm) fun h => hplay h.1
  · next hmode =>
    have hprep : ¬s.surface.mode = .prep := by rw [hmode]; decide
    exact (hjudged (judgeSoftIce_surveyed _ x.max)).congr ((if_neg hprep).trans (if_pos hmode)).symm
      (fun p => ((if_neg hprep).trans (if_pos hmode)).symm) And.right
  · next hprep hplay =>
    refine SlabSurveyed.congr (r := fun _ => []) (slabSurveyed_of_quiet s.ports rfl (fun p => posts_of_ports rfl p) rfl rfl rfl rfl)
      ((if_neg hprep).trans (if_neg hplay)).symm (fun p => ((if_neg hprep).trans (if_neg hplay)).symm) fun h => hplay (And.left h)

/-- Whatever it finds, a survey leaves the other blocks, posts ordinary records, and keeps an evaluation's figures those of the state. -/
structure SurveyKept (s t : State) : Prop where
  frame : t = { s with surface := t.surface, governor := t.governor, channels := t.channels, slots := t.slots, store := t.store
                       ports := t.ports }
  posted : PostedOnly RecordKind.ordinary s t
  evaluated : s.evaluated → s.governor.lastEval = some .ordinary → t.evaluated ∧ t.governor.lastEval = some .ordinary

theorem surveyRecords_ordinary (s : State) (x : SlabStats) (p : Port) : ∀ r ∈ s.surveyRecords x p, r.kind.ordinary := by
  unfold State.surveyRecords
  intro r hr
  split at hr
  · split at hr
    · rw [List.mem_singleton.1 hr]
      rfl
    · cases hr
  · split at hr
    · split at hr
      · rw [List.mem_singleton.1 hr]
        rfl
      · cases hr
    · cases hr

theorem surveySlab_kept (s : State) : SurveyKept s s.surveySlab := by
  by_cases hblind : s.slabValues.length < 12
  · rw [surveySlab_blind hblind]
    exact ⟨rfl, .of_ports rfl, fun he hlast => ⟨he, hlast⟩⟩
  · obtain ⟨-, ⟨u, hposts, hposted⟩, hframe, -, hkept⟩ := surveySlab_surveyed hblind
    refine ⟨hframe, .trans (b := u) (fun p => ⟨_, surveyRecords_ordinary s _ p, hposts p⟩)
      (hposted.mono fun k hk => ordinary_of_evaluation hk), hkept⟩

end Sys2Proof.Machine
end

