-- ==== Sys2Proof/Proofs/FogPassEnd.lean ====
section
/-! PROOFS. A pass end outside long calibration, and the fog cycle that it brings (R3, R39 to R55). -/

namespace Sys2Proof.Machine

/-! ### The pass end -/

/-- The state that the blocks see at the pass end: channel 31 converted, the pass counted, every record published. -/
def State.passed (s : State) (raw : Int) : State :=
  let r := (s.probe 31).temperature s.scanner.offset (limitedRaw 31 raw)
  { s with scanner := { s.scanner with
      channel := 0
      passNumber := s.scanner.passNumber + 1
      probes := mapAll Probe.published (s.setProbe 31 r).scanner.probes } }

theorem convert_pass {s : State} (hcal : s.scanner.longCal = false) (hc : s.scanner.channel = 31) (raw : Int) :
    s.convert raw = (s.passed raw).fogCycle.surveySlab := by
  have hconverted : s.convertChannel s.scanner.channel (limitedRaw s.scanner.channel raw) =
      s.setProbe 31 ((s.probe 31).temperature s.scanner.offset (limitedRaw 31 raw)) := by
    have href : ¬(31 : Fin 32) = probeRef := by decide
    have hhumid : ¬(31 : Fin 32) = probeH0 := by decide
    simp only [State.convertChannel, hc, if_neg href, hcal, if_neg hhumid, Bool.false_eq_true, if_false]
  rw [convert_eq s raw (by rw [hconverted]; rfl), hconverted]
  generalize hr : (s.probe 31).temperature s.scanner.offset (limitedRaw 31 raw) = r
  have hlong : (s.setProbe 31 r).scanner.longCal = false := hcal
  have hchannel : (s.setProbe 31 r).scanner.channel = 31 := hc
  unfold State.scanOn State.passEnd
  dsimp only
  rw [if_pos hchannel, if_neg (by rw [hlong]; decide), hchannel, ← hr]
  rfl

theorem published_of_scanner {s t : State} (h : t.scanner = s.scanner) : t.published = s.published := by
  funext i
  unfold State.published
  rw [h]

/-! ### The dew point and the margins of a cycle (R39, R42) -/

/-- The dew point record of usable A0 and H0. -/
def freshDew (published : Fin 32 → Option Int) : Option DewRecord :=
  match published probeA0, published probeH0 with
  | some a0, some h0 => some (dewPoint a0 h0)
  | _, _ => none

/-- The margin of a probe over a fresh dew point. -/
def gapOver (published : Fin 32 → Option Int) (i : Fin 32) : Option Int :=
  match freshDew published, published i with
  | some d, some x => some (x - d.td)
  | _, _ => none

/-- The smaller of the two margins that are present. -/
def marginOver (published : Fin 32 → Option Int) : Option Int :=
  match gapOver published probeA1, gapOver published probeD0 with
  | some layer, some roof => some (min layer roof)
  | some layer, none => some layer
  | none, roof => roof

theorem dewStage_eq (s : State) : s.dewStage =
    if freshDew s.published = none then s.fog.dew.map (fun d => { d with fresh := false }) else freshDew s.published := by
  unfold State.dewStage freshDew
  cases s.published probeA0 <;> cases s.published probeH0 <;> simp

theorem surfaceMargin_eq (s : State) (i : Fin 32) : surfaceMargin s.dewStage (s.published i) = gapOver s.published i := by
  unfold surfaceMargin State.dewStage gapOver freshDew
  cases s.published probeA0 <;> cases s.published probeH0 <;> cases s.fog.dew <;> cases s.published i <;> simp [dewPoint]

theorem smallerMargin_eq (s : State) :
    smallerMargin (gapOver s.published probeA1) (gapOver s.published probeD0) = marginOver s.published := by
  unfold smallerMargin marginOver
  cases gapOver s.published probeA1 <;> cases gapOver s.published probeD0 <;> rfl

/-- The fog unit after the first two stages. -/
theorem measureFog_fog (s : State) : s.measureFog.fog = { s.fog with
    dew := if freshDew s.published = none then s.fog.dew.map (fun d => { d with fresh := false }) else freshDew s.published
    layer := gapOver s.published probeA1
    roof := gapOver s.published probeD0
    margin := marginOver s.published
    watchEff := if s.surface.mode = .resurface then min 150 (s.building.watchIn + s.building.resurfBias) else s.building.watchIn
    actEff := if s.surface.mode = .resurface then min 150 (s.building.actIn + s.building.resurfBias) else s.building.actIn
    severeEff := if s.surface.mode = .resurface then min 150 (s.building.severeIn + s.building.resurfBias) else s.building.severeIn } := by
  rw [← smallerMargin_eq, ← surfaceMargin_eq, ← surfaceMargin_eq, ← dewStage_eq]
  rfl

/-- The cycle's fog unit, field by field: the state entered, and what follows from the acting state. -/
theorem fogAfter_eq (s : State) :
    let f := s.measureFog.fog.entered (s.measureFog.fog.next s.building.h)
    let b := s.building
    let acting : FogState := if f.state ≠ .blind then f.state else if f.holdTimer = none then .act else f.held.getD .act
    let acute := acting = .act ∨ acting = .severe
    let turnsOn := f.backup = false ∧ b.backupEnable = true ∧ acute ∧ (f.zeroRun = 3 ∨ s.pool.loopFail = true)
    let turnsOff := f.backup = true ∧ (b.backupEnable = false ∨ ¬acute ∨ f.adequateRun = 3)
    s.fogAfter = { f with
      request := match acting with
        | .clear => 0
        | .watch => b.regenWatch
        | .severe => b.regenMax
        | _ => b.regenAct
      fanStage := match acting with
        | .clear => 0
        | .watch => 1
        | _ => 2
      backup := (if turnsOn then true else if turnsOff then false else f.backup)
      adequateRun := (if turnsOn then 0 else f.adequateRun)
      wheel := if turnsOn then true else if turnsOff then decide (0 < f.lastGrant) else f.wheel } := by
  intro f b acting acute turnsOn turnsOff
  have hacting : f.acting = acting := acting_eq f
  have hafter : s.fogAfter = ({ f with request := b.regen f.acting, fanStage := fanStageOf f.acting } : Fog).judged
    f.acting b.backupEnable s.pool.loopFail := rfl
  rw [hacting, judged_eq, regen_eq, fanStageOf_eq] at hafter
  exact hafter

/-! ### The records of a cycle -/

theorem stepped_ne_blind {f : Fog} (hs : f.state ≠ .blind) (h : Nat) (m : Int) : f.stepped h m ≠ .blind := by
  rw [stepped_eq]
  split
  · next k => exact (down_ne hs k.2.1).2.1
  · exact hs

/-- Only for want of a margin does a cycle enter BLIND. -/
theorem margin_of_next_blind {f : Fog} {h : Nat} (hs : f.state ≠ .blind) (hn : f.next h = .blind) : f.margin = none := by
  cases hm : f.margin with
  | none => rfl
  | some m =>
    unfold Fog.next at hn
    rw [hm] at hn
    dsimp only at hn
    split at hn
    · exact absurd hn (target_ne_blind f m)
    · exact absurd hn (stepped_ne_blind hs h m)

/-- Entering BLIND posts FOG_BLIND to B. -/
theorem fogRecords_of_blind {s : State} (hs : s.fog.state ≠ .blind) (hn : s.fog.next s.building.h = .blind) :
    s.fogRecords .portB = [⟨.fogBlind, s.fog.state.code, s.blindCause, s.deviceSeconds⟩] := by
  unfold State.fogRecords
  rw [margin_of_next_blind hs hn]
  exact if_pos ⟨hs, rfl⟩

theorem turned_iff (on off : Prop) [Decidable on] [Decidable off] (b : Bool) :
    (if on then true else if off then false else b) = true ↔ on ∨ (b = true ∧ ¬off) := by
  by_cases hon : on
  · simp [hon]
  · by_cases hoff : off
    · simp [hon, hoff]
    · simp [hon, hoff]

/-- Settles O17. -/
theorem fogCycleFollowsTheMargin : Obligations.FogCycleFollowsTheMargin := by
  refine ⟨dewPoint_laws, fun raw s hcal hc => ⟨_, congrArg Host.Outcome.next (convert_pass hcal hc raw), ?_⟩⟩
  have hsurvey := surveySlab_kept (s.passed raw).fogCycle
  by_cases hidle : s.surface.mode = .start ∨ s.surface.buildingValid = false
  · have hcycle : (s.passed raw).fogCycle =
        { s.passed raw with fog := { (s.passed raw).fog with request := 0, fanStage := 0 } } :=
      if_pos (by rw [Bool.or_eq_true, decide_eq_true_eq, Bool.not_eq_true']; exact hidle)
    rw [if_pos hidle]
    rw [hcycle] at hsurvey ⊢
    generalize State.surveySlab _ = t at hsurvey
    have hfog : t.fog = { s.fog with request := 0, fanStage := 0 } := (congrArg State.fog hsurvey.frame :)
    exact ⟨hfog, by rw [State.fan1, hfog]; rfl, by rw [State.fan2, hfog]; rfl⟩
  · have hmode : (s.passed raw).surface.mode ≠ .start := fun h => hidle (.inl h)
    have hvalid : (s.passed raw).surface.buildingValid = true := by
      by_contra h
      exact hidle (.inr (Bool.eq_false_of_not_eq_true h))
    have hcycled := fogCycle_cycled hmode hvalid
    generalize (s.passed raw).fogCycle = c at hcycled hsurvey
    generalize c.surveySlab = t at hsurvey
    rw [if_neg hidle]
    have hscanner : t.scanner = (s.passed raw).scanner := (congrArg State.scanner hsurvey.frame :).trans hcycled.scanner
    have hpublished := published_of_scanner hscanner
    have hfog : t.fog = (s.passed raw).fogAfter := (congrArg State.fog hsurvey.frame :).trans hcycled.fog
    obtain ⟨w, hposts, hposted⟩ := hcycled.posted
    have htells : ∀ p, s.tells t p ((s.passed raw).measureFog.fogRecords p) := fun p =>
      tells_then_ordinary (tells_of_posts (hposts p)) ((hposted.mono fun k hk => ordinary_of_evaluation hk).trans hsurvey.posted)
    rw [fogAfter_eq, measureFog_fog, ← hpublished] at hfog
    intro f b fresh gap margin effective target worse steps next held hold acting acute turnsOn turnsOff
    have hnext : (s.passed raw).measureFog.fog.next b.h = next := by
      rw [measureFog_fog, ← hpublished]
      rfl
    have hstage : t.fog.fanStage = fanStageOf acting := (congrArg Fog.fanStage hfog).trans (fanStageOf_eq acting).symm
    have hbackup : t.fog.backup = if turnsOn then true else if turnsOff then false else f.backup := congrArg Fog.backup hfog
    refine ⟨hfog, ?_, ?_, ?_, rfl, fun hchanged => ?_, fun hn hs => ?_, fun m hm hn hs p hp => ?_⟩
    · rw [State.fan1, hstage, decide_eq_true_eq]
      exact fanStageOf_pos acting
    · rw [State.fan2, hstage, decide_eq_true_eq]
      exact fanStageOf_two acting
    · rw [State.eregen, hbackup]
      exact turned_iff ..
    · have hchanges : (s.passed raw).fogChanges := by
        rw [State.fogChanges]
        exact fun h => hchanged (hnext.symm.trans h)
      obtain ⟨hev, hlast⟩ := hcycled.evaluated hchanges
      exact (hsurvey.evaluated hev hlast).symm
    · have hrecords := htells .portB
      rw [fogRecords_of_blind (s := (s.passed raw).measureFog) hs (hnext.trans hn)] at hrecords
      have hcause : (s.passed raw).measureFog.blindCause = if t.published probeA0 = none ∨ t.published probeH0 = none then 0 else 1 := by
        rw [hpublished]
        rfl
      rw [hcause] at hrecords
      exact hrecords
    · have hmargin : (s.passed raw).measureFog.fog.margin = some m := by
        rw [measureFog_fog, ← hpublished]
        exact hm
      have hrecords := htells p
      rw [fogRecords_of_some hmargin, if_pos ⟨hnext.trans hn, hs, hp⟩] at hrecords
      exact hrecords

end Sys2Proof.Machine
end

