-- ==== Sys2Proof/Proofs/PassEndSurvey.lean ====
section
/-! PROOFS. A pass end publishes every record and surveys the slab (R3, R31 to R33). -/

namespace Sys2Proof.Machine

/-! ### Records of other kinds -/

/-- Ordinary records of other kinds leave those of a kind as they stand. -/
theorem filter_foldl_enqueue {kind : RecordKind} (rs : List Record) (q : PortState)
    (hrs : ∀ r ∈ rs, r.mustCollect = false ∧ r.kind ≠ kind) :
    (rs.foldl PortState.enqueue q).queue.filter (fun x => x.kind == kind) = q.queue.filter fun x => x.kind == kind := by
  induction rs generalizing q with
  | nil => rfl
  | cons r rs ih =>
    obtain ⟨⟨hordinary, hkind⟩, hrest⟩ := List.forall_mem_cons.1 hrs
    rw [List.foldl_cons, ih _ hrest]
    unfold PortState.enqueue
    split
    · simp [List.filter_append, hkind]
    · simp [hordinary]

theorem PostedOnly.filter_kept {K : RecordKind → Prop} {s t : State} (h : PostedOnly K s t) (hordinary : ∀ k, K k → k.ordinary)
    {kind : RecordKind} (hk : ¬K kind) (p : Port) :
    (t.port p).queue.filter (fun x => x.kind == kind) = (s.port p).queue.filter fun x => x.kind == kind := by
  obtain ⟨rs, hrs, hp⟩ := h p
  rw [hp]
  exact filter_foldl_enqueue rs _ fun r hr => ⟨hordinary _ (hrs r hr), fun he => hk (he ▸ hrs r hr)⟩

/-! ### The fog cycle of a pass end, as the survey finds it -/

/-- The kinds that a fog cycle may post. -/
def RecordKind.ofFogCycle (k : RecordKind) : Prop := k.ofEvaluation ∨ k = .fogBlind ∨ k = .fogSevere

theorem ordinary_of_fogCycle (k : RecordKind) (h : k.ofFogCycle) : k.ordinary := by
  rcases h with h | rfl | rfl
  · exact ordinary_of_evaluation h
  · rfl
  · rfl

/-- What a survey that follows a fog cycle may rely on. -/
structure FogPassed (s t : State) : Prop where
  frame : t = { s with fog := t.fog, governor := t.governor, channels := t.channels, slots := t.slots, store := t.store, ports := t.ports }
  posted : PostedOnly RecordKind.ofFogCycle s t
  room : s.governor.queue = [] → ∀ p, p ≠ .portL → ∃ rs : List Record, rs.length ≤ 1 ∧ s.posts t p rs

theorem fogCycle_passed (s : State) : FogPassed s s.fogCycle := by
  by_cases hidle : s.surface.mode = .start ∨ s.surface.buildingValid = false
  · have hcycle : s.fogCycle = { s with fog := { s.fog with request := 0, fanStage := 0 } } :=
      if_pos (by rw [Bool.or_eq_true, decide_eq_true_eq, Bool.not_eq_true']; exact hidle)
    rw [hcycle]
    exact ⟨rfl, .of_ports rfl, fun _ p _ => ⟨[], Nat.zero_le _, posts_of_ports rfl p⟩⟩
  · have hvalid : s.surface.buildingValid = true := by
      by_contra h
      exact hidle (.inr (Bool.eq_false_of_not_eq_true h))
    have hcycled := fogCycle_cycled (fun h => hidle (.inl h)) hvalid
    obtain ⟨u, hposts, hposted⟩ := hcycled.posted
    exact ⟨hcycled.frame, .trans (b := u) (fun p => ⟨_, fun r hr => .inr (fogRecords_kind _ p r hr), hposts p⟩)
      (hposted.mono fun k hk => .inl hk), hcycled.room⟩

/-! ### The published records -/

theorem probe_setProbe (s : State) (i j : Fin 32) (r : Probe) : (s.setProbe i r).probe j = if j = i then r else s.probe j :=
  pick_put ..

theorem probe_passed (s : State) (raw : Int) (i : Fin 32) : (s.passed raw).probe i =
    ((s.setProbe 31 ((s.probe 31).temperature s.scanner.offset (limitedRaw 31 raw))).probe i).published := by
  unfold State.passed State.probe
  exact pick_mapAll ..

theorem probe_of_scanner {s t : State} (h : t.scanner = s.scanner) (i : Fin 32) : t.probe i = s.probe i := by
  unfold State.probe
  rw [h]

/-! ### The survey's records, by kind -/

section
variable {s : State} (x : SlabStats) (p : Port)

theorem surveyRecords_ready (hprep : s.surface.mode = .prep) (h : s.becomesReady x.mean ∧ p ≠ .portL) :
    s.surveyRecords x p = [⟨.prepReady, 0, x.mean, s.deviceSeconds⟩] := (if_pos hprep).trans (if_pos h)

theorem surveyRecords_soft (hplay : s.surface.mode = .play) (h : s.softChanges x.max ∧ p = .portP) :
    s.surveyRecords x p = [⟨.softIce, 0, if s.surface.softIce then 0 else 1, s.deviceSeconds⟩] :=
  (if_neg (by rw [hplay]; decide)).trans ((if_pos hplay).trans (if_pos h))

theorem surveyRecords_none (hready : ¬(s.surface.mode = .prep ∧ s.becomesReady x.mean ∧ p ≠ .portL))
    (hsoft : ¬(s.surface.mode = .play ∧ s.softChanges x.max ∧ p = .portP)) : s.surveyRecords x p = [] := by
  unfold State.surveyRecords
  by_cases hprep : s.surface.mode = .prep
  · exact (if_pos hprep).trans (if_neg fun h => hready ⟨hprep, h⟩)
  · refine (if_neg hprep).trans ?_
    by_cases hplay : s.surface.mode = .play
    · exact (if_pos hplay).trans (if_neg fun h => hsoft ⟨hplay, h⟩)
    · exact if_neg hplay

end

/-- The survey's records: PREP_READY, or SOFT_ICE, or none. -/
theorem surveyRecords_cases (s : State) (x : SlabStats) (p : Port) :
    (s.surface.mode = .prep ∧ s.becomesReady x.mean ∧ p ≠ .portL) ∧ s.surveyRecords x p = [⟨.prepReady, 0, x.mean, s.deviceSeconds⟩] ∨
    (s.surface.mode = .play ∧ s.softChanges x.max ∧ p = .portP) ∧
      s.surveyRecords x p = [⟨.softIce, 0, if s.surface.softIce then 0 else 1, s.deviceSeconds⟩] ∨
    ¬(s.surface.mode = .prep ∧ s.becomesReady x.mean ∧ p ≠ .portL) ∧
      ¬(s.surface.mode = .play ∧ s.softChanges x.max ∧ p = .portP) ∧ s.surveyRecords x p = [] := by
  by_cases hready : s.surface.mode = .prep ∧ s.becomesReady x.mean ∧ p ≠ .portL
  · exact .inl ⟨hready, surveyRecords_ready x p hready.1 hready.2⟩
  · by_cases hsoft : s.surface.mode = .play ∧ s.softChanges x.max ∧ p = .portP
    · exact .inr (.inl ⟨hsoft, surveyRecords_soft x p hsoft.1 hsoft.2⟩)
    · exact .inr (.inr ⟨hready, hsoft, surveyRecords_none x p hready hsoft⟩)

theorem prep_not_play {s : State} (h : s.surface.mode = .prep) : ¬s.surface.mode = .play := by
  rw [h]
  decide

theorem filter_surveyRecords_prepReady (s : State) (x : SlabStats) (p : Port) :
    (s.surveyRecords x p).filter (fun r => r.kind == .prepReady) =
      if s.surface.mode = .prep ∧ s.becomesReady x.mean ∧ p ≠ .portL then [⟨.prepReady, 0, x.mean, s.deviceSeconds⟩] else [] := by
  rcases surveyRecords_cases s x p with ⟨h, hr⟩ | ⟨h, hr⟩ | ⟨h, -, hr⟩
  · rw [hr, if_pos h]
    rfl
  · rw [hr]
    exact (if_neg fun k : s.surface.mode = .prep ∧ _ => prep_not_play k.1 h.1).symm
  · rw [hr, if_neg h]
    rfl

theorem filter_surveyRecords_softIce (s : State) (x : SlabStats) (p : Port) :
    (s.surveyRecords x p).filter (fun r => r.kind == .softIce) =
      if s.surface.mode = .play ∧ s.softChanges x.max ∧ p = .portP then
        [⟨.softIce, 0, if s.surface.softIce then 0 else 1, s.deviceSeconds⟩] else [] := by
  rcases surveyRecords_cases s x p with ⟨h, hr⟩ | ⟨h, hr⟩ | ⟨-, h, hr⟩
  · rw [hr]
    exact (if_neg fun k : s.surface.mode = .play ∧ _ => prep_not_play h.1 k.1).symm
  · rw [hr]
    exact (if_pos h).symm
  · rw [hr]
    exact (if_neg h).symm

/-- A survey posts at most one record to a port, and none to L. -/
theorem surveyRecords_length (s : State) (x : SlabStats) (p : Port) : (s.surveyRecords x p).length ≤ if p = .portL then 0 else 1 := by
  rcases surveyRecords_cases s x p with ⟨h, hr⟩ | ⟨h, hr⟩ | ⟨-, -, hr⟩
  · rw [hr, if_neg h.2.2]
    exact le_rfl
  · rw [hr, h.2.2]
    exact le_rfl
  · rw [hr]
    exact Nat.zero_le _

/-- With room left by the fog cycle, the survey's records of a kind stand behind those of before. -/
theorem filter_after_survey {s c u t : State} {p : Port} {kind : RecordKind} {rs : List Record} (hc : FogPassed s c)
    (hposts : c.posts u p rs) (hposted : PostedOnly RecordKind.ofEvaluation u t) (hrs : rs.length ≤ if p = .portL then 0 else 1)
    (hkind : ¬kind.ofFogCycle) (hqueue : s.governor.queue = []) (hroom : (s.port p).queue.length ≤ 6) :
    (t.port p).queue.filter (fun x => x.kind == kind) =
      (s.port p).queue.filter (fun x => x.kind == kind) ++ rs.filter fun x => x.kind == kind := by
  have hcu : (u.port p).queue = (c.port p).queue ++ rs := by
    rw [State.posts] at hposts
    rw [hposts]
    by_cases hp : p = .portL
    · rw [if_pos hp] at hrs
      rw [List.length_eq_zero_iff.1 (Nat.le_zero.1 hrs)]
      simp
    · rw [if_neg hp] at hrs
      obtain ⟨before, hlen, hbefore⟩ := hc.room hqueue p hp
      rw [State.posts] at hbefore
      rw [hbefore, foldl_enqueue_of_room rs, foldl_enqueue_of_room before _ (by omega)]
      rw [foldl_enqueue_of_room before _ (by omega), List.length_append]
      omega
  rw [hposted.filter_kept (fun k hk => ordinary_of_evaluation hk) (fun h => hkind (.inl h)) p, hcu, List.filter_append,
    hc.posted.filter_kept ordinary_of_fogCycle hkind p]

/-- Settles O7. -/
theorem passEndPublishesEveryRecord : Obligations.PassEndPublishesEveryRecord := by
  intro raw s hcal hc
  refine ⟨_, congrArg Host.Outcome.next (convert_pass hcal hc raw), ?_⟩
  have hfogPassed := fogCycle_passed (s.passed raw)
  generalize (s.passed raw).fogCycle = c at hfogPassed
  have hkept := surveySlab_kept c
  have hblind := @surveySlab_blind c
  have hsurveyed := @surveySlab_surveyed c
  generalize c.surveySlab = t at hkept hblind hsurveyed
  have hframe := hfogPassed.frame
  have hscanner : c.scanner = (s.passed raw).scanner := (congrArg State.scanner hframe :)
  have hscanner' : t.scanner = (s.passed raw).scanner := (congrArg State.scanner hkept.frame :).trans hscanner
  have hprobe := probe_of_scanner hscanner'
  have hvalues : c.slabValues = t.slabValues := by
    unfold State.slabValues
    rw [published_of_scanner (hscanner.trans hscanner'.symm)]
  rw [hvalues] at hblind hsurveyed
  refine ⟨fun i => ?_, fun i hi => ?_, ?_, ?_, ?_⟩
  · rw [hprobe, probe_passed]
    exact ⟨rfl, rfl⟩
  · rw [hprobe, probe_passed, probe_setProbe, if_neg hi]
    rfl
  · rw [hscanner']
    rfl
  · intro cell values q added
    by_cases hfew : values.length < 12
    · rw [if_pos hfew, hblind hfew, hframe]
      rfl
    · rw [if_neg hfew]
      obtain ⟨hsurface, ⟨u, hposts, hposted⟩, -, hchanged, -⟩ := hsurveyed hfew
      have hcells : c.slabCells.map Prod.snd = values := (slabCells_values c).trans hvalues
      have hne : c.slabCells ≠ [] := by
        intro h
        rw [h] at hcells
        rw [← hcells] at hfew
        exact hfew (by decide)
      have hmean := slabStats_mean hne
      have hmin := slabStats_min hne
      have hmax := slabStats_max hne
      have hcell := slabStats_maxCell hne
      have hn := slabStats_n c.slabCells
      rw [hcells] at hmean hmin hmax hn
      rw [published_of_scanner (hscanner.trans hscanner'.symm)] at hcell
      generalize slabStats c.slabCells = x at *
      have hafter : ∀ (k : RecordKind) (p : Port), ¬k.ofFogCycle → added k p ((c.surveyRecords x p).filter fun r => r.kind == k) :=
        fun k p hk hqueue hroom =>
          filter_after_survey (s := s.passed raw) hfogPassed (hposts p) hposted (surveyRecords_length c x p) hk hqueue hroom
      have hready : ¬RecordKind.prepReady.ofFogCycle := by simp [RecordKind.ofFogCycle, RecordKind.ofEvaluation]
      have hsoft : ¬RecordKind.softIce.ofFogCycle := by simp [RecordKind.ofFogCycle, RecordKind.ofEvaluation]
      have hafterReady := fun p => hafter .prepReady p hready
      have hafterSoft := fun p => hafter .softIce p hsoft
      simp only [filter_surveyRecords_prepReady] at hafterReady
      simp only [filter_surveyRecords_softIce] at hafterSoft
      have hsurface' : t.surface = s.surveyedSurface x := by
        rw [hsurface, hframe]
        rfl
      refine ⟨x, hn, hmean.1, hmean.2, hmin.1, hmax.1, fun v hv => ⟨hmin.2 v hv, hmax.2 v hv⟩, hcell, ?_⟩
      intro inBand run becomesReady above below changes surveyed
      refine ⟨hsurface', fun p => ?_, fun p => ?_, fun hplay hch => ?_⟩
      · have h := hafterReady p
        rw [hframe] at h
        exact h
      · have h := hafterSoft p
        rw [hframe] at h
        exact h
      · rw [hframe] at hchanged
        exact (hchanged ⟨hplay, hch⟩).symm
  · rw [hkept.frame, hframe]
    rfl

end Sys2Proof.Machine
end

