-- ==== Sys2Proof/Proofs/TickedZones.lean ====
section
/-! PROOFS. The zones and the loop monitor at a device second tick (R74 to R76, R86 to R88). -/

namespace Sys2Proof.Machine

/-! ### One zone -/

/-- The loop carries a zone: LOOP_FAIL is clear, and W0 is usable and at or above the zone's minimum supply. -/
abbrev State.carriesNow (s : State) (z : Fin 4) : Prop :=
  s.pool.loopFail = false ∧ (s.published probeW0).any (fun w => decide ((pick s.building.zones z).minSupply ≤ w)) = true

theorem loopCarries_iff (s : State) (z : Fin 4) : s.loopCarries z = true ↔ s.carriesNow z := by
  unfold State.loopCarries State.zoneProfile State.carriesNow
  cases s.published probeW0 <;> simp

/-- A zone one device second later. -/
def State.tickedZone (s : State) (z : Fin 4) (zn : Zone) : Zone :=
  match zn.switch with
  | .steady => zn
  | .provingLoop run =>
    if ¬s.carriesNow z then { zn with switch := .provingLoop 0 }
    else if run < 29 then { zn with switch := .provingLoop (run + 1) }
    else { zn with source := .recovered, switch := .steady, port := none, fallback := false, surplus := 0 }
  | .provingBoiler left =>
    if 1 < left then { zn with switch := .provingBoiler (left - 1) }
    else { zn with switch := .steady, port := none
                   starved := if zn.source = .recovered ∧ zn.port = none then 0 else zn.starved }

/-- The zone's proving of the loop ends with this tick. -/
def State.provesNow (s : State) (z : Fin 4) (zn : Zone) : Bool :=
  match zn.switch with
  | .provingLoop run => decide (s.carriesNow z ∧ 29 ≤ run)
  | _ => false

/-- The zone's proving of the boiler ends with this tick, without success. -/
def Zone.failsNow (zn : Zone) : Bool :=
  match zn.switch with
  | .provingBoiler left => decide (left ≤ 1)
  | _ => false

/-- A record about a zone goes to B and to the port that asked for the switch. -/
def hearsOf (p : Port) (asked : Option Port) : Bool := p == .portB || asked == some p

/-- The records of a zone's tick at a port. -/
def State.tickRecords (s : State) (p : Port) (z : Fin 4) (zn : Zone) : List Record :=
  (if (s.provesNow z zn && hearsOf p zn.port) = true then [⟨.sourceSwitched, z.val, 1, s.deviceSeconds⟩] else []) ++
  (if (zn.failsNow && hearsOf p zn.port) = true then [⟨.switchTimeout, z.val, zn.source.code, s.deviceSeconds⟩] else [])

theorem hearsOf_iff (p : Port) (asked : Option Port) : hearsOf p asked = true ↔ p = .portB ∨ asked = some p := by simp [hearsOf]

/-- What a zone's tick does: its own record, and the ports. -/
structure ZoneTicked (s t : State) (z : Fin 4) : Prop where
  zone : ∀ y, t.zone y = if y = z then s.tickedZone z (s.zone z) else s.zone y
  posts : ∀ p, s.posts t p (s.tickRecords p z (s.zone z))
  frame : ZonesOnly s t

theorem zoneTicked_of_setZone {s : State} {z : Fin 4} {x : Zone} (hx : s.tickedZone z (s.zone z) = x)
    (hprove : s.provesNow z (s.zone z) = false) (hfail : (s.zone z).failsNow = false) : ZoneTicked s (s.setZone z x) z where
  zone y := by
    rw [hx]
    exact pick_put ..
  posts p := by
    rw [State.tickRecords, hprove, hfail]
    exact posts_of_ports rfl p
  frame := zones_setZone s z x

/-- A zone's tick. -/
theorem tickZone_ticked (s : State) (z : Fin 4) : ZoneTicked s (s.tickZone z) z := by
  unfold State.tickZone
  dsimp only
  cases hsw : (s.zone z).switch with
  | steady =>
    have hsame : s.tickedZone z (s.zone z) = s.zone z := by
      unfold State.tickedZone
      rw [hsw]
    have hprove : s.provesNow z (s.zone z) = false := by unfold State.provesNow; rw [hsw]
    have hfail : (s.zone z).failsNow = false := by unfold Zone.failsNow; rw [hsw]
    dsimp only
    refine ⟨fun y => ?_, fun p => ?_, .refl s⟩
    · rw [hsame]
      split
      · next h => rw [h]
      · rfl
    · rw [State.tickRecords, hprove, hfail]
      exact posts_refl s p
  | provingLoop run =>
    have hticked : s.tickedZone z (s.zone z) =
        if ¬s.carriesNow z then { s.zone z with switch := .provingLoop 0 }
        else if run < 29 then { s.zone z with switch := .provingLoop (run + 1) }
        else { s.zone z with source := .recovered, switch := .steady, port := none, fallback := false, surplus := 0 } := by
      unfold State.tickedZone
      rw [hsw]
    have hprove : s.provesNow z (s.zone z) = decide (s.carriesNow z ∧ 29 ≤ run) := by unfold State.provesNow; rw [hsw]
    have hfail : (s.zone z).failsNow = false := by unfold Zone.failsNow; rw [hsw]
    dsimp only
    by_cases hcarries : s.carriesNow z
    · have hnext : s.nextLoopRun z run = min 30 (run + 1) := if_pos ((loopCarries_iff s z).2 hcarries)
      rw [if_neg (fun h => h hcarries)] at hticked
      rw [hnext]
      by_cases hrun : run < 29
      · rw [if_pos hrun] at hticked
        rw [if_neg (by omega), show min 30 (run + 1) = run + 1 by omega]
        exact zoneTicked_of_setZone hticked (by rw [hprove]; exact decide_eq_false fun h => by omega) hfail
      · rw [if_neg hrun] at hticked
        rw [if_pos (by omega)]
        generalize hcounted : s.setZone z { s.zone z with switch := .provingLoop (min 30 (run + 1)) } = counted
        have hzone : ∀ y, counted.zone y = if y = z then { s.zone z with switch := .provingLoop (min 30 (run + 1)) } else s.zone y :=
          fun y => by rw [← hcounted]; exact pick_put ..
        have hself := hzone z
        rw [if_pos rfl] at hself
        have hcomplete := completeSwitch_loop counted z (by rw [hself])
        rw [hself] at hcomplete
        have hports : counted.ports = s.ports := by rw [← hcounted]; rfl
        have hseconds : counted.deviceSeconds = s.deviceSeconds := by rw [← hcounted]; rfl
        refine ⟨fun y => ?_, fun p => ?_, ?_⟩
        · rw [hcomplete, zone_postZone, hticked]
          refine (pick_put ..).trans ?_
          by_cases hy : y = z
          · rw [if_pos hy, if_pos hy]
            rfl
          · rw [if_neg hy, if_neg hy]
            exact (hzone y).trans (if_neg hy)
        · have hposts := posts_postZone (counted.setZone z
            { ({ s.zone z with switch := .provingLoop (min 30 (run + 1)) } : Zone).steadied with
              source := .recovered, fallback := false, surplus := 0 }) (s.zone z).port .sourceSwitched z .recovered p
          have hrecords : s.tickRecords p z (s.zone z) = if p = .portB ∨ (s.zone z).port = some p then
              [⟨.sourceSwitched, z.val, 1, s.deviceSeconds⟩] else [] := by
            have hnow : s.provesNow z (s.zone z) = true := hprove.trans (decide_eq_true ⟨hcarries, by omega⟩)
            simp only [State.tickRecords, hnow, hfail, Bool.true_and, Bool.false_and, hearsOf_iff, Bool.false_eq_true, if_false,
              List.append_nil]
          rw [hcomplete, hrecords, ← hseconds]
          exact posts_after (by exact hports) hposts
        · rw [← hcounted]
          exact (zones_setZone s z _).trans (zones_completeSwitch _ z)
    · have hnext : s.nextLoopRun z run = 0 := if_neg fun h => hcarries ((loopCarries_iff s z).1 h)
      rw [if_pos hcarries] at hticked
      rw [hnext, if_neg (by decide)]
      exact zoneTicked_of_setZone hticked (by rw [hprove]; exact decide_eq_false fun h => hcarries h.1) hfail
  | provingBoiler left =>
    have hticked : s.tickedZone z (s.zone z) =
        if 1 < left then { s.zone z with switch := .provingBoiler (left - 1) }
        else { s.zone z with
          switch := .steady, port := none
          starved := if (s.zone z).source = .recovered ∧ (s.zone z).port = none then 0 else (s.zone z).starved } := by
      unfold State.tickedZone
      rw [hsw]
    have hprove : s.provesNow z (s.zone z) = false := by unfold State.provesNow; rw [hsw]
    have hfail : (s.zone z).failsNow = decide (left ≤ 1) := by unfold Zone.failsNow; rw [hsw]
    dsimp only
    by_cases hleft : left ≤ 1
    · rw [if_neg (by omega)] at hticked
      rw [if_pos hleft]
      have hback : (s.zone z).fallingBack = true ↔ (s.zone z).source = .recovered ∧ (s.zone z).port = none := by
        simp [Zone.fallingBack]
      unfold State.switchTimeout
      dsimp only
      refine ⟨fun y => ?_, fun p => ?_, ?_⟩
      · rw [hticked]
        refine (pick_put ..).trans ?_
        by_cases hy : y = z
        · rw [if_pos hy, if_pos hy]
          simp only [hback]
          rfl
        · rw [if_neg hy, if_neg hy]
          exact zone_postZone ..
      · have hposts := posts_postZone s (s.zone z).port .switchTimeout z (s.zone z).source p
        have hrecords : s.tickRecords p z (s.zone z) = if p = .portB ∨ (s.zone z).port = some p then
            [⟨.switchTimeout, z.val, (s.zone z).source.code, s.deviceSeconds⟩] else [] := by
          have hnow : (s.zone z).failsNow = true := hfail.trans (decide_eq_true hleft)
          simp only [State.tickRecords, hnow, hprove, Bool.true_and, Bool.false_and, hearsOf_iff, Bool.false_eq_true, if_false,
            List.nil_append]
        rw [hrecords]
        exact posts_then hposts rfl
      · exact (zones_postZone s _ _ z _).trans (zones_setZone _ z _)
    · rw [if_pos (by omega)] at hticked
      rw [if_neg hleft]
      exact zoneTicked_of_setZone hticked hprove (by rw [hfail]; exact decide_eq_false hleft)

/-! ### Every zone -/

theorem tickedZone_of_zonesOnly {s t : State} (h : ZonesOnly s t) : t.tickedZone = s.tickedZone := by
  rw [h]
  rfl

theorem tickRecords_of_zonesOnly {s t : State} (h : ZonesOnly s t) : t.tickRecords = s.tickRecords := by
  rw [h]
  rfl

theorem zones_tickZones (s : State) : ZonesOnly s s.tickZones := zones_foldl _ (fun t z => (tickZone_ticked t z).frame) all4 s

theorem zone_tickZones (s : State) (z : Fin 4) : s.tickZones.zone z = s.tickedZone z (s.zone z) := by
  have hall : z ∈ all4 := by fin_cases z <;> decide
  refine (get_foldl State.tickZone State.zone (ZonesOnly s) (fun t x h => h.trans (tickZone_ticked t x).frame)
    (fun t x y _ hne => ((tickZone_ticked t x).zone y).trans (if_neg hne)) s.tickedZone (fun t x h => ?_) all4 nodup_all4 s
    (.refl s) z).trans (if_pos hall)
  rw [(tickZone_ticked t x).zone, if_pos rfl, tickedZone_of_zonesOnly h]

theorem posts_tickZones (s : State) (p : Port) :
    s.posts s.tickZones p (all4.flatMap fun z => s.tickRecords p z (s.zone z)) :=
  posts_foldl_of_apart State.tickZone State.zone (ZonesOnly s) (fun t x h => h.trans (tickZone_ticked t x).frame)
    (fun t x y _ hne => ((tickZone_ticked t x).zone y).trans (if_neg hne)) p (s.tickRecords p)
    (fun t x h => by rw [← tickRecords_of_zonesOnly h]; exact (tickZone_ticked t x).posts p) all4 nodup_all4 s (.refl s)

/-! ### The loop monitor -/

/-- The runs after one more count with LOOP_FAIL clear. -/
abbrev State.unusableNext (s : State) : Nat := if s.published probeW0 = none then min 10 (s.pool.unusableRun + 1) else 0

/-- W0 is usable and at or above a limit. -/
abbrev State.supplyAtLeast (s : State) (limit : Int) : Bool := (s.published probeW0).any fun w => decide (limit ≤ w)

abbrev State.lowNext (s : State) : Nat :=
  if s.published probeW0 ≠ none ∧ s.supplyAtLeast s.building.loopFailThreshold = false then min 10 (s.pool.lowRun + 1) else 0

/-- The restore run after one more count with LOOP_FAIL set. -/
abbrev State.restoreNext (s : State) : Nat :=
  if s.supplyAtLeast (s.building.loopFailThreshold + 30) = true then min 30 (s.pool.restoreRun + 1) else 0

/-- The tick's count sets LOOP_FAIL. -/
abbrev State.setsNow (s : State) : Prop :=
  s.surface.mode ≠ .start ∧ s.pool.loopFail = false ∧ (s.unusableNext = 10 ∨ s.lowNext = 10)

/-- The tick's count clears it. -/
abbrev State.restoresNow (s : State) : Prop := s.surface.mode ≠ .start ∧ s.pool.loopFail = true ∧ s.restoreNext = 30

theorem countLoopRuns_eq (s : State) :
    s.countLoopRuns = { s with pool := { s.pool with unusableRun := s.unusableNext, lowRun := s.lowNext } } := by
  unfold State.countLoopRuns State.unusableNext State.lowNext State.supplyAtLeast
  cases s.published probeW0 with
  | none => simp [countTo]
  | some w =>
    by_cases hw : w < s.building.loopFailThreshold
    · simp [countTo, hw]
    · simp [hw]

theorem countRestoreRun_eq (s : State) : s.countRestoreRun = { s with pool := { s.pool with restoreRun := s.restoreNext } } := by
  unfold State.countRestoreRun State.restoreNext State.supplyAtLeast
  cases s.published probeW0 <;> simp [countTo]

/-- The records of the monitor at a port. -/
def State.monitorRecords (s : State) (p : Port) : List Record :=
  if s.setsNow then
    (if p ≠ .portL then [⟨.loopFail, if s.unusableNext = 10 then 0 else 1, s.loopSupply, s.deviceSeconds⟩] else []) ++
      all4.flatMap fun z => failOverRecords s.boilerProven s.deviceSeconds p z (s.zone z)
  else if s.restoresNow then (if p = .portL then [] else [⟨.loopRestored, 0, s.loopSupply, s.deviceSeconds⟩])
  else []

/-- What the monitor's tick does. -/
structure Monitored (s t : State) : Prop where
  zone : ∀ z, t.zone z = if s.setsNow then (s.zone z).failedOver s.boilerProven else s.zone z
  pool : t.pool =
    if s.surface.mode = .start then s.pool
    else if s.restoresNow then { s.pool with loopFail := false, restoreRun := 0 }
    else if s.pool.loopFail = true then { s.pool with restoreRun := s.restoreNext }
    else if s.setsNow then { s.pool with loopFail := true, unusableRun := 0, lowRun := 0, restoreRun := 0 }
    else { s.pool with unusableRun := s.unusableNext, lowRun := s.lowNext }
  fog : t.fog =
    if s.setsNow then s.fog.judged s.fog.acting s.building.backupEnable true
    else if s.restoresNow then s.fog.judged s.fog.acting s.building.backupEnable false
    else s.fog
  posts : ∀ p, s.posts t p (s.monitorRecords p)
  frame : t = { s with pool := t.pool, zones := t.zones, fog := t.fog, ports := t.ports }

theorem tickMonitor_monitored (s : State) : Monitored s s.tickMonitor := by
  unfold State.tickMonitor
  by_cases hmode : s.surface.mode = .start
  · have hsets : ¬s.setsNow := fun h => h.1 hmode
    have hrestores : ¬s.restoresNow := fun h => h.1 hmode
    rw [if_pos hmode]
    refine ⟨fun z => (if_neg hsets).symm, (if_pos hmode).symm, ((if_neg hsets).trans (if_neg hrestores)).symm, fun p => ?_, rfl⟩
    rw [State.monitorRecords, if_neg hsets, if_neg hrestores]
    exact posts_refl s p
  · rw [if_neg hmode]
    cases hl : s.pool.loopFail with
    | true =>
      have hsets : ¬s.setsNow := fun h => absurd (hl.symm.trans h.2.1) (by decide)
      have hcount : s.countMonitor = { s with pool := { s.pool with restoreRun := s.restoreNext } } :=
        (if_pos hl).trans (countRestoreRun_eq s)
      have hsettle : s.countMonitor.settleMonitor = if s.restoreNext = 30 then s.countMonitor.clearLoopFail else s.countMonitor := by
        rw [hcount]
        exact if_pos hl
      rw [hsettle, hcount]
      by_cases hrestore : s.restoreNext = 30
      · have hrestores : s.restoresNow := ⟨hmode, hl, hrestore⟩
        rw [if_pos hrestore, clearLoopFail_runs]
        have hframe := clearLoopFail_frame s
        refine ⟨fun z => ?_, ?_, ?_, fun p => ?_, ?_⟩
        · rw [if_neg hsets, hframe]
          rfl
        · rw [if_neg hmode, if_pos hrestores, hframe]
        · rw [if_neg hsets, if_pos hrestores, hframe]
        · rw [State.monitorRecords, if_neg hsets, if_pos hrestores]
          exact posts_clearLoopFail s p
        · rw [hframe]
      · have hrestores : ¬s.restoresNow := fun h => hrestore h.2.2
        rw [if_neg hrestore]
        refine ⟨fun z => (if_neg hsets).symm, ?_, ((if_neg hsets).trans (if_neg hrestores)).symm, fun p => ?_, rfl⟩
        · rw [if_neg hmode, if_neg hrestores, if_pos hl]
        · rw [State.monitorRecords, if_neg hsets, if_neg hrestores]
          exact posts_of_ports rfl p
    | false =>
      have hrestores : ¬s.restoresNow := fun h => absurd (hl.symm.trans h.2.1) (by decide)
      have hflag : ¬s.pool.loopFail = true := by rw [hl]; decide
      have hcount : s.countMonitor = { s with pool := { s.pool with unusableRun := s.unusableNext, lowRun := s.lowNext } } :=
        (if_neg hflag).trans (countLoopRuns_eq s)
      have hsettle : s.countMonitor.settleMonitor =
          match s.countMonitor.pool.failureDue with
          | some cause => s.countMonitor.setLoopFail cause
          | none => s.countMonitor := by
        rw [hcount]
        exact if_neg hflag
      have hdue : s.countMonitor.pool.failureDue =
          if s.unusableNext = 10 then some .unusable else if s.lowNext = 10 then some .low else none := by
        rw [hcount]
        rfl
      have hset : ∀ cause : LoopCause, s.setsNow → cause.code = (if s.unusableNext = 10 then 0 else 1) →
          Monitored s (s.setLoopFail cause) := fun cause hsets hcode => by
        have hframe := setLoopFail_frame s cause
        refine ⟨fun z => ?_, ?_, ?_, fun p => ?_, ?_⟩
        · rw [if_pos hsets]
          exact setLoopFail_zone s cause z
        · rw [if_neg hmode, if_neg hrestores, if_neg hflag, if_pos hsets, hframe]
        · rw [if_pos hsets, hframe]
        · rw [State.monitorRecords, if_pos hsets, ← hcode]
          exact posts_setLoopFail s cause p
        · rw [hframe]
      rw [hsettle, hdue]
      by_cases hunusable : s.unusableNext = 10
      · rw [if_pos hunusable, hcount]
        exact hset .unusable ⟨hmode, hl, .inl hunusable⟩ (if_pos hunusable).symm
      · rw [if_neg hunusable]
        by_cases hlow : s.lowNext = 10
        · rw [if_pos hlow, hcount]
          exact hset .low ⟨hmode, hl, .inr hlow⟩ (if_neg hunusable).symm
        · have hsets : ¬s.setsNow := fun h => h.2.2.elim hunusable hlow
          rw [if_neg hlow, hcount]
          refine ⟨fun z => (if_neg hsets).symm, ?_, ((if_neg hsets).trans (if_neg hrestores)).symm, fun p => ?_, rfl⟩
          · rw [if_neg hmode, if_neg hrestores, if_neg hflag, if_neg hsets]
          · rw [State.monitorRecords, if_neg hsets, if_neg hrestores]
            exact posts_of_ports rfl p

end Sys2Proof.Machine
end

