-- ==== Sys2Proof/Proofs/DeviceSecond.lean ====
section
/-! PROOFS. The device second tick (R14, R17, R22, R29, R37, R49, R168). -/

namespace Sys2Proof.Machine

/-! ### Overrides -/

/-- An override one second later. -/
def Override.tick (o : Override) : Option Override :=
  if o.remaining = 0 then some o else if o.remaining = 1 then none else some { o with remaining := o.remaining - 1 }

theorem tickOverride_eq (r : Probe) : r.tickOverride = { r with override := r.override.bind Override.tick } := by
  unfold Probe.tickOverride Override.tick
  obtain ⟨value, quality, spikeRun, override, pubValue, pubQuality⟩ := r
  cases override with
  | none => rfl
  | some o =>
    dsimp only [Option.bind_some]
    split
    · rfl
    · split <;> rfl

/-- The surface controller's counts and the overrides, with the device seconds one on. -/
def State.secondCounted (s : State) : State := ({ s with deviceSeconds := s.deviceSeconds + 1 } : State).tickOverrides.countSurface

theorem probe_secondCounted (s : State) (i : Fin 32) :
    s.secondCounted.probe i = { s.probe i with override := (s.probe i).override.bind Override.tick } :=
  (pick_mapAll ..).trans (tickOverride_eq _)

theorem published_secondCounted (s : State) : s.secondCounted.published = s.published := by
  funext i
  have h := probe_secondCounted s i
  unfold State.published
  have hp : pick s.secondCounted.scanner.probes i = s.secondCounted.probe i := rfl
  rw [hp, h]
  rfl

/-! ### The report and the resurface timer -/

/-- PLANT_STALE sets at this count (R29). -/
abbrev State.staleNow (s : State) : Prop := s.surface.mode ≠ .start ∧ 30 < s.surface.reportAge ∧ s.surface.plantStale = false

/-- The records of PLANT_STALE at a port. -/
def State.staleRecords (s : State) (p : Port) : List Record :=
  if s.staleNow ∧ p ≠ .portL then [⟨.plantStale, 0, (min 32767 s.surface.reportAge : Nat), s.deviceSeconds⟩] else []

structure StaleJudged (s t : State) : Prop where
  surface : t.surface = { s.surface with plantStale := s.surface.plantStale || decide s.staleNow }
  frame : t = { s with surface := t.surface, ports := t.ports }
  posts : ∀ p, s.posts t p (s.staleRecords p)

theorem judgeStale_judged (s : State) : StaleJudged s s.judgeStale := by
  unfold State.judgeStale
  by_cases h : s.staleNow
  · rw [if_pos h]
    generalize hset : ({ s with surface := { s.surface with plantStale := true } } : State) = set
    have hframe := postAll_frame set [.portP, .portB] .plantStale 0 (min 32767 s.surface.reportAge : Nat)
    refine ⟨?_, ?_, fun p => ?_⟩
    · rw [hframe, ← hset, decide_eq_true h, Bool.or_true]
    · rw [hframe, ← hset]
    · have hposts := posts_postAll [.portP, .portB] (by decide) set .plantStale 0 (min 32767 s.surface.reportAge : Nat) p
      have hseconds : set.deviceSeconds = s.deviceSeconds := by rw [← hset]
      have hmem : p ∈ [Port.portP, Port.portB] ↔ s.staleNow ∧ p ≠ .portL :=
        (show p ∈ [Port.portP, Port.portB] ↔ p ≠ .portL by cases p <;> decide).trans ⟨fun k => ⟨h, k⟩, And.right⟩
      simp only [hmem, hseconds] at hposts
      exact posts_after (by rw [← hset]) hposts
  · rw [if_neg h]
    refine ⟨?_, rfl, fun p => ?_⟩
    · rw [decide_eq_false h, Bool.or_false]
    · rw [State.staleRecords, if_neg fun k => h k.1]
      exact posts_refl s p

/-- The resurface timer ends with this tick (R22). -/
abbrev State.playsNow (s : State) : Prop :=
  s.surface.mode = .resurface ∧ (s.surface.resurfaceTimer = some 0 ∨ s.surface.resurfaceTimer = some 1)

/-- The return to PLAY as a tick finds it. -/
structure ReturnedToPlay (s t : State) : Prop where
  surface : t.surface = { s.surface with mode := .play, dwell := 0, resurfaceTimer := none, aboveRun := 0, belowRun := 0 }
  pool : t.pool = { s.pool with preheat := false }
  evaluated : t.evaluated ∧ t.governor.lastEval = some .ordinary
  posted : ∃ u : State, (∀ p, s.posts u p [⟨.surfaceChanged, 4, 3 + 256, s.deviceSeconds⟩]) ∧ PostedOnly RecordKind.ofEvaluation u t
  frame : t = { s with surface := t.surface, pool := t.pool, governor := t.governor, channels := t.channels, slots := t.slots
                       store := t.store, ports := t.ports }

/-- PLAY allows every class. -/
theorem forbidden_play (s : State) : s.forbidden .play = [] := by
  unfold State.forbidden
  refine List.filter_eq_nil_iff.2 fun n _ => ?_
  have hany : (s.slot n).cls.any (fun c => !Mode.play.allows c) = false := by
    cases (s.slot n).cls with
    | none => rfl
    | some c => cases c <;> rfl
  simp [hany]

theorem transition_returns {s : State} (hmode : s.surface.mode = .resurface) : ReturnedToPlay s (s.transition .play .auto) := by
  obtain ⟨hsurface, hpool, hended, hframe⟩ := transition_ends (s := s) (new := .play) .auto (by rw [hmode]; decide)
  have hleaves := leaves_announce (s.crossed .play .auto) s.surface.mode
  have hposts := fun p => posts_then ((crosses s .play .auto).records p) hleaves.ports
  have hrecords : ∀ p, s.transitionRecords .play Cause.auto.code p = [⟨.surfaceChanged, 4, 3 + 256, s.deviceSeconds⟩] := fun p => by
    unfold State.transitionRecords
    rw [forbidden_play, hmode]
    simp [Mode.code, Cause.code]
  refine ⟨hsurface.trans ?_, hpool.trans ?_, ⟨hended.evaluated, ?_⟩, ⟨_, fun p => ?_, postedOnly_evaluate _⟩, hframe⟩
  · simp [State.crossedSurface, hmode]
  · rw [hmode]
    rfl
  · rw [transition_eq]
    exact evaluate_lastEval _
  · rw [← hrecords p]
    exact hposts p

theorem tickResurface_plays {s : State} (h : s.playsNow) : s.tickResurface = s.transition .play .auto := by
  unfold State.tickResurface
  obtain ⟨hmode, htimer | htimer⟩ := h
  · rw [htimer]
    exact (if_neg (not_not.2 hmode)).trans (if_pos (by decide))
  · rw [htimer]
    exact (if_neg (not_not.2 hmode)).trans (if_pos (by decide))

theorem tickResurface_runs {s : State} (h : ¬s.playsNow) : s.tickResurface = { s with surface := { s.surface with
    resurfaceTimer := if s.surface.mode = .resurface then s.surface.resurfaceTimer.map (fun n => n - 1) else s.surface.resurfaceTimer } } := by
  unfold State.tickResurface
  cases htimer : s.surface.resurfaceTimer with
  | none =>
    have hsame : (if s.surface.mode = .resurface then (none : Option Nat).map (fun n => n - 1) else none) = s.surface.resurfaceTimer := by
      rw [htimer]
      split <;> rfl
    rw [hsame]
  | some n =>
    dsimp only
    by_cases hmode : s.surface.mode = .resurface
    · have hn : ¬n ≤ 1 := fun hn => h ⟨hmode, by rw [htimer]; simp only [Option.some.injEq]; omega⟩
      rw [if_neg (not_not.2 hmode), if_neg hn, if_pos hmode]
      rfl
    · rw [if_pos hmode, if_neg hmode, ← htimer]

/-! ### The fog unit -/

/-- The fog unit as the end of the BLIND hold leaves it (R49). -/
def State.holdEnded (s : State) : Fog :=
  let acting := if s.fog.state = .blind then FogState.act else s.fog.state
  ({ s.fog with
    held := none, holdTimer := none, request := s.building.regen acting, fanStage := fanStageOf acting } : Fog).judged
      acting s.building.backupEnable s.pool.loopFail

theorem endBlindHold_fog (s : State) : s.endBlindHold = { s with fog := s.holdEnded } := by
  have hacting : ({ s.fog with held := none, holdTimer := none } : Fog).acting = if s.fog.state = .blind then .act else s.fog.state := by
    rw [acting_eq]
    by_cases hs : s.fog.state = .blind
    · rw [if_pos hs]
      exact (if_neg (not_not.2 hs)).trans (if_pos rfl)
    · rw [if_neg hs]
      exact if_pos hs
  have hact := actOnFog_fog { s with fog := { s.fog with held := none, holdTimer := none } }
  have hframe : s.endBlindHold = { s with fog := s.endBlindHold.fog } := rfl
  rw [hframe]
  refine congrArg (fun f => { s with fog := f }) (hact.trans ?_)
  rw [hacting]
  rfl

/-- The fog unit with its hold timer counted, by what an end of the hold makes of it. -/
def State.holdTicked (s : State) (ended : Fog) : Fog :=
  if s.surface.mode = .start then s.fog
  else if s.fog.holdTimer = some 0 ∨ s.fog.holdTimer = some 1 then ended
  else { s.fog with holdTimer := s.fog.holdTimer.map (fun n => n - 1) }

theorem tickBlindHold_eq (s : State) : s.tickBlindHold = { s with fog := s.holdTicked s.holdEnded } := by
  unfold State.tickBlindHold State.holdTicked
  cases htimer : s.fog.holdTimer with
  | none =>
    have hsame : ({ s.fog with holdTimer := (none : Option Nat).map (fun n => n - 1) } : Fog) = s.fog := by
      rw [Option.map_none, ← htimer]
    rw [if_neg (show ¬((none : Option Nat) = some 0 ∨ (none : Option Nat) = some 1) by simp), hsame, ite_self]
  | some n =>
    dsimp only
    by_cases hmode : s.surface.mode = .start
    · rw [if_pos hmode, if_pos hmode]
    · rw [if_neg hmode, if_neg hmode]
      by_cases hn : n ≤ 1
      · rw [if_pos hn, if_pos (by simp only [Option.some.injEq]; omega)]
        exact endBlindHold_fog s
      · rw [if_neg hn, if_neg (by simp only [Option.some.injEq]; omega)]
        rfl

/-- The acting state once nothing is held. -/
abbrev Fog.actingUnheld (f : Fog) : FogState := if f.state = .blind then FogState.act else f.state

/-- The fog unit at a device second, by the request and the fan stage of the acting state. -/
def State.fogTicked (s : State) (request fanStage : Nat) : Fog :=
  let counted := { s.fog with dwell := min 65535 (s.fog.dwell + 1) }
  if s.surface.mode = .start then counted
  else if s.fog.holdTimer = some 0 ∨ s.fog.holdTimer = some 1 then
    ({ counted with held := none, holdTimer := none, request := request, fanStage := fanStage } : Fog).judged
      s.fog.actingUnheld s.building.backupEnable s.pool.loopFail
  else { counted with holdTimer := s.fog.holdTimer.map (fun n => n - 1) }

theorem fogTick_eq (s : State) : s.countFogDwell.tickBlindHold =
    { s with fog := s.fogTicked (s.building.regen s.fog.actingUnheld) (fanStageOf s.fog.actingUnheld) } := by
  rw [tickBlindHold_eq]
  rfl

/-! ### The tick as a whole -/

/-- The tick up to the zones. -/
def State.secondBegun (s : State) : State := s.secondCounted.judgeStale.tickResurface.countFogDwell.tickBlindHold

theorem deviceTick_eq (s : State) : s.deviceTick = s.secondBegun.tickZones.tickMonitor := rfl

/-- The surface controller with its counts, and PLANT_STALE judged. -/
def State.surfaceAged (s : State) : Surface := { s.surface with
  dwell := min 65535 (s.surface.dwell + 1)
  reportAge := min 65535 (s.surface.reportAge + 1)
  plantStale := s.surface.plantStale || decide (s.surface.plantStale = false ∧ s.surface.mode ≠ .start ∧ 29 < s.surface.reportAge) }

/-- The records of PLANT_STALE that a tick posts. -/
def State.staleAt (s : State) (p : Port) : List Record :=
  if (s.surface.plantStale = false ∧ s.surface.mode ≠ .start ∧ 29 < s.surface.reportAge) ∧ p ≠ .portL then
    [⟨.plantStale, 0, (min 32767 (s.surface.reportAge + 1) : Nat), s.deviceSeconds + 1⟩] else []

/-- The tick after the report's age is judged. -/
structure Aged (s t : State) : Prop where
  surface : t.surface = s.surfaceAged
  posts : ∀ p, s.posts t p (s.staleAt p)
  frame : t = { s.secondCounted with surface := t.surface, ports := t.ports }

theorem judgeStale_aged (s : State) : Aged s s.secondCounted.judgeStale := by
  obtain ⟨hsurface, hframe, hposts⟩ := judgeStale_judged s.secondCounted
  have hstale : s.secondCounted.staleNow ↔ s.surface.plantStale = false ∧ s.surface.mode ≠ .start ∧ 29 < s.surface.reportAge := by
    have hage : s.secondCounted.surface.reportAge = min 65535 (s.surface.reportAge + 1) := rfl
    have hlimit : 30 < min 65535 (s.surface.reportAge + 1) ↔ 29 < s.surface.reportAge := by omega
    rw [State.staleNow, hage, hlimit]
    exact ⟨fun ⟨hm, ha, hs⟩ => ⟨hs, hm, ha⟩, fun ⟨hs, hm, ha⟩ => ⟨hm, ha, hs⟩⟩
  refine ⟨?_, fun p => ?_, hframe⟩
  · rw [hsurface, decide_eq_decide.2 hstale]
    rfl
  · have hrecords : s.secondCounted.staleRecords p = s.staleAt p := by
      have hvalue : min 32767 s.secondCounted.surface.reportAge = min 32767 (s.surface.reportAge + 1) := by
        have hage : s.secondCounted.surface.reportAge = min 65535 (s.surface.reportAge + 1) := rfl
        omega
      rw [State.staleRecords, State.staleAt, hvalue]
      simp only [hstale]
      rfl
    rw [← hrecords]
    exact posts_after rfl (hposts p)

/-- The tick up to the zones, as it leaves the blocks before them. -/
structure Begun (s t : State) : Prop where
  surface : t.surface =
    if s.playsNow then { s.surfaceAged with mode := .play, dwell := 0, resurfaceTimer := none, aboveRun := 0, belowRun := 0 }
    else { s.surfaceAged with
      resurfaceTimer := if s.surface.mode = .resurface then s.surface.resurfaceTimer.map (fun n => n - 1) else s.surface.resurfaceTimer }
  pool : t.pool = { s.pool with preheat := s.pool.preheat && (t.surface.mode == s.surface.mode) }
  fog : t.fog = s.fogTicked (s.building.regen s.fog.actingUnheld) (fanStageOf s.fog.actingUnheld)
  evaluated : s.playsNow → t.evaluated ∧ t.governor.lastEval = some .ordinary
  kept : ¬s.playsNow → t.governor = s.governor ∧ t.channels = s.channels ∧ t.slots = s.slots ∧ t.store = s.store
  frame : t = { s.secondCounted with
    surface := t.surface, fog := t.fog, pool := t.pool, governor := t.governor, channels := t.channels, slots := t.slots
    store := t.store, ports := t.ports }
  posts : ¬s.playsNow → ∀ p, s.posts t p (s.staleAt p)
  posted : s.playsNow → ∃ u : State, (∀ p, s.posts u p (s.staleAt p ++ [⟨.surfaceChanged, 4, 3 + 256, s.deviceSeconds + 1⟩])) ∧
    PostedOnly RecordKind.ofEvaluation u t

theorem judged_state (f : Fog) (acting : FogState) (enable loopFail : Bool) : (f.judged acting enable loopFail).state = f.state := by
  rw [judged_eq]

theorem fogTicked_state (s : State) (request fanStage : Nat) : (s.fogTicked request fanStage).state = s.fog.state := by
  unfold State.fogTicked
  dsimp only
  split
  · rfl
  · split
    · rw [judged_state]
    · rfl

/-- An evaluation's figures do not depend on more of the fog unit than its state. -/
theorem evaluated_of_fogState {s : State} {fog : Fog} (pool : Pool) (zones : Vector Zone 4) (ports : Ports)
    (hfog : fog.state = s.fog.state) (h : s.evaluated) :
    ({ s with fog := fog, pool := pool, zones := zones, ports := ports } : State).evaluated := by
  obtain ⟨scanner, surface, plant, building, held⟩ := s
  obtain ⟨state⟩ := held
  obtain ⟨state'⟩ := fog
  cases hfog
  exact h

theorem secondBegun_begun (s : State) : Begun s s.secondBegun := by
  obtain ⟨hsurface, hposts, hframe⟩ := judgeStale_aged s
  unfold State.secondBegun
  generalize s.secondCounted.judgeStale = c at hsurface hposts hframe
  have hmode : c.surface.mode = s.surface.mode := by rw [hsurface]; rfl
  have htimer : c.surface.resurfaceTimer = s.surface.resurfaceTimer := by rw [hsurface]; rfl
  have hplays : c.playsNow ↔ s.playsNow := by rw [State.playsNow, hmode, htimer]
  rw [fogTick_eq]
  by_cases hp : s.playsNow
  · rw [tickResurface_plays (hplays.2 hp)]
    obtain ⟨hs, hpool, ⟨hev, hlast⟩, ⟨u, hu, hposted⟩, hr⟩ := transition_returns (s := c) (hmode.trans hp.1)
    generalize c.transition .play .auto = r at hs hpool hev hlast hposted hr
    have hfog : r.fog = s.fog := by rw [hr, hframe]; rfl
    have hbuilding : r.building = s.building := by rw [hr, hframe]; rfl
    have hticked : r.fogTicked (r.building.regen r.fog.actingUnheld) (fanStageOf r.fog.actingUnheld) =
        s.fogTicked (s.building.regen s.fog.actingUnheld) (fanStageOf s.fog.actingUnheld) := by
      have hstart : ¬r.surface.mode = .start := by rw [hs]; simp
      have hstart' : ¬s.surface.mode = .start := by rw [hp.1]; decide
      have hloop : r.pool.loopFail = s.pool.loopFail := by rw [hpool, hframe]; rfl
      unfold State.fogTicked
      dsimp only
      rw [if_neg hstart, if_neg hstart', hfog, hbuilding, hloop]
    rw [hticked]
    refine ⟨?_, ?_, rfl, fun _ => ⟨?_, hlast⟩, fun h => absurd hp h, ?_, fun h => absurd hp h, fun _ => ⟨u, fun p => ?_, hposted⟩⟩
    · rw [if_pos hp]
      exact hs.trans (by rw [hsurface])
    · have hnot : (Mode.play == s.surface.mode) = false := by rw [hp.1]; rfl
      have hplay : r.surface.mode = .play := by rw [hs]
      refine hpool.trans ?_
      dsimp only
      rw [hplay, hnot, Bool.and_false, hframe]
      rfl
    · exact evaluated_of_fogState r.pool r.zones r.ports ((fogTicked_state ..).trans (by rw [hfog])) hev
    · rw [hr, hframe]
    · have hseconds : c.deviceSeconds = s.deviceSeconds + 1 := by rw [hframe]; rfl
      have h := hu p
      rw [hseconds] at h
      exact posts_trans (hposts p) h
  · rw [tickResurface_runs fun h => hp (hplays.1 h)]
    have hfog : c.fog = s.fog := by rw [hframe]; rfl
    have hbuilding : c.building = s.building := by rw [hframe]; rfl
    have hloop : c.pool = s.pool := by rw [hframe]; rfl
    generalize hr : ({ c with surface := _ } : State) = r
    have hticked : r.fogTicked (r.building.regen r.fog.actingUnheld) (fanStageOf r.fog.actingUnheld) =
        s.fogTicked (s.building.regen s.fog.actingUnheld) (fanStageOf s.fog.actingUnheld) := by
      unfold State.fogTicked
      rw [← hr]
      dsimp only
      rw [hmode, hfog, hbuilding, hloop]
    rw [hticked, ← hr]
    refine ⟨?_, ?_, rfl, fun h => absurd h hp, fun _ => ?_, ?_, fun _ p => ?_, fun h => absurd h hp⟩
    · rw [if_neg hp]
      dsimp only
      rw [hsurface]
      rfl
    · dsimp only
      rw [hmode, beq_self_eq_true, Bool.and_true, hloop]
    · rw [hframe]
      exact ⟨rfl, rfl, rfl, rfl⟩
    · dsimp only
      rw [hframe]
    · exact posts_then (hposts p) rfl

end Sys2Proof.Machine
end

