-- ==== Sys2Proof/Proofs/DeviceSecondTick.lean ====
section
/-! PROOFS. The device second tick, whole: its blocks and its records by kind. -/

namespace Sys2Proof.Machine

/-! ### What the tick up to the zones leaves of what they read -/

/-- A zone one device second later, from the state before the tick. -/
abbrev State.zoneNext (s : State) (z : Fin 4) : Zone := s.tickedZone z (s.zone z)

/-- What the zones and the monitor read of the state is as it was before the tick. -/
structure SameReadings (s t : State) : Prop where
  published : t.published = s.published
  loopFail  : t.pool.loopFail = s.pool.loopFail
  runs      : t.pool.unusableRun = s.pool.unusableRun ∧ t.pool.lowRun = s.pool.lowRun ∧ t.pool.restoreRun = s.pool.restoreRun
  building  : t.building = s.building
  started   : t.surface.mode = .start ↔ s.surface.mode = .start
  proven    : t.boilerProven = s.boilerProven
  supply    : t.loopSupply = (s.probe probeW0).pubValue
  seconds   : t.deviceSeconds = s.deviceSeconds + 1

theorem loopSupply_secondCounted (s : State) : s.secondCounted.loopSupply = (s.probe probeW0).pubValue := by
  have h : s.secondCounted.loopSupply = (s.secondCounted.probe probeW0).pubValue := rfl
  rw [h, probe_secondCounted]

theorem sameReadings_begun (s : State) : SameReadings s s.secondBegun := by
  have h := secondBegun_begun s
  have hframe := h.frame
  have hpool := h.pool
  have hsurface := h.surface
  generalize s.secondBegun = t at hframe hpool hsurface
  refine ⟨?_, by rw [hpool], by rw [hpool]; exact ⟨rfl, rfl, rfl⟩, by rw [hframe]; rfl, ?_, by rw [hframe]; rfl, ?_, by rw [hframe]; rfl⟩
  · exact (published_of_scanner (congrArg State.scanner hframe :)).trans (published_secondCounted s)
  · rw [hsurface]
    split
    · next hp => simp [hp.1]
    · rfl
  · rw [← loopSupply_secondCounted, hframe]
    rfl

section
variable {s t : State} (h : SameReadings s t)
include h

theorem SameReadings.zonesOnly {u : State} (k : ZonesOnly t u) : SameReadings s u := by
  obtain ⟨hpub, hloop, hruns, hbuilding, hstart, hproven, hsupply, hseconds⟩ := h
  have hscanner : u.scanner = t.scanner := by rw [k]
  refine ⟨(published_of_scanner hscanner).trans hpub, by rw [k]; exact hloop, by rw [k]; exact hruns, by rw [k]; exact hbuilding,
    by rw [k]; exact hstart, by rw [k]; exact hproven, ?_, by rw [k]; exact hseconds⟩
  rw [← hsupply, k]
  rfl

theorem SameReadings.carriesNow (z : Fin 4) : t.carriesNow z ↔ s.carriesNow z := by
  rw [State.carriesNow, State.carriesNow, h.loopFail, h.published, h.building]

theorem SameReadings.tickedZone (z : Fin 4) (zn : Zone) : t.tickedZone z zn = s.tickedZone z zn := by
  unfold State.tickedZone
  simp only [h.carriesNow]

theorem SameReadings.provesNow (z : Fin 4) (zn : Zone) : t.provesNow z zn = s.provesNow z zn := by
  unfold State.provesNow
  simp only [h.carriesNow]

theorem SameReadings.unusableNext : t.unusableNext = s.unusableNext := by
  rw [State.unusableNext, State.unusableNext, h.published, h.runs.1]

theorem SameReadings.lowNext : t.lowNext = s.lowNext := by
  rw [State.lowNext, State.lowNext, State.supplyAtLeast, State.supplyAtLeast, h.published, h.runs.2.1, h.building]

theorem SameReadings.restoreNext : t.restoreNext = s.restoreNext := by
  rw [State.restoreNext, State.restoreNext, State.supplyAtLeast, State.supplyAtLeast, h.published, h.runs.2.2, h.building]

theorem SameReadings.setsNow : t.setsNow ↔ s.setsNow := by
  rw [State.setsNow, State.setsNow, h.unusableNext, h.lowNext, h.loopFail, Ne, Ne, h.started]

theorem SameReadings.restoresNow : t.restoresNow ↔ s.restoresNow := by
  rw [State.restoresNow, State.restoresNow, h.restoreNext, h.loopFail, Ne, Ne, h.started]

end

/-! ### The records of the zones and the monitor -/

/-- The records of the zones' provings at a port. -/
def State.provingsAt (s : State) (p : Port) : List Record := all4.flatMap fun z =>
  (if (s.provesNow z (s.zone z) && hearsOf p (s.zone z).port) = true then [⟨.sourceSwitched, z.val, 1, s.deviceSeconds + 1⟩] else []) ++
  (if ((s.zone z).failsNow && hearsOf p (s.zone z).port) = true then
    [⟨.switchTimeout, z.val, (s.zone z).source.code, s.deviceSeconds + 1⟩] else [])

/-- The records of the monitor at a port. -/
def State.monitorAt (s : State) (p : Port) : List Record :=
  if s.setsNow then
    (if p ≠ .portL then [⟨.loopFail, if s.unusableNext = 10 then 0 else 1, (s.probe probeW0).pubValue, s.deviceSeconds + 1⟩] else []) ++
      all4.flatMap fun z => failOverRecords s.boilerProven (s.deviceSeconds + 1) p z (s.zoneNext z)
  else if s.restoresNow then (if p = .portL then [] else [⟨.loopRestored, 0, (s.probe probeW0).pubValue, s.deviceSeconds + 1⟩])
  else []

/-- The tick as a whole. -/
structure SecondTicked (s t : State) : Prop where
  zone : ∀ z, t.zone z = if s.setsNow then (s.zoneNext z).failedOver s.boilerProven else s.zoneNext z
  pool : t.pool =
    (let p := { s.pool with preheat := s.pool.preheat && (t.surface.mode == s.surface.mode) }
     if s.surface.mode = .start then p
     else if s.restoresNow then { p with loopFail := false, restoreRun := 0 }
     else if s.pool.loopFail = true then { p with restoreRun := s.restoreNext }
     else if s.setsNow then { p with loopFail := true, unusableRun := 0, lowRun := 0, restoreRun := 0 }
     else { p with unusableRun := s.unusableNext, lowRun := s.lowNext })
  fog : t.fog =
    (let held := s.fogTicked (s.building.regen s.fog.actingUnheld) (fanStageOf s.fog.actingUnheld)
     if s.setsNow then held.judged held.acting s.building.backupEnable true
     else if s.restoresNow then held.judged held.acting s.building.backupEnable false
     else held)
  posts : ∀ p, s.secondBegun.posts t p (s.provingsAt p ++ s.monitorAt p)
  frame : t = { s.secondBegun with pool := t.pool, zones := t.zones, fog := t.fog, ports := t.ports }

theorem deviceTick_ticked (s : State) : SecondTicked s s.deviceTick := by
  have hbegun := secondBegun_begun s
  have hsame := sameReadings_begun s
  rw [deviceTick_eq]
  have hzonesOnly := zones_tickZones s.secondBegun
  have hzone := zone_tickZones s.secondBegun
  have hprovings := posts_tickZones s.secondBegun
  have hbegunZone : ∀ z, s.secondBegun.zone z = s.zone z := fun z => by
    unfold State.zone
    rw [hbegun.frame]
    rfl
  have hpool := hbegun.pool
  have hfog := hbegun.fog
  generalize hb : s.secondBegun = b at hsame hzonesOnly hzone hprovings hpool hfog hbegunZone ⊢
  generalize b.tickZones = c at hzonesOnly hzone hprovings
  have hsame' := hsame.zonesOnly hzonesOnly
  obtain ⟨hmzone, hmpool, hmfog, hmposts, hmframe⟩ := tickMonitor_monitored c
  have hcpool : c.pool = b.pool := by rw [hzonesOnly]
  have hcfog : c.fog = b.fog := by rw [hzonesOnly]
  have hczone : ∀ z, c.zone z = s.zoneNext z := fun z => by
    rw [hzone, hbegunZone]
    exact hsame.tickedZone z _
  have hsurface : c.tickMonitor.surface = b.surface := by rw [hmframe, hzonesOnly]
  generalize c.tickMonitor = t at hmzone hmpool hmfog hmposts hmframe hsurface
  refine ⟨fun z => ?_, ?_, ?_, fun p => ?_, ?_⟩
  · rw [hmzone, hczone, hsame'.proven]
    simp only [hsame'.setsNow]
  · rw [hmpool]
    simp only [hsame'.setsNow, hsame'.restoresNow, hsame'.started, hsame'.restoreNext, hsame'.unusableNext, hsame'.lowNext, hcpool]
    rw [hpool, hsurface]
  · rw [hmfog, hcfog, hfog, hsame'.building]
    simp only [hsame'.setsNow, hsame'.restoresNow]
  · have hone : (all4.flatMap fun z => b.tickRecords p z (b.zone z)) = s.provingsAt p := by
      unfold State.provingsAt State.tickRecords
      simp only [hbegunZone, hsame.provesNow, hsame.seconds]
    have htwo : c.monitorRecords p = s.monitorAt p := by
      unfold State.monitorRecords State.monitorAt
      simp only [hsame'.setsNow, hsame'.restoresNow, hsame'.unusableNext, hsame'.supply, hsame'.seconds, hsame'.proven, hczone]
    rw [← hone, ← htwo, hb]
    exact posts_trans (hprovings p) (hmposts p)
  · rw [hb, hmframe, hzonesOnly]

/-! ### The records by kind -/

theorem filter_if_record (c : Prop) [Decidable c] (r : Record) (kind : RecordKind) :
    (if c then [r] else []).filter (fun x => x.kind == kind) = if c ∧ r.kind = kind then [r] else [] := by
  by_cases hc : c
  · by_cases hk : r.kind = kind
    · simp [hc, hk]
    · simp [hc, hk]
  · simp [hc]

/-- The records of the zones' provings of one kind. -/
theorem filter_provingsAt (s : State) (p : Port) (kind : RecordKind) : (s.provingsAt p).filter (fun x => x.kind == kind) =
    match kind with
    | .sourceSwitched => (all4.filter fun z => s.provesNow z (s.zone z) && hearsOf p (s.zone z).port).map
        fun z => ⟨.sourceSwitched, z.val, 1, s.deviceSeconds + 1⟩
    | .switchTimeout => (all4.filter fun z => (s.zone z).failsNow && hearsOf p (s.zone z).port).map
        fun z => ⟨.switchTimeout, z.val, (s.zone z).source.code, s.deviceSeconds + 1⟩
    | _ => [] := by
  unfold State.provingsAt
  simp only [List.filter_flatMap, List.filter_append, filter_if_record]
  cases kind with
  | sourceSwitched => simp only [and_true, reduceCtorEq, and_false, if_false, List.append_nil, flatMap_singleton_if]
  | switchTimeout => simp only [and_true, reduceCtorEq, and_false, if_false, List.nil_append, flatMap_singleton_if]
  | _ => simp only [reduceCtorEq, and_false, if_false, List.append_nil]; rfl

theorem flatMap_if_singleton {α : Type} (l : List α) (c : α → Prop) [DecidablePred c] (b : α → Bool) (r : α → Record)
    (h : ∀ x, c x ↔ b x = true) : (l.flatMap fun x => if c x then [r x] else []) = (l.filter b).map r := by
  rw [← flatMap_singleton_if]
  exact List.flatMap_congr fun x _ => if_congr (h x) rfl rfl

/-- The fail-over's records of one kind. -/
theorem filter_failOvers (s : State) (seconds : BitVec 32) (p : Port) (zone : Fin 4 → Zone) (kind : RecordKind) :
    (all4.flatMap fun z => failOverRecords s.boilerProven seconds p z (zone z)).filter (fun x => x.kind == kind) =
    (let falls := all4.filter fun z => (zone z).failsOver
     match kind with
     | .sourceSwitched => (falls.filter fun z => s.boilerProven && hearsOf p (if (zone z).provesBoiler then (zone z).port else none)).map
        fun z => ⟨.sourceSwitched, z.val, 2, seconds⟩
     | .sourceFail => (falls.filter fun z => hearsOf p (zone z).port).map fun z => ⟨.sourceFail, z.val, (zone z).source.code, seconds⟩
     | _ => []) := by
  unfold failOverRecords
  simp only [List.filter_flatMap, List.filter_append, filter_if_record]
  cases kind with
  | sourceSwitched =>
    simp only [and_true, reduceCtorEq, and_false, if_false, List.nil_append, List.filter_filter]
    refine flatMap_if_singleton _ _ _ _ fun z => ?_
    rw [Bool.and_eq_true, Bool.and_eq_true, hearsOf_iff]
    cases (zone z).provesBoiler <;> simp [and_comm, and_assoc]
  | sourceFail =>
    simp only [and_true, reduceCtorEq, and_false, if_false, List.append_nil, List.filter_filter]
    refine flatMap_if_singleton _ _ _ _ fun z => ?_
    rw [Bool.and_eq_true, hearsOf_iff, and_comm]
  | _ => simp only [reduceCtorEq, and_false, if_false, List.append_nil]; rfl

/-- The records of the monitor of one kind. -/
theorem filter_monitorAt (s : State) (p : Port) (kind : RecordKind) : (s.monitorAt p).filter (fun x => x.kind == kind) =
    (let falls := all4.filter fun z => decide (s.setsNow ∧ (s.zoneNext z).failsOver = true)
     match kind with
     | .sourceSwitched => (falls.filter fun z =>
        s.boilerProven && hearsOf p (if (s.zoneNext z).provesBoiler then (s.zoneNext z).port else none)).map
          fun z => ⟨.sourceSwitched, z.val, 2, s.deviceSeconds + 1⟩
     | .sourceFail => (falls.filter fun z => hearsOf p (s.zoneNext z).port).map
        fun z => ⟨.sourceFail, z.val, (s.zoneNext z).source.code, s.deviceSeconds + 1⟩
     | .loopFail => if s.setsNow ∧ p ≠ .portL then
        [⟨.loopFail, if s.unusableNext = 10 then 0 else 1, (s.probe probeW0).pubValue, s.deviceSeconds + 1⟩] else []
     | .loopRestored => if s.restoresNow ∧ p ≠ .portL then
        [⟨.loopRestored, 0, (s.probe probeW0).pubValue, s.deviceSeconds + 1⟩] else []
     | _ => []) := by
  unfold State.monitorAt
  by_cases hsets : s.setsNow
  · have hrestores : ¬s.restoresNow := fun h => absurd (hsets.2.1.symm.trans h.2.1) (by decide)
    have hfalls : (all4.filter fun z => decide (s.setsNow ∧ (s.zoneNext z).failsOver = true)) =
        all4.filter fun z => (s.zoneNext z).failsOver := List.filter_congr fun z _ => by
        rw [Bool.eq_iff_iff, decide_eq_true_eq]
        exact and_iff_right hsets
    rw [if_pos hsets, List.filter_append, filter_failOvers, filter_if_record, hfalls]
    cases kind with
    | loopFail =>
      simp only [and_true, List.append_nil]
      exact if_congr (and_iff_right hsets).symm rfl rfl
    | sourceSwitched => simp only [reduceCtorEq, and_false, if_false, List.nil_append]
    | sourceFail => simp only [reduceCtorEq, and_false, if_false, List.nil_append]
    | loopRestored =>
      simp only [reduceCtorEq, and_false, if_false, List.append_nil]
      exact (if_neg fun h => hrestores h.1).symm
    | _ => simp only [reduceCtorEq, and_false, if_false, List.append_nil]
  · have hfalls : (all4.filter fun z => decide (s.setsNow ∧ (s.zoneNext z).failsOver = true)) = [] :=
      List.filter_eq_nil_iff.2 fun z _ h => hsets (of_decide_eq_true h).1
    rw [if_neg hsets, hfalls]
    by_cases hrestores : s.restoresNow
    · have hflip : (if p = .portL then [] else [(⟨.loopRestored, 0, (s.probe probeW0).pubValue, s.deviceSeconds + 1⟩ : Record)]) =
          if p ≠ .portL then [⟨.loopRestored, 0, (s.probe probeW0).pubValue, s.deviceSeconds + 1⟩] else [] := (ite_not ..).symm
      rw [if_pos hrestores, hflip, filter_if_record]
      cases kind with
      | loopRestored =>
        simp only [and_true]
        exact if_congr (and_iff_right hrestores).symm rfl rfl
      | loopFail =>
        simp only [reduceCtorEq, and_false, if_false]
        exact (if_neg fun h => hsets h.1).symm
      | _ => simp only [reduceCtorEq, and_false, if_false, List.filter_nil, List.map_nil]
    · rw [if_neg hrestores]
      cases kind with
      | loopRestored => exact (if_neg fun h => hrestores h.1).symm
      | loopFail => exact (if_neg fun h => hsets h.1).symm
      | _ => rfl

end Sys2Proof.Machine
end

