-- ==== Sys2Proof/Proofs/DeviceSecondRecords.lean ====
section
/-! PROOFS. The records of a device second tick, and the tick itself (R168). -/

namespace Sys2Proof.Machine

/-- The record of the return to PLAY, where it is due. -/
def State.returnAt (s : State) : List Record := if s.playsNow then [⟨.surfaceChanged, 4, 3 + 256, s.deviceSeconds + 1⟩] else []

/-- Posting, an evaluation's records of other kinds, and posting again. -/
theorem adds_across {s u v t : State} {p : Port} {kind : RecordKind} {as bs : List Record} (h : s.posts u p as)
    (hmid : PostedOnly RecordKind.ofEvaluation u v) (k : v.posts t p bs) (hkind : ¬kind.ofEvaluation) :
    s.adds t p kind (as.filter (fun x => x.kind == kind) ++ bs.filter fun x => x.kind == kind) := by
  have hlost : (t.port p).lost = false → (v.port p).lost = false := fun ht => by
    rw [State.posts] at k
    rw [k] at ht
    exact (queue_of_not_lost bs _ ht).1
  have hfirst := adds_trans (adds_of_posts h kind) (hmid.adds p hkind) (hmid.lost p)
  rw [List.append_nil] at hfirst
  exact adds_trans hfirst (adds_of_posts k kind) hlost

/-- The records of a tick at a port, of each kind, by what is due. -/
def State.recordsAt (s : State) (p : Port) (kind : RecordKind) : List Record :=
  let falls := all4.filter fun z => decide (s.setsNow ∧ (s.zoneNext z).failsOver = true)
  match kind with
  | .plantStale => if (s.surface.plantStale = false ∧ s.surface.mode ≠ .start ∧ 29 < s.surface.reportAge) ∧ p ≠ .portL then
     [⟨.plantStale, 0, (min 32767 (s.surface.reportAge + 1) : Nat), s.deviceSeconds + 1⟩] else []
  | .surfaceChanged => if s.playsNow then [⟨.surfaceChanged, 4, 3 + 256, s.deviceSeconds + 1⟩] else []
  | .switchTimeout => (all4.filter fun z => (s.zone z).failsNow && hearsOf p (s.zone z).port).map
     fun z => ⟨.switchTimeout, z.val, (s.zone z).source.code, s.deviceSeconds + 1⟩
  | .sourceSwitched => (all4.filter fun z => s.provesNow z (s.zone z) && hearsOf p (s.zone z).port).map
       (fun z => ⟨.sourceSwitched, z.val, 1, s.deviceSeconds + 1⟩) ++
     (falls.filter fun z => s.boilerProven && hearsOf p (if (s.zoneNext z).provesBoiler then (s.zoneNext z).port else none)).map
       fun z => ⟨.sourceSwitched, z.val, 2, s.deviceSeconds + 1⟩
  | .sourceFail => (falls.filter fun z => hearsOf p (s.zoneNext z).port).map
     fun z => ⟨.sourceFail, z.val, (s.zoneNext z).source.code, s.deviceSeconds + 1⟩
  | .loopFail => if s.setsNow ∧ p ≠ .portL then
     [⟨.loopFail, if s.unusableNext = 10 then 0 else 1, (s.probe probeW0).pubValue, s.deviceSeconds + 1⟩] else []
  | .loopRestored => if s.restoresNow ∧ p ≠ .portL then
     [⟨.loopRestored, 0, (s.probe probeW0).pubValue, s.deviceSeconds + 1⟩] else []
  | _ => []

theorem filter_tick (s : State) (p : Port) (kind : RecordKind) :
    (s.staleAt p).filter (fun x => x.kind == kind) ++ (s.returnAt.filter (fun x => x.kind == kind) ++
      ((s.provingsAt p).filter (fun x => x.kind == kind) ++ (s.monitorAt p).filter (fun x => x.kind == kind))) =
    s.recordsAt p kind := by
  unfold State.recordsAt
  unfold State.staleAt State.returnAt
  rw [filter_provingsAt, filter_monitorAt, filter_if_record, filter_if_record]
  cases kind with
  | plantStale => simp only [and_true, reduceCtorEq, and_false, if_false, List.append_nil]
  | surfaceChanged => simp only [and_true, reduceCtorEq, and_false, if_false, List.append_nil, List.nil_append]
  | _ => simp only [reduceCtorEq, and_false, if_false, List.append_nil, List.nil_append]

theorem eq_nil_of_filters {l : List Record} (h : ∀ kind, l.filter (fun x => x.kind == kind) = []) : l = [] := by
  cases l with
  | nil => rfl
  | cons r l =>
    have hr := h r.kind
    rw [List.filter_cons_of_pos (by simp)] at hr
    cases hr

/-- Settles O16. -/
theorem deviceSecondTickCounts : Obligations.DeviceSecondTickCounts := by
  intro s
  refine ⟨s.deviceTick, rfl, ?_⟩
  obtain ⟨hsurface, hpool, hfog, hevaluated, hkept, hframe, hposts, hposted⟩ := secondBegun_begun s
  obtain ⟨hzone, htpool, htfog, htposts, htframe⟩ := deviceTick_ticked s
  generalize s.secondBegun = b at hsurface hpool hfog hevaluated hkept hframe hposts hposted htposts htframe
  generalize s.deviceTick = t at hzone htpool htfog htposts htframe
  have hstate : t.fog.state = b.fog.state := by
    rw [htfog, hfog]
    dsimp only
    split
    · exact judged_state ..
    · split
      · exact judged_state ..
      · rfl
  have htsurface : t.surface = b.surface := (congrArg State.surface htframe :)
  have hadds : ∀ p kind, ¬s.playsNow ∨ kind ∉ [RecordKind.iceOverload, .iceClear, .cueDone, .cuePreempted] →
      s.adds t p kind (s.recordsAt p kind) := fun p kind hdue => by
    rw [← filter_tick]
    by_cases hp : s.playsNow
    · obtain ⟨u, hu, hmid⟩ := hposted hp
      have hkind : ¬kind.ofEvaluation := by
        have hnot := hdue.resolve_left fun h => h hp
        simpa [RecordKind.ofEvaluation] using hnot
      have h := adds_across (hu p) hmid (htposts p) hkind
      rw [List.filter_append, List.filter_append, List.append_assoc] at h
      rw [State.returnAt, if_pos hp]
      exact h
    · have h := adds_of_posts (posts_trans (hposts hp p) (htposts p)) kind
      rw [List.filter_append, List.filter_append] at h
      rw [State.returnAt, if_neg hp]
      exact h
  have hquiet : ∀ p, ¬s.playsNow → (∀ kind, s.recordsAt p kind = []) → t.port p = s.port p := fun p hp hnone => by
    have h := posts_trans (hposts hp p) (htposts p)
    have hall : s.staleAt p ++ (s.provingsAt p ++ s.monitorAt p) = [] := eq_nil_of_filters fun kind => by
      have hk := (filter_tick s p kind).trans (hnone kind)
      rw [State.returnAt, if_neg hp] at hk
      rw [List.filter_append, List.filter_append]
      exact hk
    rw [hall] at h
    exact h
  intro stale plays
  refine ⟨?_, fun i => ?_, ?_, ?_, ?_, ?_, ?_⟩
  · rw [htframe, hframe]
    rfl
  · have hprobe : t.probe i = s.secondCounted.probe i := probe_of_scanner (by rw [htframe, hframe]) i
    rw [hprobe, probe_secondCounted]
    refine congrArg (fun o => { s.probe i with override := o }) ?_
    cases (s.probe i).override with
    | none => rfl
    | some o => rfl
  · exact htsurface.trans hsurface
  · by_cases hp : s.playsNow
    · obtain ⟨hev, hlast⟩ := hevaluated hp
      refine (if_pos hp).mpr ⟨?_, ?_⟩
      · rw [htframe]
        exact evaluated_of_fogState t.pool t.zones t.ports hstate hev
      · rw [htframe]
        exact hlast
    · refine (if_neg hp).mpr ?_
      rw [htframe]
      exact hkept hp
  · intro q supply atLeast unusable low restore sets restores carried ticked
    have hheld := congrArg₂ s.fogTicked (regen_eq s.building s.fog.actingUnheld) (fanStageOf_eq s.fog.actingUnheld)
    rw [hheld] at htfog
    refine ⟨hzone, htpool, htfog, ?_⟩
    intro told shown proves fails keeps records
    have hrecords : ∀ p kind, records p kind = s.recordsAt p kind := fun p kind => by cases kind <;> rfl
    refine ⟨fun p kind hdue => ?_, fun p hp hnone => hquiet p hp fun kind => (hrecords p kind).symm.trans (hnone kind)⟩
    rw [hrecords]
    exact hadds p kind hdue
  · rw [htframe, hframe]
    rfl
  · rw [htframe, hframe]
    rfl

end Sys2Proof.Machine
end

