-- ==== Sys2Proof/Proofs/Pages.lean ====
section
/-! PROOFS. The pages of the views (Table 11-7, R179): every field stands at its place. -/

namespace Sys2Proof.Machine

/-! ### Pages and their fields -/

/-- Bytes that hold fields: so many bytes, of which the first has place `k`, and each field stands at its place. -/
structure Page (bytes : List Byte) (k n : Nat) (fields : List (Nat × List Byte)) : Prop where
  length : bytes.length = n
  places : ∀ f ∈ fields, k ≤ f.1 ∧ (bytes.drop (f.1 - k)).take f.2.length = f.2

/-- Fields that follow one another from place `k` on. -/
def placed (k : Nat) : List (List Byte) → List (Nat × List Byte)
  | [] => []
  | cell :: cells => (k, cell) :: placed (k + cell.length) cells

theorem take_drop_append_left {a b c : List Byte} {d : Nat} (h : (a.drop d).take c.length = c) :
    ((a ++ b).drop d).take c.length = c := by
  by_cases hd : d ≤ a.length
  · have hlen : c.length ≤ (a.drop d).length := by
      have := congrArg List.length h
      rw [List.length_take] at this
      omega
    rw [List.drop_append_of_le_length hd, List.take_append_of_le_length hlen, h]
  · have hnil : c = [] := by
      rw [List.drop_eq_nil_of_le (by omega), List.take_nil] at h
      exact h.symm
    rw [hnil]
    rfl

/-- A page after another. -/
theorem Page.append {a b : List Byte} {k n m : Nat} {f g : List (Nat × List Byte)} (ha : Page a k n f) (hb : Page b (k + n) m g) :
    Page (a ++ b) k (n + m) (f ++ g) where
  length := by rw [List.length_append, ha.length, hb.length]
  places x hx := by
    rcases List.mem_append.1 hx with hx | hx
    · obtain ⟨hk, hplace⟩ := ha.places x hx
      exact ⟨hk, take_drop_append_left hplace⟩
    · obtain ⟨hk, hplace⟩ := hb.places x hx
      refine ⟨by omega, ?_⟩
      have hdrop : x.1 - k = a.length + (x.1 - (k + n)) := by rw [ha.length]; omega
      rw [hdrop, List.drop_append, List.drop_eq_nil_of_le (Nat.le_add_right ..), Nat.add_sub_cancel_left, List.nil_append]
      exact hplace

theorem Page.nil (k : Nat) : Page [] k 0 [] := ⟨rfl, fun _ h => absurd h List.not_mem_nil⟩

/-- One field. -/
theorem Page.cell (bytes : List Byte) (k : Nat) : Page bytes k bytes.length [(k, bytes)] where
  length := rfl
  places x hx := by
    rw [List.mem_singleton.1 hx]
    refine ⟨Nat.le_refl k, ?_⟩
    rw [Nat.sub_self, List.drop_zero, List.take_length]

/-- Fields that follow one another. -/
theorem Page.cells (cells : List (List Byte)) (k : Nat) : Page cells.flatten k cells.flatten.length (placed k cells) := by
  induction cells generalizing k with
  | nil => exact .nil k
  | cons cell cells ih =>
    rw [List.flatten_cons, List.length_append]
    exact (Page.cell cell k).append (ih _)

/-- Blocks of one size, one after the other. -/
theorem Page.blocks {α : Type} {bytes : α → List Byte} {fields : α → List (Nat × List Byte)} {n : Nat} (l : List α) (k : Nat)
    (h : ∀ j x, l[j]? = some x → Page (bytes x) (k + n * j) n (fields x)) :
    Page (l.flatMap bytes) k (n * l.length) (l.flatMap fields) := by
  induction l generalizing k with
  | nil => exact .nil k
  | cons x l ih =>
    have hhead := h 0 x rfl
    have htail := ih (k + n) fun j y hy => by
      have := h (j + 1) y hy
      rw [Nat.mul_succ, Nat.add_comm (n * j) n, ← Nat.add_assoc] at this
      exact this
    rw [List.length_cons, Nat.mul_succ, Nat.add_comm (n * l.length) n]
    exact hhead.append htail

/-- In an ascending list of all indices the place is the index. -/
theorem val_of_getElem_finRange {n j : Nat} {i : Fin n} (h : (List.finRange n)[j]? = some i) : i.val = j := by
  obtain ⟨hj, rfl⟩ := List.getElem?_eq_some_iff.1 h
  simp

theorem finRange_eight : all8 = List.finRange 8 := by decide

theorem finRange_four : all4 = List.finRange 4 := by decide

theorem flagByte_three (a b c : Bool) : flagByte [a, b, c] = BitVec.ofNat 8 (bitOf a + 2 * bitOf b + 4 * bitOf c) := by
  cases a <;> cases b <;> cases c <;> rfl

theorem flagByte_two (a b : Bool) : flagByte [a, b] = BitVec.ofNat 8 (bitOf a + 2 * bitOf b) := by
  cases a <;> cases b <;> rfl

theorem flagByte_four (a b c d : Bool) :
    flagByte [a, b, c, d] = BitVec.ofNat 8 (bitOf a + 2 * bitOf b + 4 * bitOf c + 8 * bitOf d) := by
  cases a <;> cases b <;> cases c <;> cases d <;> rfl

/-! ### The one-page views -/

theorem page_slab (s : State) : Page s.viewSlab 0 10 (s.pageFields 1 0) :=
  Page.cells [encBit s.surface.slabBlind, encBit s.surface.stats.isSome, optU8 (s.surface.stats.map SlabStats.n),
    optS16 (s.surface.stats.map SlabStats.mean), optS16 (s.surface.stats.map SlabStats.min),
    optS16 (s.surface.stats.map SlabStats.max), optU8 (s.surface.stats.map SlabStats.maxCell)] 0

/-- The same page, with its bytes or its fields written otherwise. -/
theorem Page.congr {bytes bytes' : List Byte} {k n : Nat} {fields fields' : List (Nat × List Byte)} (h : Page bytes k n fields)
    (hb : bytes' = bytes) (hf : fields' = fields) : Page bytes' k n fields' := by
  rw [hb, hf]
  exact h

theorem page_fog (s : State) : Page s.viewFog 0 38 (s.pageFields 2 0) := by
  have hstate := Page.cells [encU8 s.fog.state.code, optU8 (s.fog.held.map FogState.code), encU8 s.fog.acting.code,
    encU16 s.fog.dwell, optTime s.fog.holdTimer] 0
  have hdew := Page.cells [encBit s.fog.dew.isSome, optS16 (s.fog.dew.map DewRecord.t), optU16 (s.fog.dew.map fun d => d.rh.toNat),
    optU16 (s.fog.dew.map fun d => d.es.toNat), optU16 (s.fog.dew.map fun d => d.e.toNat), optS16 (s.fog.dew.map DewRecord.td),
    optU8 (s.fog.dew.map fun d => if d.fresh then 1 else 0)] 7
  have hmargins := Page.cells [optS16 s.fog.layer, optS16 s.fog.roof, optS16 s.fog.margin, encU8 s.fog.watchEff,
    encU8 s.fog.actEff, encU8 s.fog.severeEff] 19
  have houtputs := Page.cells [encU16 s.fog.request, encU8 s.fog.fanStage, encBit s.fog.backup, encU8 s.fog.zeroRun,
    encU8 s.fog.adequateRun, encU16 s.fog.lastGrant, encBit s.fog.wheel, encBit s.hazeForcing] 28
  refine (hstate.append (hdew.append (hmargins.append houtputs))).congr ?_ rfl
  unfold State.viewFog
  dsimp only
  simp only [List.append_assoc, List.flatten_cons, List.flatten_nil, List.append_nil]

theorem page_surface (s : State) : Page s.viewSurface 0 20 (s.pageFields 7 0) :=
  (Page.cells ((s.pageFields 7 0).map Prod.snd) 0).congr (by rw [State.viewSurface, flagByte_three]; rfl) rfl

/-- The fields of one probe in PROBES. -/
def State.probeFields (s : State) (i : Fin 32) : List (Nat × List Byte) :=
  let r := s.probe i
  let working := i = probeRef ∧ s.scanner.longCal = true
  [(6 * i.val, encS16 (if working then r.value else r.pubValue)),
   (6 * i.val + 2, encU8 (if working then r.quality else r.pubQuality).code), (6 * i.val + 3, encU8 r.spikeRun),
   (6 * i.val + 4, encU16 ((r.override.map Override.remaining).getD 65535))]

theorem page_probe (s : State) (i : Fin 32) : Page (s.probeBytes i) (6 * i.val) 6 (s.probeFields i) := by
  have hworking : (i == probeRef && s.scanner.longCal) = true ↔ i = probeRef ∧ s.scanner.longCal = true := by simp
  refine (Page.cells ((s.probeFields i).map Prod.snd) (6 * i.val)).congr ?_ rfl
  unfold State.probeBytes State.probeFields
  simp only [hworking]
  rfl

theorem page_probes (s : State) : Page s.viewProbes 0 201 (s.pageFields 0 0) := by
  have hblocks : Page ((List.finRange 32).flatMap s.probeBytes) 0 192 ((List.finRange 32).flatMap s.probeFields) :=
    Page.blocks (n := 6) (List.finRange 32) 0 fun j i hi => by
      rw [Nat.zero_add, ← val_of_getElem_finRange hi]
      exact page_probe s i
  refine (hblocks.append (Page.cells [encS16 s.scanner.offset, encU8 (1 - bitOf s.scanner.longCal), encU8 s.scanner.calCount,
    encU8 (bitOf s.scanner.shortPending), encU32 s.scanner.passNumber.toNat] 192)).congr ?_ rfl
  have hflag : encBit (!s.scanner.longCal) = encU8 (1 - bitOf s.scanner.longCal) := by cases s.scanner.longCal <;> rfl
  rw [State.viewProbes, hflag]
  simp only [List.append_assoc]
  rfl

/-! ### POOL and ZONES -/

/-- The fields of one claim in POOL. -/
def State.claimFields (s : State) (c : Fin 8) : List (Nat × List Byte) :=
  let x := s.claim c
  let k := 12 * c.val
  [(k, encU16 x.request), (k + 2, encU16 x.minimum), (k + 4, encU16 x.grant), (k + 6, encU8 x.origin.code),
   (k + 7, encU16 x.manualRequest), (k + 9, encU16 x.manualMinimum), (k + 11, encU8 x.shortCount)]

theorem page_pool (s : State) : Page s.viewPool 0 135 (s.pageFields 3 0) := by
  have hblocks : Page (all8.flatMap fun c => (s.claim c).bytes) 0 96 (all8.flatMap s.claimFields) :=
    Page.blocks (n := 12) all8 0 fun j c hc => by
      rw [finRange_eight] at hc
      rw [Nat.zero_add, ← val_of_getElem_finRange hc]
      exact (Page.cells ((s.claimFields c).map Prod.snd) (12 * c.val)).congr rfl rfl
  refine (hblocks.append (Page.cells [encU16 s.pool.qAvail, encU16 s.pool.allowance, encU16 s.pool.rAll, encU16 s.pool.drawn,
    encU16 s.pool.charge, encBit s.pool.discharging, encU32 s.pool.spillBudget, encU32 s.pool.roundSpill,
    encU16 (s.zone 0).delivered, encU16 (s.zone 1).delivered, encU16 (s.zone 2).delivered, encU16 (s.zone 3).delivered,
    encBit s.pool.subsoilDemand, encBit s.pool.preheat, encBit s.pool.loopFail, encU8 s.pool.unusableRun, encU8 s.pool.lowRun,
    encU8 s.pool.restoreRun, optU16 s.pool.roundTimer, encU32 s.pool.roundCount.toNat] 96)).congr ?_ rfl
  rw [State.viewPool]
  simp only [List.append_assoc]
  rfl

/-- The fields of one zone in ZONES. -/
def State.zoneFields (s : State) (z : Fin 4) : List (Nat × List Byte) :=
  let x := s.zone z
  let k := 21 * z.val
  [(k, encS16 x.occupiedSet), (k + 2, encS16 x.setbackSet), (k + 4, encU8 (bitOf x.occupied)),
   (k + 5, encS16 (if x.occupied = true ∧ s.surface.mode ≠ .hold then x.occupiedSet else x.setbackSet)),
   (k + 7, encU16 x.request), (k + 9, encU8 x.source.code), (k + 10, encU8 x.switch.code),
   (k + 11, encU8 (match x.switch with | .steady => 255 | .provingLoop _ => 1 | .provingBoiler _ => 2)),
   (k + 12, encU16 (match x.switch with | .steady => 0 | .provingLoop run => run | .provingBoiler left => left)),
   (k + 14, encU8 ((x.port.map Port.code).getD 255)), (k + 15, encU8 (bitOf x.locked)), (k + 16, encU8 (bitOf x.fallback)),
   (k + 17, encU8 x.starved), (k + 18, encU8 x.surplus), (k + 19, encU16 x.delivered)]

theorem page_zone (s : State) (z : Fin 4) : Page (s.zoneBytes z) (21 * z.val) 21 (s.zoneFields z) := by
  refine (Page.cells ((s.zoneFields z).map Prod.snd) (21 * z.val)).congr ?_ rfl
  have hset : s.effectiveSet (s.zone z) =
      if (s.zone z).occupied = true ∧ s.surface.mode ≠ .hold then (s.zone z).occupiedSet else (s.zone z).setbackSet := by
    unfold State.effectiveSet
    cases (s.zone z).occupied <;> by_cases hm : s.surface.mode = .hold <;> simp [hm]
  have hrequested : optU8 ((s.zone z).requested.map Source.code) =
      encU8 (match (s.zone z).switch with | .steady => 255 | .provingLoop _ => 1 | .provingBoiler _ => 2) := by
    unfold Zone.requested
    cases (s.zone z).switch <;> rfl
  have htimer : optTime (s.zone z).switch.timer =
      encU16 (match (s.zone z).switch with | .steady => 0 | .provingLoop run => run | .provingBoiler left => left) := by
    unfold Switch.timer
    cases (s.zone z).switch <;> rfl
  unfold State.zoneBytes
  dsimp only
  rw [hset, hrequested, htimer]
  simp only [List.append_assoc]
  rfl

theorem page_zones (s : State) : Page s.viewZones 0 87 (s.pageFields 4 0) := by
  have hblocks : Page (all4.flatMap s.zoneBytes) 0 84 (all4.flatMap s.zoneFields) :=
    Page.blocks (n := 21) all4 0 fun j z hz => by
      rw [finRange_four] at hz
      rw [Nat.zero_add, ← val_of_getElem_finRange hz]
      exact page_zone s z
  have hwants : s.boilerEn = all4.any fun z => match (s.zone z).switch with
      | .provingBoiler _ => true
      | _ => (s.zone z).source == .boiler && decide (0 < (s.zone z).request) := by
    refine congrArg all4.any (funext fun z => ?_)
    have hzone : pick s.zones z = s.zone z := rfl
    rw [hzone]
    unfold Zone.wantsBoiler
    cases (s.zone z).switch <;> rfl
  refine (hblocks.append (Page.cells [encU8 (bitOf (all4.any fun z => match (s.zone z).switch with
      | .provingBoiler _ => true
      | _ => (s.zone z).source == .boiler && decide (0 < (s.zone z).request))), encU8 (bitOf s.boilerProven),
    encU8 (bitOf (s.zsrc 0) + 2 * bitOf (s.zsrc 1) + 4 * bitOf (s.zsrc 2) + 8 * bitOf (s.zsrc 3))] 84)).congr ?_ rfl
  have hrelays : [flagByte (all4.map s.zsrc)] =
      encU8 (bitOf (s.zsrc 0) + 2 * bitOf (s.zsrc 1) + 4 * bitOf (s.zsrc 2) + 8 * bitOf (s.zsrc 3)) :=
    congrArg (fun b => [b]) (flagByte_four ..)
  rw [State.viewZones, hwants, hrelays]
  simp only [List.append_assoc]
  rfl

/-! ### POSITIONERS, GOVERNOR and AUTHORITY -/

/-- The fields of one positioner in POSITIONERS. -/
def State.posFields (s : State) (v : Fin 8) : List (Nat × List Byte) :=
  let r := s.pos v
  let k := 13 * v.val
  [(k, encU8 r.state.code), (k + 1, encU16 (r.position.getD 65535)), (k + 3, encU16 r.target), (k + 5, encU8 (bitOf r.manual)),
   (k + 6, encU8 ((r.port.map Port.code).getD 255)), (k + 7, encU8 ((r.intent.map Intent.code).getD 255)),
   (k + 8, encU8 ((r.cause.map FaultCause.code).getD 255)), (k + 9, encU16 r.homingCount), (k + 11, encU8 (bitOf r.retarget)),
   (k + 12, encU8 (bitOf r.endstop + 2 * bitOf r.drvfault))]

theorem page_pos (s : State) (v : Fin 8) : Page (s.pos v).bytes (13 * v.val) 13 (s.posFields v) := by
  refine (Page.cells ((s.posFields v).map Prod.snd) (13 * v.val)).congr ?_ rfl
  unfold Positioner.bytes
  rw [flagByte_two]
  simp only [List.append_assoc]
  rfl

theorem page_positioners (s : State) : Page s.viewPositioners 0 117 (s.pageFields 5 0) := by
  have hpos : Page (all8.flatMap fun v => (s.pos v).bytes) 0 104 (all8.flatMap s.posFields) :=
    Page.blocks (n := 13) all8 0 fun j v hv => by
      rw [finRange_eight] at hv
      rw [Nat.zero_add, ← val_of_getElem_finRange hv]
      exact page_pos s v
  have hslots : Page (all4.flatMap fun k => optU8 ((s.holderOf k).map Fin.val)) 104 4 (all4.map fun k => (104 + k.val,
      encU8 (((s.positioners.holders.find? (fun h => h.1 == k)).map (fun h => h.2.val)).getD 255))) := by
    have hholder : ∀ k, optU8 ((s.holderOf k).map Fin.val) =
        encU8 (((s.positioners.holders.find? (fun h => h.1 == k)).map (fun h => h.2.val)).getD 255) := fun k => by
      rw [State.holderOf, Option.map_map]
      rfl
    simp only [hholder]
    exact Page.cells (all4.map fun k => encU8 (((s.positioners.holders.find? (fun h => h.1 == k)).map (fun h => h.2.val)).getD 255)) 104
  have hqueue : Page ((List.range 8).flatMap fun k => optU8 (s.positioners.queue[k]?.map Fin.val)) 109 8
      (all8.map fun k => (109 + k.val, encU8 ((s.positioners.queue[k.val]?.map Fin.val).getD 255))) :=
    Page.cells ((List.range 8).map fun k => encU8 ((s.positioners.queue[k]?.map Fin.val).getD 255)) 109
  refine ((hpos.append hslots).append ((Page.cell (encU8 s.positioners.queue.length) 108).append hqueue)).congr ?_ rfl
  rw [State.viewPositioners]
  simp only [List.append_assoc]

/-- The fields of one place of the headroom queue in GOVERNOR. -/
def State.headroomFields (s : State) (k : Nat) : List (Nat × List Byte) :=
  match s.governor.queue[k]? with
  | none => [(38 + 5 * k, [0xFF, 0xFF, 0xFF, 0, 0])]
  | some n => [(38 + 5 * k, encU8 n.val), (39 + 5 * k, encU16 (s.slot n).cue), (41 + 5 * k, encU16 (s.slot n).hold)]

theorem val_of_getElem_range {n j k : Nat} (h : (List.range n)[j]? = some k) : k = j := by
  obtain ⟨hj, rfl⟩ := List.getElem?_eq_some_iff.1 h
  simp

theorem page_headroom (s : State) (k : Nat) : Page (s.headroomBytes s.governor.queue[k]?) (38 + 5 * k) 5 (s.headroomFields k) := by
  unfold State.headroomFields State.headroomBytes
  cases s.governor.queue[k]? with
  | none => exact Page.cell [0xFF, 0xFF, 0xFF, 0, 0] _
  | some n =>
    refine (Page.cells [encU8 n.val, encU16 (s.slot n).cue, encU16 (s.slot n).hold] (38 + 5 * k)).congr rfl ?_
    simp only [placed, List.cons.injEq, Prod.mk.injEq, and_true, true_and]
    exact ⟨Nat.add_right_comm 38 1 _, Nat.add_right_comm 38 3 _⟩

theorem page_governor (s : State) : Page s.viewGovernor 0 78 (s.pageFields 6 0) := by
  have hqueue : Page ((List.range 8).flatMap fun k => s.headroomBytes s.governor.queue[k]?) 38 40
      ((List.range 8).flatMap s.headroomFields) :=
    Page.blocks (n := 5) (List.range 8) 38 fun j k hk => by
      rw [val_of_getElem_range hk]
      exact page_headroom s j
  have hkind : evalKindCode s.governor.lastEval =
      match s.governor.lastEval with | none => 0 | some .roundEnd => 1 | some .ordinary => 2 := by
    cases s.governor.lastEval with
    | none => rfl
    | some kind => cases kind <;> rfl
  refine ((Page.cells [encU32 s.governor.ceiling, encU16 s.governor.hIceUsed, encU16 s.governor.marginUsed,
    encU16 s.governor.derateUsed, encBit s.governor.coverApplied, encU32 s.governor.lSpill, encU32 s.governor.lUntrim,
    encU32 s.governor.lTrim, encS32 s.governor.avail, encU16 s.governor.fStar, encU16 s.governor.f, encBit s.governor.iceOverload,
    encU32 s.governor.evalCount.toNat,
    encU8 (match s.governor.lastEval with | none => 0 | some .roundEnd => 1 | some .ordinary => 2),
    encU8 s.governor.queue.length] 0).append hqueue).congr ?_ rfl
  rw [State.viewGovernor, hkind]
  simp only [List.append_assoc, List.flatten_cons, List.flatten_nil, List.nil_append]

/-- The fields of one domain in AUTHORITY. -/
def State.domainFields (s : State) (d : Fin 13) : List (Nat × List Byte) :=
  let x := pick s.authority d
  [(2 * d.val, encU8 (bitOf x.ports.p + 2 * bitOf x.ports.b + 4 * bitOf x.ports.l)), (2 * d.val + 1, encU8 (bitOf x.locked))]

theorem toList_eq_map_pick {α : Type} {n : Nat} (v : Vector α n) : v.toList = (List.finRange n).map (pick v) := by
  refine List.ext_getElem (by simp) fun i h₁ h₂ => ?_
  simp [pick]

theorem page_authority (s : State) : Page s.viewAuthority 0 26 (s.pageFields 8 0) := by
  have hblocks : Page ((List.finRange 13).flatMap fun d =>
      (pick s.authority d).ports.mask :: encBit (pick s.authority d).locked) 0 26 ((List.finRange 13).flatMap s.domainFields) :=
    Page.blocks (n := 2) (List.finRange 13) 0 fun j d hd => by
      rw [Nat.zero_add, ← val_of_getElem_finRange hd]
      refine (Page.cells ((s.domainFields d).map Prod.snd) (2 * d.val)).congr ?_ rfl
      rw [PortSet.mask, flagByte_three]
      rfl
  refine hblocks.congr ?_ rfl
  rw [State.viewAuthority, toList_eq_map_pick, List.flatMap_map]

end Sys2Proof.Machine
end

