-- ==== Sys2Proof/Proofs/ReadingRequests.lean ====
section
/-! PROOFS. The pages of SLOTS, and the requests that read: STATUS, COLLECT, READ and CUE_PROBE (R140, R166 to R169, R179). -/

namespace Sys2Proof.Machine

/-! ### SLOTS -/

/-- The fields of one channel on a SLOTS page. -/
def State.channelField (s : State) (c : Fin 96) : List (Nat × List Byte) :=
  let k := 5 * (c.val % 48)
  let ch := s.channel c
  [(k, encU8 ch.level), (k + 1, encU8 ((ch.owner.map Fin.val).getD 255)), (k + 2, encU8 ch.coefficient),
   (k + 3, encU8 (bitOf ch.trimmable + 2 * bitOf ch.haze)), (k + 4, encU8 (pick s.sent c))]

theorem page_channel (s : State) (c : Fin 96) : Page (s.channelBytes c) (5 * (c.val % 48)) 5 (s.channelField c) := by
  refine (Page.cells ((s.channelField c).map Prod.snd) (5 * (c.val % 48))).congr ?_ rfl
  unfold State.channelBytes
  dsimp only
  rw [flagByte_two]
  simp only [List.append_assoc]
  rfl

/-- The channels of a page, in ascending order. -/
theorem channels_of_page {page : Nat} (h : page < 2) :
    (all96.filter fun c => c.val / 48 == page).length = 48 ∧
      ∀ j c, (all96.filter fun c => c.val / 48 == page)[j]? = some c → c.val % 48 = j := by
  have hvals : (all96.filter fun c => c.val / 48 == page).map (fun c => c.val % 48) = List.range 48 := by
    interval_cases page
    · decide
    · decide
  refine ⟨by rw [← List.length_map (f := fun c : Fin 96 => c.val % 48), hvals, List.length_range], fun j c hc => ?_⟩
  have hj := congrArg (fun l => l[j]?) hvals
  rw [List.getElem?_map, hc] at hj
  exact val_of_getElem_range hj.symm

theorem page_channels (s : State) {page : Nat} (h : page < 2) : Page (s.channelPage page) 0 240 (s.channelFields page) := by
  obtain ⟨hlen, hplace⟩ := channels_of_page h
  have hblocks := Page.blocks (bytes := s.channelBytes) (fields := s.channelField) (n := 5)
    (all96.filter fun c => c.val / 48 == page) 0 fun j c hc => by
      rw [Nat.zero_add, ← hplace j c hc]
      exact page_channel s c
  rw [hlen] at hblocks
  exact hblocks

/-- The fields of one place of a channel list on a SLOTS page. -/
def entryFields (e : Option ListEntry) (k : Nat) : List (Nat × List Byte) :=
  match e with
  | none => [(26 + 5 * k, [0, 0, 0, 0, 0])]
  | some e => [(26 + 5 * k, encU8 e.channel.val), (27 + 5 * k, encU8 e.start), (28 + 5 * k, encU8 e.target),
      (29 + 5 * k, encU16 (e.offset / 100))]

theorem page_entry (e : Option ListEntry) (k : Nat) : Page (entryBytes e) (26 + 5 * k) 5 (entryFields e k) := by
  unfold entryBytes entryFields
  cases e with
  | none => exact Page.cell [0, 0, 0, 0, 0] _
  | some e =>
    refine (Page.cells [encU8 e.channel.val, encU8 e.start, encU8 e.target, encU16 (e.offset / 100)] (26 + 5 * k)).congr ?_ ?_
    · simp only [List.append_assoc]
      rfl
    · simp only [placed, List.cons.injEq, Prod.mk.injEq, and_true, true_and]
      exact ⟨Nat.add_right_comm 26 1 _, Nat.add_right_comm 26 2 _, Nat.add_right_comm 26 3 _⟩

theorem sweepBytes_cells (w : Option Sweep) : sweepBytes w = [encU8 ((w.map Sweep.group).getD 255),
    encU8 ((w.map (fun w => w.order.code)).getD 255), encU8 ((w.map (fun w => w.length.code)).getD 255),
    encU8 ((w.map Sweep.startAt).getD 255), encU8 ((w.map Sweep.memberStep).getD 255)].flatten := by
  cases w <;> rfl

theorem page_slot (s : State) (n : Fin 8) (first : Nat) : Page (s.slotPage n first) 0 226 (s.slotFields n first) := by
  have hheader := Page.cells [encU8 n.val, encU8 (s.slot n).state.code, encU16 (s.slot n).cue,
    encU8 (((s.slot n).port.map Port.code).getD 255), encU8 (((s.slot n).cls.map CueClass.code).getD 255),
    encU8 (((s.slot n).policy.map TrimPolicy.code).getD 255)] 0
  have hsweep := Page.cells [encU8 (((s.slot n).sweep.map Sweep.group).getD 255),
    encU8 (((s.slot n).sweep.map (fun w => w.order.code)).getD 255), encU8 (((s.slot n).sweep.map (fun w => w.length.code)).getD 255),
    encU8 (((s.slot n).sweep.map Sweep.startAt).getD 255), encU8 (((s.slot n).sweep.map Sweep.memberStep).getD 255)] 7
  have htimes := Page.cells [encU16 (s.slot n).delay, encU16 (s.slot n).hold, encU32 (s.slot n).duration, encU32 (s.slot n).elapsed,
    encU8 (s.slot n).list.length, encU8 first] 12
  have hlist : Page ((List.range 40).flatMap fun k => entryBytes (s.slot n).list[first + k]?) 26 200
      ((List.range 40).flatMap fun k => entryFields (s.slot n).list[first + k]? k) :=
    Page.blocks (n := 5) (List.range 40) 26 fun j k hk => by
      rw [val_of_getElem_range hk]
      exact page_entry _ j
  refine (hheader.append (hsweep.append (htimes.append hlist))).congr ?_ rfl
  rw [← sweepBytes_cells]
  unfold State.slotPage optU8
  dsimp only
  simp only [List.append_assoc, List.flatten_cons, List.flatten_nil, List.append_nil]

/-! ### READ -/

theorem page_view (s : State) {view page : Nat} (hview : view ≤ 9) (hpage : view < 9 → page = 0) (hslots : page ≤ 25) :
    Page (s.viewBody view page) 0 (pageLength view page) (s.pageFields view page) := by
  by_cases h9 : view = 9
  · subst h9
    have hbody : s.viewBody 9 page = s.slotsPage page := rfl
    have hfields : s.pageFields 9 page = if page < 2 then s.channelFields page
        else s.slotFields (Fin.ofNat 8 ((page - 2) / 3)) (40 * ((page - 2) % 3)) := rfl
    have hlen : pageLength 9 page = if page < 2 then 240 else 226 := rfl
    rw [hbody, hfields, hlen, State.slotsPage]
    by_cases hp : page < 2
    · rw [if_pos hp, if_pos hp, if_pos hp]
      exact page_channels s hp
    · have hn : (page - 2) / 3 < 8 := by omega
      have hindex : indexBelow 8 ((page - 2) / 3) = some (Fin.ofNat 8 ((page - 2) / 3)) := by
        rw [indexBelow, dif_pos hn]
        exact congrArg some (Fin.ext (Nat.mod_eq_of_lt hn).symm)
      rw [if_neg hp, if_neg hp, if_neg hp, hindex]
      exact page_slot s _ _
  · obtain rfl := hpage (by omega)
    interval_cases view
    · exact page_probes s
    · exact page_slab s
    · exact page_fog s
    · exact page_pool s
    · exact page_zones s
    · exact page_positioners s
    · exact page_governor s
    · exact page_surface s
    · exact page_authority s
    · exact absurd rfl h9

theorem viewBody_enterExecuting (s : State) (p : Port) (view page : Nat) :
    (s.enterExecuting p).viewBody view page = s.viewBody view page := by
  cases p <;> rfl

theorem pageCount_eq (view : Nat) : pageCount view = if 9 < view then none else some (if view < 9 then 1 else 26) := by
  unfold pageCount
  rcases Nat.lt_trichotomy view 9 with h | rfl | h
  · rw [if_pos (Nat.le_of_lt_succ h), if_neg (by omega), if_pos h]
  · rfl
  · rw [if_neg (by omega), if_neg (by omega), if_pos h]

/-! ### Records and masks -/

theorem record_mustCollect (r : Record) : r.mustCollect = decide (r.kind ∈ [.loopFail, .sourceFail, .posFault]) := by
  unfold Record.mustCollect
  cases r.kind <;> rfl

theorem encBit_eq (b : Bool) : encBit b = encU8 (if b = true then 1 else 0) := by cases b <;> rfl

theorem validMask_getLsbD (e : Entry) (k : Fin 8) : e.validMask.getLsbD k.val = (pick e.segments k).isSome := by
  unfold Entry.validMask flagByte
  rw [BitVec.getLsbD_ofNat, testBit_flags]
  simp [pick]

theorem length_headerBytes (h : Option Header) : (headerBytes h).length = 15 := by
  cases h with
  | none => rfl
  | some h => simp [headerBytes, length_sweepBytes]

/-! ### The requests -/

/-- The requests that no domain and no must-collect record keeps from a ready port (R167, R170). -/
theorem takes_of_ready (k : RequestKind) {s : State} {p : Port} {payload : List Byte} (hr : (s.port p).ready = true)
    (hu : k.unblocked = true) (hn : payload.length ≤ 247) (hl : k.lengthAllowed payload = true)
    (hd : (s.enterExecuting p).requestDomain k payload = some none) : s.takes p k payload := by
  rintro h rfl
  rw [exec_command, request_handed s p k payload hr (.inr hu) hn hl (.inl hd)]

theorem statusPayload_executing (s : State) (p : Port) : (s.enterExecuting p).statusPayload p = s.statusPayload p := by
  cases p <;> rfl

/-- COLLECT of the oldest record: the port's whole record after it. -/
theorem collect_answer (s : State) (p : Port) (r : Record) (rest : List Record) (h : (s.port p).queue = r :: rest) :
    ((handleCollect (s.enterExecuting p) p).1.answer p 0x02 (handleCollect (s.enterExecuting p) p).2) =
      s.setPort p { s.port p with
        phase := .answering, buffer := [], expected := 0, errorMark := false, outOfTurn := false, queue := rest,
        lost := (s.port p).lost && !rest.isEmpty,
        tx := resultFrame 0x02 0 (flagByte [!rest.isEmpty, rest.any Record.mustCollect, (s.port p).lost, (s.port p).outOfTurn])
          r.bytes } := by
  have hq : ((s.enterExecuting p).port p).queue = r :: rest := by rw [enterExecuting_queue, h]
  unfold handleCollect
  dsimp only
  rw [hq]
  dsimp only
  rw [State.answer, port_setPort_same, setPort_setPort, port_enterExecuting_same, State.enterExecuting, setPort_setPort]
  rfl

theorem handleRead_eq (s : State) {view page : Nat} (hview : view < 256) (hpage : page < 256) :
    handleRead s (payloadRead view page) =
      if 9 < view ∨ (view < 9 ∧ 0 < page) ∨ 25 < page then refuse s .badArg
      else (s, { result := .ok, payload := encU8 view ++ encU8 page ++ encU8 (if view < 9 then 1 else 26) ++ s.viewBody view page }) := by
  have hv : readU8 (payloadRead view page) 0 = view := readU8_encU8 hview _
  have hp : readU8 (payloadRead view page) 1 = page := readU8_encU8_last hpage
  unfold handleRead
  dsimp only
  rw [hv, hp, pageCount_eq]
  by_cases hnine : 9 < view
  · rw [if_pos hnine, if_pos (.inl hnine)]
  · rw [if_neg hnine]
    dsimp only
    by_cases hsmall : view < 9
    · rw [if_pos hsmall]
      exact if_congr (by omega) rfl rfl
    · rw [if_neg hsmall]
      exact if_congr (by omega) rfl rfl

theorem matchBytes_shape (s : State) (line : Fin 64) (w : Option (Fin 2)) : (matchBytes s line w).length = 21 ∧
    match w with
    | none => matchBytes s line w = 0xFF :: List.replicate 20 0
    | some way => (∀ k : Fin 8, ((matchBytes s line w).getD 2 0).getLsbD k.val = (pick (s.entry line way).segments k).isSome) ∧
        (matchBytes s line w).take 2 = encU8 way.val ++ encU8 (s.entry line way).state.code ∧
        ((matchBytes s line w).drop 3).take 3 =
          encU8 (s.entry line way).waiters.length ++ encU16 ((s.entry line way).fillTimer.getD 65535) ∧
        (matchBytes s line w).drop 6 = headerBytes (s.entry line way).header := by
  cases w with
  | none => exact ⟨rfl, rfl⟩
  | some way => exact ⟨by simp [matchBytes, length_headerBytes], validMask_getLsbD _, rfl, rfl, rfl⟩

theorem handleCueProbe_eq (s : State) {cue : Nat} (h : cue < 65536) :
    handleCueProbe s (payloadCue cue) =
      if cue = 0 ∨ 4095 < cue then refuse s .badArg
      else (s, {
          result := .ok
          payload := encU8 (cueLine cue).val ++ encU8 (cue / 64) ++
            encU8 (s.entry (cueLine cue) 0).state.code ++ encU8 (s.entry (cueLine cue) 0).tag ++
            encU8 (s.entry (cueLine cue) 1).state.code ++ encU8 (s.entry (cueLine cue) 1).tag ++
            encU8 (pick s.store (cueLine cue)).lru.val ++ matchBytes s (cueLine cue) (s.wayOf cue) }) := by
  have hcue : readU16 (payloadCue cue) 0 = cue := readU16_encU16_last h
  unfold handleCueProbe
  dsimp only
  rw [hcue]
  refine if_congr ?_ rfl rfl
  simp only [validCue, Bool.not_eq_true', Bool.and_eq_false_iff, decide_eq_false_iff_not]
  omega

theorem matchBytes_executing (s : State) (p : Port) (line : Fin 64) (w : Option (Fin 2)) :
    matchBytes (s.enterExecuting p) line w = matchBytes s line w := by
  cases p <;> rfl

/-- Settles O52. -/
theorem readingRequestsChangeOnlyThePort : Obligations.ReadingRequestsChangeOnlyThePort := by
  intro p s q counts conditions kinds
  refine ⟨fun r => ⟨record_mustCollect r, ?_⟩, fun hr => ⟨?_, fun hempty => ?_, fun r rest hq => ?_, fun view page hview hpage => ?_⟩,
    fun hmay cue hcue => ?_⟩
  · have hcode : r.kind.code = kinds.idxOf r.kind + 1 := by cases r.kind <;> rfl
    rw [Record.bytes, encBit_eq, hcode]
  · have ht : s.takes p .status [] := takes_of_ready .status hr rfl (by simp) rfl rfl
    refine ht (s.enterExecuting p, { result := .ok, payload := counts ++ conditions }) (congrArg (fun bs => (_, Answer.mk _ bs _)) ?_)
    exact statusPayload_executing s p
  · have ht : s.takes p .collect [] := takes_of_ready .collect hr rfl (by simp) rfl rfl
    refine ht.refused (r := .empty) ?_
    unfold State.handOver handleCollect
    dsimp only
    rw [enterExecuting_queue, hempty]
  · have ht : s.takes p .collect [] := takes_of_ready .collect hr rfl (by simp) rfl rfl
    exact (ht _ rfl).trans (congrArg _ (collect_answer s p r rest hq))
  · have ht : s.takes p .read (payloadRead view page) := takes_of_ready .read hr rfl (by simp [payloadRead]) rfl rfl
    have hread := handleRead_eq (s.enterExecuting p) hview hpage
    by_cases hbad : 9 < view ∨ (view < 9 ∧ 0 < page) ∨ 25 < page
    · rw [if_pos hbad] at hread ⊢
      exact ht.refused hread
    · rw [if_neg hbad] at hread ⊢
      rw [viewBody_enterExecuting] at hread
      have hshape := page_view s (view := view) (page := page) (by omega) (by omega) (by omega)
      exact ⟨_, ht _ hread, hshape.length, fun f hf => (hshape.places f hf).2⟩
  · have ht : s.takes p .cueProbe (payloadCue cue) := takes_of_mayCommand .cueProbe hmay (by simp [payloadCue]) rfl rfl
    have hprobe := handleCueProbe_eq (s.enterExecuting p) hcue
    by_cases hbad : cue = 0 ∨ 4095 < cue
    · rw [if_pos hbad] at hprobe ⊢
      exact ht.refused hprobe
    · rw [if_neg hbad] at hprobe ⊢
      rw [matchBytes_executing] at hprobe
      have hway : (s.enterExecuting p).wayOf cue = s.wayOf cue := by cases p <;> rfl
      have hstore : (s.enterExecuting p).store = s.store := by cases p <;> rfl
      simp only [enterExecuting_entry, hway, hstore] at hprobe
      obtain ⟨hlen, hshape⟩ := matchBytes_shape s (cueLine cue) (s.wayOf cue)
      refine ⟨_, ht _ hprobe, hlen, ?_⟩
      cases hw : s.wayOf cue with
      | none =>
        rw [hw] at hshape
        exact hshape
      | some way =>
        rw [hw] at hshape
        obtain ⟨hmask, hhead, hcounts, hheader⟩ := hshape
        refine ⟨hmask, hhead, hcounts, ?_⟩
        cases hh : (s.entry (cueLine cue) way).header with
        | none => exact hheader.trans (congrArg headerBytes hh)
        | some h => exact hheader.trans (congrArg headerBytes hh)

end Sys2Proof.Machine
end

