-- ==== Sys2Proof/Proofs/RoundShares.lean ====
section
/-! PROOFS. The shares of a tier (R67, R68): what each claim gets, and that a tier never takes more than the supply. -/

namespace Sys2Proof.Machine

/-! ### The remainder -/

theorem length_spread (l : List (Nat × Nat)) (rest : Nat) : (spread rest l).length = l.length := by
  induction l generalizing rest with
  | nil => rfl
  | cons x l ih =>
    unfold spread
    split
    · exact congrArg (· + 1) (ih _)
    · exact congrArg (· + 1) (ih _)

/-- One kW of the remainder goes to a claim that asks for heat while fewer such claims stand before it than there are kW. -/
theorem spread_getElem? (l : List (Nat × Nat)) (rest i : Nat) {r g : Nat} (h : l[i]? = some (r, g)) : (spread rest l)[i]? =
    some (g + if 0 < r ∧ (l.take i).countP (fun x => decide (0 < x.1)) < rest then 1 else 0) := by
  induction l generalizing rest i with
  | nil => simp at h
  | cons x l ih =>
    obtain ⟨r₀, g₀⟩ := x
    unfold spread
    cases i with
    | zero =>
      obtain ⟨rfl, rfl⟩ : r₀ = r ∧ g₀ = g := by simpa using h
      by_cases hgets : 0 < r₀ ∧ 0 < rest
      · simp [hgets]
      · have hnot : (decide (0 < r₀) && decide (0 < rest)) = false := by simpa using hgets
        simp [hnot, hgets]
    | succ i =>
      have hl : l[i]? = some (r, g) := by simpa using h
      by_cases hgets : 0 < r₀ ∧ 0 < rest
      · have hrest : ∀ n, n < rest - 1 ↔ n + 1 < rest := fun n => by omega
        simp [hgets, ih _ _ hl, hrest]
      · have hnot : (decide (0 < r₀) && decide (0 < rest)) = false := by simpa using hgets
        simp only [hnot, Bool.false_eq_true, if_false, List.getElem?_cons_succ, ih _ _ hl, List.take_succ_cons, List.countP_cons,
          decide_eq_true_eq]
        refine congrArg (fun k => some (g + k)) (if_congr ?_ rfl rfl)
        split <;> omega

theorem sum_spread_le (l : List (Nat × Nat)) (rest : Nat) : (spread rest l).sum ≤ (l.map Prod.snd).sum + rest := by
  induction l generalizing rest with
  | nil => simp [spread]
  | cons x l ih =>
    obtain ⟨r, g⟩ := x
    have hmore := ih (rest - 1)
    have hsame := ih rest
    unfold spread
    split
    · next hgets =>
      have hrest : 0 < rest := by simp_all
      simp only [List.sum_cons, List.map_cons]
      omega
    · simp only [List.sum_cons, List.map_cons]
      omega

/-! ### A tier -/

theorem sum_map_div_le {α : Type} (l : List α) (f : α → Nat) (n : Nat) : (l.map fun x => f x / n).sum ≤ (l.map f).sum / n := by
  induction l with
  | nil => simp
  | cons x l ih =>
    simp only [List.map_cons, List.sum_cons]
    exact (Nat.add_le_add_left ih _).trans (Nat.div_add_div_le_add_div ..)

/-- The floors of the proportional shares do not exceed the supply. -/
theorem sum_floors_le (supply : Nat) (requests : List Nat) :
    (requests.map fun r => supply * r / requests.sum).sum ≤ supply := by
  refine (sum_map_div_le requests (supply * ·) _).trans ?_
  rw [List.sum_map_mul_left (f := fun r => r), List.map_id']
  exact Nat.div_le_of_le_mul (Nat.le_of_eq (Nat.mul_comm ..))

theorem sum_tierShares_le (supply : Nat) (requests : List Nat) : (tierShares supply requests).sum ≤ supply := by
  unfold tierShares
  dsimp only
  split
  · assumption
  · refine (sum_spread_le _ _).trans ?_
    rw [List.map_snd_zip (by simp)]
    have := sum_floors_le supply requests
    omega

/-- The share of a claim in a tier, by its place. -/
def tierShare (supply : Nat) (requests : List Nat) (i r : Nat) : Nat :=
  if requests.sum ≤ supply then r
  else supply * r / requests.sum + if 0 < r ∧ (requests.take i).countP (fun r => decide (0 < r)) <
    supply - (requests.map fun r => supply * r / requests.sum).sum then 1 else 0

theorem tierShares_getElem? (supply : Nat) (requests : List Nat) (i : Nat) {r : Nat} (h : requests[i]? = some r) :
    (tierShares supply requests)[i]? = some (tierShare supply requests i r) := by
  unfold tierShares tierShare
  dsimp only
  split
  · exact h
  · have hzip : (requests.zip (requests.map fun r => supply * r / requests.sum))[i]? = some (r, supply * r / requests.sum) := by
      rw [List.getElem?_zip_eq_some, List.getElem?_map, h]
      exact ⟨rfl, rfl⟩
    have hasks : ((requests.zip (requests.map fun r => supply * r / requests.sum)).take i).map Prod.fst = requests.take i := by
      rw [List.map_take, List.map_fst_zip (by simp)]
    rw [spread_getElem? _ _ i hzip, ← hasks, List.countP_map]
    rfl

theorem tierShare_le {supply : Nat} {requests : List Nat} {i r : Nat} :
    tierShare supply requests i r ≤ r := by
  unfold tierShare
  split
  · exact le_rfl
  · next hshort =>
    split
    · next hr =>
      have hbelow : supply * r / requests.sum < r :=
        Nat.div_lt_of_lt_mul (Nat.mul_lt_mul_of_pos_right (Nat.lt_of_not_le hshort) hr.1)
      omega
    · exact Nat.div_le_of_le_mul (Nat.mul_le_mul_right r (Nat.le_of_lt (Nat.lt_of_not_le hshort)))

theorem atLeast_le (least grant : Nat) : atLeast least grant ≤ grant := by
  unfold atLeast
  split <;> omega

theorem tierGrants_getElem? (supply : Nat) (claims : List (Nat × Nat)) (i : Nat) {r m : Nat} (h : claims[i]? = some (r, m)) :
    (tierGrants supply claims)[i]? = some (atLeast m (tierShare supply (claims.map Prod.fst) i r)) := by
  have hshare := tierShares_getElem? supply (claims.map Prod.fst) i (r := r) (by rw [List.getElem?_map, h]; rfl)
  have hzip : ((claims.map Prod.snd).zip (tierShares supply (claims.map Prod.fst)))[i]? =
      some (m, tierShare supply (claims.map Prod.fst) i r) := by
    rw [List.getElem?_zip_eq_some, List.getElem?_map, h]
    exact ⟨rfl, hshare⟩
  rw [tierGrants, List.getElem?_map, hzip]
  rfl

theorem length_tierGrants (supply : Nat) (claims : List (Nat × Nat)) : (tierGrants supply claims).length = claims.length := by
  have hshares : (tierShares supply (claims.map Prod.fst)).length = claims.length := by
    unfold tierShares
    dsimp only
    split
    · exact List.length_map ..
    · simp [length_spread]
  simp [tierGrants, hshares]

theorem sum_tierGrants_le (supply : Nat) (claims : List (Nat × Nat)) : (tierGrants supply claims).sum ≤ supply := by
  refine le_trans ?_ (sum_tierShares_le supply (claims.map Prod.fst))
  have hzip : ∀ ms gs : List Nat, ((ms.zip gs).map fun x => atLeast x.1 x.2).sum ≤ gs.sum := fun ms gs => by
    induction ms generalizing gs with
    | nil => simp
    | cons m ms ih =>
      cases gs with
      | nil => simp
      | cons g gs => exact Nat.add_le_add (atLeast_le m g) (ih gs)
  exact hzip _ _

/-- A tier of one claim: what there is, up to the request, or nothing below the minimum. -/
theorem tierGrants_one (supply r m : Nat) : tierGrants supply [(r, m)] = [atLeast m (min supply r)] := by
  have hshare : tierShare supply [r] 0 r = min supply r := by
    unfold tierShare
    by_cases h : r ≤ supply
    · simp [h]
    · have hr : 0 < r := by omega
      simp [h, hr, Nat.mul_div_cancel supply hr]
      omega
  refine List.ext_getElem? fun i => ?_
  cases i with
  | zero => exact (tierGrants_getElem? supply [(r, m)] 0 rfl).trans (congrArg (fun g => some (atLeast m g)) hshare)
  | succ i => simp [tierGrants, tierShares]

end Sys2Proof.Machine
end

