-- ==== Sys2Proof/Proofs/PoolStages.lean ====
section
/-! PROOFS. The stages of an allocation round, one by one (R59 to R71, R81): what each makes of the claims, the zones and the pool. -/

namespace Sys2Proof.Machine

/-! ### Claims changed in turn -/

/-- Nothing but the claims differs. -/
def ClaimsOnly (s t : State) : Prop := t = { s with pool := { s.pool with claims := t.pool.claims } }

theorem ClaimsOnly.refl (s : State) : ClaimsOnly s s := rfl

theorem ClaimsOnly.trans {a b c : State} (h : ClaimsOnly a b) (k : ClaimsOnly b c) : ClaimsOnly a c := by
  unfold ClaimsOnly at *
  rw [k, h]

theorem claimsOnly_setClaim (s : State) (c : Fin 8) (x : Claim) : ClaimsOnly s (s.setClaim c x) := rfl

theorem claim_setClaim (s : State) (c d : Fin 8) (x : Claim) : (s.setClaim c x).claim d = if d = c then x else s.claim d :=
  pick_put ..

section
variable {α : Type} (key : α → Fin 8) (G : α → Claim → Claim)

/-- The claims that a list names are changed in turn. -/
def State.reclaimed (s : State) (l : List α) : State := l.foldl (fun t a => t.setClaim (key a) (G a (t.claim (key a)))) s

theorem claimsOnly_reclaimed (l : List α) (s : State) : ClaimsOnly s (s.reclaimed key G l) :=
  foldl_related ClaimsOnly.refl ClaimsOnly.trans _ (fun t a => claimsOnly_setClaim t (key a) _) l s

theorem claim_reclaimed_of_not_mem {c : Fin 8} (l : List α) (hc : ∀ a ∈ l, c ≠ key a) (s : State) :
    (s.reclaimed key G l).claim c = s.claim c := by
  induction l generalizing s with
  | nil => rfl
  | cons a l ih =>
    refine (ih (fun b hb => hc b (List.mem_cons_of_mem a hb)) _).trans ?_
    exact claim_setClaim_other _ _ (hc a List.mem_cons_self)

theorem claim_reclaimed [DecidableEq α] (hkey : Function.Injective key) {l : List α} (hl : l.Nodup) (s : State) {a : α} (ha : a ∈ l) :
    (s.reclaimed key G l).claim (key a) = G a (s.claim (key a)) :=
  (get_foldl _ (fun t b => t.claim (key b)) (fun _ => True) (fun _ _ _ => trivial)
    (fun _ _ _ _ hne => claim_setClaim_other _ _ fun h => hne (hkey h)) G (fun t b _ => claim_setClaim_same t (key b) _) l hl s trivial
    a).trans (if_pos ha)

end

/-! ### Demand (R60, R81) -/

theorem demand_eq (s : State) (z : Fin 4) : s.demand z = s.demandAt z := by
  have hset : s.effectiveSet (s.zone z) = if (s.zone z).occupied = true ∧ s.surface.mode ≠ .hold then (s.zone z).occupiedSet
      else (s.zone z).setbackSet := by
    unfold State.effectiveSet
    by_cases ho : (s.zone z).occupied = true
    · by_cases hm : s.surface.mode = .hold <;> simp [ho, hm]
    · simp [ho]
  unfold State.demand State.demandAt
  dsimp only
  rw [hset]
  cases s.published (probeZone z) with
  | none => rfl
  | some air => exact if_congr (by omega) rfl rfl

/-- Nothing but the zones' records differs. -/
def ZoneRecordsOnly (s t : State) : Prop := t = { s with zones := t.zones }

theorem ZoneRecordsOnly.trans {a b c : State} (h : ZoneRecordsOnly a b) (k : ZoneRecordsOnly b c) : ZoneRecordsOnly a c := by
  unfold ZoneRecordsOnly at *
  rw [k, h]

theorem zoneRecordsOnly_setZone (s : State) (z : Fin 4) (x : Zone) : ZoneRecordsOnly s (s.setZone z x) := rfl

theorem mem_all4 (z : Fin 4) : z ∈ all4 := by fin_cases z <;> decide

section
variable (f : State → Fin 4 → Zone)

theorem zoneRecordsOnly_foldl (l : List (Fin 4)) (s : State) : ZoneRecordsOnly s (l.foldl (fun t z => t.setZone z (f t z)) s) :=
  foldl_related (R := ZoneRecordsOnly) (fun _ => rfl) ZoneRecordsOnly.trans _ (fun t z => zoneRecordsOnly_setZone t z _) l s

/-- Each zone is set once, by what its own record then is. -/
theorem zone_foldl_setZone (g : Fin 4 → Zone → Zone) (s : State) (hf : ∀ t z, ZoneRecordsOnly s t → f t z = g z (t.zone z)) (z : Fin 4) :
    (all4.foldl (fun t z => t.setZone z (f t z)) s).zone z = g z (s.zone z) :=
  (get_foldl (fun t z => t.setZone z (f t z)) State.zone (ZoneRecordsOnly s) (fun _ _ h => h.trans rfl)
    (fun _ _ _ _ hne => zone_setZone_other _ _ hne) g (fun t x h => (zone_setZone_same t x _).trans (hf t x h)) all4 nodup_all4 s rfl
    z).trans (if_pos (mem_all4 z))

end

theorem updateDemand_frame (s : State) : ZoneRecordsOnly s s.updateDemand := zoneRecordsOnly_foldl _ all4 s

theorem zone_updateDemand (s : State) (z : Fin 4) : s.updateDemand.zone z = { s.zone z with request := s.demandAt z } := by
  refine zone_foldl_setZone (fun t z => { t.zone z with request := t.demand z })
    (fun z zn => { zn with request := (s.setZone z zn).demandAt z }) s (fun t z h => ?_) z |>.trans ?_
  · rw [demand_eq, State.demandAt, State.demandAt, zone_setZone_same, h]
    rfl
  · rw [State.setZone, State.zone, put_pick]

theorem demanded_frame (s : State) : s.demanded =
    { s with zones := s.demanded.zones, pool := { s.pool with subsoilDemand := s.nextSubsoilDemand } } := by
  unfold State.demanded
  rw [updateDemand_frame s]
  rfl

theorem zone_demanded (s : State) (z : Fin 4) : s.demanded.zone z = { s.zone z with request := s.demandAt z } :=
  zone_updateDemand s z

/-! ### Claims and supply (R59, R61, R65, R66) -/

theorem fixClaims_eq (s : State) : s.fixClaims = s.reclaimed (fun c => c)
    (fun c x => { x with request := s.fixedRequest c, minimum := s.fixedMinimum c }) claimants := by
  unfold State.fixClaims State.reclaimed
  rfl

theorem claimsOnly_fixClaims (s : State) : ClaimsOnly s s.fixClaims := by
  rw [fixClaims_eq]
  exact claimsOnly_reclaimed _ _ claimants s

theorem claim_fixClaims (s : State) {c : Fin 8} (hc : c ∈ claimants) :
    s.fixClaims.claim c = { s.claim c with request := s.fixedRequest c, minimum := s.fixedMinimum c } := by
  rw [fixClaims_eq]
  exact claim_reclaimed _ _ Function.injective_id (by decide) s hc

/-! ### The tiers (R67, R68) -/

theorem serveTier_one (acc : State × Nat) (c : Fin 8) :
    let grant := atLeast (acc.1.claim c).minimum (min acc.2 (acc.1.claim c).request)
    State.serveTier acc [c] = (acc.1.setClaim c { acc.1.claim c with grant := grant }, acc.2 - grant) := by
  intro grant
  unfold State.serveTier
  simp only [List.map_cons, List.map_nil, tierGrants_one]
  rfl

/-- A zone's share of tier 2 from a supply, by the requests and minimums that stand. -/
def State.shareFrom (s : State) (supply : Nat) (z : Fin 4) : Nat :=
  let request := fun y : Fin 4 => (s.claim (zoneConsumer y)).request
  let total := (all4.map request).sum
  let remainder := supply - (all4.map (fun y => supply * request y / total)).sum
  let before := (all4.filter (fun y => decide (y < z) && decide (0 < request y))).length
  let share :=
    if total ≤ supply then request z
    else supply * request z / total + if 0 < request z ∧ before < remainder then 1 else 0
  atLeast (s.claim (zoneConsumer z)).minimum share

theorem shareFrom_eq (s : State) (supply : Nat) (z : Fin 4) : s.shareFrom supply z = atLeast (s.claim (zoneConsumer z)).minimum
    (tierShare supply (all4.map fun y => (s.claim (zoneConsumer y)).request) z.val (s.claim (zoneConsumer z)).request) := by
  have hbefore : ∀ request : Fin 4 → Nat, (all4.filter fun y => decide (y < z) && decide (0 < request y)).length =
      ((all4.map request).take z.val).countP fun r => decide (0 < r) := fun request => by
    rw [← List.countP_eq_length_filter]
    fin_cases z <;> simp [all4, List.countP_cons]
  unfold State.shareFrom tierShare
  dsimp only
  rw [hbefore]
  simp only [List.map_map]
  rfl

theorem shareFrom_le (s : State) (supply : Nat) (z : Fin 4) : s.shareFrom supply z ≤ (s.claim (zoneConsumer z)).request := by
  rw [shareFrom_eq]
  exact (atLeast_le _ _).trans tierShare_le

theorem tier2_eq : tier2 = all4.map zoneConsumer := by decide

theorem zoneConsumer_injective : Function.Injective zoneConsumer := by decide

theorem tierGrants_zones (s : State) (supply : Nat) :
    tierGrants supply (tier2.map fun c => ((s.claim c).request, (s.claim c).minimum)) = all4.map (s.shareFrom supply) := by
  rw [tier2_eq, List.map_map]
  refine List.ext_getElem? fun i => ?_
  by_cases hi : i < 4
  · have hz : all4[i]? = some ⟨i, hi⟩ := by
      have hall : ∀ z : Fin 4, all4[z.val]? = some z := by decide
      exact hall ⟨i, hi⟩
    rw [tierGrants_getElem? supply _ i (by rw [List.getElem?_map, hz]; rfl), List.getElem?_map, hz, List.map_map]
    exact congrArg some (shareFrom_eq s supply ⟨i, hi⟩).symm
  · rw [List.getElem?_eq_none (by simp [length_tierGrants, all4]; omega), List.getElem?_eq_none (by simp [all4]; omega)]

end Sys2Proof.Machine
end

