-- ==== Sys2Proof/Proofs/PoolRound.lean ====
section
/-! PROOFS. The allocation round as a whole (R59 to R71): the claims, grants, zones and figures of the state that it leaves, in terms
of that state. -/

namespace Sys2Proof.Machine

/-! ### Grants alone -/

/-- The claims keep all but their grants. -/
def Regranted (s t : State) : Prop := ∀ c, t.claim c = { s.claim c with grant := (t.claim c).grant }

theorem Regranted.trans {a b c : State} (h : Regranted a b) (k : Regranted b c) : Regranted a c := fun x => by
  rw [k x, h x]

theorem regranted_setClaim (s : State) (c : Fin 8) (grant : Nat) : Regranted s (s.setClaim c { s.claim c with grant := grant }) := by
  intro d
  rw [claim_setClaim]
  split
  · next h => rw [h]
  · rfl

theorem regranted_reclaimed {α : Type} (key : α → Fin 8) (G : α → Claim → Claim)
    (hG : ∀ a x, G a x = { x with grant := (G a x).grant }) (l : List α) (s : State) : Regranted s (s.reclaimed key G l) :=
  foldl_related (R := Regranted) (fun _ _ => rfl) Regranted.trans _
    (fun t a => by rw [hG a]; exact regranted_setClaim t (key a) _) l s

/-! ### Tier 2 -/

/-- The zones' claims take their shares of a supply. -/
def State.shared (s : State) (supply : Nat) : State :=
  s.reclaimed zoneConsumer (fun z x => { x with grant := s.shareFrom supply z }) all4

theorem serveTier_zones (acc : State × Nat) : State.serveTier acc tier2 =
    (acc.1.shared acc.2, acc.2 - (all4.map (acc.1.shareFrom acc.2)).sum) := by
  unfold State.serveTier
  dsimp only
  rw [tierGrants_zones, tier2_eq, List.zip_map', List.foldl_map]
  rfl

theorem regranted_shared (s : State) (supply : Nat) : Regranted s (s.shared supply) :=
  regranted_reclaimed _ _ (fun _ _ => rfl) all4 s

theorem claim_shared (s : State) (supply : Nat) (z : Fin 4) :
    (s.shared supply).claim (zoneConsumer z) = { s.claim (zoneConsumer z) with grant := s.shareFrom supply z } :=
  claim_reclaimed _ _ zoneConsumer_injective nodup_all4 s (mem_all4 z)

theorem claim_shared_other (s : State) (supply : Nat) {c : Fin 8} (hc : ∀ z, c ≠ zoneConsumer z) :
    (s.shared supply).claim c = s.claim c := claim_reclaimed_of_not_mem _ _ all4 (fun z _ => hc z) s

theorem claimsOnly_shared (s : State) (supply : Nat) : ClaimsOnly s (s.shared supply) := claimsOnly_reclaimed _ _ all4 s

theorem sum_shareFrom_le (s : State) (supply : Nat) : (all4.map (s.shareFrom supply)).sum ≤ supply := by
  rw [← tierGrants_zones]
  exact sum_tierGrants_le _ _

/-! ### The spill cap (R69) -/

/-- The grants of the zones on RECOVERED under the spill cap. -/
def State.cappedGrants (s : State) : State :=
  s.reclaimed zoneConsumer (fun z x => if (s.zone z).source = .recovered then { x with grant := s.capped s.spillBudgetNow z } else x)
    all4

/-- The spill of the delivered heat. -/
def State.cappedSpill (s : State) : Nat := (all4.map fun z => s.capped s.spillBudgetNow z * (s.zoneProfile z).spill).sum

theorem applyCap_eq (acc : State × Nat) :
    let s := acc.1
    let delivered := all4.foldl (fun t z => t.setZone z { t.zone z with delivered := s.capped s.spillBudgetNow z }) s.cappedGrants
    State.applyCap acc = ({ delivered with pool := { delivered.pool with spillBudget := s.spillBudgetNow, roundSpill := s.cappedSpill } },
      acc.2 + (all4.map fun z =>
        if (s.zone z).source = .recovered then (s.claim (zoneConsumer z)).grant - s.capped s.spillBudgetNow z else 0).sum) := by
  intro s delivered
  have hgrants : (all4.foldl (fun t z => if (s.zone z).source = .recovered then
      t.setClaim (zoneConsumer z) { t.claim (zoneConsumer z) with grant := s.capped s.spillBudgetNow z } else t) s) = s.cappedGrants := by
    unfold State.cappedGrants State.reclaimed
    refine List.foldl_ext _ _ s fun t z _ => ?_
    dsimp only
    by_cases hz : (s.zone z).source = .recovered
    · rw [if_pos hz, if_pos hz]
    · rw [if_neg hz, if_neg hz]
      unfold State.setClaim State.claim
      rw [put_pick]
  unfold State.applyCap
  dsimp only
  rw [hgrants]
  rfl

theorem claimsOnly_cappedGrants (s : State) : ClaimsOnly s s.cappedGrants := claimsOnly_reclaimed _ _ all4 s

theorem applyCap_frame (acc : State × Nat) : (State.applyCap acc).1 = { acc.1 with
    zones := (State.applyCap acc).1.zones
    pool := { acc.1.pool with
      claims := acc.1.cappedGrants.pool.claims, spillBudget := acc.1.spillBudgetNow, roundSpill := acc.1.cappedSpill } } := by
  rw [applyCap_eq]
  dsimp only
  rw [zoneRecordsOnly_foldl (fun t z => { t.zone z with delivered := acc.1.capped acc.1.spillBudgetNow z }) all4 acc.1.cappedGrants]
  dsimp only
  rw [claimsOnly_cappedGrants acc.1]

theorem zone_applyCap (acc : State × Nat) (z : Fin 4) :
    (State.applyCap acc).1.zone z = { acc.1.zone z with delivered := acc.1.capped acc.1.spillBudgetNow z } := by
  rw [applyCap_eq]
  refine (zone_foldl_setZone (fun t z => { t.zone z with delivered := acc.1.capped acc.1.spillBudgetNow z })
    (fun z zn => { zn with delivered := acc.1.capped acc.1.spillBudgetNow z }) acc.1.cappedGrants (fun _ _ _ => rfl) z).trans ?_
  rw [State.zone, State.zone, claimsOnly_cappedGrants acc.1]

theorem claim_applyCap (acc : State × Nat) (c : Fin 8) : (State.applyCap acc).1.claim c = acc.1.cappedGrants.claim c := by
  rw [State.claim, applyCap_frame]
  rfl

theorem regranted_applyCap (acc : State × Nat) : Regranted acc.1 (State.applyCap acc).1 := by
  intro c
  rw [claim_applyCap]
  exact regranted_reclaimed _ _ (fun z x => by split <;> rfl) all4 acc.1 c

theorem claim_applyCap_zone (acc : State × Nat) (z : Fin 4) : (State.applyCap acc).1.claim (zoneConsumer z) =
    if (acc.1.zone z).source = .recovered then
      { acc.1.claim (zoneConsumer z) with grant := acc.1.capped acc.1.spillBudgetNow z }
    else acc.1.claim (zoneConsumer z) := by
  rw [claim_applyCap]
  exact claim_reclaimed _ _ zoneConsumer_injective nodup_all4 acc.1 (mem_all4 z)

theorem claim_applyCap_other (acc : State × Nat) {c : Fin 8} (hc : ∀ z, c ≠ zoneConsumer z) :
    (State.applyCap acc).1.claim c = acc.1.claim c := by
  rw [claim_applyCap]
  exact claim_reclaimed_of_not_mem _ _ all4 (fun z _ => hc z) acc.1

/-! ### Storage and short rounds (R70, R71) -/

theorem countShorts_eq (s : State) : s.countShorts = s.reclaimed (fun c => c) (fun _ x => x.countShort) claimants := by
  unfold State.countShorts State.reclaimed
  rfl

theorem claimsOnly_countShorts (s : State) : ClaimsOnly s s.countShorts := by
  rw [countShorts_eq]
  exact claimsOnly_reclaimed _ _ claimants s

theorem claim_countShorts (s : State) {c : Fin 8} (hc : c ∈ claimants) : s.countShorts.claim c = (s.claim c).countShort := by
  rw [countShorts_eq]
  exact claim_reclaimed _ _ Function.injective_id (by decide) s hc

theorem claim_countShorts_storage (s : State) : s.countShorts.claim storage = s.claim storage := by
  rw [countShorts_eq]
  exact claim_reclaimed_of_not_mem _ _ claimants (by decide) s

end Sys2Proof.Machine
end

