-- ==== Sys2Proof/Proofs/AllocatedRound.lean ====
section
/-! PROOFS. The allocation round put together (R59 to R71): the claims, the zones and the figures that it leaves, each in terms of
the state that it leaves. -/

namespace Sys2Proof.Machine

section
variable (s : State)

/-! ### The chain of stages -/

/-- A round with SUBSOIL and DESICCANT served, and what is left of the supply. -/
@[irreducible] def State.firstServed : State × Nat := State.serveTier (State.serveTier s.supplied [subsoil]) [desiccant]

theorem tiered_eq : s.tiered =
    (s.firstServed.1.shared s.firstServed.2, s.firstServed.2 - (all4.map (s.firstServed.1.shareFrom s.firstServed.2)).sum) := by
  rw [State.tiered, ← State.firstServed, serveTier_zones]

/-- A round under the spill cap, and what is left of the supply. -/
@[irreducible] def State.capApplied : State × Nat := State.applyCap s.tiered

theorem capApplied_eq : s.capApplied = State.applyCap s.tiered := by unfold State.capApplied; rfl

theorem claimsOnly_firstServed : ClaimsOnly s.supplied.1 s.firstServed.1 := by
  unfold State.firstServed
  rw [serveTier_one, serveTier_one]
  exact (claimsOnly_setClaim _ _ _).trans (claimsOnly_setClaim _ _ _)

theorem claimsOnly_tiered : ClaimsOnly s.supplied.1 s.tiered.1 := by
  rw [tiered_eq]
  exact (claimsOnly_firstServed s).trans (claimsOnly_shared _ _)

theorem regranted_firstServed : Regranted s.supplied.1 s.firstServed.1 := by
  unfold State.firstServed
  rw [serveTier_one, serveTier_one]
  exact (regranted_setClaim _ _ _).trans (regranted_setClaim _ _ _)

theorem regranted_tiered : Regranted s.supplied.1 s.tiered.1 := by
  rw [tiered_eq]
  exact (regranted_firstServed s).trans (regranted_shared _ _)

/-- What the round gives RESURF_WATER. -/
def State.resurfGrant : Nat :=
  atLeast (s.capApplied.1.claim resurfWater).minimum (min s.capApplied.2 (s.capApplied.1.claim resurfWater).request)

/-- What the round charges. -/
def State.roundCharge : Nat := if s.capApplied.1.pool.drawn = 0 then s.capApplied.2 - s.resurfGrant else 0

/-- A round with RESURF_WATER served. -/
def State.lastServed : State := s.capApplied.1.setClaim resurfWater { s.capApplied.1.claim resurfWater with grant := s.resurfGrant }

/-- Storage takes what is left, if nothing was drawn. -/
def State.charged (u : State) (charge : Nat) : State :=
  ({ u with pool := { u.pool with charge := charge, discharging := decide (0 < u.pool.drawn) } } : State).setClaim storage
    { u.claim storage with grant := charge }

theorem chargeStorage_eq (u : State) (left : Nat) :
    State.chargeStorage (u, left) = u.charged (if u.pool.drawn = 0 then left else 0) := rfl

theorem drawn_lastServed : s.lastServed.pool.drawn = s.capApplied.1.pool.drawn := rfl

theorem stored_eq : s.stored = s.lastServed.charged s.roundCharge := by
  have hserve : State.serveTier s.capApplied [resurfWater] = (s.lastServed, s.capApplied.2 - s.resurfGrant) :=
    serveTier_one s.capApplied resurfWater
  have hstored : s.stored = State.chargeStorage (State.serveTier s.capApplied [resurfWater]) := by
    rw [capApplied_eq]
    rfl
  rw [hstored, hserve, chargeStorage_eq, drawn_lastServed, State.roundCharge]

/-- A state with its round counted and the timer started again. -/
def State.roundCounted (u : State) : State :=
  { u with pool := { u.pool with roundTimer := some 5000, roundCount := u.pool.roundCount + 1 } }

theorem allocate_counted : s.allocate = (s.lastServed.charged s.roundCharge).countShorts.roundCounted := by
  rw [← stored_eq]
  exact allocate_eq s

theorem pool_charged (u : State) (charge : Nat) : (u.charged charge).pool = { u.pool with
    claims := (u.charged charge).pool.claims, charge := charge, discharging := decide (0 < u.pool.drawn) } := rfl

theorem pool_countShorts (u : State) : u.countShorts.pool = { u.pool with claims := u.countShorts.pool.claims }  := by
  have hframe := claimsOnly_countShorts u
  generalize u.countShorts = counted at hframe ⊢
  exact (congrArg State.pool hframe :)

theorem pool_roundCounted (u : State) :
    u.roundCounted.pool = { u.pool with roundTimer := some 5000, roundCount := u.pool.roundCount + 1 } := rfl

theorem pool_setClaim (u : State) (c : Fin 8) (x : Claim) :
    (u.setClaim c x).pool = { u.pool with claims := (u.setClaim c x).pool.claims } := rfl

theorem pool_lastServed : s.lastServed.pool = { s.capApplied.1.pool with claims := s.lastServed.pool.claims } := by
  unfold State.lastServed
  exact pool_setClaim ..

theorem pool_capApplied : s.capApplied.1.pool = { s.supplied.1.pool with
    claims := s.capApplied.1.pool.claims
    spillBudget := s.tiered.1.spillBudgetNow, roundSpill := s.tiered.1.cappedSpill } := by
  have hframe := claimsOnly_tiered s
  have hcap := applyCap_frame s.tiered
  rw [← capApplied_eq] at hcap
  generalize s.capApplied = capped at hcap ⊢
  generalize s.tiered = tiered at hframe hcap ⊢
  generalize s.supplied = supplied at hframe ⊢
  rw [hcap, hframe]

/-- The figures of a round. -/
theorem allocate_pool : s.allocate.pool = { s.supplied.1.pool with
    claims := s.allocate.pool.claims
    spillBudget := s.tiered.1.spillBudgetNow, roundSpill := s.tiered.1.cappedSpill
    charge := s.roundCharge, discharging := decide (0 < s.supplied.1.pool.drawn)
    roundTimer := some 5000, roundCount := s.supplied.1.pool.roundCount + 1 } := by
  rw [allocate_counted, pool_roundCounted, pool_countShorts, pool_charged, pool_lastServed, pool_capApplied]

theorem zones_countShorts (u : State) : u.countShorts.zones = u.zones := (congrArg State.zones (claimsOnly_countShorts u) :)

theorem zones_charged (u : State) (charge : Nat) : (u.charged charge).zones = u.zones := rfl

theorem zone_allocate (z : Fin 4) : s.allocate.zone z = s.capApplied.1.zone z := by
  have hzones : s.allocate.zones = s.capApplied.1.zones := by
    rw [allocate_counted]
    exact (zones_countShorts _).trans (zones_charged s.lastServed s.roundCharge)
  exact congrArg (fun zs => pick zs z) hzones

/-! ### The claims of a round -/

theorem claim_charged_other (u : State) (charge : Nat) {c : Fin 8} (hc : c ≠ storage) : (u.charged charge).claim c = u.claim c :=
  claim_setClaim_other _ _ hc

theorem claim_roundCounted (u : State) (c : Fin 8) : u.roundCounted.claim c = u.claim c := rfl

theorem claim_allocate {c : Fin 8} (hc : c ∈ claimants) : s.allocate.claim c = (s.lastServed.claim c).countShort := by
  have hstorage : c ≠ storage := by rintro rfl; exact absurd hc (by decide)
  rw [allocate_counted, claim_roundCounted, claim_countShorts _ hc, claim_charged_other _ _ hstorage]

theorem claim_allocate_storage : (s.allocate.claim storage).grant = s.roundCharge := by
  rw [allocate_counted, claim_roundCounted, claim_countShorts_storage, State.charged, claim_setClaim_same]

theorem claim_lastServed {c : Fin 8} (hc : c ≠ resurfWater) : s.lastServed.claim c = s.capApplied.1.claim c :=
  claim_setClaim_other _ _ hc

theorem regranted_lastServed : Regranted s.supplied.1 s.lastServed := by
  have hcap := regranted_applyCap s.tiered
  rw [← capApplied_eq] at hcap
  exact ((regranted_tiered s).trans hcap).trans (regranted_setClaim _ _ _)

theorem claim_supplied {c : Fin 8} (hc : c ∈ claimants) : s.supplied.1.claim c = { s.claim c with
    request := s.demanded.fixedRequest c, minimum := s.demanded.fixedMinimum c } := by
  have hclaim : s.demanded.claim c = s.claim c := by
    rw [State.claim, demanded_frame]
    rfl
  have hsupplied : ∀ u : State, u.formSupply.1.claim c = u.claim c := fun _ => rfl
  rw [State.supplied, hsupplied, claim_fixClaims _ hc, hclaim]

/-- A claim after a round: the request and minimum that the round fixed, its grant, and its short rounds. -/
theorem claim_allocated {c : Fin 8} (hc : c ∈ claimants) : s.allocate.claim c = { s.claim c with
    request := s.demanded.fixedRequest c, minimum := s.demanded.fixedMinimum c
    grant := (s.lastServed.claim c).grant
    shortCount := if (s.lastServed.claim c).grant < s.demanded.fixedRequest c then countTo 255 (s.claim c).shortCount else 0 } := by
  rw [claim_allocate s hc, regranted_lastServed s c, claim_supplied s hc, Claim.countShort]

theorem grant_allocate {c : Fin 8} (hc : c ∈ claimants) : (s.allocate.claim c).grant = (s.lastServed.claim c).grant := by
  rw [claim_allocated s hc]

theorem request_allocate {c : Fin 8} (hc : c ∈ claimants) : (s.allocate.claim c).request = (s.supplied.1.claim c).request := by
  rw [claim_allocated s hc, claim_supplied s hc]

theorem minimum_allocate {c : Fin 8} (hc : c ∈ claimants) : (s.allocate.claim c).minimum = (s.supplied.1.claim c).minimum := by
  rw [claim_allocated s hc, claim_supplied s hc]

end

end Sys2Proof.Machine
end

