-- ==== Sys2Proof/Proofs/RoundFigures.lean ====
section
/-! PROOFS. What an allocation round leaves (R59 to R71), said of the state that it leaves. -/

namespace Sys2Proof.Machine

/-! ### Delivered heat -/

/-- A zone's heat before the spill cap: its share on RECOVERED, its request on BOILER. -/
def State.roundOffered (t : State) (z : Fin 4) : Nat :=
  match (t.zone z).source with
  | .off => 0
  | .recovered => t.zoneShare z
  | .boiler => (t.zone z).request

/-- The least that the spill cap leaves a zone. -/
def State.roundLeast (t : State) (z : Fin 4) : Nat :=
  match (t.zone z).source with
  | .off => 0
  | .recovered => (t.claim (zoneConsumer z)).minimum
  | .boiler => min (pick t.building.zones z).min (t.zone z).request

/-- The zones' spill before the cap. -/
def State.roundSpillAsked (t : State) : Nat := (all4.map fun z => t.roundOffered z * (pick t.building.zones z).spill).sum

/-- A zone's heat reduced to the spill budget. -/
def State.roundReduced (t : State) (z : Fin 4) : Nat :=
  if t.pool.spillBudget = 0 then 0
  else if t.pool.spillBudget < t.roundSpillAsked then t.roundOffered z * t.pool.spillBudget / t.roundSpillAsked
  else t.roundOffered z

/-- A zone's delivered heat under the spill cap. -/
def State.roundDelivered (t : State) (z : Fin 4) : Nat := atLeast (t.roundLeast z) (t.roundReduced z)

theorem roundReduced_le (t : State) (z : Fin 4) : t.roundReduced z ≤ t.roundOffered z := by
  unfold State.roundReduced
  split
  · exact Nat.zero_le _
  · split
    · next h => exact Nat.div_le_of_le_mul (Nat.mul_comm _ _ ▸ Nat.mul_le_mul_right _ (Nat.le_of_lt h))
    · exact le_rfl

theorem roundDelivered_le (t : State) (z : Fin 4) : t.roundDelivered z ≤ t.roundOffered z :=
  (atLeast_le _ _).trans (roundReduced_le t z)

/-- The capped heat spills no more than the budget. -/
theorem roundSpill_le (t : State) : (all4.map fun z => t.roundDelivered z * (pick t.building.zones z).spill).sum ≤ t.pool.spillBudget := by
  have hreduced : (all4.map fun z => t.roundDelivered z * (pick t.building.zones z).spill).sum ≤
      (all4.map fun z => t.roundReduced z * (pick t.building.zones z).spill).sum :=
    List.sum_le_sum fun z _ => Nat.mul_le_mul_right _ (atLeast_le _ _)
  refine hreduced.trans ?_
  unfold State.roundReduced
  by_cases hnone : t.pool.spillBudget = 0
  · simp [hnone]
  by_cases hover : t.pool.spillBudget < t.roundSpillAsked
  · simp only [if_neg hnone, if_pos hover]
    have hdiv : ∀ z, t.roundOffered z * t.pool.spillBudget / t.roundSpillAsked * (pick t.building.zones z).spill ≤
        t.pool.spillBudget * (t.roundOffered z * (pick t.building.zones z).spill) / t.roundSpillAsked := fun z => by
      rw [Nat.mul_comm]
      refine (Nat.mul_div_le_mul_div_assoc _ _ _).trans (Nat.le_of_eq (congrArg (· / _) ?_))
      ring
    refine (List.sum_le_sum fun z _ => hdiv z).trans ((sum_map_div_le all4 _ _).trans ?_)
    rw [List.sum_map_mul_left]
    exact Nat.div_le_of_le_mul (Nat.le_of_eq (Nat.mul_comm ..))
  · simp only [if_neg hnone, if_neg hover]
    exact Nat.le_of_not_lt hover

/-! ### Shares in terms of the state left -/

theorem zoneShare_eq (t : State) (z : Fin 4) : t.zoneShare z = t.shareFrom t.zoneSupply z := rfl

/-- Shares go by requests and minimums alone. -/
theorem shareFrom_congr {u t : State} (hr : ∀ z, (t.claim (zoneConsumer z)).request = (u.claim (zoneConsumer z)).request)
    (hm : ∀ z, (t.claim (zoneConsumer z)).minimum = (u.claim (zoneConsumer z)).minimum) : t.shareFrom = u.shareFrom := by
  funext supply z
  unfold State.shareFrom
  simp only [hr, hm]

theorem zoneConsumer_mem (z : Fin 4) : zoneConsumer z ∈ claimants := by revert z; decide
theorem consumerZone_zoneConsumer (z : Fin 4) : consumerZone (zoneConsumer z) = some z := by revert z; decide
theorem zoneConsumer_ne (z : Fin 4) :
    subsoil ≠ zoneConsumer z ∧ desiccant ≠ zoneConsumer z ∧ resurfWater ≠ zoneConsumer z := by revert z; decide

section
variable (s : State)

theorem supply_eq : s.supplied.2 = s.supplied.1.pool.qAvail + s.supplied.1.pool.drawn := by
  have hform : ∀ u : State, u.formSupply.2 = u.formSupply.1.pool.qAvail + u.formSupply.1.pool.drawn := fun _ => rfl
  exact hform _

/-- What the round gives SUBSOIL. -/
def State.subsoilGrant : Nat := atLeast (s.supplied.1.claim subsoil).minimum (min s.supplied.2 (s.supplied.1.claim subsoil).request)

/-- What the round gives DESICCANT. -/
def State.desiccantGrant : Nat :=
  atLeast (s.supplied.1.claim desiccant).minimum (min (s.supplied.2 - s.subsoilGrant) (s.supplied.1.claim desiccant).request)

theorem firstServed_eq : s.firstServed =
    ((s.supplied.1.setClaim subsoil { s.supplied.1.claim subsoil with grant := s.subsoilGrant }).setClaim desiccant
      { s.supplied.1.claim desiccant with grant := s.desiccantGrant }, s.supplied.2 - s.subsoilGrant - s.desiccantGrant) := by
  unfold State.firstServed
  rw [serveTier_one, serveTier_one]
  dsimp only
  rw [claim_setClaim_other _ _ (by decide)]
  rfl

theorem claim_capApplied_other {c : Fin 8} (hc : ∀ z, c ≠ zoneConsumer z) : s.capApplied.1.claim c = s.firstServed.1.claim c := by
  rw [capApplied_eq, claim_applyCap_other _ hc, tiered_eq, claim_shared_other _ _ hc]

theorem subsoil_allocate : (s.allocate.claim subsoil).grant = s.subsoilGrant := by
  rw [grant_allocate s (by decide), claim_lastServed s (by decide), claim_capApplied_other s fun z => (zoneConsumer_ne z).1,
    firstServed_eq, claim_setClaim_other _ _ (by decide), claim_setClaim_same]

theorem desiccant_allocate : (s.allocate.claim desiccant).grant = s.desiccantGrant := by
  rw [grant_allocate s (by decide), claim_lastServed s (by decide), claim_capApplied_other s fun z => (zoneConsumer_ne z).2.1,
    firstServed_eq, claim_setClaim_same]

/-- The figures that the supply is formed from stand in the state left. -/
theorem supply_allocate : s.allocate.pool.qAvail + s.allocate.pool.drawn = s.supplied.2 := by
  rw [supply_eq, allocate_pool]

theorem zoneSupply_allocate : s.allocate.zoneSupply = s.firstServed.2 := by
  rw [State.zoneSupply, supply_allocate, subsoil_allocate, desiccant_allocate, firstServed_eq]

theorem shareFrom_allocate : s.allocate.shareFrom = s.firstServed.1.shareFrom := by
  refine shareFrom_congr (fun z => ?_) fun z => ?_
  · rw [request_allocate s (zoneConsumer_mem z), regranted_firstServed s]
  · rw [minimum_allocate s (zoneConsumer_mem z), regranted_firstServed s]

theorem zoneShare_allocate (z : Fin 4) : s.allocate.zoneShare z = s.firstServed.1.shareFrom s.firstServed.2 z := by
  rw [zoneShare_eq, zoneSupply_allocate, shareFrom_allocate]

theorem claim_tiered (z : Fin 4) : s.tiered.1.claim (zoneConsumer z) =
    { s.supplied.1.claim (zoneConsumer z) with grant := s.allocate.zoneShare z } := by
  rw [tiered_eq, claim_shared, ← zoneShare_allocate, regranted_firstServed s]

/-! ### The zones -/

theorem supplied_frame : s.supplied.1 = { s with zones := s.demanded.zones, pool := s.supplied.1.pool } := by
  have hform : ∀ u : State, u.formSupply.1 = { u with pool := u.formSupply.1.pool } := fun _ => rfl
  have hfixed := claimsOnly_fixClaims s.demanded
  have hdemanded := demanded_frame s
  rw [State.supplied, hform]
  generalize s.demanded.fixClaims = fixed at hfixed ⊢
  generalize s.demanded = demanded at hfixed hdemanded ⊢
  rw [hfixed, hdemanded]

theorem tiered_frame : s.tiered.1 = { s with zones := s.demanded.zones, pool := s.tiered.1.pool } := by
  have hframe := claimsOnly_tiered s
  have hsupplied := supplied_frame s
  generalize s.tiered.1 = tiered at hframe ⊢
  generalize s.supplied.1 = supplied at hframe hsupplied
  rw [hframe, hsupplied]

theorem zone_tiered (z : Fin 4) : s.tiered.1.zone z = { s.zone z with request := s.demandAt z } := by
  rw [← zone_demanded, State.zone, tiered_frame]
  rfl

theorem spillBudget_allocate : s.allocate.pool.spillBudget = s.governor.ceiling * s.plant.spillShare / 1000 := by
  rw [allocate_pool, State.spillBudgetNow, tiered_frame]

theorem budget_tiered : s.tiered.1.spillBudgetNow = s.allocate.pool.spillBudget := by rw [allocate_pool]

theorem profile_tiered (z : Fin 4) : s.tiered.1.zoneProfile z = pick s.building.zones z := by
  rw [State.zoneProfile, tiered_frame]

theorem zone_allocate_eq (z : Fin 4) : s.allocate.zone z =
    { s.zone z with request := s.demandAt z, delivered := s.tiered.1.capped s.allocate.pool.spillBudget z } := by
  rw [zone_allocate, capApplied_eq, zone_applyCap, zone_tiered, budget_tiered]

theorem offered_tiered (z : Fin 4) : s.tiered.1.offered z = s.allocate.roundOffered z := by
  unfold State.offered State.roundOffered
  rw [zone_tiered, zone_allocate_eq, claim_tiered]
  dsimp only
  cases (s.zone z).source <;> rfl

theorem least_tiered (z : Fin 4) : s.tiered.1.deliveredMinimum z = s.allocate.roundLeast z := by
  unfold State.deliveredMinimum State.roundLeast
  rw [zone_tiered, zone_allocate_eq, claim_tiered, profile_tiered, allocate_building, minimum_allocate s (zoneConsumer_mem z)]
  dsimp only
  cases (s.zone z).source <;> rfl

theorem spillAsked_tiered : s.tiered.1.zoneSpill = s.allocate.roundSpillAsked := by
  unfold State.zoneSpill State.roundSpillAsked
  simp only [offered_tiered, profile_tiered, allocate_building]

theorem capped_tiered (z : Fin 4) : s.tiered.1.capped s.allocate.pool.spillBudget z = s.allocate.roundDelivered z := by
  unfold State.capped State.roundDelivered State.roundReduced
  dsimp only
  rw [offered_tiered, least_tiered, spillAsked_tiered]

/-- A zone after a round's grants. -/
theorem zone_allocated (z : Fin 4) :
    s.allocate.zone z = { s.zone z with request := s.demandAt z, delivered := s.allocate.roundDelivered z } := by
  rw [zone_allocate_eq, capped_tiered]

theorem roundSpill_allocate : s.allocate.pool.roundSpill =
    (all4.map fun z => s.allocate.roundDelivered z * (pick s.building.zones z).spill).sum := by
  rw [allocate_pool, State.cappedSpill]
  simp only [budget_tiered, capped_tiered, profile_tiered]

/-- A zone that is not on RECOVERED asks the pool for nothing (R61). -/
theorem zoneShare_closed {z : Fin 4} (h : (s.zone z).source ≠ .recovered) : s.allocate.zoneShare z = 0 := by
  have hclosed : s.demanded.claimOpen (zoneConsumer z) = false := by
    unfold State.claimOpen
    rw [consumerZone_zoneConsumer]
    dsimp only
    rw [zone_demanded]
    simpa using h
  have hrequest : (s.allocate.claim (zoneConsumer z)).request = 0 := by
    rw [claim_allocated s (zoneConsumer_mem z), State.fixedRequest, hclosed]
    rfl
  have hle := shareFrom_le s.allocate s.allocate.zoneSupply z
  rw [hrequest] at hle
  exact Nat.le_zero.1 hle

theorem zoneGrant_allocate (z : Fin 4) : (s.allocate.claim (zoneConsumer z)).grant =
    if (s.zone z).source = .recovered then s.allocate.roundDelivered z else 0 := by
  rw [grant_allocate s (zoneConsumer_mem z), claim_lastServed s (zoneConsumer_ne z).2.2.symm, capApplied_eq, claim_applyCap_zone,
    zone_tiered, budget_tiered, capped_tiered, claim_tiered]
  dsimp only
  by_cases h : (s.zone z).source = .recovered
  · rw [if_pos h, if_pos h]
  · rw [if_neg h, if_neg h, zoneShare_closed s h]

theorem roundDelivered_le_share {z : Fin 4} (h : (s.zone z).source = .recovered) :
    s.allocate.roundDelivered z ≤ s.allocate.zoneShare z := by
  refine (roundDelivered_le _ z).trans (Nat.le_of_eq ?_)
  unfold State.roundOffered
  rw [zone_allocated]
  dsimp only
  rw [h]

/-! ### What the zones leave -/

/-- What the zones' grants leave of the supply. -/
def State.afterZones (t : State) : Nat := t.zoneSupply - (all4.map fun z => (t.claim (zoneConsumer z)).grant).sum

theorem sum_zoneShare_le (t : State) : (all4.map t.zoneShare).sum ≤ t.zoneSupply := sum_shareFrom_le t t.zoneSupply

theorem zoneGrant_le (z : Fin 4) : (s.allocate.claim (zoneConsumer z)).grant ≤ s.allocate.zoneShare z := by
  rw [zoneGrant_allocate]
  split
  · next h => exact roundDelivered_le_share s h
  · exact Nat.zero_le _

theorem capApplied_left : s.capApplied.2 = s.allocate.afterZones := by
  have hfreed : ∀ z, (if (s.tiered.1.zone z).source = .recovered then
      (s.tiered.1.claim (zoneConsumer z)).grant - s.tiered.1.capped s.tiered.1.spillBudgetNow z else 0) =
      s.allocate.zoneShare z - (s.allocate.claim (zoneConsumer z)).grant := fun z => by
    rw [budget_tiered, capped_tiered, claim_tiered, zone_tiered, zoneGrant_allocate]
    dsimp only
    by_cases h : (s.zone z).source = .recovered
    · rw [if_pos h, if_pos h]
    · rw [if_neg h, if_neg h, zoneShare_closed s h]
  have hleft : s.tiered.2 = s.allocate.zoneSupply - (all4.map s.allocate.zoneShare).sum := by
    rw [tiered_eq, zoneSupply_allocate]
    exact congrArg (fun f => s.firstServed.2 - (all4.map f).sum) (funext fun z => (zoneShare_allocate s z).symm)
  have hshares := sum_zoneShare_le s.allocate
  have hgrants := zoneGrant_le s
  rw [capApplied_eq, applyCap_eq]
  dsimp only
  rw [hleft, State.afterZones]
  simp only [hfreed, all4, List.map_cons, List.map_nil, List.sum_cons, List.sum_nil] at hshares ⊢
  have h0 := hgrants 0
  have h1 := hgrants 1
  have h2 := hgrants 2
  have h3 := hgrants 3
  omega

theorem resurf_allocate : (s.allocate.claim resurfWater).grant =
    atLeast (s.allocate.claim resurfWater).minimum (min s.allocate.afterZones (s.allocate.claim resurfWater).request) := by
  have hclaim : s.capApplied.1.claim resurfWater = { s.supplied.1.claim resurfWater with
      grant := (s.capApplied.1.claim resurfWater).grant } := by
    rw [claim_capApplied_other s fun z => (zoneConsumer_ne z).2.2]
    exact regranted_firstServed s resurfWater
  have hgrant : (s.allocate.claim resurfWater).grant = s.resurfGrant := by
    rw [grant_allocate s (by decide), State.lastServed, claim_setClaim_same]
  rw [hgrant, State.resurfGrant, capApplied_left, hclaim, minimum_allocate s (by decide), request_allocate s (by decide)]

theorem charge_allocate : s.allocate.pool.charge =
    if s.allocate.pool.drawn = 0 then s.allocate.afterZones - (s.allocate.claim resurfWater).grant else 0 := by
  have hgrant : (s.allocate.claim resurfWater).grant = s.resurfGrant := by
    rw [grant_allocate s (by decide), State.lastServed, claim_setClaim_same]
  have hdrawn : s.capApplied.1.pool.drawn = s.allocate.pool.drawn := by rw [pool_capApplied, allocate_pool]
  have hcharge : s.allocate.pool.charge = s.roundCharge := by rw [allocate_pool]
  rw [hcharge, State.roundCharge, hdrawn, hgrant, capApplied_left]

end

end Sys2Proof.Machine
end

