-- ==== Sys2Proof/Proofs/RoundEnd.lean ====
section
/-! PROOFS. The end of an allocation round: what the zones make of it (R90 to R93), and what the round leaves alone. -/

namespace Sys2Proof.Machine

/-! ### The zones at a round end -/

/-- A zone whose counts the round has brought up to date: the automatic start, the fallback or the return (R91 to R93). -/
def Zone.switched (zn : Zone) (loopFail proven : Bool) : Zone :=
  match zn.source with
  | .off =>
    if 0 < zn.request ∧ (zn.switch = .steady ∧ zn.locked = false) ∧ loopFail = false then
      { zn with switch := .provingLoop 0, port := none } else zn
  | .recovered =>
    if zn.starved = 3 ∧ zn.switch = .steady ∧ zn.locked = false then
      (if proven = true then { zn with source := .boiler, port := none, fallback := true, starved := 0 }
       else { zn with switch := .provingBoiler 120, port := none, fallback := true, starved := 0 })
    else zn
  | .boiler =>
    if zn.fallback = true ∧ zn.surplus = 10 ∧ (zn.switch = .steady ∧ zn.locked = false) ∧ loopFail = false then
      { zn with switch := .provingLoop 0, port := none, surplus := 0 }
    else zn

section
variable (s : State) (z y : Fin 4)

/-- A zone set and then switched: the state that the fallback and the return begin with. -/
theorem zone_setZone_startSwitch (x : Zone) (toBoiler : Bool) (port : Option Port) :
    ((s.setZone z x).startSwitch z toBoiler port).zone y = if y = z then
      ({ x with switch := if toBoiler then .provingBoiler 120 else .provingLoop 0, port := port } : Zone).afterProven
        s.boilerProven else s.zone y := by
  rw [zone_startSwitch, zone_setZone_same, setZone_boilerProven]
  split
  · rfl
  · next h => rw [zone_setZone_other _ _ h]

theorem setZone_setZone (x x' : Zone) : (s.setZone z x).setZone z x' = s.setZone z x' := by
  unfold State.setZone
  rw [put_put]

theorem zone_zoneRoundEnd (r : ZoneRound) : (s.zoneRoundEnd z r).zone y =
    if y = z then ((s.zone z).counted r).switched s.pool.loopFail s.boilerProven else s.zone y := by
  unfold State.zoneRoundEnd
  dsimp only
  rw [zone_setZone_same, setZone_setZone, setZone_setZone]
  generalize (s.zone z).counted r = zn
  have hkept : (s.setZone z zn).zone y = if y = z then zn else s.zone y := zone_setZone ..
  have hfree : (zn.switch == .steady && !zn.locked) = true ↔ zn.switch = .steady ∧ zn.locked = false := by simp
  unfold Zone.switched
  cases hs : zn.source with
  | off =>
    dsimp only
    by_cases hgo : 0 < zn.request ∧ (zn.switch = .steady ∧ zn.locked = false) ∧ s.pool.loopFail = false
    · rw [if_pos (by simpa [and_assoc] using hgo), if_pos hgo, zone_setZone_startSwitch]
      exact if_congr Iff.rfl (by simp [Zone.afterProven, hs]) rfl
    · rw [if_neg (by simpa [and_assoc] using hgo), if_neg hgo]
      exact hkept
  | recovered =>
    dsimp only
    by_cases hgo : zn.starved = 3 ∧ zn.switch = .steady ∧ zn.locked = false
    · rw [if_pos (by simpa [and_assoc] using hgo), if_pos hgo, zone_setZone_startSwitch]
      refine if_congr Iff.rfl ?_ rfl
      cases hp : s.boilerProven <;> simp [Zone.afterProven, hgo.2.1]
    · rw [if_neg (by simpa [and_assoc] using hgo), if_neg hgo]
      exact hkept
  | boiler =>
    dsimp only
    by_cases hgo : zn.fallback = true ∧ zn.surplus = 10 ∧ (zn.switch = .steady ∧ zn.locked = false) ∧ s.pool.loopFail = false
    · rw [if_pos (by simpa [and_assoc] using hgo), if_pos hgo, zone_setZone_startSwitch]
      exact if_congr Iff.rfl (by simp [Zone.afterProven]) rfl
    · rw [if_neg (by simpa [and_assoc] using hgo), if_neg hgo]
      exact hkept

theorem zone_zonesEnded (rounds : Fin 4 → ZoneRound) :
    (s.zonesEnded rounds).zone z = ((s.zone z).counted (rounds z)).switched s.pool.loopFail s.boilerProven :=
  (get_foldl (fun t z => t.zoneRoundEnd z (rounds z)) State.zone (ZonesOnly s) (fun t x h => h.trans (zones_zoneRoundEnd t x _))
    (fun t x y _ hne => (zone_zoneRoundEnd t x y _).trans (if_neg hne))
    (fun x zn => (zn.counted (rounds x)).switched s.pool.loopFail s.boilerProven)
    (fun t x h => by rw [zone_zoneRoundEnd, if_pos rfl, h]) all4 nodup_all4 s (.refl s) z).trans (if_pos (mem_all4 z))

end

/-! ### What a round leaves alone -/

theorem handOn_frame (s : State) : s.handOn = { s with
    zones := s.handOn.zones, fog := s.handOn.fog, positioners := s.handOn.positioners, governor := s.handOn.governor
    channels := s.handOn.channels, slots := s.handOn.slots, store := s.handOn.store, ports := s.handOn.ports
    openChoices := s.handOn.openChoices } := by
  have hevaluated := lighting_evaluateRound s.aimed s.pool.roundSpill
  have haimed := positioners_aimed s
  have hzones := zones_zonesEnded (s.fogRoundEnd (s.claim desiccant).grant) s.zoneResult
  have hfog : s.fogRoundEnd (s.claim desiccant).grant = { s with fog := (s.fogRoundEnd (s.claim desiccant).grant).fog } := rfl
  rw [← handOn_eq] at hevaluated
  generalize s.handOn = t at hevaluated ⊢
  generalize s.aimed = u at hevaluated haimed
  generalize s.fogRoundEnd (s.claim desiccant).grant = w at hzones haimed hfog
  generalize w.zonesEnded s.zoneResult = v at hzones haimed
  rw [hevaluated, haimed, hzones, hfog]

theorem round_frame (s : State) : s.allocate.handOn = { s with
    pool := s.allocate.handOn.pool, zones := s.allocate.handOn.zones, fog := s.allocate.handOn.fog
    positioners := s.allocate.handOn.positioners, governor := s.allocate.handOn.governor
    channels := s.allocate.handOn.channels, slots := s.allocate.handOn.slots, store := s.allocate.handOn.store
    ports := s.allocate.handOn.ports, openChoices := s.allocate.handOn.openChoices } := by
  have hhanded := handOn_frame s.allocate
  have hallocated := allocate_frame s
  generalize s.allocate.handOn = t at hhanded ⊢
  generalize s.allocate = u at hhanded hallocated
  rw [hhanded, hallocated]

/-- The zones keep, over the hand-over, what the round made of them and end it. -/
theorem zone_handOn (s : State) (z : Fin 4) :
    s.handOn.zone z = ((s.zone z).counted (s.zoneResult z)).switched s.pool.loopFail s.boilerProven := by
  have hevaluated := lighting_evaluateRound s.aimed s.pool.roundSpill
  have haimed := positioners_aimed s
  have hended := zone_zonesEnded (s.fogRoundEnd (s.claim desiccant).grant) z s.zoneResult
  have hfog : s.fogRoundEnd (s.claim desiccant).grant = { s with fog := (s.fogRoundEnd (s.claim desiccant).grant).fog } := rfl
  rw [← handOn_eq] at hevaluated
  generalize s.handOn = t at hevaluated ⊢
  generalize s.aimed = u at hevaluated haimed
  generalize s.fogRoundEnd (s.claim desiccant).grant = w at hended haimed hfog
  generalize w.zonesEnded s.zoneResult = v at hended haimed
  generalize s.zoneResult z = r at hended ⊢
  have hzones : t.zones = v.zones := by rw [hevaluated, haimed]
  have hzone : w.zone z = s.zone z := by rw [hfog]; rfl
  have hpool : w.pool.loopFail = s.pool.loopFail ∧ w.boilerProven = s.boilerProven := by rw [hfog]; exact ⟨rfl, rfl⟩
  rw [State.zone, hzones, ← State.zone, hended, hzone, hpool.1, hpool.2]

theorem switched_kept (zn : Zone) (loopFail proven : Bool) :
    (zn.switched loopFail proven).request = zn.request ∧ (zn.switched loopFail proven).delivered = zn.delivered := by
  unfold Zone.switched
  split
  · split <;> exact ⟨rfl, rfl⟩
  · split
    · split <;> exact ⟨rfl, rfl⟩
    · exact ⟨rfl, rfl⟩
  · split <;> exact ⟨rfl, rfl⟩

theorem request_handOn (s : State) (z : Fin 4) : (s.handOn.zone z).request = (s.zone z).request := by
  rw [zone_handOn, (switched_kept _ _ _).1]
  rfl

theorem delivered_handOn (s : State) (z : Fin 4) : (s.handOn.zone z).delivered = (s.zone z).delivered := by
  rw [zone_handOn, (switched_kept _ _ _).2]
  rfl

theorem claim_handOn (s : State) (c : Fin 8) : s.handOn.claim c = s.claim c := by
  rw [State.claim, handOn_pool]
  rfl

end Sys2Proof.Machine
end

