-- ==== Sys2Proof/Proofs/AllocationRounds.lean ====
section
/-! PROOFS. ALLOCATION_ROUND: supply, claims, grants and storage (R59 to R62, R65 to R71). -/

namespace Sys2Proof.Machine

section
variable (s : State)

/-! ### The supply (R65, R66) -/

theorem fixed_frame : s.demanded.fixClaims = { s with
    zones := s.demanded.fixClaims.zones
    pool := { s.pool with claims := s.demanded.fixClaims.pool.claims, subsoilDemand := s.nextSubsoilDemand } } := by
  have hfixed := claimsOnly_fixClaims s.demanded
  have hdemanded := demanded_frame s
  generalize s.demanded.fixClaims = fixed at hfixed ⊢
  generalize s.demanded = demanded at hfixed hdemanded
  rw [hfixed, hdemanded]

theorem formSupply_qAvail (u : State) : u.formSupply.1.pool.qAvail = if u.pool.loopFail = true then 0 else u.handedQRec := by
  unfold State.formSupply
  dsimp only
  cases hfail : u.pool.loopFail with
  | true => rfl
  | false =>
    cases hstale : u.surface.plantStale with
    | false => rfl
    | true =>
      unfold State.handedQRec
      cases u.surface.report <;> simp [hstale]

theorem formSupply_allowance (u : State) : u.formSupply.1.pool.allowance =
    if u.pool.loopFail = false ∧ (u.published probeW2).any (fun w => decide (u.plant.tankUsable ≤ w)) = true
    then u.plant.dischargeLimit else 0 := by
  unfold State.formSupply
  dsimp only
  cases u.published probeW2 with
  | none => simp
  | some w => exact if_congr (by simp [and_comm]) rfl rfl

theorem pool_formSupply (u : State) : u.formSupply.1.pool = { u.pool with
    qAvail := u.formSupply.1.pool.qAvail, allowance := u.formSupply.1.pool.allowance
    rAll := (claimants.map fun c => (u.claim c).request).sum
    drawn := min u.formSupply.1.pool.allowance ((claimants.map fun c => (u.claim c).request).sum - u.formSupply.1.pool.qAvail) } := rfl

theorem claim_formSupply (u : State) (c : Fin 8) : u.formSupply.1.claim c = u.claim c := rfl

theorem supplied_eq : s.supplied = s.demanded.fixClaims.formSupply := rfl

theorem subsoilDemand_eq : s.nextSubsoilDemand = match s.published probeG0 with
    | none => true
    | some g => decide (g < s.plant.subsoilSet) || (decide (g < s.plant.subsoilSet + 5) && s.pool.subsoilDemand) := by
  unfold State.nextSubsoilDemand
  cases s.published probeG0 with
  | none => rfl
  | some g =>
    dsimp only
    by_cases hlow : g < s.plant.subsoilSet
    · simp [hlow]
    · by_cases hhigh : s.plant.subsoilSet + 5 ≤ g
      · simp [hlow, hhigh]
      · simp [hlow, Int.not_le.1 hhigh]

/-- The supply record of a round, as the state left shows it. -/
structure Supplied (t : State) : Prop where
  qAvail : t.pool.qAvail = if s.pool.loopFail = true then 0 else s.handedQRec
  allowance : t.pool.allowance = if s.pool.loopFail = false ∧
    (s.published probeW2).any (fun w => decide (s.plant.tankUsable ≤ w)) = true then s.plant.dischargeLimit else 0
  rAll : t.pool.rAll = (claimants.map fun c => (t.claim c).request).sum
  drawn : t.pool.drawn = min t.pool.allowance (t.pool.rAll - t.pool.qAvail)
  subsoilDemand : t.pool.subsoilDemand = s.nextSubsoilDemand

theorem supplied_allocate : Supplied s s.allocate := by
  have hpool := pool_formSupply s.demanded.fixClaims
  have hqAvail := formSupply_qAvail s.demanded.fixClaims
  have hallowance := formSupply_allowance s.demanded.fixClaims
  have hframe := fixed_frame s
  have hallocated := allocate_pool s
  have hrequests : (claimants.map fun c => (s.allocate.claim c).request).sum =
      (claimants.map fun c => (s.demanded.fixClaims.claim c).request).sum :=
    congrArg List.sum (List.map_congr_left fun c hc => by rw [request_allocate s hc, supplied_eq, claim_formSupply])
  rw [supplied_eq] at hallocated
  generalize s.allocate = t at hallocated hrequests ⊢
  generalize s.roundCharge = charge at hallocated
  generalize s.tiered.1.spillBudgetNow = budget at hallocated
  generalize s.tiered.1.cappedSpill = spill at hallocated
  generalize s.demanded.fixClaims.formSupply.1.pool = formed at hpool hqAvail hallowance hallocated
  generalize s.demanded.fixClaims = fixed at hpool hqAvail hallowance hframe hrequests
  have hpublished : fixed.published = s.published := published_of_scanner (by rw [hframe])
  have hloop : fixed.pool.loopFail = s.pool.loopFail := by rw [hframe]
  have hplant : fixed.plant = s.plant := by rw [hframe]
  have hhanded : fixed.handedQRec = s.handedQRec := by rw [hframe]; rfl
  have hdemand : fixed.pool.subsoilDemand = s.nextSubsoilDemand := by rw [hframe]
  rw [hloop, hhanded] at hqAvail
  rw [hloop, hpublished, hplant] at hallowance
  refine ⟨?_, ?_, ?_, ?_, ?_⟩
  · rw [hallocated]
    exact hqAvail
  · rw [hallocated]
    exact hallowance
  · rw [hrequests, hallocated]
    exact congrArg Pool.rAll hpool
  · have hrAll : formed.rAll = (claimants.map fun c => (fixed.claim c).request).sum := congrArg Pool.rAll hpool
    have hdrawn : formed.drawn = min formed.allowance (formed.rAll - formed.qAvail) := hrAll ▸ congrArg Pool.drawn hpool
    rw [hallocated]
    exact hdrawn
  · rw [hallocated]
    exact (congrArg Pool.subsoilDemand hpool).trans hdemand

end

end Sys2Proof.Machine
end

