-- ==== Sys2Proof/Proofs/RoundClaims.lean ====
section
/-! PROOFS. The claims that a round fixes (R59 to R62), and the allocation round as a whole. -/

namespace Sys2Proof.Machine

theorem find_zoneConsumer (z : Fin 4) : all4.find? (fun y => zoneConsumer y == zoneConsumer z) = some z := by revert z; decide

theorem claimants_cases {c : Fin 8} (hc : c ∈ claimants) :
    c = subsoil ∨ c = desiccant ∨ c = resurfWater ∨ ∃ z, c = zoneConsumer z := by revert c; decide

/-! ### Requests and minimums (R59 to R62) -/

section
variable (s : State)

/-- A claim's origin decides between what is asked automatically and by hand. -/
theorem fixedRequest_eq (u : State) (c : Fin 8) : u.fixedRequest c =
    if u.claimOpen c = true then min (if (u.claim c).origin = .auto then u.autoRequest c else (u.claim c).manualRequest) (u.consumerMax c)
    else 0 := by
  unfold State.fixedRequest
  dsimp only
  cases (u.claim c).origin with
  | auto => rfl
  | manual p => rfl

theorem fixedMinimum_eq (u : State) (c : Fin 8) : u.fixedMinimum c =
    min (if (u.claim c).origin ≠ .auto then (u.claim c).manualMinimum else
      match consumerZone c with
      | some z => (u.zoneProfile z).min
      | none => if c = desiccant then u.building.regenMin else u.fixedRequest c) (u.fixedRequest c) := by
  unfold State.fixedMinimum
  cases (u.claim c).origin with
  | auto => rfl
  | manual p => rfl

theorem claim_demanded (c : Fin 8) : s.demanded.claim c = s.claim c := by
  rw [State.claim, demanded_frame]
  rfl

theorem consumerMax_demanded (c : Fin 8) : s.demanded.consumerMax c = s.consumerMax c := by
  have hframe := demanded_frame s
  generalize s.demanded = u at hframe ⊢
  rw [hframe]
  rfl

theorem request_le (c : Fin 8) : s.demanded.fixedRequest c ≤ s.consumerMax c := by
  rw [fixedRequest_eq, consumerMax_demanded]
  split
  · exact min_le_right _ _
  · exact Nat.zero_le _

theorem minimum_le (c : Fin 8) : s.demanded.fixedMinimum c ≤ s.demanded.fixedRequest c := by
  rw [fixedMinimum_eq]
  exact min_le_right _ _

/-- What a claim asks for, and its minimum, in the terms of the round's start (R59 to R62). -/
theorem fixed_demanded {c : Fin 8} (hc : c ∈ claimants) :
    let x := s.claim c
    let zone := all4.find? (fun z => zoneConsumer z == c)
    let auto := match zone with
      | some z => s.demandAt z
      | none =>
        if c = subsoil then (if s.nextSubsoilDemand = true then s.plant.subsoilKW else 0)
        else if c = desiccant then s.fog.request
        else if s.surface.mode = .resurface ∨ s.pool.preheat = true then s.plant.resurfKW else 0
    let most := match zone with
      | some z => (pick s.building.zones z).max
      | none => if c = subsoil then s.plant.subsoilKW else if c = desiccant then s.building.regenMax else s.plant.resurfKW
    let gated := zone.any (fun z => decide ((s.zone z).source ≠ .recovered))
    let request := if gated = true then 0 else min (if x.origin = .auto then auto else x.manualRequest) most
    let least := if x.origin ≠ .auto then x.manualMinimum else match zone with
      | some z => (pick s.building.zones z).min
      | none => if c = desiccant then s.building.regenMin else request
    s.demanded.fixedRequest c = request ∧ s.demanded.fixedMinimum c = min least request := by
  have hframe := demanded_frame s
  have hzone := zone_demanded s
  have hclaim := claim_demanded s
  generalize s.demanded = u at hframe hzone hclaim ⊢
  rw [fixedMinimum_eq, fixedRequest_eq, hclaim]
  obtain rfl | rfl | rfl | ⟨z, rfl⟩ := claimants_cases hc
  · rw [hframe]
    exact ⟨rfl, rfl⟩
  · rw [hframe]
    exact ⟨rfl, rfl⟩
  · have hasked : u.autoRequest resurfWater = if s.surface.mode = .resurface ∨ s.pool.preheat = true then s.plant.resurfKW else 0 := by
      rw [hframe]
      exact if_congr (by simp) rfl rfl
    rw [hasked, hframe]
    exact ⟨rfl, rfl⟩
  · have hopen : u.claimOpen (zoneConsumer z) = !decide ((s.zone z).source ≠ .recovered) := by
      unfold State.claimOpen
      rw [consumerZone_zoneConsumer]
      dsimp only
      rw [hzone]
      cases (s.zone z).source <;> rfl
    have hasked : u.autoRequest (zoneConsumer z) = s.demandAt z := by
      unfold State.autoRequest
      rw [consumerZone_zoneConsumer]
      exact congrArg Zone.request (hzone z)
    have hmost : u.consumerMax (zoneConsumer z) = (pick s.building.zones z).max := by
      unfold State.consumerMax
      rw [consumerZone_zoneConsumer, hframe]
      rfl
    have hleast : (u.zoneProfile z).min = (pick s.building.zones z).min := by
      rw [hframe]
      rfl
    rw [hopen, hasked, hmost, consumerZone_zoneConsumer, find_zoneConsumer]
    dsimp only
    rw [hleast]
    by_cases hclosed : (s.zone z).source = .recovered
    · simp [hclosed]
    · simp [hclosed]

/-! ### Grants within their claims -/

/-- A grant is nothing, or between the claim's minimum and request. -/
def Claim.grantSound (x : Claim) : Prop := x.grant = 0 ∨ (x.minimum ≤ x.grant ∧ x.grant ≤ x.request)

theorem atLeast_sound (least grant : Nat) : atLeast least grant = 0 ∨ (least ≤ atLeast least grant ∧ atLeast least grant ≤ grant) := by
  unfold atLeast
  split
  · exact .inl rfl
  · next h => exact .inr ⟨Nat.le_of_not_lt h, le_rfl⟩

theorem grantSound_of_served {x : Claim} {supply : Nat} (h : x.grant = atLeast x.minimum (min supply x.request)) : x.grantSound := by
  unfold Claim.grantSound
  rw [h]
  exact (atLeast_sound _ _).imp_right fun hs => ⟨hs.1, hs.2.trans (min_le_right _ _)⟩

theorem zone_grantSound (z : Fin 4) : (s.allocate.claim (zoneConsumer z)).grantSound := by
  unfold Claim.grantSound
  rw [zoneGrant_allocate]
  by_cases hz : (s.zone z).source = .recovered
  · rw [if_pos hz]
    have hsource : (s.allocate.zone z).source = .recovered := by rw [zone_allocated]; exact hz
    have hleast : s.allocate.roundLeast z = (s.allocate.claim (zoneConsumer z)).minimum := by
      unfold State.roundLeast
      rw [hsource]
    have hshare := (roundDelivered_le_share s hz).trans (shareFrom_le s.allocate _ z)
    exact (atLeast_sound (s.allocate.roundLeast z) (s.allocate.roundReduced z)).imp_right fun hs => ⟨hleast ▸ hs.1, hshare⟩
  · rw [if_neg hz]
    exact .inl rfl

/-- What each tier of one claim takes. -/
theorem served_allocate :
    let t := s.allocate
    (t.claim subsoil).grant = atLeast (t.claim subsoil).minimum (min (t.pool.qAvail + t.pool.drawn) (t.claim subsoil).request) ∧
    (t.claim desiccant).grant = atLeast (t.claim desiccant).minimum
      (min (t.pool.qAvail + t.pool.drawn - (t.claim subsoil).grant) (t.claim desiccant).request) := by
  intro t
  refine ⟨?_, ?_⟩
  · rw [subsoil_allocate, supply_allocate, minimum_allocate s (by decide), request_allocate s (by decide)]
    rfl
  · rw [desiccant_allocate, subsoil_allocate, supply_allocate, minimum_allocate s (by decide), request_allocate s (by decide)]
    rfl

theorem grantSound_allocate {c : Fin 8} (hc : c ∈ claimants) : (s.allocate.claim c).grantSound := by
  obtain rfl | rfl | rfl | ⟨z, rfl⟩ := claimants_cases hc
  · exact grantSound_of_served (served_allocate s).1
  · exact grantSound_of_served (served_allocate s).2
  · exact grantSound_of_served (resurf_allocate s)
  · exact zone_grantSound s z

/-- A round grants and charges no more than there is (R66 to R70). -/
theorem grants_within_supply : (claimants.map fun c => (s.allocate.claim c).grant).sum + s.allocate.pool.charge ≤
    s.allocate.pool.qAvail + s.allocate.pool.drawn := by
  obtain ⟨hsubsoil, hdesiccant⟩ := served_allocate s
  have hsub : (s.allocate.claim subsoil).grant ≤ s.allocate.pool.qAvail + s.allocate.pool.drawn := by
    rw [hsubsoil]
    exact (atLeast_le _ _).trans (min_le_left _ _)
  have hdes : (s.allocate.claim desiccant).grant ≤ s.allocate.pool.qAvail + s.allocate.pool.drawn - (s.allocate.claim subsoil).grant := by
    rw [hdesiccant]
    exact (atLeast_le _ _).trans (min_le_left _ _)
  have hres : (s.allocate.claim resurfWater).grant ≤ s.allocate.afterZones := by
    rw [resurf_allocate]
    exact (atLeast_le _ _).trans (min_le_left _ _)
  have hcharge : s.allocate.pool.charge ≤ s.allocate.afterZones - (s.allocate.claim resurfWater).grant := by
    rw [charge_allocate]
    split
    · exact le_rfl
    · exact Nat.zero_le _
  have hzones : (all4.map fun z => (s.allocate.claim (zoneConsumer z)).grant).sum ≤ s.allocate.zoneSupply :=
    (List.sum_le_sum fun z _ => zoneGrant_le s z).trans (sum_zoneShare_le s.allocate)
  have hsum : (claimants.map fun c => (s.allocate.claim c).grant).sum = (s.allocate.claim subsoil).grant +
      ((s.allocate.claim desiccant).grant + ((all4.map fun z => (s.allocate.claim (zoneConsumer z)).grant).sum +
        (s.allocate.claim resurfWater).grant)) := by
    simp only [claimants, all4, List.map_cons, List.map_nil, List.sum_cons, List.sum_nil, Nat.add_zero, Nat.add_assoc]
    rfl
  unfold State.afterZones at hres hcharge
  unfold State.zoneSupply at hzones hres hcharge
  omega

theorem roundTimer_allocate : s.allocate.pool.roundTimer = some 5000 := by rw [allocate_pool]

theorem roundCount_allocate : s.allocate.pool.roundCount = s.pool.roundCount + 1 := by
  have hcount : s.supplied.1.pool.roundCount = s.pool.roundCount := by
    rw [supplied_eq, pool_formSupply, fixed_frame]
  rw [allocate_pool, hcount]

theorem discharging_allocate : s.allocate.pool.discharging = decide (0 < s.allocate.pool.drawn) := by rw [allocate_pool]

theorem storage_allocate : (s.allocate.claim storage).grant = s.allocate.pool.charge := by
  rw [claim_allocate_storage, allocate_pool]

/-- A claim after a round, with its grant as it is then. -/
theorem claim_allocated_eq {c : Fin 8} (hc : c ∈ claimants) : s.allocate.claim c = { s.claim c with
    request := s.demanded.fixedRequest c, minimum := s.demanded.fixedMinimum c
    grant := (s.allocate.claim c).grant
    shortCount := if (s.allocate.claim c).grant < (s.allocate.claim c).request then min 255 ((s.claim c).shortCount + 1) else 0 } := by
  rw [claim_allocated s hc]
  rfl

end

/-- Settles O25: the round grants by the stages, and its end keeps what they made of the pool. -/
theorem allocationRoundNeverOverspends : Obligations.AllocationRoundNeverOverspends := by
  intro s
  refine ⟨fun hstopped => ?_, fun hs => ⟨s.allocationRound, rfl, ?_⟩⟩
  · have hround : s.allocationRound = s := by
      unfold State.allocationRound
      rw [hstopped]
    exact congrArg Host.Outcome.next hround
  rw [allocationRound_eq hs]
  have hpool := handOn_pool s.allocate
  have hclaim := claim_handOn s.allocate
  have hzone := request_handOn s.allocate
  have hframe := round_frame s
  have hsupply : s.allocate.handOn.zoneSupply = s.allocate.zoneSupply := by
    unfold State.zoneSupply
    rw [hpool, hclaim, hclaim]
  have hdir : s.allocate.handOn.tankDir = s.allocate.handOn.pool.discharging := rfl
  obtain ⟨hqAvail, hallowance, hrAll, hdrawn, hdemand⟩ := supplied_allocate s
  obtain ⟨hsubsoil, hdesiccant⟩ := served_allocate s
  have htimer := roundTimer_allocate s
  have hcount := roundCount_allocate s
  have hdischarging := discharging_allocate s
  have hcharge := charge_allocate s
  have hstorage := storage_allocate s
  have hresurf := resurf_allocate s
  have hwithin := grants_within_supply s
  have hsound := fun c (hc : c ∈ claimants) => grantSound_allocate s hc
  have hrequests : ∀ z, (s.allocate.zone z).request = s.demandAt z := fun z => by rw [zone_allocated]
  have hclaims := fun c (hc : c ∈ claimants) => claim_allocated_eq s hc
  generalize s.allocate.handOn = t at hpool hclaim hzone hframe hsupply hdir ⊢
  generalize s.allocate = u at *
  rw [hpool] at hframe
  simp only [hdir, hpool, hclaim, hzone, hsupply]
  refine ⟨htimer, hcount, hqAvail, hrAll, hwithin, hallowance, hdrawn, hdemand.trans (subsoilDemand_eq s), hrequests,
    fun c hc => ?_, ?_, hdischarging, trivial, hstorage, fun c hc => ?_, ?_, fun c hc => ?_, hframe⟩
  · obtain ⟨hrequest, hminimum⟩ := fixed_demanded s hc
    have hx := hclaims c hc
    have hshort : (if (u.claim c).grant < (u.claim c).request then min 255 ((s.claim c).shortCount + 1) else 0) =
        (u.claim c).shortCount := (congrArg Claim.shortCount hx).symm
    rw [hshort] at hx
    rw [hdemand]
    exact hx.trans (congrArg₂ (fun r m : Nat => { s.claim c with
      request := r, minimum := m, grant := (u.claim c).grant, shortCount := (u.claim c).shortCount }) hrequest hminimum)
  · rw [hcharge]
    by_cases hnone : u.pool.drawn = 0
    · exact .inl hnone
    · exact .inr (if_neg hnone)
  · rw [hclaims c hc]
    exact ⟨request_le s c, minimum_le s c, (hclaims c hc) ▸ hsound c hc⟩
  · exact ⟨hsubsoil, hdesiccant, hresurf, hcharge⟩
  · exact congrArg Claim.shortCount (hclaims c hc)

end Sys2Proof.Machine
end

