-- ==== Sys2Proof/Proofs/RoundRecords.lean ====
section
/-! PROOFS. The records that a round end posts before its evaluation: those of switches (R85, R88), of lost work (R110) and of homings
that complete at the grant (R104). -/

namespace Sys2Proof.Machine

variable {K : RecordKind → Prop}

/-! ### The zones -/

section
variable (hswitched : K .sourceSwitched)
include hswitched

theorem postedOnly_postZone (s : State) (p : Option Port) (z : Fin 4) (x : Source) :
    PostedOnly K s (s.postZone p .sourceSwitched z x) := by
  have hmoves := postedOnly_postMoves K
  unfold State.postZone
  dsimp only
  split
  · exact hmoves.post _ _ _ _ _ hswitched
  · exact hmoves.trans (hmoves.post _ _ _ _ _ hswitched) (hmoves.postTo _ _ hswitched _ _)

theorem postedOnly_completeSwitch (s : State) (z : Fin 4) : PostedOnly K s (s.completeSwitch z) := by
  unfold State.completeSwitch
  dsimp only
  split
  · exact .refl s
  · exact .trans (b := s.setZone z _) (.of_ports rfl) (postedOnly_postZone hswitched _ _ _ _)
  · exact .trans (b := s.setZone z _) (.of_ports rfl) (postedOnly_postZone hswitched _ _ _ _)

theorem postedOnly_readProven (s : State) (z : Fin 4) : PostedOnly K s (s.readProven z) := by
  unfold State.readProven
  split
  · split
    · exact postedOnly_completeSwitch hswitched s z
    · exact .refl s
  · exact .refl s

variable (hsuperseded : K .switchSuperseded)
include hsuperseded

theorem postedOnly_startSwitch (s : State) (z : Fin 4) (toBoiler : Bool) (p : Option Port) :
    PostedOnly K s (s.startSwitch z toBoiler p) := by
  have htold : PostedOnly K s (s.supersedeSwitch z) := by
    unfold State.supersedeSwitch
    dsimp only
    split
    · exact (postedOnly_postMoves K).postTo _ _ hsuperseded _ _
    · exact .refl s
  unfold State.startSwitch
  dsimp only
  exact htold.trans (.trans (b := (s.supersedeSwitch z).setZone z _) (.of_ports rfl) (postedOnly_readProven hswitched _ _))

theorem postedOnly_zoneRoundEnd (s : State) (z : Fin 4) (r : ZoneRound) : PostedOnly K s (s.zoneRoundEnd z r) := by
  have hcounted : PostedOnly K s (s.setZone z ((s.zone z).counted r)) := .of_ports rfl
  unfold State.zoneRoundEnd
  generalize s.setZone z ((s.zone z).counted r) = counted at hcounted ⊢
  refine hcounted.trans ?_
  have hset : ∀ x : Zone, PostedOnly K counted (counted.setZone z x) := fun _ => .of_ports rfl
  dsimp only
  cases (counted.zone z).source
  all_goals dsimp only; split
  case off.isTrue => exact postedOnly_startSwitch hswitched hsuperseded _ _ _ _
  case recovered.isTrue => exact (hset _).trans (postedOnly_startSwitch hswitched hsuperseded _ _ _ _)
  case boiler.isTrue => exact (hset _).trans (postedOnly_startSwitch hswitched hsuperseded _ _ _ _)
  all_goals exact .refl counted

theorem postedOnly_zonesEnded (s : State) (rounds : Fin 4 → ZoneRound) : PostedOnly K s (s.zonesEnded rounds) :=
  foldl_related PostedOnly.refl PostedOnly.trans _ (fun t z => postedOnly_zoneRoundEnd hswitched hsuperseded t z _) all4 s

end

/-! ### The positioners -/

theorem ports_seekTravel (s : State) (v : Fin 8) : (s.seekTravel v).ports = s.ports := by
  unfold State.seekTravel
  split <;> rfl

section
variable (hhomed : K .homeDone)
include hhomed

theorem postedOnly_passSlot (k : Fin 4) (queue : List (Fin 8)) (s : State) : PostedOnly K s (State.passSlot k queue s) := by
  induction queue generalizing s with
  | nil => exact .of_ports rfl
  | cons v rest ih =>
    unfold State.passSlot
    dsimp only
    split
    · generalize hstopped : State.stopHomed _ v = stopped
      have hports : PostedOnly K s stopped := .of_ports (by rw [← hstopped]; rfl)
      have htold : PostedOnly K stopped (stopped.tellRequester v .homeDone 0) :=
        ((postedOnly_postMoves K).postTo stopped _ hhomed _ _).trans (.of_ports rfl)
      exact (hports.trans htold).trans (ih _)
    · split
      · exact .of_ports rfl
      · exact .of_ports rfl

theorem postedOnly_freeTravelSlot (s : State) (v : Fin 8) : PostedOnly K s (s.freeTravelSlot v) := by
  unfold State.freeTravelSlot
  split
  · exact .refl s
  · exact .trans (b := { s with positioners := { s.positioners with holders := _ } }) (.of_ports rfl) (postedOnly_passSlot hhomed _ _ _)

theorem postedOnly_settleHere (s : State) (v : Fin 8) : PostedOnly K s (s.settleHere v) := by
  unfold State.settleHere
  exact .trans (b := State.leaveTravelQueue _ v) (.of_ports rfl) (postedOnly_freeTravelSlot hhomed _ _)

variable (hmoved : K .moveSuperseded)
include hmoved

theorem postedOnly_autoTarget (s : State) (v : Fin 8) (target : Nat) : PostedOnly K s (s.autoTarget v target) := by
  have happlied : PostedOnly K s (s.applyTarget v target) := by
    unfold State.applyTarget
    dsimp only
    split
    · split
      · exact .of_ports rfl
      · exact .of_ports (ports_seekTravel _ _)
    · have haimed : PostedOnly K s ((s.supersede v (s.pos v).target).setPos v
          { (s.supersede v (s.pos v).target).pos v with target := target, port := none }) :=
        .trans (b := s.supersede v (s.pos v).target) ((postedOnly_postMoves K).postTo _ _ hmoved _ _) (.of_ports rfl)
      split
      · exact haimed.trans (postedOnly_settleHere hhomed _ v)
      · exact haimed
  unfold State.autoTarget
  dsimp only
  split
  · exact happlied.trans (.of_ports rfl)
  · exact .of_ports rfl

end

/-- The kinds of record that a round end posts before its evaluation. -/
def RecordKind.ofRoundEnd (k : RecordKind) : Prop :=
  k = .sourceSwitched ∨ k = .switchSuperseded ∨ k = .homeDone ∨ k = .moveSuperseded

theorem postedOnly_aimed (s : State) : PostedOnly RecordKind.ofRoundEnd s s.aimed := by
  rw [aimed_eq]
  have hzones : PostedOnly RecordKind.ofRoundEnd (s.fogRoundEnd (s.claim desiccant).grant)
      ((s.fogRoundEnd (s.claim desiccant).grant).zonesEnded s.zoneResult) :=
    postedOnly_zonesEnded (.inl rfl) (.inr (.inl rfl)) _ _
  refine .trans (b := s.fogRoundEnd (s.claim desiccant).grant) (.of_ports rfl) (hzones.trans ?_)
  exact foldl_related PostedOnly.refl PostedOnly.trans _
    (fun t v => postedOnly_autoTarget (.inr (.inr (.inl rfl))) (.inr (.inr (.inr rfl))) t v _) all8 _

end Sys2Proof.Machine
end

