-- ==== Sys2Proof/Proofs/RoundEndLaws.lean ====
section
/-! PROOFS. The ROUND_END evaluation (R73, R117 to R119), and what a round makes of the zones (R67 to R69, R90 to R93). -/

namespace Sys2Proof.Machine

/-! ### The ROUND_END evaluation -/

theorem evaluateRound_evaluated (s : State) (spill : Nat) : (s.evaluateRound spill).evaluated :=
  evaluations_last (P := State.evaluated) (fun t => evaluateOnce_evaluated t .ordinary none) _ _ _ (.inl (evaluateOnce_evaluated s _ _))

theorem evaluateRound_lSpill (s : State) (spill : Nat) : (s.evaluateRound spill).governor.lSpill = spill :=
  (evaluations_lSpill _ _ _).trans (evaluateOnce_lSpill s .roundEnd (some spill))

section
variable {s : State} (h : s.governor.queue = [])
include h

/-- With no slot waiting for headroom an evaluation of either kind tells of ICE_OVERLOAD alone. -/
theorem posts_evaluateOnce_of_empty (kind : EvalKind) (spill : Option Nat) (p : Port) :
    let t := (s.evaluateOnce kind spill).1
    s.posts t p (if p = .portB ∨ t.governor.iceOverload = s.governor.iceOverload then []
      else [⟨if t.governor.iceOverload = true then .iceOverload else .iceClear, 0, t.governor.avail / 1000, s.deviceSeconds⟩]) := by
  intro t
  have hshape : t = (((s.openEvaluation spill).weigh kind).judgeOverload).closeEvaluation kind :=
    congrArg Prod.fst (evaluateOnce_of_empty h kind spill)
  have hgovernor : t.governor = _ := evaluateOnce_governor s kind spill
  rw [serveQueue_of_empty h] at hgovernor
  have hposts := posts_judgeOverload ((s.openEvaluation spill).weigh kind) p
  have hports : t.port p = ((s.openEvaluation spill).weigh kind).judgeOverload.port p := port_congr (by rw [hshape]; rfl) p
  unfold State.posts at hposts ⊢
  rw [hports, hposts, hgovernor]
  simp only [decide_eq_true_eq]
  rfl

theorem evaluateRound_of_empty (spill : Nat) : s.evaluateRound spill = (s.evaluateOnce .roundEnd (some spill)).1 := by
  have hnone : (s.evaluateOnce .roundEnd (some spill)).2 = 0 := by rw [evaluateOnce_of_empty h]
  unfold State.evaluateRound
  dsimp only
  rw [hnone]
  exact evaluations_of_empty (evaluateOnce_queue_of_empty h _ _) _ 0 (Nat.zero_le _)

/-- What one ROUND_END evaluation is with no slot waiting for headroom (R118). -/
theorem evaluateRound_once (spill : Nat) :
    let t := s.evaluateRound spill
    t.governor.lastEval = some .roundEnd ∧ t.governor.evalCount = s.governor.evalCount + 1 ∧
      t.governor.f = (if t.governor.fStar ≤ s.governor.f then t.governor.fStar else min t.governor.fStar (s.governor.f + 32)) ∧
      s.tellsOverload t := by
  intro t
  have ht : t = (s.evaluateOnce .roundEnd (some spill)).1 := evaluateRound_of_empty h spill
  have hgovernor := evaluateOnce_governor s .roundEnd (some spill)
  rw [serveQueue_of_empty h] at hgovernor
  rw [ht]
  refine ⟨evaluateOnce_lastEval s _ _, ?_, evaluateOnce_f s _ _, tellsOverload_of_posts (posts_evaluateOnce_of_empty h _ _)⟩
  rw [hgovernor]
  rfl

end

/-! ### The round end -/

theorem aimed_deviceSeconds (s : State) : s.aimed.deviceSeconds = s.deviceSeconds := by
  have haimed := positioners_aimed s
  have hzones := zones_zonesEnded (s.fogRoundEnd (s.claim desiccant).grant) s.zoneResult
  have hfog : (s.fogRoundEnd (s.claim desiccant).grant).deviceSeconds = s.deviceSeconds := rfl
  generalize s.aimed = u at haimed ⊢
  generalize s.fogRoundEnd (s.claim desiccant).grant = w at haimed hzones hfog
  generalize w.zonesEnded s.zoneResult = v at haimed hzones
  rw [haimed, hzones, hfog]

theorem postedOnly_allocate (K : RecordKind → Prop) (s : State) : PostedOnly K s s.allocate :=
  .of_ports (by rw [allocate_frame s])

/-- The round's evaluation as the command that asked for it sees it. -/
theorem round_evaluation (s : State) :
    let t := s.allocate.handOn
    t.governor.lSpill = t.pool.roundSpill ∧ t.evaluated ∧
    (s.governor.queue = [] → t.governor.lastEval = some .roundEnd ∧ t.governor.evalCount = s.governor.evalCount + 1 ∧
      t.governor.f = (if t.governor.fStar ≤ s.governor.f then t.governor.fStar else min t.governor.fStar (s.governor.f + 32)) ∧
      s.tellsOverload t) := by
  intro t
  have hpool : t.pool = s.allocate.pool := handOn_pool s.allocate
  have ht : t = s.allocate.aimed.evaluateRound s.allocate.pool.roundSpill := handOn_eq s.allocate
  have hgovernor := aimed_allocate_governor s
  have hposted : PostedOnly RecordKind.ofRoundEnd s s.allocate.aimed := (postedOnly_allocate _ s).trans (postedOnly_aimed s.allocate)
  have hseconds : s.allocate.aimed.deviceSeconds = s.deviceSeconds := by
    rw [aimed_deviceSeconds, allocate_frame s]
  rw [hpool, ht]
  refine ⟨evaluateRound_lSpill _ _, evaluateRound_evaluated _ _, fun hq => ?_⟩
  generalize s.allocate.aimed = u at *
  rw [← hgovernor] at hq
  obtain ⟨hlast, hcount, hf, htells⟩ := evaluateRound_once hq s.allocate.pool.roundSpill
  rw [hgovernor] at hcount hf
  refine ⟨hlast, hcount, hf, tellsOverload_after hposted ?_ ?_ (congrArg Governor.iceOverload hgovernor) hseconds htells ?_⟩
  · simp [RecordKind.ofRoundEnd]
  · simp [RecordKind.ofRoundEnd]
  · rw [evaluateRound_of_empty hq]
    exact postedOnly_evaluateOnce u _ _

/-! ### The zones in a round -/

section
variable (s : State) (z : Fin 4)

theorem source_allocate : (s.allocate.zone z).source = (s.zone z).source := by rw [zone_allocated]

theorem delivered_allocate : (s.allocate.zone z).delivered = s.allocate.roundDelivered z := by rw [zone_allocated]

theorem zoneShare_handOn (u : State) : u.handOn.zoneShare z = u.zoneShare z := by
  have hclaim := claim_handOn u
  have hpool := handOn_pool u
  generalize u.handOn = t at hclaim hpool ⊢
  unfold State.zoneShare State.zoneSupply
  simp only [hclaim, hpool]

/-- The counts that a round brings up to date (R90). -/
theorem counted_allocate : (s.allocate.zone z).counted (s.allocate.zoneResult z) =
    let claim := s.allocate.claim (zoneConsumer z)
    let request := (s.allocate.zone z).request
    { s.zone z with
      request := request, delivered := (s.allocate.zone z).delivered
      starved := if (s.zone z).source = .recovered ∧ claim.grant < claim.request ∧ claim.grant = 0 then min 3 ((s.zone z).starved + 1)
        else 0
      surplus := if (s.zone z).source = .boiler ∧ (s.zone z).fallback = true ∧ request ≤ s.allocate.pool.charge then
        min 10 ((s.zone z).surplus + 1) else 0 } := by
  have hzone := zone_allocated s z
  have hresult : s.allocate.zoneResult z = ⟨(s.allocate.zone z).delivered, (s.allocate.claim (zoneConsumer z)).grant,
      decide ((s.allocate.claim (zoneConsumer z)).grant < (s.allocate.claim (zoneConsumer z)).request), s.allocate.pool.charge⟩ := by
    rw [State.zoneResult]
  generalize s.allocate.roundDelivered z = delivered at hzone
  rw [hresult]
  generalize s.allocate.claim (zoneConsumer z) = claim
  generalize s.allocate.pool.charge = charge
  rw [hzone]
  simp [Zone.counted, countTo, and_assoc]

end

/-- Settles O26. -/
theorem roundEndCapsAndSwitchesTheZones : Obligations.RoundEndCapsAndSwitchesTheZones := by
  intro s hs
  refine ⟨s.allocationRound, rfl, ?_⟩
  rw [allocationRound_eq hs]
  obtain ⟨hspill, hevaluated, honce⟩ := round_evaluation s
  have hpool := handOn_pool s.allocate
  have hclaim := claim_handOn s.allocate
  have hrequest := request_handOn s.allocate
  have hdelivered := delivered_handOn s.allocate
  have hshare := fun z => zoneShare_handOn z s.allocate
  have hzone := zone_handOn s.allocate
  have hbudget := spillBudget_allocate s
  have hround := roundSpill_allocate s
  have hwithin := roundSpill_le s.allocate
  have hbuilding : s.building = s.allocate.building := (allocate_building s).symm
  have hsource := source_allocate s
  rw [← hbuilding] at hwithin
  have hgrant := zoneGrant_allocate s
  have hcapped := delivered_allocate s
  have hcounted := counted_allocate s
  have hflags : s.allocate.pool.loopFail = s.pool.loopFail ∧ s.allocate.boilerProven = s.boilerProven :=
    ⟨loopFail_moves.allocate s, by rw [allocate_frame s]⟩
  generalize s.allocate.handOn = t at *
  generalize s.allocate = u at *
  refine ⟨?_, ?_, ?_, hspill, hevaluated, honce, ⟨fun z => ⟨?_, ?_⟩, fun z => ?_⟩⟩
  · rw [hpool, hbudget]
  · simp only [hpool, hround, hdelivered, hcapped]
  · rw [hpool, hround]
    exact hwithin
  · simp only [hpool, hclaim, hrequest, hshare, hdelivered, ← hsource, hbuilding]
    exact hcapped z
  · rw [hclaim, hgrant, hdelivered, hcapped]
  · simp only [hclaim, hrequest, hdelivered, hpool]
    have hended := hzone z
    rw [hcounted, hflags.1, hflags.2] at hended
    exact hended

end Sys2Proof.Machine
end

