-- ==== Sys2Proof/Proofs/AutomaticTargets.lean ====
section
/-! PROOFS. The automatic target of one positioner at a round end (R110): when it is taken, and what it does to the positioners. -/

namespace Sys2Proof.Machine

/-! ### When a target is taken -/

/-- The positioner takes automatic targets: AUTO, homed and not waiting to home. -/
@[reducible] def Positioner.follows (r : Positioner) : Prop :=
  r.manual = false ∧ (r.state = .idle ∨ r.state = .travel ∨ (r.state = .waiting ∧ r.intent ≠ some .home))

/-- A new target is taken: it differs, and by 8 or more unless the retarget flag is set. -/
@[reducible] def Positioner.takes (r : Positioner) (aim : Nat) : Prop :=
  r.follows ∧ aim ≠ r.target ∧ (r.retarget = true ∨ r.target + 8 ≤ aim ∨ aim + 8 ≤ r.target)

/-- The positioner travels or waits for a slot. -/
@[reducible] def Positioner.underway (r : Positioner) : Prop := r.state = .travel ∨ r.state = .waiting

theorem followsPool_iff (r : Positioner) : r.followsPool = true ↔ r.follows := by
  unfold Positioner.followsPool Positioner.follows
  cases r.state <;> simp

theorem takes_iff (r : Positioner) (aim : Nat) :
    (r.followsPool && (r.retarget || outsideDeadband aim r.target) && aim != r.target) = true ↔ r.takes aim := by
  have hfollows := followsPool_iff r
  simp only [Bool.and_eq_true, Bool.or_eq_true, bne_iff_ne, hfollows, outsideDeadband, decide_eq_true_eq, Positioner.takes]
  tauto

theorem underway_of_follows {r : Positioner} (h : r.follows) (hidle : r.state ≠ .idle) : r.underway := by
  obtain ⟨-, h | h | ⟨h, -⟩⟩ := h
  · exact absurd h hidle
  · exact .inl h
  · exact .inr h

/-! ### A granted slot -/

/-- No queued positioner completes at the grant. -/
def State.quiet (s : State) : Prop := ∀ w ∈ s.positioners.queue, (s.pos w).intent = some .home → (s.pos w).endstop = false

theorem homedAtGrant_quiet {s : State} (h : s.quiet) : s.homedAtGrant = [] := by
  rw [State.homedAtGrant, List.takeWhile_eq_nil_iff]
  intro hpos hc
  simp only [Bool.and_eq_true, beq_iff_eq] at hc
  exact absurd hc.2 (by simp [h _ (List.getElem_mem hpos) hc.1])

theorem grantRecords_quiet {s : State} (h : s.quiet) (v : Fin 8) (p : Port) : s.grantRecords v p = [] := by
  unfold State.grantRecords
  rw [homedAtGrant_quiet h]
  split <;> rfl

/-- What a grant leaves of a record. -/
theorem grantedRecord_kept (s : State) (w : Fin 8) : (s.grantedRecord w).retarget = (s.pos w).retarget ∧
    (s.grantedRecord w).target = (s.pos w).target ∧ (s.grantedRecord w).manual = (s.pos w).manual ∧
    (s.grantedRecord w).port = (s.pos w).port ∧ (s.grantedRecord w).moving = true := by
  unfold State.grantedRecord
  split <;> exact ⟨rfl, rfl, rfl, rfl, rfl⟩

theorem grantedRecord_travels {s : State} {w : Fin 8} (h : (s.pos w).intent ≠ some .home) :
    s.grantedRecord w = (s.pos w).travelling (s.stepInterval w) := if_neg h

/-- A queued positioner with a slot granted follows the pool as before. -/
theorem takes_grantedRecord {s : State} (hs : s.travelSound) {w : Fin 8} (hw : w ∈ s.positioners.queue) (aim : Nat) :
    (s.grantedRecord w).takes aim ↔ (s.pos w).takes aim := by
  obtain ⟨hretarget, htarget, hmanual, -, -⟩ := grantedRecord_kept s w
  have hfollows : (s.grantedRecord w).follows ↔ (s.pos w).follows := by
    unfold Positioner.follows
    rw [hmanual]
    refine and_congr_right fun _ => ?_
    by_cases hhome : (s.pos w).intent = some .home
    · have hstate : (s.grantedRecord w).state = .homing := by rw [State.grantedRecord, if_pos hhome]; rfl
      rw [hstate]
      obtain h | ⟨h | h, -⟩ := hs.queued w hw <;> simp [h, hhome]
    · have hstate : (s.grantedRecord w).state = .travel := by rw [grantedRecord_travels hhome]; rfl
      rw [hstate]
      obtain h | ⟨-, h⟩ := hs.queued w hw
      · simp [h, hhome]
      · exact absurd h hhome
  unfold Positioner.takes
  rw [hfollows, hretarget, htarget]

/-! ### One automatic target -/

/-- What one automatic target does. -/
structure TargetStep (s t : State) (v : Fin 8) (aim : Nat) : Prop where
  others : ∀ w, w ≠ v → t.pos w = s.pos w ∨ (w ∈ s.positioners.queue ∧ t.pos w = s.grantedRecord w)
  queue : ∀ w ∈ t.positioners.queue, w ∈ s.positioners.queue ∨ (w = v ∧ (s.pos v).takes aim)
  kept : ¬(s.pos v).takes aim → t.pos v = { s.pos v with retarget := false }
  flags : (t.pos v).retarget = false ∧ (t.pos v).manual = (s.pos v).manual
  taken : (s.pos v).takes aim → (t.pos v).target = aim ∧ (t.pos v).port = none ∧ (t.pos v).position = (s.pos v).position ∧
    ((s.pos v).position = some aim → (t.pos v).state = .idle) ∧
    ((s.pos v).position ≠ some aim → (t.pos v).underway) ∧ ((t.pos v).state = .waiting → (t.pos v).intent ≠ some .home)
  records : ∀ q, s.posts t q (if (s.pos v).takes aim ∧ (s.pos v).underway ∧ (s.pos v).port = some q then
    [⟨.moveSuperseded, v.val, (s.pos v).target, s.deviceSeconds⟩] else [])

/-- With the target not taken only the retarget flag is cleared. -/
theorem autoTarget_kept {s : State} {v : Fin 8} {aim : Nat} (h : ¬(s.pos v).takes aim) :
    s.autoTarget v aim = s.setPos v { s.pos v with retarget := false } := by
  unfold State.autoTarget
  dsimp only
  rw [if_neg (mt (takes_iff _ _).1 h)]

theorem autoTarget_taken {s : State} {v : Fin 8} {aim : Nat} (h : (s.pos v).takes aim) :
    s.autoTarget v aim = (s.applyTarget v aim).setPos v { (s.applyTarget v aim).pos v with retarget := false } := by
  unfold State.autoTarget
  dsimp only
  rw [if_pos ((takes_iff _ _).2 h)]

section
variable {s : State} {v : Fin 8} {aim : Nat}

/-- A target that is not taken. -/
theorem targetStep_kept (h : ¬(s.pos v).takes aim) : TargetStep s (s.autoTarget v aim) v aim := by
  rw [autoTarget_kept h]
  refine ⟨fun w hw => .inl (pos_setPos_other _ _ hw), fun w hw => .inl hw, fun _ => pos_setPos_same .., ?_, fun ht => absurd ht h,
    fun q => ?_⟩
  · rw [pos_setPos_same]
    exact ⟨rfl, rfl⟩
  · rw [if_neg fun hc => h hc.1]
    exact posts_of_ports rfl q

/-- A target taken by a positioner alone: its own record is what `u` makes of it. -/
theorem targetStep_alone {u : State} (h : (s.pos v).takes aim) (happly : s.applyTarget v aim = u) (r : Positioner) (hr : u.pos v = r)
    (hothers : ∀ w, w ≠ v → u.pos w = s.pos w ∨ (w ∈ s.positioners.queue ∧ u.pos w = s.grantedRecord w))
    (hqueue : ∀ w ∈ u.positioners.queue, w ∈ s.positioners.queue ∨ w = v)
    (hkept : r.manual = (s.pos v).manual ∧ r.target = aim ∧ r.port = none ∧ r.position = (s.pos v).position)
    (hidle : (s.pos v).position = some aim → r.state = .idle) (hgoing : (s.pos v).position ≠ some aim → r.underway)
    (hwaits : r.state = .waiting → r.intent ≠ some .home)
    (hposts : ∀ q, s.posts u q (if (s.pos v).underway ∧ (s.pos v).port = some q then
      [⟨.moveSuperseded, v.val, (s.pos v).target, s.deviceSeconds⟩] else [])) : TargetStep s (s.autoTarget v aim) v aim := by
  obtain ⟨hmanual, htarget, hport, hposition⟩ := hkept
  rw [autoTarget_taken h, happly, hr]
  refine ⟨fun w hw => ?_, fun w hw => (hqueue w hw).imp_right fun he => ⟨he, h⟩, fun hn => absurd h hn, ?_, fun _ => ?_, fun q => ?_⟩
  · rw [pos_setPos_other _ _ hw]
    exact hothers w hw
  · rw [pos_setPos_same]
    exact ⟨rfl, hmanual⟩
  · rw [pos_setPos_same]
    exact ⟨htarget, hport, hposition, hidle, hgoing, hwaits⟩
  · have hcond : ((s.pos v).takes aim ∧ (s.pos v).underway ∧ (s.pos v).port = some q) ↔
        ((s.pos v).underway ∧ (s.pos v).port = some q) := and_iff_right h
    rw [if_congr hcond rfl rfl]
    exact posts_then (hposts q) rfl

/-- An IDLE positioner stands at its new target, travels, or waits for a slot. -/
theorem targetStep_idle (h : (s.pos v).takes aim) (hidle : (s.pos v).state = .idle) : TargetStep s (s.autoTarget v aim) v aim := by
  have hrest : ¬(s.pos v).underway := by simp [hidle]
  have hnone : ∀ q, (if (s.pos v).underway ∧ (s.pos v).port = some q then
      [(⟨.moveSuperseded, v.val, (s.pos v).target, s.deviceSeconds⟩ : Record)] else []) = [] := fun q => if_neg fun hc => hrest hc.1
  by_cases hthere : (s.pos v).position = some aim
  · have happly : s.applyTarget v aim = s.setPos v { s.pos v with target := aim, port := none } := by
      simp [State.applyTarget, hidle, hthere]
    refine targetStep_alone h happly { s.pos v with target := aim, port := none } (pos_setPos_same ..)
      (fun w hw => .inl (pos_setPos_other _ _ hw)) (fun w hw => .inl hw) ⟨rfl, rfl, rfl, rfl⟩ (fun _ => hidle)
      (fun hn => absurd hthere hn) (fun hw => absurd (hidle.symm.trans hw) (by decide)) fun q => ?_
    rw [hnone]
    exact posts_of_ports rfl q
  · have happly : s.applyTarget v aim = (s.setPos v { s.pos v with target := aim, port := none }).seekTravel v := by
      simp [State.applyTarget, hidle, hthere]
    by_cases hfree : s.positioners.holders.length < 4
    · obtain ⟨k, -, hseek⟩ := seekTravel_free hfree v { s.pos v with target := aim, port := none }
      rw [hseek] at happly
      refine targetStep_alone h happly _ (pick_put_same ..) (fun w hw => .inl (pick_put_other _ _ hw)) (fun w hw => .inl hw)
        ⟨rfl, rfl, rfl, rfl⟩ (fun ht => absurd ht hthere) (fun _ => .inl rfl) (fun hw => by cases hw) fun q => ?_
      rw [hnone]
      exact posts_of_ports rfl q
    · have hseek := seekTravel_full hfree v { s.pos v with target := aim, port := none }
      rw [hseek] at happly
      refine targetStep_alone h happly _ (pick_put_same ..) (fun w hw => .inl (pick_put_other _ _ hw)) (fun w hw => ?_)
        ⟨rfl, rfl, rfl, rfl⟩ (fun ht => absurd ht hthere) (fun _ => .inr rfl) (fun _ => by simp) fun q => ?_
      · exact (List.mem_append.1 hw).imp_right List.mem_singleton.1
      · rw [hnone]
        exact posts_of_ports rfl q

/-- What an end makes of the others, with none that completes at the grant. -/
theorem handsOn_quiet {t : State} (hq : s.quiet) (h : s.handsOn t v) :
    (∀ w, w ≠ v → t.pos w = s.pos w ∨ (w ∈ s.positioners.queue ∧ t.pos w = s.grantedRecord w)) ∧
    ∀ w ∈ t.positioners.queue, w ∈ s.positioners.queue := by
  unfold State.handsOn at h
  split at h
  · obtain ⟨-, hqueue, hsame⟩ := h
    refine ⟨fun w hw => .inl (hsame w hw), fun w hw => ?_⟩
    rw [hqueue] at hw
    exact (List.mem_filter.1 hw).1
  · obtain ⟨hqueue, -, hpos⟩ := h
    rw [homedAtGrant_quiet hq] at hqueue hpos
    refine ⟨fun w hw => ?_, fun w hw => ?_⟩
    · have hw' := hpos w hw
      dsimp only at hw'
      rw [if_neg List.not_mem_nil] at hw'
      by_cases hnext : w ∈ (s.positioners.queue.drop ([] : List (Fin 8)).length).take 1
      · rw [if_neg (not_not_intro hnext)] at hw'
        exact .inr ⟨List.mem_of_mem_drop (List.mem_of_mem_take hnext), hw'⟩
      · rw [if_pos hnext] at hw'
        exact .inl hw'
    · rw [hqueue] at hw
      exact List.mem_of_mem_drop (List.mem_of_mem_drop hw)

/-- A positioner under way stops at its new target, or goes on toward it. -/
theorem targetStep_underway (hs : s.travelSound) (hquiet : s.quiet) (h : (s.pos v).takes aim) (hidle : (s.pos v).state ≠ .idle) :
    TargetStep s (s.autoTarget v aim) v aim := by
  have hgoing := underway_of_follows h.1 hidle
  have happly : s.applyTarget v aim =
      if (s.pos v).position = some aim then
        ((s.supersede v (s.pos v).target).setPos v { s.pos v with target := aim, port := none }).settleHere v
      else (s.supersede v (s.pos v).target).setPos v { s.pos v with target := aim, port := none } := by
    have hpos : (s.supersede v (s.pos v).target).pos v = s.pos v := congrFun (pos_postTo ..) v
    unfold State.applyTarget
    dsimp only
    rw [hpos]
    obtain hst | hst := hgoing
    · rw [hst]
    · rw [hst]
  have htold : ∀ q, s.posts (s.supersede v (s.pos v).target) q (if (s.pos v).underway ∧ (s.pos v).port = some q then
      [⟨.moveSuperseded, v.val, (s.pos v).target, s.deviceSeconds⟩] else []) := fun q => by
    have hposts := posts_postTo s (s.pos v).port .moveSuperseded v.val (s.pos v).target q
    rwa [if_congr (and_iff_right hgoing) rfl rfl]
  have hsame : (s.supersede v (s.pos v).target).positioners = s.positioners := postTo_positioners ..
  have hpos : (s.supersede v (s.pos v).target).pos = s.pos := pos_postTo ..
  by_cases hthere : (s.pos v).position = some aim
  · rw [if_pos hthere] at happly
    unfold State.settleHere at happly
    rw [pos_setPos_same, setPos_setPos] at happly
    have hquiet' : (s.supersede v (s.pos v).target).quiet := by
      unfold State.quiet
      rw [hsame, hpos]
      exact hquiet
    have hends := ends_given_up (standsApart_congr hsame (standsApart_of_sound hs v))
      { s.pos v with target := aim, port := none, state := .idle, intent := none, stepTimer := none }
    obtain ⟨hothers, hqueue⟩ := handsOn_quiet hquiet' hends.hands
    refine targetStep_alone h happly _ hends.record (fun w hw => ?_) (fun w hw => .inl ?_) ⟨rfl, rfl, rfl, rfl⟩ (fun _ => rfl)
      (fun hn => absurd hthere hn) (fun hw => by cases hw) fun q => ?_
    · have hinterval : (s.supersede v (s.pos v).target).stepInterval w = s.stepInterval w :=
        (PositionersAndPortsOnly.postTo s (s.pos v).port .moveSuperseded v.val (s.pos v).target).stepInterval w
      have hgranted : (s.supersede v (s.pos v).target).grantedRecord w = s.grantedRecord w := by
        unfold State.grantedRecord
        rw [hpos, hinterval]
      have hother := hothers w hw
      rw [hpos, hsame, hgranted] at hother
      exact hother
    · rw [← hsame]
      exact hqueue w hw
    · have hposts := hends.records q
      rw [grantRecords_quiet hquiet', List.append_nil] at hposts
      have hall := posts_trans (htold q) hposts
      rwa [List.append_nil] at hall
  · rw [if_neg hthere] at happly
    refine targetStep_alone h happly _ (pos_setPos_same ..) (fun w hw => .inl ?_) (fun w hw => .inl ?_) ⟨rfl, rfl, rfl, rfl⟩
      (fun ht => absurd ht hthere) (fun _ => hgoing) (fun hw => ?_) fun q => posts_then (htold q) rfl
    · rw [pos_setPos_other _ _ hw, hpos]
    · rw [setPos_queue, hsame] at hw
      exact hw
    · obtain ⟨-, hst | hst | hst⟩ := h.1
      · exact absurd hst hidle
      · exact absurd (hst.symm.trans hw) (by decide)
      · exact hst.2

/-- What one automatic target does, whatever the positioner's state. -/
theorem autoTarget_step (hs : s.travelSound) (hquiet : s.quiet) : TargetStep s (s.autoTarget v aim) v aim := by
  by_cases h : (s.pos v).takes aim
  · by_cases hidle : (s.pos v).state = .idle
    · exact targetStep_idle h hidle
    · exact targetStep_underway hs hquiet h hidle
  · exact targetStep_kept h

end

end Sys2Proof.Machine
end

