-- ==== Sys2Proof/Proofs/RoundTargets.lean ====
section
/-! PROOFS. POS_MODE (R109), and the automatic targets of a round end, positioner after positioner (R72, R110). -/

namespace Sys2Proof.Machine

/-! ### The targets, one after the other -/

/-- What the targets of a round end leave of a positioner's record `r`. -/
structure Aimed (r r' : Positioner) (aim : Nat) (queued : Prop) : Prop where
  flags : r'.retarget = false ∧ r'.manual = r.manual ∧ r'.target = if r.takes aim then aim else r.target
  taken : r.takes aim → r'.port = none ∧ r'.position = r.position ∧ (r.position = some aim → r'.state = .idle) ∧
    (r.position ≠ some aim → r'.underway) ∧ (r'.state = .waiting → r'.intent ≠ some .home)
  kept : ¬r.takes aim → r'.port = r.port ∧ (¬queued → r' = { r with retarget := false })

/-- The targets of the positioners `vs` have been given. -/
structure TargetsGiven (aim : Fin 8 → Nat) (vs : List (Fin 8)) (s t : State) : Prop where
  sound : t.travelSound
  quiet : t.quiet
  queue : ∀ w ∈ t.positioners.queue, w ∈ s.positioners.queue ∨ (w ∈ vs ∧ (s.pos w).takes (aim w))
  waiting : ∀ w, w ∉ vs → t.pos w = s.pos w ∨ (w ∈ s.positioners.queue ∧ t.pos w = s.grantedRecord w)
  done : ∀ w ∈ vs, Aimed (s.pos w) (t.pos w) (aim w) (w ∈ s.positioners.queue)
  records : ∀ q, s.posts t q (vs.flatMap fun w => if (s.pos w).takes (aim w) ∧ (s.pos w).underway ∧ (s.pos w).port = some q then
    [⟨.moveSuperseded, w.val, (s.pos w).target, s.deviceSeconds⟩] else [])
  frame : PositionersOnly s t

section
variable {s t u : State} {v : Fin 8} {aim : Fin 8 → Nat} {vs : List (Fin 8)}

/-- A positioner that has been granted a slot is not in the queue. -/
theorem not_queued_of_granted (ht : t.travelSound) {w : Fin 8} (h : t.pos w = s.grantedRecord w) : w ∉ t.positioners.queue :=
  not_queued_of_moving ht (by rw [h]; exact (grantedRecord_kept s w).2.2.2.2)

theorem grantedRecord_congr {w : Fin 8} (h : PositionersOnly s t) (hpos : t.pos w = s.pos w) : t.grantedRecord w = s.grantedRecord w := by
  have hinterval : t.stepInterval w = s.stepInterval w := by
    rw [h]
    rfl
  unfold State.grantedRecord
  rw [hpos, hinterval]

/-- A slot granted to a positioner whose target has been given. -/
theorem Aimed.granted {r : Positioner} {w : Fin 8} {x : Nat} {queued : Prop} (h : Aimed r (t.pos w) x queued) (ht : t.travelSound)
    (hw : w ∈ t.positioners.queue) (hqueued : queued ∨ r.takes x) : Aimed r (t.grantedRecord w) x queued := by
  obtain ⟨hretarget, htarget, hmanual, hport, -⟩ := grantedRecord_kept t w
  obtain ⟨⟨hflag, hsame, haim⟩, htaken, hkept⟩ := h
  refine ⟨⟨hretarget.trans hflag, hmanual.trans hsame, htarget.trans haim⟩, fun htakes => ?_, fun hn => ?_⟩
  · obtain ⟨hnone, hposition, hidle, hgoing, hwaits⟩ := htaken htakes
    have hnotIdle : (t.pos w).state ≠ .idle := fun hi => by
      obtain h | ⟨h | h, -⟩ := ht.queued w hw <;> exact absurd (hi.symm.trans h) (by decide)
    have hplace : r.position ≠ some x := fun hp => hnotIdle (hidle hp)
    have hwaiting : (t.pos w).state = .waiting := by
      obtain h | h := hgoing hplace
      · obtain h' | ⟨h' | h', -⟩ := ht.queued w hw <;> exact absurd (h.symm.trans h') (by decide)
      · exact h
    have hgrant := grantedRecord_travels (hwaits hwaiting)
    have htravels : (t.grantedRecord w).state = .travel := by rw [hgrant]; rfl
    refine ⟨hport.trans hnone, ?_, fun hp => absurd hp hplace, fun _ => .inl htravels,
      fun hw' => absurd (htravels.symm.trans hw') (by decide)⟩
    rw [hgrant]
    exact hposition
  · exact ⟨hport.trans (hkept hn).1, fun hnq => absurd (hqueued.resolve_right hn) hnq⟩

/-- The record that a target finds is as the target's conditions were at the start. -/
theorem takes_waiting (hs : s.travelSound) (h : TargetsGiven aim vs s t) (hv : v ∉ vs) :
    ((t.pos v).takes (aim v) ↔ (s.pos v).takes (aim v)) ∧ (t.pos v).manual = (s.pos v).manual ∧
      (t.pos v).target = (s.pos v).target ∧ (t.pos v).port = (s.pos v).port ∧
      ((s.pos v).takes (aim v) → (t.pos v).position = (s.pos v).position ∧ ((t.pos v).underway ↔ (s.pos v).underway)) := by
  obtain hsame | ⟨hqueued, hgranted⟩ := h.waiting v hv
  · rw [hsame]
    exact ⟨Iff.rfl, rfl, rfl, rfl, fun _ => ⟨rfl, Iff.rfl⟩⟩
  · obtain ⟨-, htarget, hmanual, hport, -⟩ := grantedRecord_kept s v
    rw [hgranted]
    refine ⟨takes_grantedRecord hs hqueued _, hmanual, htarget, hport, fun htakes => ?_⟩
    have hhome : (s.pos v).intent ≠ some .home := fun hh => by
      obtain ⟨-, h | h | h⟩ := htakes.1
      · obtain h' | ⟨h' | h', -⟩ := hs.queued v hqueued <;> exact absurd (h.symm.trans h') (by decide)
      · obtain h' | ⟨h' | h', -⟩ := hs.queued v hqueued <;> exact absurd (h.symm.trans h') (by decide)
      · exact h.2 hh
    have hwaiting : (s.pos v).state = .waiting := (hs.queued v hqueued).resolve_right fun h => hhome h.2
    rw [grantedRecord_travels hhome]
    exact ⟨rfl, iff_of_true (.inl rfl) (.inr hwaiting)⟩

/-- One more target. -/
theorem TargetsGiven.next (hs : s.travelSound) (h : TargetsGiven aim vs s t) (hv : v ∉ vs) (haim : aim v ≤ 1023) :
    TargetsGiven aim (vs ++ [v]) s (t.autoTarget v (aim v)) := by
  have hstep := autoTarget_step (v := v) (aim := aim v) h.sound h.quiet
  have hsound := travelSound_autoTarget h.sound v haim
  have hframe := positionersOnly_operations.autoTarget t v (aim v) haim
  generalize t.autoTarget v (aim v) = u at hstep hsound hframe ⊢
  obtain ⟨htakes, hmanual, htarget, hport, htaking⟩ := takes_waiting hs h hv
  have hqueue : ∀ w ∈ u.positioners.queue, w ∈ s.positioners.queue ∨ (w ∈ vs ++ [v] ∧ (s.pos w).takes (aim w)) := fun w hw => by
    obtain hin | ⟨rfl, htake⟩ := hstep.queue w hw
    · exact (h.queue w hin).imp_right fun hd => ⟨List.mem_append_left _ hd.1, hd.2⟩
    · exact .inr ⟨List.mem_append_right _ (List.mem_singleton_self _), htakes.1 htake⟩
  refine ⟨hsound, fun w hw hhome => ?_, hqueue, fun w hw => ?_, fun w hw => ?_, fun q => ?_, h.frame.trans hframe⟩
  · by_cases hwv : w = v
    · subst hwv
      by_cases htake : (t.pos w).takes (aim w)
      · obtain ⟨-, -, -, hidle, hgoing, hwaits⟩ := hstep.taken htake
        have hstates : (u.pos w).state = .idle ∨ (u.pos w).underway := by
          by_cases hplace : (t.pos w).position = some (aim w)
          · exact .inl (hidle hplace)
          · exact .inr (hgoing hplace)
        obtain hwaiting | ⟨hstopped, -⟩ := hsound.queued w hw
        · exact absurd hhome (hwaits hwaiting)
        · obtain hst | hst | hst := hstates <;> simp [hst] at hstopped
      · rw [hstep.kept htake] at hhome ⊢
        exact h.quiet w ((hstep.queue w hw).resolve_right fun hc => htake hc.2) hhome
    · have hin := (hstep.queue w hw).resolve_right fun hc => hwv hc.1
      obtain hsame | ⟨-, hgranted⟩ := hstep.others w hwv
      · rw [hsame] at hhome ⊢
        exact h.quiet w hin hhome
      · exact absurd hw (not_queued_of_granted hsound hgranted)
  · rw [List.mem_append, List.mem_singleton, not_or] at hw
    obtain ⟨hout, hne⟩ := hw
    obtain hsame | ⟨hin, hgranted⟩ := hstep.others w hne
    · rw [hsame]
      exact h.waiting w hout
    · have hqueued := (h.queue w hin).resolve_right fun hc => hout hc.1
      obtain hsame | ⟨-, hearlier⟩ := h.waiting w hout
      · exact .inr ⟨hqueued, hgranted.trans (grantedRecord_congr h.frame hsame)⟩
      · exact absurd hin (not_queued_of_granted h.sound hearlier)
  · by_cases hwv : w = v
    · subst hwv
      refine ⟨⟨hstep.flags.1, hstep.flags.2.trans hmanual, ?_⟩, fun htake => ?_, fun hn => ?_⟩
      · by_cases htake : (s.pos w).takes (aim w)
        · rw [if_pos htake]
          exact (hstep.taken (htakes.2 htake)).1
        · rw [if_neg htake, hstep.kept (mt htakes.1 htake)]
          exact htarget
      · obtain ⟨-, hnone, hposition, hidle, hgoing, hwaits⟩ := hstep.taken (htakes.2 htake)
        rw [(htaking htake).1] at hposition hidle hgoing
        exact ⟨hnone, hposition, hidle, hgoing, hwaits⟩
      · have hkept := hstep.kept (mt htakes.1 hn)
        refine ⟨by rw [hkept]; exact hport, fun hnq => ?_⟩
        rw [hkept, (h.waiting w hv).resolve_right fun hc => hnq hc.1]
    · have hdone := h.done w ((List.mem_append.1 hw).resolve_right fun hc => hwv (List.mem_singleton.1 hc))
      obtain hsame | ⟨hin, hgranted⟩ := hstep.others w hwv
      · rw [hsame]
        exact hdone
      · rw [hgranted]
        exact hdone.granted h.sound hin ((h.queue w hin).imp_right And.right)
  · have hseconds : t.deviceSeconds = s.deviceSeconds := by rw [h.frame]
    have hcond : ((t.pos v).takes (aim v) ∧ (t.pos v).underway ∧ (t.pos v).port = some q) ↔
        ((s.pos v).takes (aim v) ∧ (s.pos v).underway ∧ (s.pos v).port = some q) := by
      rw [htakes, hport]
      exact and_congr_right fun htake => and_congr_left fun _ => (htaking htake).2
    have hposts := posts_trans (h.records q) (hstep.records q)
    rw [if_congr hcond rfl rfl, htarget, hseconds] at hposts
    rw [List.flatMap_append, List.flatMap_singleton]
    exact hposts

/-- All the targets of a round end. -/
theorem targetsGiven_foldl (hs : s.travelSound) (haim : ∀ w, aim w ≤ 1023) (ws : List (Fin 8)) (hws : (vs ++ ws).Nodup)
    (h : TargetsGiven aim vs s t) : TargetsGiven aim (vs ++ ws) s (ws.foldl (fun t w => t.autoTarget w (aim w)) t) := by
  induction ws generalizing vs t with
  | nil =>
    rw [List.append_nil]
    exact h
  | cons w ws ih =>
    have hw : w ∉ vs := fun hmem => (List.nodup_append.1 hws).2.2 w hmem w List.mem_cons_self rfl
    have happend : vs ++ w :: ws = (vs ++ [w]) ++ ws := by simp
    rw [happend] at hws ⊢
    exact ih hws (h.next hs hw (haim w))

theorem targetsGiven_nil (hs : s.travelSound) (hquiet : s.quiet) : TargetsGiven aim [] s s where
  sound := hs
  quiet := hquiet
  queue _ hw := .inl hw
  waiting _ _ := .inl rfl
  done _ hw := absurd hw List.not_mem_nil
  records q := posts_refl s q
  frame := .refl s

end

end Sys2Proof.Machine
end

