-- ==== Sys2Proof/Proofs/RoundEndTargets.lean ====
section
/-! PROOFS. POS_MODE, the positioners that do not exist, and the automatic targets of a round end put together (R72, R109, R110). -/

namespace Sys2Proof.Machine

/-! ### POS_MODE -/

theorem posMode_of_mode {s : State} {v : Fin 8} (manual : Bool) : handlePosMode s (payloadPosMode v.val (if manual then 1 else 0)) =
    if (s.pos v).manual = manual then okay s
    else okay (s.setPos v { s.pos v with manual := manual, retarget := if manual then (s.pos v).retarget else true }) := by
  have hv : readU8 (payloadPosMode v.val (if manual then 1 else 0)) 0 = v.val := readU8_encU8 (by omega) _
  have hmode : readU8 (payloadPosMode v.val (if manual then 1 else 0)) 1 = if manual then 1 else 0 :=
    readU8_encU8_last (bool_lt manual)
  unfold handlePosMode
  rw [hv, hmode, indexBelow_val, twoValued_bool]
  dsimp only
  cases manual <;> simp

theorem posMode_of_other {s : State} {v k : Nat} (hv : v < 256) (hk : 2 ≤ k) (hk' : k < 256) :
    handlePosMode s (payloadPosMode v k) = refuse s .badArg := by
  have hmode : readU8 (payloadPosMode v k) 1 = k := readU8_encU8_last hk'
  have hindex : readU8 (payloadPosMode v k) 0 = v := readU8_encU8 hv _
  unfold handlePosMode
  rw [hmode, hindex, twoValued_of_gt hk]
  cases indexBelow 8 v <;> rfl

/-- A request of a positioner that does not exist is refused before its block. -/
theorem refused_no_positioner {s : State} {p : Port} {k : RequestKind} {payload : List Byte} (hclear : (s.port p).clearToSend = true)
    (hk : k = .move ∨ k = .home ∨ k = .posMode) (hn : payload.length ≤ 247) (hl : k.lengthAllowed payload = true)
    (hv : 8 ≤ readU8 payload 0) : exec (k.command p payload) s = .next (s.refused p k.code .badArg) := by
  obtain ⟨hready, hmust⟩ := (clearToSend_iff _).1 hclear
  refine exec_refused k hready hn ?_
  have hdomain : (s.enterExecuting p).requestDomain k payload = none := by
    rcases hk with rfl | rfl | rfl <;> simp [State.requestDomain, indexBelow_of_le hv]
  unfold State.judgeRequest
  simp [ofCode_code, hl, hmust, hdomain]

/-! ### The targets of a round -/

/-- The state of a round before its targets are given. -/
def State.retargeting (s : State) : State := (s.allocate.fogRoundEnd (s.allocate.claim desiccant).grant).zonesEnded s.allocate.zoneResult

theorem fogRoundEnd_frame (u : State) (grant : Nat) : u.fogRoundEnd grant = { u with fog := (u.fogRoundEnd grant).fog } := rfl

theorem fogRoundEnd_ports (u : State) (grant : Nat) : (u.fogRoundEnd grant).ports = u.ports := rfl

theorem retargeting_frame (s : State) : s.retargeting = { s with
    pool := s.retargeting.pool, zones := s.retargeting.zones, fog := s.retargeting.fog, ports := s.retargeting.ports } := by
  have hzones := zones_zonesEnded (s.allocate.fogRoundEnd (s.allocate.claim desiccant).grant) s.allocate.zoneResult
  have hfog := fogRoundEnd_frame s.allocate (s.allocate.claim desiccant).grant
  have hallocated := allocate_frame s
  unfold State.retargeting
  generalize s.allocate.fogRoundEnd (s.allocate.claim desiccant).grant = w at hzones hfog ⊢
  generalize w.zonesEnded s.allocate.zoneResult = v at hzones ⊢
  generalize s.allocate = u at hfog hallocated
  rw [hzones, hfog, hallocated]

theorem aimed_retargeting (s : State) :
    s.allocate.aimed = all8.foldl (fun t v => t.autoTarget v (s.allocate.roundTarget v)) s.retargeting := aimed_eq s.allocate

theorem postedOnly_retargeting (s : State) :
    PostedOnly (fun k => k = .sourceSwitched ∨ k = .switchSuperseded) s s.retargeting := by
  unfold State.retargeting
  exact (postedOnly_allocate _ s).trans (.trans (b := s.allocate.fogRoundEnd (s.allocate.claim desiccant).grant) 
    (.of_ports (fogRoundEnd_ports _ _)) (postedOnly_zonesEnded (.inl rfl) (.inr rfl) _ _))

theorem targetsGiven_round {s : State} (hs : s.travelSound) (hquiet : s.quiet) :
    TargetsGiven s.allocate.roundTarget all8 s.retargeting s.allocate.aimed := by
  have hpositioners : s.retargeting.positioners = s.positioners := by rw [retargeting_frame s]
  have hpos : s.retargeting.pos = s.pos := pos_congr (congrArg Positioners.records hpositioners)
  have hsound : s.retargeting.travelSound := travelSound_of_same hpositioners hs
  have hquiet' : s.retargeting.quiet := by
    unfold State.quiet
    rw [hpositioners, hpos]
    exact hquiet
  rw [aimed_retargeting]
  exact targetsGiven_foldl (vs := []) hsound (roundTarget_le s.allocate) all8 nodup_all8 (targetsGiven_nil hsound hquiet')

/-- MOVE_SUPERSEDED is told by the targets alone. -/
theorem adds_moveSuperseded_round {s : State} (hs : s.travelSound) (hquiet : s.quiet) (q : Port) :
    s.adds s.allocate.handOn q .moveSuperseded ((all8.filter fun w => decide ((s.pos w).takes (s.allocate.roundTarget w) ∧
      (s.pos w).underway ∧ (s.pos w).port = some q)).map fun w => ⟨.moveSuperseded, w.val, (s.pos w).target, s.deviceSeconds⟩) := by
  have hgiven := targetsGiven_round hs hquiet
  have hbefore := postedOnly_retargeting s
  have hframe := retargeting_frame s
  have hafter : PostedOnly RecordKind.ofEvaluation s.allocate.aimed s.allocate.handOn := by
    rw [handOn_eq]
    exact (postedOnly_evaluateOnce _ _ _).trans (postedOnly_askOrdinary _ _)
  generalize s.allocate.handOn = t at hafter ⊢
  generalize s.allocate.aimed = v at hafter hgiven
  generalize s.retargeting = u at hgiven hbefore hframe
  have hpos : u.pos = s.pos := pos_congr (by rw [hframe])
  have hseconds : u.deviceSeconds = s.deviceSeconds := by rw [hframe]
  have hposts := hgiven.records q
  rw [hpos, hseconds, flatMap_if_singleton all8 _ (fun w => decide ((s.pos w).takes (s.allocate.roundTarget w) ∧
      (s.pos w).underway ∧ (s.pos w).port = some q)) (fun w => ⟨.moveSuperseded, w.val, (s.pos w).target, s.deviceSeconds⟩)
      fun w => (decide_eq_true_iff).symm] at hposts
  have hadds := adds_of_posts hposts .moveSuperseded
  rw [List.filter_eq_self.2 fun x hx => by obtain ⟨w, -, rfl⟩ := List.mem_map.1 hx; rfl] at hadds
  have hlost : (v.port q).lost = false → (u.port q).lost = false := fun h => by
    rw [State.posts] at hposts
    rw [hposts] at h
    exact (queue_of_not_lost _ _ h).1
  have hall := adds_trans (adds_trans (hbefore.adds q (kind := .moveSuperseded) (by simp)) hadds hlost)
    (hafter.adds q (kind := .moveSuperseded) (by simp [RecordKind.ofEvaluation])) (hafter.lost q)
  rwa [List.nil_append, List.append_nil] at hall

/-- What a round leaves of a positioner. -/
theorem aimed_round {s : State} (hs : s.travelSound) (hquiet : s.quiet) (v : Fin 8) :
    Aimed (s.pos v) (s.allocate.handOn.pos v) (s.allocate.roundTarget v) (v ∈ s.positioners.queue) := by
  have hdone := (targetsGiven_round hs hquiet).done v (mem_all8 v)
  have hframe := retargeting_frame s
  have hlighting := lighting_evaluateRound s.allocate.aimed s.allocate.pool.roundSpill
  rw [← handOn_eq] at hlighting
  generalize s.allocate.handOn = t at hlighting ⊢
  generalize s.allocate.aimed = u at hlighting hdone
  generalize s.retargeting = w at hdone hframe
  have hpos : t.pos = u.pos := pos_congr (by rw [hlighting])
  have hbefore : w.pos = s.pos := pos_congr (by rw [hframe])
  have hqueue : w.positioners.queue = s.positioners.queue := by rw [hframe]
  rw [hbefore, hqueue] at hdone
  rw [hpos]
  exact hdone

/-- The automatic targets as the state left shows them (R72). -/
theorem roundTarget_allocate (s : State) (v : Fin 8) :
    let t := s.allocate.handOn
    let valve := fun amount full : Nat => if full = 0 then 0 else min 1023 (amount * 1023 / full)
    s.allocate.roundTarget v = match v.val with
      | 0 => valve (if 0 < t.pool.drawn then t.pool.drawn else t.pool.charge) s.plant.tankKW
      | 1 => valve (t.claim subsoil).grant s.plant.subsoilKW
      | 2 => valve (t.claim desiccant).grant s.building.regenMax
      | 3 => valve (t.claim resurfWater).grant s.plant.resurfKW
      | 4 => valve (t.zone 0).delivered (pick s.building.zones 0).max
      | 5 => valve (t.zone 1).delivered (pick s.building.zones 1).max
      | 6 => valve (t.zone 2).delivered (pick s.building.zones 2).max
      | _ => valve (t.zone 3).delivered (pick s.building.zones 3).max := by
  have hpool := handOn_pool s.allocate
  have hclaim := claim_handOn s.allocate
  have hdelivered := delivered_handOn s.allocate
  have hframe := allocate_frame s
  dsimp only
  generalize s.allocate.handOn = t at hpool hclaim hdelivered ⊢
  generalize s.allocate = u at hpool hclaim hdelivered hframe ⊢
  have hplant : s.plant = u.plant := by rw [hframe]
  have hbuilding : s.building = u.building := by rw [hframe]
  simp only [hpool, hclaim, hdelivered, hplant, hbuilding]
  fin_cases v <;> rfl

/-- Settles O34: the targets of a round end are given one after the other, and a slot granted in between changes none of their
conditions. -/
theorem posModeSetsTheRetargetFlag : Obligations.PosModeSetsTheRetargetFlag := by
  refine ⟨fun p v s hs => ?_, fun p v k s hclear hlow hv => ?_, fun s hs hsound hquiet => ⟨s.allocationRound, rfl, ?_⟩⟩
  · have ht : ∀ k, k < 256 → s.takes p .posMode (payloadPosMode v.val k) := fun k hk =>
      takes_positioner hs (.inr (.inr rfl)) (by simp [payloadPosMode]) rfl (readU8_encU8 (by omega) _)
    refine ⟨fun manual => ?_, fun k hlow hk => (ht k hk).refused (posMode_of_other (by omega) hlow hk)⟩
    have hmode := posMode_of_mode (s := s.enterExecuting p) (v := v) manual
    rw [enterExecuting_pos] at hmode
    by_cases hsame : (s.pos v).manual = manual
    · rw [if_pos hsame] at hmode ⊢
      exact (ht _ (bool_lt manual)).served (effect := id) hmode
    · rw [if_neg hsame] at hmode ⊢
      exact (ht _ (bool_lt manual)).served (effect := fun u => u.setPos v { s.pos v with
        manual := manual, retarget := if manual then (s.pos v).retarget else true }) hmode
  · have hindex : ∀ bs, 8 ≤ readU8 (encU8 v ++ bs) 0 := fun bs => by rw [readU8_encU8 hv]; exact hlow
    refine ⟨?_, ?_, ?_⟩
    · exact refused_no_positioner (k := .posMode) hclear (.inr (.inr rfl)) (by simp [payloadPosMode]) rfl (hindex _)
    · exact refused_no_positioner (k := .move) hclear (.inl rfl) (by simp [payloadMove]) rfl (hindex _)
    · exact refused_no_positioner (k := .home) hclear (.inr (.inl rfl)) (by simp [payloadHome]) rfl (hindex [])
  · rw [allocationRound_eq hs]
    have haim := roundTarget_allocate s
    have hadds := adds_moveSuperseded_round hsound hquiet
    have haimed := aimed_round hsound hquiet
    generalize s.allocate.roundTarget = aim at haim hadds haimed
    generalize s.allocate.handOn = t at haim hadds haimed ⊢
    refine ⟨fun q => ?_, fun v => ?_⟩
    · have htold : ∀ w, decide ((s.pos w).takes (aim w) ∧ (s.pos w).underway ∧ (s.pos w).port = some q) =
          decide ((s.pos w).port = some q ∧ (t.pos w).port = none ∧ ((s.pos w).state = .travel ∨ (s.pos w).state = .waiting)) :=
        fun w => decide_eq_decide.2 ⟨fun ⟨htake, hgoing, hport⟩ => ⟨hport, ((haimed w).taken htake).1, hgoing⟩,
          fun ⟨hport, hnone, hgoing⟩ => ⟨by_contra fun hn => ?_, hgoing, hport⟩⟩
      · have hsame := hadds q
        simp only [htold] at hsame
        exact hsame
      · have hkept := ((haimed w).kept hn).1
        rw [hnone, hport] at hkept
        cases hkept
    · obtain ⟨⟨hflag, hmanual, htarget⟩, htaken, hkept⟩ := haimed v
      intro valve aim' r follows applied
      have haim' : aim v = aim' := haim v
      rw [haim'] at htarget htaken hkept
      refine ⟨hflag, htarget, hmanual, ?_⟩
      by_cases happlied : applied
      · rw [if_pos happlied]
        obtain ⟨hnone, hposition, hidle, hgoing, -⟩ := htaken happlied
        exact ⟨hnone, hposition, hidle, hgoing⟩
      · rw [if_neg happlied]
        exact (hkept happlied).2

end Sys2Proof.Machine
end
